-- ==== Sys2Proof/Word.lean ====
section
/-!
DEFINITION. Word.lean: the word and byte types and the bit and byte orders of the spec.
Rules R11 (every architectural register is 32 bits wide), R13 (bit numbering), R52 and R53 (byte and bit order).
-/
namespace Sys2Proof

/-- A 32-bit register, operand, result, command word or symbol (R11, R79). -/
abbrev Word := BitVec 32

/-- A byte of a byte space (R50). -/
abbrev Byte := BitVec 8

/-- A value written to a 32-bit register (R12: every rule stores a value below 2^32). -/
def Word.ofNat (n : Nat) : Word := BitVec.ofNat 32 n

end Sys2Proof
end

