-- ==== Sys2Proof/Syntax.lean ====
section
/-!
DEFINITION. Syntax.lean: the commands of the ARLZ core, one constructor per row of spec/opcode_table.json.
Rules R70 to R75. Operands are never in the word (R70); a constructor holds what the `mod` field carries (R72).
-/
namespace Sys2Proof

/-- The 28 commands and the illegal opcode (R74).
A width `W` is the number in `mod` (R72, form width); `r` is the number in `mod[1:0]` and `extra` the bit `mod[2]`
(R72, form policy). `illegal` keeps the word's bits [31:8], since any `mod` and any `rsv` go with `op = 0x00` (R282). -/
inductive Instr where
  | illegal (upper : BitVec 24)
  | nop
  | blkReset
  | encReset
  | encWriteEqual
  | encWritePart
  | encWritePartFt
  | encWriteFib
  | encWriteCount (W : Nat)
  | encWriteSplit (r : Nat) (extra : Bool)
  | encFinish
  | decReset
  | decReadEqual
  | decPeek
  | decNarrow
  | decReadPartFt
  | decReadFib
  | decReadCount (W : Nat)
  | decReadSplit (r : Nat) (extra : Bool)
  | ftClear
  | ftInsert
  | ftRemove
  | ftIncrease
  | ftCum
  | ftFind
  | ftTotal
  | ftWeight
  | lzEncode
  | lzDecode
  deriving DecidableEq, Repr

end Sys2Proof
end

