-- ==== Sys2Proof/WellFormed.lean ====
section
/-!
DEFINITION. WellFormed.lean: which terms of `Instr` have a command word.
Rule R72: `mod` is 8 bits wide, so a width fits 8 bits and a split mode fits 2. A width outside 1 to 32 and the mode
3 ARE well formed: they are not decode errors, the command raises COUNT_RANGE or SPLIT_POLICY when it runs (R72, R73).
-/
namespace Sys2Proof

/-- The width fits the `mod` field (R70, R72). -/
def widthFits (W : Nat) : Bool := W < 256

/-- The split mode fits `mod[1:0]` (R72). -/
def modeFits (r : Nat) : Bool := r < 4

/-- The instruction has a command word of its own. -/
def Instr.wellFormed : Instr → Bool
  | .encWriteCount W | .decReadCount W => widthFits W
  | .encWriteSplit r _ | .decReadSplit r _ => modeFits r
  | .illegal _ | .nop | .blkReset | .encReset | .encWriteEqual | .encWritePart | .encWritePartFt | .encWriteFib
  | .encFinish | .decReset | .decReadEqual | .decPeek | .decNarrow | .decReadPartFt | .decReadFib
  | .ftClear | .ftInsert | .ftRemove | .ftIncrease | .ftCum | .ftFind | .ftTotal | .ftWeight
  | .lzEncode | .lzDecode => true

end Sys2Proof
end

