-- ==== Sys2Proof/Decode.lean ====
section
/-!
DEFINITION. Decode.lean: from a command word to an instruction, and back.
Rules R70 (fields), R72 (forms of `mod`), R73 (the decode check), R74 (opcode map), R75 (illegal encodings).
Every 32-bit word is either a command or rejected by the name of the check of R73 that refuses it.
-/
namespace Sys2Proof

/-- `w[7:0]` (R70). -/
def opField (w : Word) : BitVec 8 := w.extractLsb' 0 8
/-- `w[15:8]` (R70). -/
def modField (w : Word) : BitVec 8 := w.extractLsb' 8 8
/-- `w[31:16]` (R70). -/
def rsvField (w : Word) : BitVec 16 := w.extractLsb' 16 16
/-- `w[31:8]`: what the illegal opcode leaves free (R282). -/
def upperField (w : Word) : BitVec 24 := w.extractLsb' 8 24
/-- `mod[1:0] = r` (R72). -/
def modeField (w : Word) : BitVec 2 := w.extractLsb' 8 2
/-- `mod[2] = extra` (R72). -/
def extraField (w : Word) : BitVec 1 := w.extractLsb' 10 1
/-- `mod[7:3]`, reserved in the policy form (R72). -/
def policyReserved (w : Word) : BitVec 5 := w.extractLsb' 11 5

/-- The check of R73 that refuses a word. Each of them raises BAD_OPCODE. -/
inductive DecodeError where
  /-- `w[31:16] ≠ 0` -/
  | reservedBits
  /-- `op` is not in the table of R74 -/
  | unassignedOpcode
  /-- a `none` form with `mod ≠ 0` -/
  | modNotZero
  /-- a `policy` form with `mod[7:3] ≠ 0` -/
  | policyBits
  deriving DecidableEq, Repr

/-- A `none` form: `mod` must be 0 (R72). -/
def decodeNone (w : Word) (i : Instr) : Except DecodeError Instr :=
  if modField w = 0 then .ok i else .error .modNotZero

/-- A `policy` form: `mod[7:3]` must be 0 (R72). -/
def decodePolicy (w : Word) (i : Nat → Bool → Instr) : Except DecodeError Instr :=
  if policyReserved w = 0 then .ok (i (modeField w).toNat (extraField w == 1)) else .error .policyBits

/-- The opcode map of R74, by the opcode's number. -/
def decodeOp (w : Word) : Nat → Except DecodeError Instr
  | 0x01 => decodeNone w .nop
  | 0x02 => decodeNone w .blkReset
  | 0x10 => decodeNone w .encReset
  | 0x11 => decodeNone w .encWriteEqual
  | 0x12 => decodeNone w .encWritePart
  | 0x13 => decodeNone w .encWritePartFt
  | 0x14 => decodeNone w .encWriteFib
  | 0x15 => .ok (.encWriteCount (modField w).toNat)
  | 0x16 => decodePolicy w .encWriteSplit
  | 0x17 => decodeNone w .encFinish
  | 0x20 => decodeNone w .decReset
  | 0x21 => decodeNone w .decReadEqual
  | 0x22 => decodeNone w .decPeek
  | 0x23 => decodeNone w .decNarrow
  | 0x24 => decodeNone w .decReadPartFt
  | 0x25 => decodeNone w .decReadFib
  | 0x26 => .ok (.decReadCount (modField w).toNat)
  | 0x27 => decodePolicy w .decReadSplit
  | 0x30 => decodeNone w .ftClear
  | 0x31 => decodeNone w .ftInsert
  | 0x32 => decodeNone w .ftRemove
  | 0x33 => decodeNone w .ftIncrease
  | 0x34 => decodeNone w .ftCum
  | 0x35 => decodeNone w .ftFind
  | 0x36 => decodeNone w .ftTotal
  | 0x37 => decodeNone w .ftWeight
  | 0x40 => decodeNone w .lzEncode
  | 0x41 => decodeNone w .lzDecode
  | _ => .error .unassignedOpcode

/-- The decode of a command word (R73). The row of the illegal opcode takes every word with `op = 0x00`, whatever its
other bits (R282); such a word raises BAD_OPCODE exactly as the reserved-bits check would. -/
def decode (w : Word) : Except DecodeError Instr :=
  if opField w = 0 then .ok (.illegal (upperField w))
  else if rsvField w ≠ 0 then .error .reservedBits
  else decodeOp w (opField w).toNat

/-- The opcode of an instruction (R74). -/
def Instr.opcode : Instr → BitVec 8
  | .illegal _ => 0x00
  | .nop => 0x01
  | .blkReset => 0x02
  | .encReset => 0x10
  | .encWriteEqual => 0x11
  | .encWritePart => 0x12
  | .encWritePartFt => 0x13
  | .encWriteFib => 0x14
  | .encWriteCount _ => 0x15
  | .encWriteSplit _ _ => 0x16
  | .encFinish => 0x17
  | .decReset => 0x20
  | .decReadEqual => 0x21
  | .decPeek => 0x22
  | .decNarrow => 0x23
  | .decReadPartFt => 0x24
  | .decReadFib => 0x25
  | .decReadCount _ => 0x26
  | .decReadSplit _ _ => 0x27
  | .ftClear => 0x30
  | .ftInsert => 0x31
  | .ftRemove => 0x32
  | .ftIncrease => 0x33
  | .ftCum => 0x34
  | .ftFind => 0x35
  | .ftTotal => 0x36
  | .ftWeight => 0x37
  | .lzEncode => 0x40
  | .lzDecode => 0x41

/-- The policy form's `mod`: `r | extra << 2` (R74). -/
def policyMod (r : Nat) (extra : Bool) : BitVec 24 :=
  (0 : BitVec 21) ++ ((if extra then 1 else 0 : BitVec 1) ++ BitVec.ofNat 2 r)

/-- Bits [31:8] of an instruction's word: `rsv` over `mod` (R70, R72). -/
def Instr.upperBits : Instr → BitVec 24
  | .illegal upper => upper
  | .encWriteCount W | .decReadCount W => (0 : BitVec 16) ++ BitVec.ofNat 8 W
  | .encWriteSplit r extra | .decReadSplit r extra => policyMod r extra
  | .nop | .blkReset | .encReset | .encWriteEqual | .encWritePart | .encWritePartFt | .encWriteFib
  | .encFinish | .decReset | .decReadEqual | .decPeek | .decNarrow | .decReadPartFt | .decReadFib
  | .ftClear | .ftInsert | .ftRemove | .ftIncrease | .ftCum | .ftFind | .ftTotal | .ftWeight
  | .lzEncode | .lzDecode => 0

/-- The command word of an instruction (R70, R74). -/
def encode (i : Instr) : Word := i.upperBits ++ i.opcode

/-- What the decoder reads from an instruction of `nbits` bits (the bits above them are 0): a command is one 32-bit
write (R70), so its bits are the word's bits. -/
def decodeTableWord (nbits w : Nat) : Option Instr :=
  if w % 2 ^ nbits < 2 ^ 32 then (decode (BitVec.ofNat 32 (w % 2 ^ nbits))).toOption else none

end Sys2Proof
end

