-- ==== Sys2Proof/Machine/Types.lean ====
section
/-!
DEFINITION. Machine/Types.lean: the data types the rules use (R15 to R18).
-/
namespace Sys2Proof.Machine

/-- An Interval `(lower, length, base)` of naturals: the sub-range `[lower, lower + length)` of `base` equal parts
(R15). -/
structure Interval where
  lower : Nat
  length : Nat
  base : Nat
  deriving DecidableEq, Repr, Inhabited

/-- The split mode `r` of a policy, one of 0, 1 and 2 (R16). -/
inductive SplitMode where
  /-- `r = 0`: one value over the whole domain -/
  | whole
  /-- `r = 1`: the escape marks the long branch -/
  | escapeLong
  /-- `r = 2`: the escape marks the short branch -/
  | escapeShort
  deriving DecidableEq, Repr, Inhabited

/-- A MethodDataUnit `(r, max, t)` (R16). -/
structure Policy where
  mode : SplitMode
  max : Nat
  threshold : Nat
  deriving DecidableEq, Repr, Inhabited

/-- A match candidate, and a token once accepted: `(i, L, d, sl, spiral)` (R18). `dist` is read only when `spiral` is
false. -/
structure Candidate where
  start : Nat
  chunk : Nat
  dist : Nat
  spiralLen : Nat
  spiral : Bool
  deriving DecidableEq, Repr, Inhabited

/-- The covered length `C = L·(sl+1)` (R18). -/
def Candidate.covered (c : Candidate) : Nat := c.chunk * (c.spiralLen + 1)

/-- What one LZ stream is written from: the LZData policies and flag (R17) and the tokens (R231). -/
structure LzPlan where
  dist : Policy
  len : Policy
  spiral : Policy
  useSpiral : Bool
  tokens : List Candidate
  deriving DecidableEq, Repr, Inhabited

end Sys2Proof.Machine
end

