-- ==== Sys2Proof/Config.lean ====
section
/-!
DEFINITION. Config.lean: the constants, the implementation parameters and the free values.
Constants: R8 (fixed) and R9 (the source's literals, each one named constant). Parameters: R10. Free values: R305
(state after an execution-time fault) and R234 (the token set under ANY_VALID).
-/
namespace Sys2Proof.Config

/-! ### The fixed constants of the range coder (R8) -/

/-- `TOP` -/
def top : Nat := 0xFFFFFFFF
/-- `HALF` -/
def half : Nat := 0x80000000
/-- `Q1`, the source's firstQtr -/
def q1 : Nat := 0x40000000
/-- `Q3`, the source's thirdQtr -/
def q3 : Nat := 0xC0000000
/-- `MAX_BASE` -/
def maxBase : Nat := 0x40000000
/-- `EQ_DIRECT_MAX` -/
def eqDirectMax : Nat := 0x10000
/-- `FIB_MAX_BITS` -/
def fibMaxBits : Nat := 47

/-! ### The stream constants (R9) -/

/-- `SENT_C` -/
def sentC : Nat := 1234567890
/-- `SENT_COUNT` -/
def sentCount : Nat := 4294967295
/-- `HDR_MAX_W` -/
def hdrMaxW : Nat := 16
/-- `RAW_K` -/
def rawK : Nat := 21
/-- `MAX_MATCH`, derived from `HDR_MAX_W` (decision D17: `2^HDR_MAX_W + 1`). -/
def maxMatch : Nat := 2 ^ hdrMaxW + 1

/-! ### The identity register (R34) -/

/-- `ID`: "ARL" in ASCII over the interface version 1. -/
def ident : Word := 0x41524C01

/-- `LZ_SELECT` (R10): the reference selection, or any valid token set. -/
inductive LzSelect where
  | reference
  | anyValid
  deriving DecidableEq, Repr

/-- The implementation parameters (R10) and the window's base (R51). They are configuration, not state (R20): the
record stands in State so that a statement about every state is a statement about every choice of parameters, and no
step changes it. -/
structure Params where
  /-- `ENC_CAP`, bytes -/
  encCap : Nat
  /-- `IN_CAP`, bytes -/
  inCap : Nat
  /-- `SYM_CAP`, words -/
  symCap : Nat
  /-- `FT_CAP`, entries -/
  ftCap : Nat
  /-- `DICT_SIZE` -/
  dictSize : Nat
  /-- `PREFIX_LEN` -/
  prefixLen : Nat
  /-- `SPIRAL_ENABLE` -/
  spiralEnable : Bool
  /-- `PARTS` -/
  parts : Nat
  /-- `LZ_SELECT` -/
  lzSelect : LzSelect
  /-- `BLK_BASE` -/
  blkBase : Nat
  deriving DecidableEq, Repr

/-- The legal ranges of R10. -/
def Params.legal (p : Params) : Bool :=
  8 ≤ p.encCap && p.encCap ≤ 65536 && 4 ≤ p.inCap && p.inCap ≤ 131072 && 1 ≤ p.symCap && p.symCap ≤ 65536 &&
  1 ≤ p.ftCap && 4 ≤ p.dictSize && p.dictSize ≤ 65536 && (p.prefixLen == 2 || p.prefixLen == 3) && 1 ≤ p.parts

/-- The defaults of R10, which the spec's test vectors use. `blkBase` has no default in the spec:
DESIGN CHOICE 0, unsafe, log entry 5. -/
def Params.default : Params where
  encCap := 65536
  inCap := 65536
  symCap := 65536
  ftCap := 65536
  dictSize := 65536
  prefixLen := 2
  spiralEnable := true
  parts := 1
  lzSelect := .reference
  blkBase := 0

/-! ### Free values
No body: nothing in Lean can evaluate them or prove a value of one. The argument is State's counter of free values. -/

/-- An unspecified 32-bit register after an execution-time fault (R305). -/
opaque freeWord : Nat → Word
/-- An unspecified `DEC_POS`, an unbounded natural (R30), after an execution-time fault (R305). -/
opaque freeNat : Nat → Nat
/-- The unspecified emitted bits after an execution-time fault of the encoder, before the bound of R27 (R65, R305). -/
opaque freeBits : Nat → List Bool
/-- The unspecified contents of `SYM_OUT` after an execution-time fault of LZ_DECODE, as bytes at their offsets (R65,
R305). -/
opaque freeCells : Nat → List Host.Cell
/-- The plan an ANY_VALID encoder proposes: tokens, policies and the flag `useSpiral` (R234, log entries 8 and 21). -/
opaque freePlan : Nat → Machine.LzPlan

end Sys2Proof.Config
end

