-- ==== Sys2Proof/Machine/State.lean ====
section
/-!
DEFINITION. Machine/State.lean: every piece of state the spec gives the block (R20, R331), the host's pending accesses,
and the state after reset. Plain data throughout.
-/
namespace Sys2Proof.Machine

/-- The fault codes of R301, `STATUS.FAULT`. Codes 21 to 255 are reserved and have no constructor. -/
inductive FaultCode where
  | noFault
  | badOpcode
  | eqRange
  | badInterval
  | fibZero
  | countRange
  | splitPolicy
  | splitDomain
  | ftKey
  | ftWeight
  | ftFull
  | isSealed
  | pendingOvf
  | capacity
  | narrowMismatch
  | lzModel
  | lzSymbol
  | corruptFib
  | corruptHeader
  | corruptRef
  | corruptOverrun
  deriving DecidableEq, Repr

/-- The range encoder: `l`, `h`, `pending`, the emitted bit sequence in emission order (its length is `ENC_NBITS`, its
bytes the view `ENC_OUT`, R52) and `STATUS.ENC_SEALED` (R25 to R28, R100). -/
structure Encoder where
  low : Word
  high : Word
  pending : Word
  bits : List Bool
  isSealed : Bool
  deriving DecidableEq, Repr

/-- The range decoder: `l`, `h`, `value`, the unbounded `pos` and `DEC_INLEN` (R29 to R31). -/
structure Decoder where
  low : Word
  high : Word
  value : Word
  pos : Nat
  inLen : Word
  deriving DecidableEq, Repr

/-- The frequency table: its keys in strictly rising unsigned order, each with its weight (R32, R180). -/
abbrev FreqTable := List (Word × Word)

/-- The stored bytes of the window, by window offset, in one canonical form: offsets strictly rising and no byte 0,
which is what an unlisted offset reads as (R64). `DEC_IN`, `SYM_IN` and `SYM_OUT` lie at their offsets of R51. -/
abbrev Memory := List Host.Cell

/-- One host access to the bus: an address, a width in bits, and the data of a write (R55, R56). -/
inductive HostAccess where
  | read (addr : Nat) (bits : Nat)
  | write (addr : Nat) (bits : Nat) (value : Word)
  deriving DecidableEq, Repr

/-- The state of the block (R20) and, in the last five fields, what is the model's own: the host's command index (R39),
the host accesses not yet made, the data the last host read returned, the parameters (R10) and the counter of free
values already drawn. -/
structure State where
  /-- `ARG0` -/
  arg0 : Word
  /-- `ARG1` -/
  arg1 : Word
  /-- `ARG2` -/
  arg2 : Word
  /-- `RES` -/
  res : Word
  /-- `STATUS.FAULT` -/
  fault : FaultCode
  /-- `FAULT_INFO` -/
  faultInfo : Word
  /-- `FAULT_AUX` -/
  faultAux : Word
  /-- the range encoder, with `STATUS.ENC_SEALED` -/
  enc : Encoder
  /-- the range decoder -/
  dec : Decoder
  /-- the frequency table `FT` -/
  ft : FreqTable
  /-- `LZ_N` -/
  lzN : Word
  /-- `DEC_IN`, `SYM_IN`, `SYM_OUT` -/
  mem : Memory
  /-- the host's command index -/
  pc : Nat
  /-- the host accesses still to be made, the next one first -/
  hostQueue : List HostAccess
  /-- the data of the last host read, `none` before the first -/
  hostData : Option Word
  /-- the implementation parameters -/
  cfg : Config.Params
  /-- how many free values have been drawn -/
  freeCount : Nat
  deriving DecidableEq, Repr

/-- Why a step stops with a fault. The block's own faults are state, not stops (R300, R302). -/
inductive Fault where
  /-- A host access at a bus address outside the block's 1 MiB window (R51). Raised by `hostStep` only.
  Safe: the model stops where the rest of the platform, which the spec does not describe, would answer. -/
  | outsideWindow (addr : Nat)
  deriving DecidableEq, Repr

/-- Why the model gives no meaning. -/
inductive Refusal where
  /-- An arm of `exec` without a meaning. Raised by no arm: every command has its meaning. Safe. -/
  | notModelled (mnemonic : String)
  deriving DecidableEq, Repr

/-- What one command or access ends in. -/
abbrev Result := Host.Outcome State Fault Refusal

/-- The encoder after reset and after ENC_RESET (R120, R331). -/
def Encoder.reset : Encoder where
  low := 0
  high := 0xFFFFFFFF
  pending := 0
  bits := []
  isSealed := false

/-- The decoder after reset: the state DEC_RESET leaves for an empty input (R331). -/
def Decoder.reset : Decoder where
  low := 0
  high := 0xFFFFFFFF
  value := 0
  pos := 32
  inLen := 0

/-- The block after power-on, for any parameters (R330, R331). -/
def State.powerOn (cfg : Config.Params) : State where
  arg0 := 0
  arg1 := 0
  arg2 := 0
  res := 0
  fault := .noFault
  faultInfo := 0
  faultAux := 0
  enc := Encoder.reset
  dec := Decoder.reset
  ft := []
  lzN := 0
  mem := []
  pc := 0
  hostQueue := []
  hostData := none
  cfg := cfg
  freeCount := 0

/-- The machine right after reset (R331), with the default parameters of R10. -/
def State.reset : State := State.powerOn Config.Params.default

end Sys2Proof.Machine
end

