-- ==== Sys2Proof/Machine/Ops.lean ====
section
/-!
DEFINITION. Machine/Ops.lean: memory, registers and the window; taking a fault and the reset that clears it.
Rules R50 to R53, R55, R64 (memory), R21, R22, R35 (registers), R300 to R306 (faults), R281 (BLK_RESET).
-/
namespace Sys2Proof.Machine

/-! ### Stored bytes -/

/-- The canonical form: offsets strictly rising, no stored byte 0. -/
abbrev Memory.wf (m : Memory) : Prop := m.Pairwise (fun c c' => c.1 < c'.1) ∧ ∀ c ∈ m, c.2 ≠ 0

/-- The byte at an offset. An unlisted offset reads 0 (R64). -/
def Memory.readByte : Memory → Nat → Byte
  | [], _ => 0
  | (a, b) :: rest, x => if x = a then b else Memory.readByte rest x

/-- Insert a nonzero byte at its place, over what is there. -/
def Memory.insertByte : Memory → Nat → Byte → Memory
  | [], x, v => [(x, v)]
  | (a, b) :: rest, x, v =>
    if x < a then (x, v) :: (a, b) :: rest
    else if x = a then (x, v) :: rest
    else (a, b) :: Memory.insertByte rest x v

/-- Remove an offset: it then reads 0. -/
def Memory.erase (m : Memory) (x : Nat) : Memory := m.filter (fun c => c.1 ≠ x)

/-- Write one byte; writing 0 removes the entry, so the form stays canonical. -/
def Memory.writeByte (m : Memory) (x : Nat) (v : Byte) : Memory :=
  if v = 0 then m.erase x else m.insertByte x v

/-- Byte `k` of a word, byte 0 in bits [7:0] (R53). -/
def wordByte (v : Word) (k : Nat) : Byte := v.extractLsb' (8 * k) 8

/-- A word from its four bytes, little-endian (R53). -/
def wordOfBytes (b0 b1 b2 b3 : Byte) : Word := b3 ++ (b2 ++ (b1 ++ b0))

/-- The 32-bit word at an offset, little-endian (R53). -/
def Memory.readWord (m : Memory) (x : Nat) : Word :=
  wordOfBytes (m.readByte x) (m.readByte (x + 1)) (m.readByte (x + 2)) (m.readByte (x + 3))

/-- Write a 32-bit word at an offset, little-endian (R53). -/
def Memory.writeWord (m : Memory) (x : Nat) (v : Word) : Memory :=
  (((m.writeByte x (wordByte v 0)).writeByte (x + 1) (wordByte v 1)).writeByte (x + 2) (wordByte v 2)).writeByte
    (x + 3) (wordByte v 3)

/-- The region of `len` bytes at `base` takes the contents `cells` names, and 0 where it names none; cells outside the
region are discarded. -/
def Memory.refill (m : Memory) (base len : Nat) (cells : List Host.Cell) : Memory :=
  (cells.filter (fun c => base ≤ c.1 ∧ c.1 < base + len)).foldl (fun acc c => acc.writeByte c.1 c.2)
    (m.filter (fun c => ¬(base ≤ c.1 ∧ c.1 < base + len)))

/-! ### The window (R51) -/

/-- The size of the window: 1 MiB. -/
def windowSize : Nat := 0x100000
/-- The offset of `ENC_OUT`. -/
def encOutBase : Nat := 0x10000
/-- The offset of `DEC_IN`. -/
def decInBase : Nat := 0x20000
/-- The offset of `SYM_IN`. -/
def symInBase : Nat := 0x40000
/-- The offset of `SYM_OUT`. -/
def symOutBase : Nat := 0x80000
/-- The offset of the reserved range. -/
def reservedBase : Nat := 0xC0000

/-- The offset of a bus address within the window, if it lies there (R51). -/
def windowOffset (cfg : Config.Params) (addr : Nat) : Option Nat :=
  if cfg.blkBase ≤ addr ∧ addr < cfg.blkBase + windowSize then some (addr - cfg.blkBase) else none

/-- Symbol `m` of `SYM_IN` (R50, R51). -/
def State.symInWord (s : State) (m : Nat) : Word :=
  if m < s.cfg.symCap then s.mem.readWord (symInBase + 4 * m) else 0

/-- Symbol `m` of `SYM_OUT` (R50, R51). -/
def State.symOutWord (s : State) (m : Nat) : Word :=
  if m < s.cfg.symCap then s.mem.readWord (symOutBase + 4 * m) else 0

/-- Emitted bit `k`, and 0 from `ENC_NBITS` on: `bitAt` (R52). -/
def Encoder.bitAt (e : Encoder) (k : Nat) : Nat := (e.bits.getD k false).toNat

/-- Byte `j` of the view `ENC_OUT`: its first bit is its most significant (R52). -/
def Encoder.outByte (e : Encoder) (j : Nat) : Byte :=
  BitVec.ofNat 8 (((List.range 8).map (fun b => e.bitAt (8 * j + b) * 2 ^ (7 - b))).sum)

/-- Byte `j` of `ENC_OUT` as the host sees it; an index at or beyond the capacity reads 0 (R51, R52). -/
def State.encOutByte (s : State) (j : Nat) : Byte := if j < s.cfg.encCap then s.enc.outByte j else 0

/-- A host write of byte `j` of `DEC_IN`; an index at or beyond the capacity is ignored (R51). -/
def State.setDecInByte (j : Nat) (b : Byte) (s : State) : State :=
  if j < s.cfg.inCap then { s with mem := s.mem.writeByte (decInBase + j) b } else s

/-- A host write of symbol `m` of `SYM_IN`; an index at or beyond the capacity is ignored (R51). -/
def State.setSymInWord (m : Nat) (v : Word) (s : State) : State :=
  if m < s.cfg.symCap then { s with mem := s.mem.writeWord (symInBase + 4 * m) v } else s

/-- Write symbols to `SYM_OUT` from index `m` on (R57). -/
def Memory.writeSymOut (mem : Memory) : Nat → List Word → Memory
  | _, [] => mem
  | m, v :: rest => Memory.writeSymOut (mem.writeWord (symOutBase + 4 * m) v) (m + 1) rest

/-! ### Results -/

/-- Write `RES` (R22). -/
def State.setRes (v : Word) (s : State) : State := { s with res := v }

/-! ### Taking a fault (R300 to R305) -/

/-- What kind of fault a condition is, and whose state is unspecified after it: the classes of R305. -/
inductive FaultKind where
  /-- nothing but the fault record changes (R303) -/
  | precise
  /-- an encoder command or LZ_ENCODE -/
  | encoderRun
  /-- DEC_READ_FIB -/
  | fibRun
  /-- LZ_DECODE -/
  | lzDecodeRun
  deriving DecidableEq, Repr

/-- `raise Fault(CODE, aux)`, with its kind (R14, R303). -/
structure Raise where
  code : FaultCode
  aux : Word
  kind : FaultKind
  deriving DecidableEq, Repr

/-- What a subroutine answers: a value, or the fault that ends the command (R14). -/
abbrev Coded (α : Type) := Except Raise α

/-- A precise fault (R303). -/
def Raise.precise (code : FaultCode) (aux : Word) : Raise := ⟨code, aux, .precise⟩

/-- The encoder state an execution-time fault leaves: free values, the bit count within R27's bound, `ENC_SEALED` kept
(R305). -/
def State.disturbEncoder (s : State) : State :=
  { s with
    enc :=
      { low := Config.freeWord s.freeCount
        high := Config.freeWord (s.freeCount + 1)
        pending := Config.freeWord (s.freeCount + 2)
        bits := (Config.freeBits (s.freeCount + 3)).take (8 * s.cfg.encCap)
        isSealed := s.enc.isSealed }
    freeCount := s.freeCount + 4 }

/-- The decoder state an execution-time fault leaves: free values, `DEC_INLEN` kept (R305). -/
def State.disturbDecoder (s : State) : State :=
  { s with
    dec :=
      { low := Config.freeWord s.freeCount
        high := Config.freeWord (s.freeCount + 1)
        value := Config.freeWord (s.freeCount + 2)
        pos := Config.freeNat (s.freeCount + 3)
        inLen := s.dec.inLen }
    freeCount := s.freeCount + 4 }

/-- The `SYM_OUT` contents an execution-time fault of LZ_DECODE leaves: free values (R65, R305). -/
def State.disturbSymOut (s : State) : State :=
  { s with
    mem := s.mem.refill symOutBase (4 * s.cfg.symCap) (Config.freeCells s.freeCount)
    freeCount := s.freeCount + 1 }

/-- The state a fault of a kind leaves, before the record (R303, R305). -/
def State.disturb (k : FaultKind) (s : State) : State :=
  match k with
  | .precise => s
  | .encoderRun => s.disturbEncoder
  | .fibRun => s.disturbDecoder
  | .lzDecodeRun => s.disturbDecoder.disturbSymOut

/-- The record of a fault raised by command word `w`, and nothing else (R302). -/
def State.recordFault (w : Word) (r : Raise) (s : State) : State :=
  { s with fault := r.code, faultInfo := w, faultAux := r.aux }

/-- TAKING A FAULT, the block's one exception: the state being changed becomes unspecified if the fault is an
execution-time one, and the fault is recorded (R302, R303, R305). There is no handler, vector or mode (R308): the next
host access follows. -/
def State.takeFault (w : Word) (r : Raise) (s : State) : State := (s.disturb r.kind).recordFault w r

/-- THE RETURN FROM A FAULT is the reset that clears it (R309): every register and unit at its reset value; `DEC_IN`,
`SYM_IN` and `SYM_OUT` unchanged (R281). The host's command index is not reset: R39, log entry 3. -/
def State.blockReset (s : State) : State :=
  { s with
    arg0 := 0
    arg1 := 0
    arg2 := 0
    res := 0
    fault := .noFault
    faultInfo := 0
    faultAux := 0
    enc := Encoder.reset
    dec := Decoder.reset
    ft := []
    lzN := 0 }

/-- A command that answers a next state or takes a fault raised by its word. -/
def State.finish (w : Word) (s : State) (r : Coded State) : Result :=
  match r with
  | .ok t => .next t
  | .error f => .next (s.takeFault w f)

end Sys2Proof.Machine
end

