-- ==== Sys2Proof/Machine/BlockControl.lean ====
section
/-!
DEFINITION. Machine/BlockControl.lean: the illegal opcode, NOP and BLK_RESET (R280 to R282).
-/
namespace Sys2Proof.Machine

/-- BAD_OPCODE, precise, aux 0 (R73, R301). -/
def badOpcode : Raise := .precise .badOpcode 0

/-- The illegal opcode (R282): it raises BAD_OPCODE, so the fault record holds its word. -/
def execIllegal (upper : BitVec 24) (s : State) : Result := .next (s.takeFault (encode (.illegal upper)) badOpcode)

/-- NOP (R280). -/
def execNop (s : State) : Result := .next s

/-- BLK_RESET (R281). -/
def execBlkReset (s : State) : Result := .next s.blockReset

end Sys2Proof.Machine
end

