-- ==== Sys2Proof/Machine/FreqQueries.lean ====
section
/-!
DEFINITION. Machine/FreqQueries.lean: the queries on the frequency table (R180 to R183) and its updates.
-/
namespace Sys2Proof.Machine

/-- `FT_TOTAL`: the sum of the weights (R32). -/
def FreqTable.total (t : FreqTable) : Nat := (t.map (fun c => c.2.toNat)).sum

/-- The weight of a key, if the table holds it (R180). -/
def FreqTable.weight? : FreqTable → Word → Option Word
  | [], _ => none
  | (k, w) :: rest, key => if key = k then some w else FreqTable.weight? rest key

/-- `key in FT`. -/
def FreqTable.has (t : FreqTable) (key : Word) : Bool := (t.weight? key).isSome

/-- `FTCum(key)`: the sum of the weights of the smaller keys (R182). -/
def FreqTable.cum (t : FreqTable) (key : Word) : Nat :=
  ((t.filter (fun c => c.1.toNat < key.toNat)).map (fun c => c.2.toNat)).sum

/-- `FTFind(pos)`: the key that owns a cumulative position; none at or past the total (R183, R190). -/
def FreqTable.find? : FreqTable → Nat → Option Word
  | [], _ => none
  | (k, w) :: rest, pos => if pos < w.toNat then some k else FreqTable.find? rest (pos - w.toNat)

/-- `FTInterval(key)` for a key of the table and its weight (R181). -/
def FreqTable.interval (t : FreqTable) (key weight : Word) : Interval := ⟨t.cum key, weight.toNat, t.total⟩

/-- `FTInterval(key)`, or FT_KEY with the key if the table does not hold it (R123, R181). -/
def FreqTable.requireInterval (t : FreqTable) (key : Word) : Coded Interval :=
  match t.weight? key with
  | some w => .ok (t.interval key w)
  | none => .error (.precise .ftKey key)

/-- `FT[key] <- weight`, at the key's place in the order (R186, R188). -/
def FreqTable.set : FreqTable → Word → Word → FreqTable
  | [], key, weight => [(key, weight)]
  | (k, w) :: rest, key, weight =>
    if key.toNat < k.toNat then (key, weight) :: (k, w) :: rest
    else if key = k then (key, weight) :: rest
    else (k, w) :: FreqTable.set rest key weight

/-- `delete FT[key]` (R187). -/
def FreqTable.delete (t : FreqTable) (key : Word) : FreqTable := t.filter (fun c => c.1 ≠ key)

end Sys2Proof.Machine
end

