-- ==== Sys2Proof/Machine/Operands.lean ====
section
/-!
DEFINITION. Machine/Operands.lean: where a command's operands come from and where its result goes.
Rules R71, R74, R79 (operands in `ARG0` to `ARG2`, unsigned, unscaled), R22 (the commands that write `RES`).
-/
namespace Sys2Proof.Machine

/-- An operand register (R71). -/
inductive ArgReg where
  | arg0
  | arg1
  | arg2
  deriving DecidableEq, Repr

/-- The value of an operand register. -/
def State.arg (s : State) : ArgReg → Word
  | .arg0 => s.arg0
  | .arg1 => s.arg1
  | .arg2 => s.arg2

/-- A host write to an operand register (R21). -/
def State.setArg (r : ArgReg) (v : Word) (s : State) : State :=
  match r with
  | .arg0 => { s with arg0 := v }
  | .arg1 => { s with arg1 := v }
  | .arg2 => { s with arg2 := v }

/-- An operand as the unbounded natural a subroutine takes (R12, R79). -/
def State.argNat (s : State) (r : ArgReg) : Nat := (s.arg r).toNat

/-- The window offset of an operand register (R21). -/
def ArgReg.offset : ArgReg → Nat
  | .arg0 => 0x04
  | .arg1 => 0x08
  | .arg2 => 0x0C

/-- The operand registers a command reads, in the order of an assembler statement (R74, R77). -/
def argRegs : Instr → List ArgReg
  | .encWriteEqual | .ftInsert => [.arg0, .arg1]
  | .encWritePart | .encWriteSplit _ _ | .decNarrow => [.arg0, .arg1, .arg2]
  | .decReadSplit _ _ => [.arg1, .arg2]
  | .encWritePartFt | .encWriteFib | .encWriteCount _ | .decReset | .decReadEqual | .decPeek
  | .ftRemove | .ftIncrease | .ftCum | .ftFind | .ftWeight | .lzEncode => [.arg0]
  | .illegal _ | .nop | .blkReset | .encReset | .encFinish | .decReadPartFt | .decReadFib | .decReadCount _
  | .ftClear | .ftTotal | .lzDecode => []

/-- The commands that produce a result in `RES` (R22). -/
def writesRes : Instr → Bool
  | .encFinish | .decReadEqual | .decPeek | .decReadPartFt | .decReadFib | .decReadCount _ | .decReadSplit _ _
  | .ftCum | .ftFind | .ftTotal | .ftWeight | .lzEncode | .lzDecode => true
  | .illegal _ | .nop | .blkReset | .encReset | .encWriteEqual | .encWritePart | .encWritePartFt | .encWriteFib
  | .encWriteCount _ | .encWriteSplit _ _ | .decReset | .decNarrow | .ftClear | .ftInsert | .ftRemove
  | .ftIncrease => false

/-- The Interval operand `(lower, length, base)` in `ARG0`, `ARG1`, `ARG2` (R79). -/
def State.argInterval (s : State) : Interval := ⟨s.argNat .arg0, s.argNat .arg1, s.argNat .arg2⟩

end Sys2Proof.Machine
end

