-- ==== Sys2Proof/Machine/FreqTable.lean ====
section
/-!
DEFINITION. Machine/FreqTable.lean: the commands FT_CLEAR, FT_INSERT, FT_REMOVE, FT_INCREASE, FT_CUM, FT_FIND, FT_TOTAL
and FT_WEIGHT (R185 to R192). None reads or writes coder state; every fault is precise.
-/
namespace Sys2Proof.Machine

/-- `if key not in FT: raise Fault(FT_KEY, key)`, and the key's weight. -/
def FreqTable.requireWeight (t : FreqTable) (key : Word) : Coded Word :=
  match t.weight? key with
  | some w => .ok w
  | none => .error (.precise .ftKey key)

/-- FT_CLEAR (R185). -/
def execFtClear (s : State) : Result := .next { s with ft := [] }

/-- The four checks of FT_INSERT in their order, then the new key (R186). -/
def FreqTable.insertKey (cap : Nat) (t : FreqTable) (key weight : Word) : Coded FreqTable :=
  if t.has key then .error (.precise .ftKey key)
  else if weight = 0 then .error (.precise .ftWeight 0)
  else if t.length = cap then .error (.precise .ftFull 0)
  else if t.total + weight.toNat > Config.top then .error (.precise .ftWeight 0)
  else .ok (t.set key weight)

/-- FT_INSERT (R186): key `ARG0` with weight `ARG1`. -/
def execFtInsert (s : State) : Result :=
  s.finish (encode .ftInsert) do
    .ok { s with ft := ← s.ft.insertKey s.cfg.ftCap s.arg0 s.arg1 }

/-- FT_REMOVE (R187): delete the key `ARG0`. -/
def execFtRemove (s : State) : Result :=
  s.finish (encode .ftRemove) do
    let _ ← s.ft.requireWeight s.arg0
    .ok { s with ft := s.ft.delete s.arg0 }

/-- FT_INCREASE (R188): add 1 to the weight of the key `ARG0`. -/
def execFtIncrease (s : State) : Result :=
  s.finish (encode .ftIncrease) do
    let w ← s.ft.requireWeight s.arg0
    if s.ft.total = Config.top then .error (.precise .ftWeight 0)
    else .ok { s with ft := s.ft.set s.arg0 (w + 1) }

/-- FT_CUM (R189): the cumulative weight left of the key `ARG0`. -/
def execFtCum (s : State) : Result :=
  s.finish (encode .ftCum) do
    let _ ← s.ft.requireWeight s.arg0
    .ok (s.setRes (Word.ofNat (s.ft.cum s.arg0)))

/-- FT_FIND (R190): the key that owns the position `ARG0`; FT_KEY with the position where none does. -/
def execFtFind (s : State) : Result :=
  s.finish (encode .ftFind)
    (match s.ft.find? (s.argNat .arg0) with
     | some key => .ok (s.setRes key)
     | none => .error (.precise .ftKey s.arg0))

/-- FT_TOTAL (R191): the total weight. -/
def execFtTotal (s : State) : Result := .next (s.setRes (Word.ofNat s.ft.total))

/-- FT_WEIGHT (R192): the weight of the key `ARG0`. -/
def execFtWeight (s : State) : Result :=
  s.finish (encode .ftWeight) do
    .ok (s.setRes (← s.ft.requireWeight s.arg0))

end Sys2Proof.Machine
end

