-- ==== Sys2Proof/Machine/Fibonacci.lean ====
section
/-!
DEFINITION. Machine/Fibonacci.lean: the Fibonacci numbers and the Zeckendorf code of R106.
The digit order and the weights are the spec's own choice (decision D15).
-/
namespace Sys2Proof.Machine

/-- `(F(k), F(k+1))`, with `F(0) = 0`. -/
def fibPair : Nat → Nat × Nat
  | 0 => (0, 1)
  | k + 1 =>
    match fibPair k with
    | (a, b) => (b, a + b)

/-- `F(k)`: `F(1) = F(2) = 1`, `F(k+1) = F(k) + F(k-1)` (R106). -/
def fib (k : Nat) : Nat := (fibPair k).1

/-- `m`, the largest `k ≥ 2` with `F(k) ≤ n`, searched downwards; the longest code of a 32-bit value has
`m = FIB_MAX_BITS` (R106). -/
def fibTopFrom (n : Nat) : Nat → Nat
  | 0 => 0
  | k + 1 => if fib (k + 1) ≤ n ∨ k + 1 ≤ 2 then k + 1 else fibTopFrom n k

/-- `m` of R106. -/
def fibTop (n : Nat) : Nat := fibTopFrom n Config.fibMaxBits

/-- The greedy digits `d[k+1], …, d[2]`, highest weight first, of what remains (R106). -/
def zeckendorf : Nat → Nat → List Bool
  | 0, _ => []
  | k + 1, rem =>
    if fib (k + 2) ≤ rem then true :: zeckendorf k (rem - fib (k + 2)) else false :: zeckendorf k rem

/-- The code of `n ≥ 1`: the digits `d[2], …, d[m]`, lowest weight first, then the terminator 1 (R106). -/
def fibCode (n : Nat) : List Bool := (zeckendorf (fibTop n - 1) n).reverse ++ [true]

end Sys2Proof.Machine
end

