-- ==== Sys2Proof/Machine/Narrow.lean ====
section
/-!
DEFINITION. Machine/Narrow.lean: the interval arithmetic the encoder and the decoder share.
Rules R101 (CheckInterval), R102 and R143 (the new bounds), R103 and R144 (the renormalization steps).
The interval is closed, `[l, h]`, and holds `h - l + 1` code points (R25, conflict C5).
-/
namespace Sys2Proof.Machine

/-- `CheckInterval(lower, length, base)` (R101). The sum does not wrap. -/
def checkInterval (iv : Interval) : Coded Unit :=
  if iv.base = 0 ∨ iv.base > Config.maxBase ∨ iv.lower + iv.length > iv.base then
    .error (.precise .badInterval 0)
  else .ok ()

/-- The width `R = h - l + 1` (R102). -/
def rangeWidth (l h : Word) : Nat := h.toNat - l.toNat + 1

/-- The new lower bound `l + (R · lower) div base` (R102). -/
def narrowLow (l h : Word) (iv : Interval) : Word :=
  Word.ofNat (l.toNat + rangeWidth l h * iv.lower / iv.base)

/-- The new upper bound `l + (R · (lower + length)) div base - 1` (R102). -/
def narrowHigh (l h : Word) (iv : Interval) : Word :=
  Word.ofNat (l.toNat + rangeWidth l h * (iv.lower + iv.length) / iv.base - 1)

/-- Which of the steps 1 to 4 of the renormalization loop applies (R103). -/
inductive RenormStep where
  /-- `h < HALF`: step 1 -/
  | lowHalf
  /-- `l ≥ HALF`: step 2 -/
  | highHalf
  /-- `l ≥ Q1` and `h < Q3`: step 3 -/
  | middle
  /-- step 4: stop -/
  | done
  deriving DecidableEq, Repr

/-- The conditions of the loop, in its order (R103, R144). -/
def renormStep (l h : Word) : RenormStep :=
  if h.toNat < Config.half then .lowHalf
  else if l.toNat ≥ Config.half then .highHalf
  else if l.toNat ≥ Config.q1 ∧ h.toNat < Config.q3 then .middle
  else .done

/-- What a step subtracts from the bounds, and from the decoder's value (R103, R144). -/
def RenormStep.offset : RenormStep → Nat
  | .lowHalf => 0
  | .highHalf => Config.half
  | .middle => Config.q1
  | .done => 0

/-- Subtract, double, and shift a bit in: 0 for `l`, 1 for `h`, the next input bit for the decoder's value
(R103, R144). -/
def shiftIn (off : Nat) (w : Word) (b : Bool) : Word := Word.ofNat (2 * (w.toNat - off) + b.toNat)

/-- The renormalization loop runs at most this many times, whatever the bounds (R103): each iteration shifts a 0 into
`l` and a 1 into `h`, and 32 of them leave `[0, TOP]`. -/
def renormFuel : Nat := 32

end Sys2Proof.Machine
end

