-- ==== Sys2Proof/Machine/RangeDecoder.lean ====
section
/-!
DEFINITION. Machine/RangeDecoder.lean: the range decoder's subroutines (R140 to R149) and its commands
DEC_RESET, DEC_READ_EQUAL, DEC_PEEK, DEC_NARROW, DEC_READ_PART_FT, DEC_READ_FIB and DEC_READ_COUNT (R150 to R156).

A subroutine takes the input as `inp`, the bytes of `DEC_IN` at the moment of the command: no host access can land
inside a command (R58), so every bit is read when it is consumed (R61).
-/
namespace Sys2Proof.Machine

/-- The bytes of `DEC_IN` a command reads: the window's stored bytes and `IN_CAP` (R50, R51). -/
structure Input where
  mem : Memory
  cap : Nat
  deriving DecidableEq, Repr

/-- `MemRead(DEC_IN, j, 1)` (R14, R50, R51). -/
def Input.byte (inp : Input) (j : Nat) : Byte := if j < inp.cap then inp.mem.readByte (decInBase + j) else 0

/-- Bit `p` of the input: MSB-first in each byte, and 0 from `8·DEC_INLEN` on (R31, R52, R140). -/
def Input.bit (inp : Input) (inLen p : Nat) : Bool :=
  if p < 8 * inLen then (inp.byte (p / 8)).getLsbD (7 - p % 8) else false

/-- The input of the block. -/
def State.input (s : State) : Input := ⟨s.mem, s.cfg.inCap⟩

/-- `value <- 2·value + NextBit()` after the subtraction of a step: one bit is consumed (R140, R144). -/
def Decoder.shiftValue (inp : Input) (off : Nat) (d : Decoder) : Decoder :=
  { d with value := shiftIn off d.value (inp.bit d.inLen.toNat d.pos), pos := d.pos + 1 }

/-- The preload of `DecLoad`: `n` bits into `value` (R141). -/
def Decoder.preload (inp : Input) : Nat → Decoder → Decoder
  | 0, d => d
  | n + 1, d => Decoder.preload inp n (d.shiftValue inp 0)

/-- `DecLoad(nbytes)` (R141). -/
def Decoder.load (inp : Input) (nbytes : Word) : Decoder :=
  Decoder.preload inp 32 { low := 0, high := 0xFFFFFFFF, value := 0, pos := 0, inLen := nbytes }

/-- `DecPeek(base)` (R142). -/
def Decoder.peek (d : Decoder) (base : Nat) : Coded Nat :=
  if base = 0 ∨ base > Config.maxBase then .error (.precise .badInterval 0)
  else .ok (((d.value.toNat - d.low.toNat + 1) * base - 1) / rangeWidth d.low d.high)

/-- The bounds and the value after a renormalization step (R144). -/
def Decoder.double (inp : Input) (st : RenormStep) (d : Decoder) : Decoder :=
  { d.shiftValue inp st.offset with low := shiftIn st.offset d.low false, high := shiftIn st.offset d.high true }

/-- `DecRenorm()`, with a bound on the iterations it can make (R144). -/
def Decoder.renorm (inp : Input) : Nat → Decoder → Decoder
  | 0, d => d
  | n + 1, d =>
    match renormStep d.low d.high with
    | .lowHalf => Decoder.renorm inp n (d.double inp .lowHalf)
    | .highHalf => Decoder.renorm inp n (d.double inp .highHalf)
    | .middle => Decoder.renorm inp n (d.double inp .middle)
    | .done => d

/-- The sub-interval an Interval implies: the encoder's arithmetic (R143). -/
def Decoder.select (iv : Interval) (d : Decoder) : Decoder :=
  { d with low := narrowLow d.low d.high iv, high := narrowHigh d.low d.high iv }

/-- `DecNarrow(lower, length, base)` (R143). -/
def Decoder.narrow (inp : Input) (iv : Interval) (d : Decoder) : Coded Decoder := do
  checkInterval iv
  if iv.length = 0 then .ok d
  else
    let v ← d.peek iv.base
    if v < iv.lower ∨ v ≥ iv.lower + iv.length then .error (.precise .narrowMismatch (Word.ofNat v))
    else .ok (Decoder.renorm inp renormFuel (d.select iv))

/-- `Direct(n)` (R145). -/
def Decoder.direct (inp : Input) (n : Nat) (d : Decoder) : Coded (Nat × Decoder) := do
  let v ← d.peek n
  .ok (v, ← d.narrow inp ⟨v, 1, n⟩)

/-- The number of the second level's values of a split uniform read (R145). -/
def uniformReadLow (count hi : Nat) : Nat :=
  let chi := (count - 1) / 0x10000 + 1
  if hi < chi - 1 then 0x10000 else (count - 1) % 0x10000 + 1

/-- `UniformRead(count)` (R145). -/
def Decoder.uniform (inp : Input) (count : Nat) (d : Decoder) : Coded (Nat × Decoder) :=
  if count = 0 then .error (.precise .eqRange 0)
  else if count ≤ Config.eqDirectMax then d.direct inp count
  else do
    let (hi, d) ← d.direct inp ((count - 1) / 0x10000 + 1)
    let (lo, d) ← d.direct inp (uniformReadLow count hi)
    .ok (hi * 0x10000 + lo, d)

/-- The fault of a Fibonacci read: 47 bits without a terminator, or a sum above 0xFFFFFFFF (R146). -/
def corruptFib : Raise := ⟨.corruptFib, 0, .fibRun⟩

/-- The loop of `FibRead`: `left` bits may still be read; the next digit has weight `F(k)` (R146). -/
def Decoder.fibLoop (inp : Input) : Nat → Nat → Nat → Bool → Decoder → Coded (Nat × Decoder)
  | 0, _, _, _, _ => .error corruptFib
  | left + 1, k, n, prev, d => do
    let (v, d) ← d.uniform inp 2
    if v = 1 ∧ prev then .ok (n, d)
    else if left = 0 then .error corruptFib
    else if v = 1 then
      if n + fib k > Config.top then .error corruptFib
      else Decoder.fibLoop inp left (k + 1) (n + fib k) true d
    else Decoder.fibLoop inp left (k + 1) n false d

/-- `FibRead()` (R146). -/
def Decoder.fib (inp : Input) (d : Decoder) : Coded (Nat × Decoder) := Decoder.fibLoop inp Config.fibMaxBits 2 0 false d

/-- `CountRead(W)` (R147). -/
def Decoder.count (inp : Input) (W : Nat) (d : Decoder) : Coded (Nat × Decoder) :=
  if W < 1 ∨ W > 32 then .error (.precise .countRange 0)
  else do
    let (k, d) ← d.uniform inp (W + 1)
    if k = 0 then .ok (0, d)
    else if k = W then .ok (2 ^ W - 1, d)
    else
      let (rem, d) ← d.uniform inp (2 ^ k)
      .ok (2 ^ k - 1 + rem, d)

/-! ### Commands
No decoder command checks the sealed flag: the two coders are independent units. -/

/-- A read's value in `RES` and the decoder after it. -/
def State.deliver (s : State) (r : Coded (Nat × Decoder)) : Coded State := do
  let (v, d) ← r
  .ok (({ s with dec := d } : State).setRes (Word.ofNat v))

/-- DEC_RESET (R150): start decoding the first `ARG0` bytes of `DEC_IN`. -/
def execDecReset (s : State) : Result :=
  s.finish (encode .decReset)
    (if s.argNat .arg0 > s.cfg.inCap then .error (.precise .capacity s.arg0)
     else .ok { s with dec := Decoder.load s.input s.arg0 })

/-- DEC_READ_EQUAL (R151): `read_equal(count)`, `count = ARG0`. -/
def execDecReadEqual (s : State) : Result :=
  s.finish (encode .decReadEqual) (s.deliver (s.dec.uniform s.input (s.argNat .arg0)))

/-- DEC_PEEK (R152): which of `base = ARG0` parts holds the value; the decoder does not change. -/
def execDecPeek (s : State) : Result :=
  s.finish (encode .decPeek) do
    .ok (s.setRes (Word.ofNat (← s.dec.peek (s.argNat .arg0))))

/-- DEC_NARROW (R153): consume the Interval in `ARG0` to `ARG2`. -/
def execDecNarrow (s : State) : Result :=
  s.finish (encode .decNarrow) do
    .ok { s with dec := ← s.dec.narrow s.input s.argInterval }

/-- The key a position falls to (R183); every position below the total has one, so the fault here is out of reach of a
position `DecPeek` gives. -/
def FreqTable.requireKey (t : FreqTable) (pos : Nat) : Coded Word :=
  match t.find? pos with
  | some key => .ok key
  | none => .error (.precise .ftKey (Word.ofNat pos))

/-- The `read_part` over the frequency table, widened to `base` parts: peek, find the key, consume its Interval
(R154, R264). -/
def Decoder.symbol (inp : Input) (t : FreqTable) (base : Nat) (d : Decoder) : Coded (Word × Decoder) := do
  let key ← t.requireKey (← d.peek base)
  let iv ← t.requireInterval key
  .ok (key, ← d.narrow inp { iv with base := base })

/-- DEC_READ_PART_FT (R154): `read_part` over the frequency table. -/
def execDecReadPartFt (s : State) : Result :=
  s.finish (encode .decReadPartFt) do
    if s.ft.isEmpty then .error (.precise .ftKey 0)
    else
      let (key, d) ← s.dec.symbol s.input s.ft s.ft.total
      .ok (({ s with dec := d } : State).setRes key)

/-- DEC_READ_FIB (R155): `read_fibonacci()`. -/
def execDecReadFib (s : State) : Result :=
  s.finish (encode .decReadFib) (s.deliver (s.dec.fib s.input))

/-- DEC_READ_COUNT (R156): `read_count` with field width `W`. -/
def execDecReadCount (W : Nat) (s : State) : Result :=
  s.finish (encode (.decReadCount W)) (s.deliver (s.dec.count s.input W))

end Sys2Proof.Machine
end

