-- ==== Sys2Proof/Machine/RangeEncoder.lean ====
section
/-!
DEFINITION. Machine/RangeEncoder.lean: the range encoder's subroutines (R100 to R113) and its commands
ENC_RESET, ENC_WRITE_EQUAL, ENC_WRITE_PART, ENC_WRITE_PART_FT, ENC_WRITE_FIB, ENC_WRITE_COUNT and ENC_FINISH
(R120 to R127).

A code is written as its narrowing trace, the list of Intervals passed to `EncNarrow` in order (R126). No trace depends
on the encoder's state, so writing the trace after computing it is the sequence of calls of the rule's pseudocode.
-/
namespace Sys2Proof.Machine

/-! ### Bit emission (R104) -/

/-- `Append(b)`: one bit at the end, or CAPACITY with the number of bits already there (R104, R112). -/
def Encoder.append (cap : Nat) (b : Bool) (e : Encoder) : Coded Encoder :=
  if e.bits.length + 1 > 8 * cap then .error ⟨.capacity, Word.ofNat e.bits.length, .encoderRun⟩
  else .ok { e with bits := e.bits ++ [b] }

/-- `repeat n times: Append(b)`. -/
def Encoder.appendRun (cap : Nat) (b : Bool) : Nat → Encoder → Coded Encoder
  | 0, e => .ok e
  | n + 1, e => (e.append cap b).bind (Encoder.appendRun cap b n)

/-- `EmitBit(b)`: the bit, then the pending bits inverted, and no bit pending (R104). -/
def Encoder.emitBit (cap : Nat) (b : Bool) (e : Encoder) : Coded Encoder := do
  let e ← e.append cap b
  let e ← Encoder.appendRun cap (!b) e.pending.toNat e
  .ok { e with pending := 0 }

/-- One more pending bit, or PENDING_OVF at 0xFFFFFFFF (R103, R109, R111). -/
def Encoder.addPending (e : Encoder) : Coded Encoder :=
  if e.pending = 0xFFFFFFFF then .error ⟨.pendingOvf, 0, .encoderRun⟩
  else .ok { e with pending := e.pending + 1 }

/-! ### Narrowing (R102, R103) -/

/-- The bounds after a renormalization step (R103). -/
def Encoder.double (st : RenormStep) (e : Encoder) : Encoder :=
  { e with low := shiftIn st.offset e.low false, high := shiftIn st.offset e.high true }

/-- `EncRenorm()`, with a bound on the iterations it can make (R103). -/
def Encoder.renorm (cap : Nat) : Nat → Encoder → Coded Encoder
  | 0, e => .ok e
  | n + 1, e =>
    match renormStep e.low e.high with
    | .lowHalf => do Encoder.renorm cap n ((← e.emitBit cap false).double .lowHalf)
    | .highHalf => do Encoder.renorm cap n ((← e.emitBit cap true).double .highHalf)
    | .middle => do Encoder.renorm cap n ((← e.addPending).double .middle)
    | .done => .ok e

/-- The sub-interval an Interval implies (R102). -/
def Encoder.select (iv : Interval) (e : Encoder) : Encoder :=
  { e with low := narrowLow e.low e.high iv, high := narrowHigh e.low e.high iv }

/-- `EncNarrow(lower, length, base)`; the Interval of length 0 is the defined no-op (R102). -/
def Encoder.narrow (cap : Nat) (iv : Interval) (e : Encoder) : Coded Encoder := do
  checkInterval iv
  if iv.length = 0 then .ok e else Encoder.renorm cap renormFuel (e.select iv)

/-- Narrow by each Interval of a trace in order (R126). -/
def Encoder.writeAll (cap : Nat) : List Interval → Encoder → Coded Encoder
  | [], e => .ok e
  | iv :: rest, e => (e.narrow cap iv).bind (Encoder.writeAll cap rest)

/-! ### Codes as traces (R105, R106, R108) -/

/-- The number of the second level's values (R105): `2^16`, or the last partial block. -/
def uniformLow (count hi : Nat) : Nat :=
  if hi < (count - 1) / 0x10000 then 0x10000 else (count - 1) % 0x10000 + 1

/-- `UniformWrite(c, count)` (R105). -/
def uniformTrace (c count : Nat) : Coded (List Interval) :=
  if count = 0 ∨ c ≥ count then .error (.precise .eqRange 0)
  else if count ≤ Config.eqDirectMax then .ok [⟨c, 1, count⟩]
  else
    .ok [⟨c / 0x10000, 1, (count - 1) / 0x10000 + 1⟩, ⟨c % 0x10000, 1, uniformLow count (c / 0x10000)⟩]

/-- Write several uniform values in order. -/
def uniformTraces : List (Nat × Nat) → Coded (List Interval)
  | [] => .ok []
  | (c, count) :: rest => do
    let t ← uniformTrace c count
    let ts ← uniformTraces rest
    .ok (t ++ ts)

/-- `FibWrite(n)`: the digits lowest weight first, then the terminator 1, each one uniform bit (R106). -/
def fibTrace (n : Nat) : Coded (List Interval) :=
  if n = 0 then .error (.precise .fibZero 0)
  else uniformTraces ((fibCode n).map (fun b => (b.toNat, 2)))

/-- `k = bitlen(n + 1) - 1`, that is `⌊log2(n + 1)⌋` (R108). -/
def countLog (n : Nat) : Nat := Nat.log2 (n + 1)

/-- `CountWrite(n, W)` (R108). -/
def countTrace (n W : Nat) : Coded (List Interval) :=
  if W < 1 ∨ W > 32 ∨ n ≥ 2 ^ W then .error (.precise .countRange 0)
  else
    let k := countLog n
    uniformTraces ((k, W + 1) :: if 0 < k ∧ k < W then [(n + 1 - 2 ^ k, 2 ^ k)] else [])

/-! ### The flush (R109) -/

/-- `EncFlush()`: the sentinel, then one more pending bit and the bit that pins the final interval (R109). -/
def Encoder.flush (cap : Nat) (e : Encoder) : Coded Encoder := do
  let e ← e.writeAll cap (← uniformTrace Config.sentC Config.sentCount)
  let e ← e.addPending
  let e ← e.emitBit cap (if e.low.toNat < Config.q1 then false else true)
  .ok { e with isSealed := true }

/-! ### Commands -/

/-- The SEALED check every narrowing command makes first (R110). -/
def State.checkSealed (s : State) : Coded Unit :=
  if s.enc.isSealed then .error (.precise .isSealed 0) else .ok ()

/-- Write a trace through the block's encoder. -/
def State.encodeTrace (s : State) (t : List Interval) : Coded State := do
  .ok { s with enc := ← s.enc.writeAll s.cfg.encCap t }

/-- ENC_RESET (R120): a new encoder stream; the sealed flag is not checked. -/
def execEncReset (s : State) : Result := .next { s with enc := Encoder.reset }

/-- ENC_WRITE_EQUAL (R121): `write_equal(c, count)` with `c = ARG0`, `count = ARG1`. -/
def execEncWriteEqual (s : State) : Result :=
  s.finish (encode .encWriteEqual) do
    s.checkSealed
    s.encodeTrace (← uniformTrace (s.argNat .arg0) (s.argNat .arg1))

/-- ENC_WRITE_PART (R122): `write_part` with the Interval in `ARG0` to `ARG2`. -/
def execEncWritePart (s : State) : Result :=
  s.finish (encode .encWritePart) do
    s.checkSealed
    s.encodeTrace [s.argInterval]

/-- ENC_WRITE_PART_FT (R123): `write_part` with the Interval the table gives for the key `ARG0`. -/
def execEncWritePartFt (s : State) : Result :=
  s.finish (encode .encWritePartFt) do
    s.checkSealed
    s.encodeTrace [← s.ft.requireInterval s.arg0]

/-- ENC_WRITE_FIB (R124): `write_fibonacci(n)` with `n = ARG0`. -/
def execEncWriteFib (s : State) : Result :=
  s.finish (encode .encWriteFib) do
    s.checkSealed
    s.encodeTrace (← fibTrace (s.argNat .arg0))

/-- ENC_WRITE_COUNT (R125): `write_count(n)` with field width `W`, `n = ARG0`. -/
def execEncWriteCount (W : Nat) (s : State) : Result :=
  s.finish (encode (.encWriteCount W)) do
    s.checkSealed
    s.encodeTrace (← countTrace (s.argNat .arg0) W)

/-- The byte count of a finished stream, `ceil(|bits| / 8)` (R52, R127). -/
def Encoder.byteCount (e : Encoder) : Nat := (e.bits.length + 7) / 8

/-- ENC_FINISH (R127): seal the stream, and the byte count in `RES`. -/
def execEncFinish (s : State) : Result :=
  s.finish (encode .encFinish) do
    s.checkSealed
    let e ← s.enc.flush s.cfg.encCap
    .ok (({ s with enc := e } : State).setRes (Word.ofNat e.byteCount))

end Sys2Proof.Machine
end

