-- ==== Sys2Proof/Machine/Split.lean ====
section
/-!
DEFINITION. Machine/Split.lean: split-integer coding (R200 to R205) and its commands ENC_WRITE_SPLIT and DEC_READ_SPLIT
(R210, R211).
-/
namespace Sys2Proof.Machine

/-- The mode a number names; 3 and above name none (R16, R200). -/
def SplitMode.ofNumber : Nat → Option SplitMode
  | 0 => some .whole
  | 1 => some .escapeLong
  | 2 => some .escapeShort
  | _ => none

/-- The number `r` of a mode (R16). -/
def SplitMode.number : SplitMode → Nat
  | .whole => 0
  | .escapeLong => 1
  | .escapeShort => 2

/-- The policy a command names: `r = 3` is reserved and raises SPLIT_POLICY (R200). -/
def policyOf (r max t : Nat) : Coded Policy :=
  match SplitMode.ofNumber r with
  | some mode => .ok ⟨mode, max, t⟩
  | none => .error (.precise .splitPolicy 0)

/-- `EffPolicy`: a split whose threshold is at or above `max` is coded whole (R200). -/
def Policy.effective (p : Policy) : Policy :=
  if p.mode ≠ .whole ∧ p.threshold ≥ p.max then ⟨.whole, p.max, 0⟩ else p

/-- The `(symbol, count)` pairs of a value under an effective policy; `e` is the extra bit (R202). -/
def Policy.pairs (p : Policy) (e v : Nat) : List (Nat × Nat) :=
  match p.mode with
  | .whole => [(v, p.max + 1 + e)]
  | .escapeLong =>
    if v ≤ p.threshold then [(v, p.threshold + 2)]
    else [(p.threshold + 1, p.threshold + 2), (v - p.threshold - 1, p.max - p.threshold + e)]
  | .escapeShort =>
    let nl := p.max - p.threshold + e
    if v > p.threshold then [(v - p.threshold - 1, nl + 1)] else [(nl, nl + 1), (v, p.threshold + 1)]

/-- `SplitIntervals(v, r, max, t, e)` (R201, R202). -/
def splitIntervals (p : Policy) (e v : Nat) : Coded (List (Nat × Nat)) :=
  if v > p.max + e then .error (.precise .splitDomain 0) else .ok (p.effective.pairs e v)

/-- `SplitWrite(v, r, max, t, e)` as a trace (R202). -/
def splitTrace (p : Policy) (e v : Nat) : Coded (List Interval) := do
  uniformTraces (← splitIntervals p e v)

/-- `SplitCost(v, r, max, t, e)`: the product of the counts (R204). -/
def splitCost (p : Policy) (e v : Nat) : Nat := ((p.effective.pairs e v).map (·.2)).foldl (· * ·) 1

/-- The read of an effective policy (R203). -/
def Decoder.splitEffective (inp : Input) (p : Policy) (e : Nat) (d : Decoder) : Coded (Nat × Decoder) :=
  match p.mode with
  | .whole => d.uniform inp (p.max + 1 + e)
  | .escapeLong => do
    let (v, d) ← d.uniform inp (p.threshold + 2)
    if v ≤ p.threshold then .ok (v, d)
    else
      let (u, d) ← d.uniform inp (p.max - p.threshold + e)
      .ok (p.threshold + 1 + u, d)
  | .escapeShort => do
    let nl := p.max - p.threshold + e
    let (v, d) ← d.uniform inp (nl + 1)
    if v < nl then .ok (p.threshold + 1 + v, d)
    else d.uniform inp (p.threshold + 1)

/-- `SplitRead(r, max, t, e)` (R203). -/
def Decoder.split (inp : Input) (p : Policy) (e : Nat) (d : Decoder) : Coded (Nat × Decoder) :=
  d.splitEffective inp p.effective e

/-- The largest value below a bound, 0 where there is none (R205). -/
def maxBelow (V : List Nat) (bound : Nat) : Nat := (V.filter (· < bound)).foldl Nat.max 0

/-- `ChoosePolicy(V)`: the floor mean is the source's "median" (R205, conflict C1). -/
def choosePolicy (V : List Nat) : Policy :=
  if V.isEmpty then ⟨.whole, 0, 0⟩
  else
    let mx := V.foldl Nat.max 0
    let avg := V.sum / V.length
    let below := V.filter (· < avg)
    let nge := V.length - below.length
    if 3 * nge < V.length then ⟨.escapeLong, mx, maxBelow V avg⟩
    else if 3 * nge > 2 * V.length ∧ below ≠ [] then ⟨.escapeShort, mx, maxBelow V avg⟩
    else ⟨.whole, mx, 0⟩

/-! ### Commands -/

/-- The policy operand `r`, `max = ARG1`, `t = ARG2`, and the refusal of `e = 1` with `max = 0xFFFFFFFF`
(R210, R211). -/
def State.argPolicy (s : State) (r : Nat) (extra : Bool) : Coded Policy := do
  let p ← policyOf r (s.argNat .arg1) (s.argNat .arg2)
  if extra ∧ p.max = Config.top then .error (.precise .splitDomain 0) else .ok p

/-- ENC_WRITE_SPLIT (R210): `encode_value(v, policy)` with `v = ARG0`. -/
def execEncWriteSplit (r : Nat) (extra : Bool) (s : State) : Result :=
  s.finish (encode (.encWriteSplit r extra)) do
    s.checkSealed
    let p ← s.argPolicy r extra
    s.encodeTrace (← splitTrace p extra.toNat (s.argNat .arg0))

/-- DEC_READ_SPLIT (R211): `decode_value(reader, policy)`; `ARG0` is not read. -/
def execDecReadSplit (r : Nat) (extra : Bool) (s : State) : Result :=
  s.finish (encode (.decReadSplit r extra)) do
    let p ← s.argPolicy r extra
    s.deliver (s.dec.split s.input p extra.toNat)

end Sys2Proof.Machine
end

