-- ==== Sys2Proof/Machine/LzEncoder.lean ====
section
/-!
DEFINITION. Machine/LzEncoder.lean: LZ_ENCODE (R220 to R243): pre-checks, candidate search, policies, selection, stream
layout.
-/
namespace Sys2Proof.Machine

/-! ### The literal model (R222) -/

/-- The largest `s' < s + 2^k` above `s`, bit by bit from the top, whose square is below `n`. -/
def sqrtBelow (n : Nat) : Nat → Nat → Nat
  | 0, s => s
  | k + 1, s => if (s + 2 ^ k) * (s + 2 ^ k) < n then sqrtBelow n k (s + 2 ^ k) else sqrtBelow n k s

/-- `isqrt_ceil(n)`: the least `s` with `s·s ≥ n` (R12). -/
def isqrtCeil (n : Nat) : Nat := if n = 0 then 0 else sqrtBelow n (Nat.log2 n + 1) 0 + 1

/-- `Buffer(base)` (R222). -/
def buffer (base : Nat) : Nat := Nat.max (isqrtCeil base) 1

/-- The widened base `nb` (R222). -/
def widened (base : Nat) : Nat := base + buffer base

/-- LZ_MODEL: an empty table, or a widened base above `MAX_BASE` (R221, R260). -/
def FreqTable.checkModel (t : FreqTable) : Coded Unit :=
  if t.isEmpty then .error (.precise .lzModel 0)
  else if widened t.total > Config.maxBase then .error (.precise .lzModel 0)
  else .ok ()

/-- The symbols `x_0, …, x_{N-1}` (R220). -/
def State.symbols (s : State) (n : Nat) : List Word := (List.range n).map s.symInWord

/-- LZ_SYMBOL with the index of the first symbol the table does not hold (R221). -/
def checkSymbols (t : FreqTable) : Nat → List Word → Coded Unit
  | _, [] => .ok ()
  | m, x :: rest =>
    if t.has x then checkSymbols t (m + 1) rest else .error (.precise .lzSymbol (Word.ofNat m))

/-- The pre-checks in their order (R221). -/
def State.lzPrecheck (s : State) : Coded Unit := do
  s.checkSealed
  if s.argNat .arg0 > s.cfg.symCap then .error (.precise .capacity s.arg0)
  else
    s.ft.checkModel
    checkSymbols s.ft 0 (s.symbols (s.argNat .arg0))

/-! ### Candidates (R223 to R226) -/

/-- The length of the common prefix of two sequences. -/
def commonPrefix : List Word → List Word → Nat
  | x :: xs, y :: ys => if x = y then commonPrefix xs ys + 1 else 0
  | _, _ => 0

/-- The match length `k` of the pair `(i, j)`: at most `min(N - i, MAX_MATCH)` (R223). -/
def matchLength (xs : List Word) (i j : Nat) : Nat := Nat.min (commonPrefix (xs.drop i) (xs.drop j)) Config.maxMatch

/-- The predecessors `i-2, i-3, …, 0` in that order, up to the first with `i - j ≥ DICT_SIZE` (R223). -/
def predecessors (dictSize i : Nat) : List Nat :=
  (List.range (i - 1)).reverse.takeWhile (fun j => i - j < dictSize)

/-- The candidate a match forms (R224). The `dist` of a spiral is not defined by the rule and never read. -/
def formCandidate (spiralEnable : Bool) (i j k : Nat) : Candidate :=
  let p := i - j
  if spiralEnable ∧ k ≥ 2 * p then ⟨i, p, 0, k / p - 1, true⟩
  else if k > p then ⟨i, p, 0, 0, false⟩
  else ⟨i, k, p - k, 0, false⟩

/-- `FT[x]`, for a symbol of the table. -/
def FreqTable.weightOf (t : FreqTable) (x : Word) : Nat := ((t.weight? x).map (·.toNat)).getD 0

/-- `Π FT[x_m]` over the span of a candidate (R225, R233). -/
def spanWeight (t : FreqTable) (xs : List Word) (c : Candidate) : Nat :=
  (((xs.drop c.start).take c.covered).map t.weightOf).foldl (· * ·) 1

/-- The raw filter, both sides exact (R225). -/
def rawFilter (t : FreqTable) (dictSize : Nat) (xs : List Word) (c : Candidate) : Bool :=
  t.total ^ c.covered > Config.rawK * dictSize * c.covered * spanWeight t xs c

/-- The match at `(i, j)` as a candidate, if it is one and passes the raw filter (R223 to R225). -/
def candidateAt (cfg : Config.Params) (t : FreqTable) (xs : List Word) (i j : Nat) : Option Candidate :=
  let k := matchLength xs i j
  if i + cfg.prefixLen ≤ xs.length ∧ cfg.prefixLen ≤ k then
    let c := formCandidate cfg.spiralEnable i j k
    if rawFilter t cfg.dictSize xs c then some c else none
  else none

/-- The kept candidate among those found in order: the largest `C`, the first found on a tie (R226). -/
def keepLongest : Option Candidate → List Candidate → Option Candidate
  | best, [] => best
  | none, c :: rest => keepLongest (some c) rest
  | some b, c :: rest => keepLongest (some (if c.covered > b.covered then c else b)) rest

/-- The kept candidate of a start, if any (R226). -/
def keptAt (cfg : Config.Params) (t : FreqTable) (xs : List Word) (i : Nat) : Option Candidate :=
  keepLongest none ((predecessors cfg.dictSize i).filterMap (candidateAt cfg t xs i))

/-- Every kept candidate, by rising start (R223, R226). -/
def keptCandidates (cfg : Config.Params) (t : FreqTable) (xs : List Word) : List Candidate :=
  (List.range xs.length).filterMap (keptAt cfg t xs)

/-! ### Policies (R227, R228) -/

/-- The stream-wide parameters from every kept candidate, before any token is chosen (R227, R228). -/
def planOf (kept : List Candidate) : LzPlan where
  len := choosePolicy (kept.map (fun c => c.chunk - 2))
  dist := choosePolicy ((kept.filter (fun c => !c.spiral)).map (·.dist))
  spiral := choosePolicy ((kept.filter (·.spiral)).map (·.spiralLen))
  useSpiral := kept.any (·.spiral)
  tokens := []

/-! ### Selection (R230 to R235) -/

/-- A candidate lies within one partition: `b_w ≤ i` and `i + C ≤ b_{w+1}` (R230). -/
def eligible (n parts : Nat) (c : Candidate) : Bool :=
  (List.range parts).any (fun w => n * w / parts ≤ c.start && c.start + c.covered ≤ n * (w + 1) / parts)

/-- Insert by `C` descending; among equals the one already there stays first. -/
def insertByCovered (c : Candidate) : List Candidate → List Candidate
  | [] => [c]
  | b :: rest => if c.covered > b.covered then c :: b :: rest else b :: insertByCovered c rest

/-- `C` descending, then `i` ascending, for candidates given by rising start (R231). -/
def selectionOrder (cs : List Candidate) : List Candidate :=
  cs.foldl (fun acc c => insertByCovered c acc) []

/-- Two spans share a position. -/
def Candidate.overlaps (a b : Candidate) : Bool :=
  a.start < b.start + b.covered && b.start < a.start + a.covered

/-- The distance bound `dmax = min(distP.max, i - L)` (R232). -/
def distMax (plan : LzPlan) (c : Candidate) : Nat := Nat.min plan.dist.max (c.start - c.chunk)

/-- The distance policy of one token: its maximum is the token's bound (R232). -/
def distPolicy (plan : LzPlan) (dmax : Nat) : Policy := { plan.dist with max := dmax }

/-- The distance value a token writes: the reserved "use spiral" value, or the distance (R232). -/
def distValue (plan : LzPlan) (c : Candidate) : Nat := if c.spiral then distMax plan c + 1 else c.dist

/-- `Accept(c)`: the exact cost test (R233). -/
def accept (t : FreqTable) (xs : List Word) (plan : LzPlan) (c : Candidate) : Bool :=
  let cost :=
    widened t.total * splitCost plan.len 0 (c.chunk - 2) *
      splitCost (distPolicy plan (distMax plan c)) plan.useSpiral.toNat (distValue plan c) *
      (if c.spiral then splitCost plan.spiral 0 c.spiralLen else 1)
  t.total ^ c.covered * buffer t.total > cost * spanWeight t xs c

/-- One candidate of the selection: skipped if any of its positions is consumed, else a token if accepted (R231). -/
def considerCandidate (t : FreqTable) (xs : List Word) (plan : LzPlan) (tokens : List Candidate) (c : Candidate) :
    List Candidate :=
  if tokens.any c.overlaps then tokens else if accept t xs plan c then tokens ++ [c] else tokens

/-- The reference selection (R223 to R233). -/
def referencePlan (cfg : Config.Params) (t : FreqTable) (xs : List Word) : LzPlan :=
  let kept := keptCandidates cfg t xs
  let plan := planOf kept
  { plan with
    tokens :=
      (selectionOrder (kept.filter (eligible xs.length cfg.parts))).foldl (considerCandidate t xs plan) [] }

/-! #### ANY_VALID (R234) -/

/-- A header can carry the policy, and a decoder reads it back: `max` fits `HDR_MAX_W` bits, and a split's threshold is
below its `max` (R234, R237). -/
def Policy.writable (p : Policy) : Bool :=
  p.max < 2 ^ Config.hdrMaxW && (p.mode == .whole || p.threshold < p.max)

/-- The token reproduces the input under the copy rule: chunk after chunk equals the source span (R234, R270). -/
def Candidate.reproduces (xs : List Word) (c : Candidate) : Bool :=
  let source := c.start - (if c.spiral then 0 else c.dist) - c.chunk
  (List.range c.covered).all (fun q => xs[c.start + q]? == xs[source + q % c.chunk]?)

/-- One token meets the conditions of R234 under the plan's policies. That the other limits of R10 and R223 to R230 (`DICT_SIZE`,
`PARTS` and the rest) do not bind it is the model's choice: DESIGN CHOICE, safe, log entry 22. -/
def validToken (xs : List Word) (plan : LzPlan) (c : Candidate) : Bool :=
  2 ≤ c.chunk && c.chunk ≤ c.start && c.chunk - 2 ≤ plan.len.max && c.start + c.covered ≤ xs.length &&
  (if c.spiral then plan.useSpiral && c.spiralLen ≤ plan.spiral.max
   else c.spiralLen == 0 && c.dist ≤ distMax plan c) &&
  c.reproduces xs

/-- No two tokens overlap. -/
def disjointTokens : List Candidate → Bool
  | [] => true
  | c :: rest => !rest.any c.overlaps && disjointTokens rest

/-- A plan ANY_VALID may emit (R234). -/
def validPlan (xs : List Word) (plan : LzPlan) : Bool :=
  plan.dist.writable && plan.len.writable && plan.spiral.writable && plan.tokens.all (validToken xs plan) &&
  disjointTokens plan.tokens

/-- A plan ANY_VALID may choose: a valid one, and without spirals where `SPIRAL_ENABLE = 0` (R227, R234). That its tokens need not
pass the cost test of R233, whose strict benefit R243 names for every LZ_ENCODE, is the model's choice: DESIGN CHOICE, safe, log
entry 23. -/
def allowedPlan (cfg : Config.Params) (xs : List Word) (plan : LzPlan) : Bool :=
  validPlan xs plan && (cfg.spiralEnable || !plan.useSpiral)

/-- Dummy mode when no token was accepted: all policies `(0, 0, 0)` and no spirals (R235). -/
def LzPlan.orDummy (plan : LzPlan) : LzPlan :=
  if plan.tokens.isEmpty then ⟨⟨.whole, 0, 0⟩, ⟨.whole, 0, 0⟩, ⟨.whole, 0, 0⟩, false, []⟩ else plan

/-- The plan the encoder writes: the reference selection; under ANY_VALID the free plan, which is any plan allowed, in its
place (R227, R234, log entry 8). That R234 frees the policies and, where `SPIRAL_ENABLE = 1`, the flag `useSpiral` too, which
R227 and R228 give for the kept candidates, is the model's choice: DESIGN CHOICE, safe, log entry 21. -/
def choosePlan (cfg : Config.Params) (free : LzPlan) (t : FreqTable) (xs : List Word) : LzPlan :=
  match cfg.lzSelect with
  | .reference => (referencePlan cfg t xs).orDummy
  | .anyValid => (if allowedPlan cfg xs free then free else referencePlan cfg t xs).orDummy

/-! ### Stream layout (R236 to R240) -/

/-- Traces one after another. -/
def joinTraces : List (Coded (List Interval)) → Coded (List Interval)
  | [] => .ok []
  | t :: rest => do
    let a ← t
    let b ← joinTraces rest
    .ok (a ++ b)

/-- `WriteTriple((r, max, t))` (R237). -/
def tripleTrace (p : Policy) : Coded (List Interval) :=
  joinTraces
    [uniformTrace p.mode.number 3, countTrace p.max Config.hdrMaxW,
     if p.mode ≠ .whole then uniformTrace p.threshold p.max else .ok []]

/-- The flag `dummy` (R235, R238). -/
def LzPlan.dummy (plan : LzPlan) : Bool := plan.tokens.isEmpty

/-- `WriteHeader()` (R236, R238). -/
def headerTrace (n : Nat) (plan : LzPlan) : Coded (List Interval) :=
  joinTraces
    [countTrace n 32, tripleTrace plan.dist, tripleTrace plan.len,
     if plan.dist.max = 0 ∧ plan.len.max = 0 then uniformTrace plan.dummy.toNat 2 else .ok [],
     uniformTrace plan.useSpiral.toNat 2, if plan.useSpiral then tripleTrace plan.spiral else .ok []]

/-- The fields of one token, after its escape Interval `(base, buf, nb)` (R239, R240). -/
def tokenTrace (base : Nat) (plan : LzPlan) (c : Candidate) : Coded (List Interval) :=
  joinTraces
    [.ok [⟨base, buffer base, widened base⟩], splitTrace plan.len 0 (c.chunk - 2),
     splitTrace (distPolicy plan (distMax plan c)) plan.useSpiral.toNat (distValue plan c),
     if c.spiral then splitTrace plan.spiral 0 c.spiralLen else .ok []]

/-- One literal, over the un-widened base in dummy mode and the widened base otherwise (R235, R239). -/
def literalTrace (t : FreqTable) (plan : LzPlan) (x : Word) : Coded (List Interval) := do
  let iv ← t.requireInterval x
  .ok [{ iv with base := if plan.dummy then t.total else widened t.total }]

/-- `WriteBody()` from position `i`, where `skip` positions of the token before are still covered (R239). -/
def bodyTrace (t : FreqTable) (plan : LzPlan) : Nat → Nat → List Word → Coded (List Interval)
  | _, _, [] => .ok []
  | i, skip + 1, _ :: rest => bodyTrace t plan (i + 1) skip rest
  | i, 0, x :: rest =>
    match plan.tokens.find? (fun c => c.start == i) with
    | some c => do
      let a ← tokenTrace t.total plan c
      let b ← bodyTrace t plan (i + 1) (c.covered - 1) rest
      .ok (a ++ b)
    | none => do
      let a ← literalTrace t plan x
      let b ← bodyTrace t plan (i + 1) 0 rest
      .ok (a ++ b)

/-- The whole stream of a plan (R241). -/
def lzTrace (t : FreqTable) (xs : List Word) (plan : LzPlan) : Coded (List Interval) :=
  joinTraces [headerTrace xs.length plan, bodyTrace t plan 0 0 xs]

/-! ### The command -/

/-- Draw a free plan where the parameter asks for one (R234). -/
def State.drawPlan (s : State) : State :=
  match s.cfg.lzSelect with
  | .reference => s
  | .anyValid => { s with freeCount := s.freeCount + 1 }

/-- The plan LZ_ENCODE writes in a state. -/
def State.lzPlan (s : State) (xs : List Word) : LzPlan := choosePlan s.cfg (Config.freePlan s.freeCount) s.ft xs

/-- LZ_ENCODE (R241): encode `SYM_IN[0 … ARG0-1]`; the token count in `RES`, `ARG0` in `LZ_N`. -/
def execLzEncode (s : State) : Result :=
  s.finish (encode .lzEncode) do
    s.lzPrecheck
    let xs := s.symbols (s.argNat .arg0)
    let plan := s.lzPlan xs
    let t ← s.encodeTrace (← lzTrace s.ft xs plan)
    .ok (({ t.drawPlan with lzN := s.arg0 } : State).setRes (Word.ofNat plan.tokens.length))

end Sys2Proof.Machine
end

