-- ==== Sys2Proof/Machine/LzDecoder.lean ====
section
/-!
DEFINITION. Machine/LzDecoder.lean: LZ_DECODE (R260 to R273).
-/
namespace Sys2Proof.Machine

/-- A fault of a running LZ_DECODE: its decoder state and `SYM_OUT` are unspecified afterwards (R272, R305). -/
def lzFault (code : FaultCode) (aux : Nat) : Raise := ⟨code, Word.ofNat aux, .lzDecodeRun⟩

/-- `ReadTriple()` (R261); `r ≠ 0` with `max = 0` is corrupt (R262). -/
def Decoder.triple (inp : Input) (d : Decoder) : Coded (Policy × Decoder) := do
  let (r, d) ← d.uniform inp 3
  let (max, d) ← d.count inp Config.hdrMaxW
  match SplitMode.ofNumber r with
  | some .whole | none => .ok (⟨.whole, max, 0⟩, d)
  | some mode =>
    if max = 0 then .error (lzFault .corruptHeader 0)
    else
      let (t, d) ← d.uniform inp max
      .ok (⟨mode, max, t⟩, d)

/-- What the header tells the decoder (R261): `N`, the policies and the flags; no tokens yet. -/
structure LzHeader where
  count : Nat
  plan : LzPlan
  dummy : Bool
  deriving DecidableEq, Repr

/-- One flag of the header: a uniform bit. -/
def Decoder.flag (inp : Input) (d : Decoder) : Coded (Bool × Decoder) := do
  let (v, d) ← d.uniform inp 2
  .ok (v == 1, d)

/-- `ReadHeader()` (R261, R262). -/
def Decoder.header (inp : Input) (symCap : Nat) (d : Decoder) : Coded (LzHeader × Decoder) := do
  let (n, d) ← d.count inp 32
  if n > symCap then .error (lzFault .capacity n)
  else
    let (dist, d) ← d.triple inp
    let (len, d) ← d.triple inp
    let (dummy, d) ← if dist.max = 0 ∧ len.max = 0 then d.flag inp else .ok (false, d)
    let (useSpiral, d) ← d.flag inp
    if useSpiral then
      if dummy then .error (lzFault .corruptHeader 0)
      else
        let (spiral, d) ← d.triple inp
        .ok (⟨n, ⟨dist, len, spiral, true, []⟩, dummy⟩, d)
    else .ok (⟨n, ⟨dist, len, ⟨.whole, 0, 0⟩, false, []⟩, dummy⟩, d)

/-- The copy of R270: `L·(sl+1)` symbols, each chunk the same span `out[start … start+L-1]`. -/
def copyChunks (out : List Word) (start chunk spiralLen : Nat) : List Word :=
  out ++ (List.replicate (spiralLen + 1) ((out.drop start).take chunk)).flatten

/-- The distance and spiral length of a token of chunk length `L` at position `i` (R267). -/
def Decoder.tokenDistance (inp : Input) (plan : LzPlan) (i chunk : Nat) (d : Decoder) :
    Coded ((Nat × Nat) × Decoder) := do
  let dmax := Nat.min plan.dist.max (i - chunk)
  let (v, d) ← d.split inp (distPolicy plan dmax) plan.useSpiral.toNat
  if plan.useSpiral ∧ v = dmax + 1 then
    let (sl, d) ← d.split inp plan.spiral 0
    .ok ((0, sl), d)
  else .ok ((v, 0), d)

/-- `DecodeToken(i)` (R265 to R270): the output with the token's symbols. -/
def Decoder.token (inp : Input) (base : Nat) (hd : LzHeader) (out : List Word) (d : Decoder) :
    Coded (List Word × Decoder) := do
  let i := out.length
  let d ← d.narrow inp ⟨base, buffer base, widened base⟩
  let (v, d) ← d.split inp hd.plan.len 0
  let chunk := v + 2
  if i < chunk then .error (lzFault .corruptRef i)
  else
    let ((dist, sl), d) ← d.tokenDistance inp hd.plan i chunk
    if i + chunk * (sl + 1) > hd.count then .error (lzFault .corruptOverrun i)
    else .ok (copyChunks out (i - dist - chunk) chunk sl, d)

/-- `DecodeLiteral(i, b)` (R264). -/
def Decoder.literal (inp : Input) (t : FreqTable) (base : Nat) (out : List Word) (d : Decoder) :
    Coded (List Word × Decoder) := do
  let (key, d) ← d.symbol inp t base
  .ok (out ++ [key], d)

/-- One iteration of the body loop (R263). -/
def Decoder.bodyItem (inp : Input) (t : FreqTable) (hd : LzHeader) (out : List Word) (d : Decoder) :
    Coded (List Word × Decoder) := do
  if hd.dummy then d.literal inp t t.total out
  else
    let v ← d.peek (widened t.total)
    if v ≥ t.total then d.token inp t.total hd out
    else d.literal inp t (widened t.total) out

/-- The body loop: at most `N` iterations, since each appends at least one symbol (R263, R271). -/
def Decoder.body (inp : Input) (t : FreqTable) (hd : LzHeader) : Nat → List Word → Decoder → Coded (List Word × Decoder)
  | 0, out, d => .ok (out, d)
  | fuel + 1, out, d =>
    if out.length < hd.count then do
      let (out, d) ← d.bodyItem inp t hd out
      Decoder.body inp t hd fuel out d
    else .ok (out, d)

/-- The stream: header and body; `N` and the output (R272). -/
def Decoder.lzStream (inp : Input) (t : FreqTable) (symCap : Nat) (d : Decoder) :
    Coded ((Nat × List Word) × Decoder) := do
  let (hd, d) ← d.header inp symCap
  let (out, d) ← d.body inp t hd hd.count []
  .ok ((hd.count, out), d)

/-- LZ_DECODE (R272): the decoded symbols in `SYM_OUT`, their count `N` in `RES` and `LZ_N`. -/
def execLzDecode (s : State) : Result :=
  s.finish (encode .lzDecode) do
    s.ft.checkModel
    let ((n, out), d) ← s.dec.lzStream s.input s.ft s.cfg.symCap
    .ok (({ s with dec := d, mem := s.mem.writeSymOut 0 out, lzN := Word.ofNat n } : State).setRes (Word.ofNat n))

end Sys2Proof.Machine
end

