-- ==== Sys2Proof/Machine/Dispatch.lean ====
section
/-! DEFINITION. Machine/Dispatch.lean: the effect of each command, one meaning per row of the opcode table. -/
namespace Sys2Proof.Machine

def exec (i : Instr) (s : State) : Host.Outcome State Fault Refusal :=
  match i with
  -- unit 0x0: block control
  | .illegal upper => Sys2Proof.Machine.execIllegal upper s
  | .nop => Sys2Proof.Machine.execNop s
  | .blkReset => Sys2Proof.Machine.execBlkReset s
  -- unit 0x1: range encoder
  | .encReset => Sys2Proof.Machine.execEncReset s
  | .encWriteEqual => Sys2Proof.Machine.execEncWriteEqual s
  | .encWritePart => Sys2Proof.Machine.execEncWritePart s
  | .encWritePartFt => Sys2Proof.Machine.execEncWritePartFt s
  | .encWriteFib => Sys2Proof.Machine.execEncWriteFib s
  | .encWriteCount W => Sys2Proof.Machine.execEncWriteCount W s
  | .encWriteSplit r extra => Sys2Proof.Machine.execEncWriteSplit r extra s
  | .encFinish => Sys2Proof.Machine.execEncFinish s
  -- unit 0x2: range decoder
  | .decReset => Sys2Proof.Machine.execDecReset s
  | .decReadEqual => Sys2Proof.Machine.execDecReadEqual s
  | .decPeek => Sys2Proof.Machine.execDecPeek s
  | .decNarrow => Sys2Proof.Machine.execDecNarrow s
  | .decReadPartFt => Sys2Proof.Machine.execDecReadPartFt s
  | .decReadFib => Sys2Proof.Machine.execDecReadFib s
  | .decReadCount W => Sys2Proof.Machine.execDecReadCount W s
  | .decReadSplit r extra => Sys2Proof.Machine.execDecReadSplit r extra s
  -- unit 0x3: frequency table
  | .ftClear => Sys2Proof.Machine.execFtClear s
  | .ftInsert => Sys2Proof.Machine.execFtInsert s
  | .ftRemove => Sys2Proof.Machine.execFtRemove s
  | .ftIncrease => Sys2Proof.Machine.execFtIncrease s
  | .ftCum => Sys2Proof.Machine.execFtCum s
  | .ftFind => Sys2Proof.Machine.execFtFind s
  | .ftTotal => Sys2Proof.Machine.execFtTotal s
  | .ftWeight => Sys2Proof.Machine.execFtWeight s
  -- unit 0x4: LZ engine
  | .lzEncode => Sys2Proof.Machine.execLzEncode s
  | .lzDecode => Sys2Proof.Machine.execLzDecode s

end Sys2Proof.Machine
end

