-- ==== Sys2Proof/Machine/Flags.lean ====
section
/-!
DEFINITION. Machine/Flags.lean: `STATUS`, the only flags of the block (R23, R40), and the fault codes' numbers (R301).
-/
namespace Sys2Proof.Machine

/-- The number of a fault code (R301). -/
def FaultCode.toByte : FaultCode → Byte
  | .noFault => 0
  | .badOpcode => 1
  | .eqRange => 2
  | .badInterval => 3
  | .fibZero => 4
  | .countRange => 5
  | .splitPolicy => 6
  | .splitDomain => 7
  | .ftKey => 8
  | .ftWeight => 9
  | .ftFull => 10
  | .isSealed => 11
  | .pendingOvf => 12
  | .capacity => 13
  | .narrowMismatch => 14
  | .lzModel => 15
  | .lzSymbol => 16
  | .corruptFib => 17
  | .corruptHeader => 18
  | .corruptRef => 19
  | .corruptOverrun => 20

/-- `STATUS`: `FAULT` in [7:0], `ENC_SEALED` in [8], [31:9] read as 0 (R23). -/
def State.status (s : State) : Word :=
  (0 : BitVec 23) ++ ((if s.enc.isSealed then 1 else 0 : BitVec 1) ++ s.fault.toByte)

/-- The block is faulted: `STATUS.FAULT ≠ 0` (R300, R306). -/
def State.faulted (s : State) : Bool := s.fault != .noFault

end Sys2Proof.Machine
end

