-- ==== Sys2Proof/Machine/Issue.lean ====
section
/-!
DEFINITION. Machine/Issue.lean: the host's accesses: reading and writing the window, and issuing a command.
Rules R21, R23, R30, R35 (registers), R50 to R56 (window), R39, R73, R306 (commands).
-/
namespace Sys2Proof.Machine

/-! ### Reads (R21, R51, R53) -/

/-- The register at an offset; `CMD` and the reserved offsets read 0 (R21, R35). -/
def State.readReg (s : State) : Nat → Word
  | 0x04 => s.arg0
  | 0x08 => s.arg1
  | 0x0C => s.arg2
  | 0x10 => s.res
  | 0x14 => s.status
  | 0x18 => s.faultInfo
  | 0x1C => s.faultAux
  | 0x20 => s.enc.low
  | 0x24 => s.enc.high
  | 0x28 => s.enc.pending
  | 0x2C => Word.ofNat s.enc.bits.length
  | 0x30 => s.dec.low
  | 0x34 => s.dec.high
  | 0x38 => s.dec.value
  | 0x3C => Word.ofNat (Nat.min s.dec.pos Config.top)
  | 0x40 => s.dec.inLen
  | 0x44 => Word.ofNat s.ft.length
  | 0x48 => Word.ofNat s.ft.total
  | 0x4C => s.lzN
  | 0x50 => Config.ident
  | _ => 0

/-- Four bytes of a byte space as a host word, little-endian (R53). -/
def wordOf (byteAt : Nat → Byte) (j : Nat) : Word :=
  wordOfBytes (byteAt j) (byteAt (j + 1)) (byteAt (j + 2)) (byteAt (j + 3))

/-- The word at an aligned offset of the window (R51). -/
def State.readWindow (s : State) (off : Nat) : Word :=
  if off < encOutBase then s.readReg off
  else if off < decInBase then wordOf s.encOutByte (off - encOutBase)
  else if off < symInBase then wordOf s.input.byte (off - decInBase)
  else if off < symOutBase then s.symInWord ((off - symInBase) / 4)
  else if off < reservedBase then s.symOutWord ((off - symOutBase) / 4)
  else 0

/-! ### Writes other than to `CMD` (R35, R51, R53) -/

/-- A host write to a register: only `ARG0` to `ARG2` take it (R21, R35). -/
def State.writeReg (v : Word) (s : State) : Nat → State
  | 0x04 => s.setArg .arg0 v
  | 0x08 => s.setArg .arg1 v
  | 0x0C => s.setArg .arg2 v
  | _ => s

/-- A host word written to `DEC_IN`: its four bytes, each within the capacity (R51, R53). -/
def State.setDecInWord (j : Nat) (v : Word) (s : State) : State :=
  (((s.setDecInByte j (wordByte v 0)).setDecInByte (j + 1) (wordByte v 1)).setDecInByte (j + 2)
    (wordByte v 2)).setDecInByte (j + 3) (wordByte v 3)

/-- A host write of a word at an aligned offset; `ENC_OUT`, `SYM_OUT` and the reserved range ignore it (R50, R51). -/
def State.writeWindow (off : Nat) (v : Word) (s : State) : State :=
  if off < encOutBase then s.writeReg v off
  else if off < decInBase then s
  else if off < symInBase then s.setDecInWord (off - decInBase) v
  else if off < symOutBase then s.setSymInWord ((off - symInBase) / 4) v
  else s

/-! ### Commands (R70, R73, R306) -/

/-- The word of BLK_RESET, the only one a faulted block does not ignore (R281, R306). -/
def resetWord : Word := 0x00000002

/-- The host's index advances by one, whatever becomes of the command (R39). -/
def State.advance (s : State) : State := { s with pc := s.pc + 1 }

/-- Decode a word and run its command; a word the decode rejects raises BAD_OPCODE (R73). -/
def runWord (w : Word) (s : State) : Result :=
  match decode w with
  | .ok i => exec i s
  | .error _ => .next (s.takeFault w badOpcode)

/-- A host write of `w` to `CMD`: ignored while faulted unless it is BLK_RESET (R306). -/
def issue (w : Word) (s : State) : Result :=
  if s.faulted ∧ w ≠ resetWord then .next s.advance else runWord w s.advance

/-! ### Accesses (R55, R56) -/

/-- The block takes a 32-bit access at a multiple of 4; it ignores any other (R55). -/
def takesAccess (off bits : Nat) : Bool := bits == 32 && off % 4 == 0

/-- A host read: it changes nothing in the block, and an access the block ignores reads 0 (R55, R56). -/
def hostRead (off bits : Nat) (s : State) : State :=
  { s with hostData := some (if takesAccess off bits then s.readWindow off else 0) }

/-- A host write: a write to `CMD` issues a command (R56). -/
def hostWrite (off bits : Nat) (v : Word) (s : State) : Result :=
  if takesAccess off bits then
    if off = 0 then issue v s else .next (s.writeWindow off v)
  else .next s

/-- One host access by its bus address; outside the window it is not the block's (R51, log entry 6). -/
def access (a : HostAccess) (s : State) : Result :=
  match a with
  | .read addr bits =>
    match windowOffset s.cfg addr with
    | some off => .next (hostRead off bits s)
    | none => .fault (.outsideWindow addr)
  | .write addr bits v =>
    match windowOffset s.cfg addr with
    | some off => hostWrite off bits v s
    | none => .fault (.outsideWindow addr)

/-- The next host access, taken from the queue; a block that is given none is idle and keeps its state (R315, R338). -/
def hostStep (s : State) : Result :=
  match s.hostQueue with
  | [] => .next s
  | a :: rest => access a { s with hostQueue := rest }

/-- A host write of a command word to `CMD`. -/
def cmdWrite (cfg : Config.Params) (w : Word) : HostAccess := .write cfg.blkBase 32 w

/-- Place a host write of `w` to `CMD` before the accesses still to be made. -/
def State.queueCommand (w : Word) (s : State) : State := { s with hostQueue := cmdWrite s.cfg w :: s.hostQueue }

end Sys2Proof.Machine
end

