-- ==== Sys2Proof/Machine/Program.lean ====
section
/-!
DEFINITION. Machine/Program.lean: host programs as lists of statements and the accesses a statement expands to (R77, R78).
The text of a statement is read in Machine/Assembler.lean.
-/
namespace Sys2Proof.Machine

/-- A statement of the assembly language (R77). -/
inductive Stmt where
  /-- `MNEMONIC a0, a1, a2`: the operands present, in the order of R74 -/
  | command (i : Instr) (operands : List Word)
  /-- `HW offset, value` -/
  | hostWrite (off : Nat) (value : Word)
  /-- `HR offset` -/
  | hostRead (off : Nat)
  /-- `.word w` -/
  | word (w : Word)
  deriving DecidableEq, Repr

/-- A 32-bit host write at a window offset. -/
def writeAt (cfg : Config.Params) (off : Nat) (v : Word) : HostAccess := .write (cfg.blkBase + off) 32 v

/-- The accesses a statement expands to, in order: the operands to their `ARG` registers, then the word to `CMD`
(R77). -/
def Stmt.expand (cfg : Config.Params) : Stmt → List HostAccess
  | .command i operands =>
    ((argRegs i).zip operands).map (fun p => writeAt cfg p.1.offset p.2) ++ [cmdWrite cfg (encode i)]
  | .hostWrite off v => [writeAt cfg off v]
  | .hostRead off => [.read (cfg.blkBase + off) 32]
  | .word w => [cmdWrite cfg w]

/-- A program is its statements in order (R77). -/
def expandProgram (cfg : Config.Params) (p : List Stmt) : List HostAccess := p.flatMap (Stmt.expand cfg)

/-- The host is about to run a program: its accesses wait in the queue (R39, R338). -/
def State.withProgram (p : List Stmt) (s : State) : State := { s with hostQueue := expandProgram s.cfg p }

/-! ### Pseudo-instructions (R78) -/

/-- `ENC_WRITE_BIT b` -/
def Stmt.encWriteBit (b : Word) : Stmt := .command .encWriteEqual [b, 2]
/-- `DEC_READ_BIT` -/
def Stmt.decReadBit : Stmt := .command .decReadEqual [2]
/-- `ENC_WRITE_COUNT32 n` -/
def Stmt.encWriteCount32 (n : Word) : Stmt := .command (.encWriteCount 32) [n]
/-- `DEC_READ_COUNT32` -/
def Stmt.decReadCount32 : Stmt := .command (.decReadCount 32) []
/-- `ENC_WRITE_SENTINEL`: the sentinel of R9. -/
def Stmt.encWriteSentinel : Stmt := .command .encWriteEqual [Word.ofNat Config.sentC, Word.ofNat Config.sentCount]
/-- `DEC_READ_SENTINEL` -/
def Stmt.decReadSentinel : Stmt := .command .decReadEqual [Word.ofNat Config.sentCount]
/-- `ENC_ENCODE_VALUE.rR[.e] v, max, t` -/
def Stmt.encEncodeValue (r : Nat) (extra : Bool) (v max t : Word) : Stmt := .command (.encWriteSplit r extra) [v, max, t]

end Sys2Proof.Machine
end

