-- ==== Sys2Proof/Machine/Step.lean ====
section
/-! DEFINITION. Machine/Step.lean: one step is one host access (R6, R7, R58). -/
namespace Sys2Proof.Machine

/-- One step: the next host access takes effect, a command completely, before the one after it (R58). -/
def step (s : State) : Host.Outcome State Fault Refusal := hostStep s

/-- The next host access is a write to `CMD` of the word whose low `nbits` bits are `w`'s (R39, R70). A command comes from
the host, so this stands for the host issuing it: log entry 4. -/
def State.withFetchWord (s : State) (nbits w : Nat) : State := s.queueCommand (BitVec.ofNat 32 (w % 2 ^ nbits))

end Sys2Proof.Machine
end

