-- ==== Sys2Proof/Safety.lean ====
section
/-!
DEFINITION. Safety.lean: the invariants of the block (R27, R32, R37, R38, R180, R24), what a safe run is, and the functions
statements are written with.

Those functions are the spec's formulas written a second time, from the rules' tables and pseudocode, so that a statement
does not say of a meaning only what its definition says.
-/
namespace Sys2Proof.Machine

/-- The encoder between commands: `ENC_L < HALF ≤ ENC_H` and `ENC_H - ENC_L ≥ Q1 + 1` (R37). -/
structure Encoder.Settled (e : Encoder) : Prop where
  low_lt : e.low.toNat < Config.half
  high_ge : Config.half ≤ e.high.toNat
  width : e.low.toNat + Config.q1 + 1 ≤ e.high.toNat

/-- The decoder between commands: `DEC_L ≤ DEC_VALUE ≤ DEC_H` and `DEC_L < HALF ≤ DEC_H` (R38), and the width the
encoder's bounds have, which the same steps give (R144; DEDUCED, log entry 12). -/
structure Decoder.Settled (d : Decoder) : Prop where
  low_lt : d.low.toNat < Config.half
  high_ge : Config.half ≤ d.high.toNat
  width : d.low.toNat + Config.q1 + 1 ≤ d.high.toNat
  value_ge : d.low.toNat ≤ d.value.toNat
  value_le : d.value.toNat ≤ d.high.toNat

/-- The table: keys strictly rising, every weight positive, and both bounds (R32, R180). -/
structure FreqTable.Wf (cap : Nat) (t : FreqTable) : Prop where
  sorted : t.Pairwise (fun c c' => c.1.toNat < c'.1.toNat)
  positive : ∀ c ∈ t, c.2 ≠ 0
  count_le : t.length ≤ cap
  total_le : t.total ≤ Config.top

/-- A stored byte lies in `DEC_IN`, `SYM_IN` or `SYM_OUT`, below its capacity (R50, R51). -/
def inSpaces (cfg : Config.Params) (a : Nat) : Prop :=
  (decInBase ≤ a ∧ a < decInBase + cfg.inCap) ∨ (symInBase ≤ a ∧ a < symInBase + 4 * cfg.symCap) ∨
    (symOutBase ≤ a ∧ a < symOutBase + 4 * cfg.symCap)

/-- The invariant every step keeps. The coders' bounds are promised only while no fault is recorded: after an
execution-time fault their state is unspecified (R305). -/
structure State.Inv (s : State) : Prop where
  legal : s.cfg.legal = true
  memory : s.mem.wf
  stored : ∀ c ∈ s.mem, inSpaces s.cfg c.1
  table : s.ft.Wf s.cfg.ftCap
  bits : s.enc.bits.length ≤ 8 * s.cfg.encCap
  input : s.dec.inLen.toNat ≤ s.cfg.inCap
  encoder : s.fault = .noFault → s.enc.Settled
  decoder : s.fault = .noFault → s.dec.Settled
  record : s.fault = .noFault → s.faultInfo = 0 ∧ s.faultAux = 0

/-- No fault is recorded: the run so far is safe. -/
abbrev State.safe (s : State) : Prop := s.fault = .noFault

/-! ### Codes as Intervals, written from the rules -/

/-- The Intervals of `UniformWrite(c, count)` (R105). -/
def uniformIntervals (c count : Nat) : List Interval :=
  if count ≤ 65536 then [⟨c, 1, count⟩]
  else
    [⟨c / 65536, 1, (count - 1) / 65536 + 1⟩,
     ⟨c % 65536, 1, if c / 65536 < (count - 1) / 65536 then 65536 else (count - 1) % 65536 + 1⟩]

/-- The Intervals of a bit string, each bit one uniform value over 2 (R106). -/
def bitIntervals (bits : List Bool) : List Interval := bits.map (fun b => ⟨b.toNat, 1, 2⟩)

/-- The Intervals of `CountWrite(n, W)` where `k = ⌊log2(n + 1)⌋` (R108). -/
def countIntervals (n W k : Nat) : List Interval :=
  uniformIntervals k (W + 1) ++ if 0 < k ∧ k < W then uniformIntervals (n + 1 - 2 ^ k) (2 ^ k) else []

/-- The `(symbol, count)` list of `SplitIntervals(v, r, max, t, e)` (R200, R202). -/
def splitCodes (r max t e v : Nat) : List (Nat × Nat) :=
  if r = 0 ∨ t ≥ max then [(v, max + 1 + e)]
  else if r = 1 then
    if v ≤ t then [(v, t + 2)] else [(t + 1, t + 2), (v - t - 1, max - t + e)]
  else if v > t then [(v - t - 1, max - t + e + 1)]
  else [(max - t + e, max - t + e + 1), (v, t + 1)]

/-- The Intervals of `SplitWrite(v, r, max, t, e)` (R202). -/
def splitCodeIntervals (r max t e v : Nat) : List Interval :=
  (splitCodes r max t e v).flatMap (fun p => uniformIntervals p.1 p.2)

/-- The decoder consumes each Interval of a trace in order (R126, R143). -/
def Decoder.narrowAll (inp : Input) : List Interval → Decoder → Coded Decoder
  | [], d => .ok d
  | iv :: rest, d => (d.narrow inp iv).bind (Decoder.narrowAll inp rest)

/-- `n` more bits fit `ENC_OUT` beside those emitted and those pending. -/
def Encoder.room (cap n : Nat) (e : Encoder) : Prop := e.bits.length + e.pending.toNat + n ≤ 8 * cap

/-! ### The fault record (R302) -/

/-- The state after a precise fault of command `i`: the record, and nothing else. -/
def State.faultedBy (i : Instr) (code : FaultCode) (aux : Word) (s : State) : State :=
  { s with fault := code, faultInfo := encode i, faultAux := aux }

/-- Command `i` records a fault: its code, its command word and its aux value (R302). What else it may disturb is R303 and
R305. -/
def State.records (i : Instr) (code : FaultCode) (aux : Word) (s : State) : Prop :=
  ∃ t, exec i s = .next t ∧ t.fault = code ∧ t.faultInfo = encode i ∧ t.faultAux = aux

/-- What command `i` does if it narrows the encoder by the Intervals of `trace` and then leaves the state `done` makes of
the encoder: it completes exactly where the narrowings do; where they end in a fault (no room, R112, or a pending count that
would pass its limit, R111) the command records that fault; and they complete where 32 bits are free for each Interval. -/
def State.writesTrace (i : Instr) (trace : List Interval) (done : Encoder → State) (s : State) : Prop :=
  (∀ e, s.enc.writeAll s.cfg.encCap trace = .ok e → exec i s = .next (done e)) ∧
    (∀ f, s.enc.writeAll s.cfg.encCap trace = .error f →
      (f.code = .capacity ∨ f.code = .pendingOvf) ∧ s.records i f.code f.aux) ∧
    (s.enc.room s.cfg.encCap (32 * trace.length) →
      ∃ e, s.enc.writeAll s.cfg.encCap trace = .ok e ∧ exec i s = .next (done e))

/-- The numbers of the fault codes, as R301 lists them. -/
def faultNumbers : List (FaultCode × Nat) :=
  [(.noFault, 0), (.badOpcode, 1), (.eqRange, 2), (.badInterval, 3), (.fibZero, 4), (.countRange, 5), (.splitPolicy, 6)] ++
  [(.splitDomain, 7), (.ftKey, 8), (.ftWeight, 9), (.ftFull, 10), (.isSealed, 11), (.pendingOvf, 12), (.capacity, 13)] ++
  [(.narrowMismatch, 14), (.lzModel, 15), (.lzSymbol, 16), (.corruptFib, 17), (.corruptHeader, 18), (.corruptRef, 19)] ++
  [(.corruptOverrun, 20)]

/-- The faults R301 names for a command, in its column "raised by". -/
def documentedFaults : Instr → List FaultCode
  | .illegal _ => [.badOpcode]
  | .nop | .blkReset | .encReset | .ftClear | .ftTotal => []
  | .encWriteEqual => [.isSealed, .eqRange, .capacity, .pendingOvf]
  | .encWritePart => [.isSealed, .badInterval, .capacity, .pendingOvf]
  | .encWritePartFt => [.isSealed, .ftKey, .badInterval, .capacity, .pendingOvf]
  | .encWriteFib => [.isSealed, .fibZero, .capacity, .pendingOvf]
  | .encWriteCount _ => [.isSealed, .countRange, .capacity, .pendingOvf]
  | .encWriteSplit _ _ => [.isSealed, .splitPolicy, .splitDomain, .capacity, .pendingOvf]
  | .encFinish => [.isSealed, .capacity, .pendingOvf]
  | .decReset => [.capacity]
  | .decReadEqual => [.eqRange]
  | .decPeek => [.badInterval]
  | .decNarrow => [.badInterval, .narrowMismatch]
  | .decReadPartFt => [.ftKey, .badInterval]
  | .decReadFib => [.corruptFib]
  | .decReadCount _ => [.countRange]
  | .decReadSplit _ _ => [.splitPolicy, .splitDomain]
  | .ftInsert => [.ftKey, .ftWeight, .ftFull]
  | .ftIncrease => [.ftKey, .ftWeight]
  | .ftRemove | .ftCum | .ftFind | .ftWeight => [.ftKey]
  | .lzEncode => [.isSealed, .capacity, .lzModel, .lzSymbol, .pendingOvf]
  | .lzDecode => [.lzModel, .capacity, .corruptHeader, .corruptRef, .corruptOverrun]

/-- The codes whose `FAULT_AUX` is not 0 (R301). -/
def carriesAux : FaultCode → Bool
  | .ftKey | .capacity | .narrowMismatch | .lzSymbol | .corruptRef | .corruptOverrun => true
  | _ => false

/-- The commands of unit 0x1 and ENC_WRITE_SPLIT, which narrow or reset the encoder. -/
def isEncoderCommand : Instr → Bool
  | .encReset | .encWriteEqual | .encWritePart | .encWritePartFt | .encWriteFib | .encWriteCount _ | .encWriteSplit _ _
  | .encFinish => true
  | _ => false

/-- The commands of unit 0x2. -/
def isDecoderCommand : Instr → Bool
  | .decReset | .decReadEqual | .decPeek | .decNarrow | .decReadPartFt | .decReadFib | .decReadCount _
  | .decReadSplit _ _ => true
  | _ => false

/-- The commands of unit 0x3. -/
def isTableCommand : Instr → Bool
  | .ftClear | .ftInsert | .ftRemove | .ftIncrease | .ftCum | .ftFind | .ftTotal | .ftWeight => true
  | _ => false

/-- The registers no command but BLK_RESET writes, and the model's own fields that no command writes. -/
def State.sameHostSide (s t : State) : Prop :=
  t.arg0 = s.arg0 ∧ t.arg1 = s.arg1 ∧ t.arg2 = s.arg2 ∧ t.pc = s.pc ∧ t.hostQueue = s.hostQueue ∧
    t.hostData = s.hostData ∧ t.cfg = s.cfg

/-- Either no fault was raised and the record is kept, or the record names command `i`. -/
def State.recordOf (i : Instr) (s t : State) : Prop :=
  (t.fault = s.fault ∧ t.faultInfo = s.faultInfo ∧ t.faultAux = s.faultAux) ∨
    (t.fault ≠ .noFault ∧ t.faultInfo = encode i)

/-- Every byte of the memories reads as before. -/
def State.sameBytes (s t : State) : Prop := ∀ x, t.mem.readByte x = s.mem.readByte x

/-- The illegal command words, as R75 lists them. -/
def illegalWord (w : Word) : Prop :=
  let op := (w.extractLsb' 0 8).toNat
  let mod := (w.extractLsb' 8 8).toNat
  let rsv := (w.extractLsb' 16 16).toNat
  op = 0 ∨ (0x03 ≤ op ∧ op ≤ 0x0F) ∨ (0x18 ≤ op ∧ op ≤ 0x1F) ∨ (0x28 ≤ op ∧ op ≤ 0x2F) ∨ (0x38 ≤ op ∧ op ≤ 0x3F) ∨
    0x42 ≤ op ∨ rsv ≠ 0 ∨ (op ≠ 0x15 ∧ op ≠ 0x16 ∧ op ≠ 0x26 ∧ op ≠ 0x27 ∧ mod ≠ 0) ∨
    ((op = 0x16 ∨ op = 0x27) ∧ mod / 8 ≠ 0)

/-- The register map of R21: offset and reset value of every register. -/
def resetRegisters : List (Nat × Word) :=
  [(0x00, 0), (0x04, 0), (0x08, 0), (0x0C, 0), (0x10, 0), (0x14, 0), (0x18, 0), (0x1C, 0)] ++
  [(0x20, 0), (0x24, 0xFFFFFFFF), (0x28, 0), (0x2C, 0), (0x30, 0), (0x34, 0xFFFFFFFF), (0x38, 0), (0x3C, 32)] ++
  [(0x40, 0), (0x44, 0), (0x48, 0), (0x4C, 0), (0x50, 0x41524C01)]

/-- What each register of the register map but `STATUS` reads in a state: `ENC_NBITS` counts the emitted bits, `DEC_POS` is
cut off at the largest word, `FT_COUNT` and `FT_TOTAL` reflect the table (R21, R22, R24 to R34). -/
def State.registerMap (s : State) : List (Nat × Word) :=
  [(0x00, 0), (0x04, s.arg0), (0x08, s.arg1), (0x0C, s.arg2), (0x10, s.res), (0x18, s.faultInfo), (0x1C, s.faultAux)] ++
  [(0x20, s.enc.low), (0x24, s.enc.high), (0x28, s.enc.pending), (0x2C, BitVec.ofNat 32 s.enc.bits.length)] ++
  [(0x30, s.dec.low), (0x34, s.dec.high), (0x38, s.dec.value), (0x40, s.dec.inLen)] ++
  [(0x3C, if s.dec.pos ≤ 0xFFFFFFFF then BitVec.ofNat 32 s.dec.pos else 0xFFFFFFFF)] ++
  [(0x44, BitVec.ofNat 32 s.ft.length), (0x48, BitVec.ofNat 32 ((s.ft.map (fun c => c.2.toNat)).sum))] ++
  [(0x4C, s.lzN), (0x50, 0x41524C01)]

/-- The state after `n` steps, stopping where a step does. -/
def runSteps : Nat → State → Result
  | 0, s => .next s
  | n + 1, s =>
    match step s with
    | .next t => runSteps n t
    | .fault r => .fault r
    | .refused r => .refused r

/-- The literal model is usable: a nonempty table whose widened base is at most `MAX_BASE` (R221, R260). -/
def FreqTable.usable (t : FreqTable) : Prop := t ≠ [] ∧ widened t.total ≤ 0x40000000

/-! ### The LZ stream, written from the rules (R235 to R240) -/

/-- The weight the table gives a symbol, 0 for none. -/
def FreqTable.weightIn (t : FreqTable) (x : Word) : Nat := ((List.lookup x t).getD 0).toNat

/-- The Intervals of `WriteTriple((r, max, t))` (R237). -/
def policyIntervals (p : Policy) : List Interval :=
  uniformIntervals p.mode.number 3 ++ countIntervals p.max 16 (Nat.log2 (p.max + 1)) ++
    if p.mode = .whole then [] else uniformIntervals p.threshold p.max

/-- The part of the header before the flag `useSpiral` (R236, R238). -/
def headerStart (n : Nat) (dummy : Bool) (dist len : Policy) : List Interval :=
  countIntervals n 32 (Nat.log2 (n + 1)) ++ policyIntervals dist ++ policyIntervals len ++
    if dist.max = 0 ∧ len.max = 0 then uniformIntervals dummy.toNat 2 else []

/-- The Intervals of `WriteHeader()` (R236, R238). -/
def headerIntervals (n : Nat) (dummy : Bool) (plan : LzPlan) : List Interval :=
  headerStart n dummy plan.dist plan.len ++ uniformIntervals plan.useSpiral.toNat 2 ++
    if plan.useSpiral then policyIntervals plan.spiral else []

/-- The escape of a token, and its chunk length (R239, R240). -/
def tokenStart (base : Nat) (plan : LzPlan) (chunk : Nat) : List Interval :=
  ⟨base, buffer base, base + buffer base⟩ ::
    splitCodeIntervals plan.len.mode.number plan.len.max plan.len.threshold 0 (chunk - 2)

/-- The distance bound of a token (R232). -/
def LzPlan.distBound (plan : LzPlan) (i chunk : Nat) : Nat := min plan.dist.max (i - chunk)

/-- The distance value of a token at position `i`, and its spiral length where there is one (R232, R239). -/
def distanceIntervals (plan : LzPlan) (i chunk : Nat) (dist : Nat) (spiralLen : Option Nat) : List Interval :=
  splitCodeIntervals plan.dist.mode.number (plan.distBound i chunk) plan.dist.threshold plan.useSpiral.toNat
      (match spiralLen with
       | some _ => plan.distBound i chunk + 1
       | none => dist) ++
    match spiralLen with
    | some sl => splitCodeIntervals plan.spiral.mode.number plan.spiral.max plan.spiral.threshold 0 sl
    | none => []

/-- The Intervals of one token (R239, R240). -/
def tokenIntervals (base : Nat) (plan : LzPlan) (c : Candidate) : List Interval :=
  tokenStart base plan c.chunk ++
    distanceIntervals plan c.start c.chunk c.dist (if c.spiral then some c.spiralLen else none)

/-- The Interval of a literal: over the un-widened base in dummy mode, and the widened base otherwise (R235, R239). -/
def literalInterval (t : FreqTable) (dummy : Bool) (x : Word) : Interval :=
  ⟨((t.filter (fun c => c.1.toNat < x.toNat)).map (fun c => c.2.toNat)).sum, t.weightIn x,
    if dummy then t.total else t.total + buffer t.total⟩

/-- What position `i` writes: a token that starts there, nothing inside a token, a literal elsewhere (R239). -/
def positionIntervals (t : FreqTable) (dummy : Bool) (plan : LzPlan) (xs : List Word) (i : Nat) : List Interval :=
  if plan.tokens.any (fun c => c.start < i && i < c.start + c.covered) then []
  else
    match plan.tokens.find? (fun c => c.start == i) with
    | some c => tokenIntervals t.total plan c
    | none => [literalInterval t dummy (xs.getD i 0)]

/-- The Intervals of `WriteBody()`, left to right (R239). -/
def bodyIntervals (t : FreqTable) (dummy : Bool) (plan : LzPlan) (xs : List Word) : List Interval :=
  (List.range xs.length).flatMap (positionIntervals t dummy plan xs)

/-- The parameters of dummy mode (R235). -/
def dummyPlan : LzPlan := ⟨⟨.whole, 0, 0⟩, ⟨.whole, 0, 0⟩, ⟨.whole, 0, 0⟩, false, []⟩

/-- The whole stream of a plan: the flag `dummy` is set, and the parameters are those of dummy mode, where it has no token
(R235, R241). -/
def lzIntervals (t : FreqTable) (xs : List Word) (plan : LzPlan) : List Interval :=
  if plan.tokens = [] then headerIntervals xs.length true dummyPlan ++ bodyIntervals t true dummyPlan xs
  else headerIntervals xs.length false plan ++ bodyIntervals t false plan xs

/-! ### The plans an LZ stream may be written from (R234) -/

/-- The header can carry a policy: `max` in 16 bits, and a split's threshold below it (R234, R237). -/
def Policy.carried (p : Policy) : Prop := p.max < 65536 ∧ (p.mode = .whole ∨ p.threshold < p.max)

/-- What R234's list asks of one token, and nothing more (log entries 22 and 23): its sizes, its policies' domains, and that
copying its source reproduces the input. -/
structure LzPlan.ValidToken (xs : List Word) (plan : LzPlan) (c : Candidate) : Prop where
  chunk_ge : 2 ≤ c.chunk
  chunk_le : c.chunk ≤ c.start
  chunk_domain : c.chunk - 2 ≤ plan.len.max
  within : c.start + c.covered ≤ xs.length
  spiral : c.spiral = true → plan.useSpiral = true ∧ c.spiralLen ≤ plan.spiral.max
  plain : c.spiral = false → c.spiralLen = 0 ∧ c.dist ≤ plan.distBound c.start c.chunk
  copies : ∀ q, q < c.covered →
    xs[c.start + q]? = xs[c.start - (if c.spiral then 0 else c.dist) - c.chunk + q % c.chunk]?

/-- What R234 asks of a plan for the symbols `xs`. -/
structure LzPlan.Valid (xs : List Word) (plan : LzPlan) : Prop where
  dist : plan.dist.carried
  len : plan.len.carried
  spiral : plan.useSpiral = true → plan.spiral.carried
  tokens : ∀ c ∈ plan.tokens, plan.ValidToken xs c
  disjoint : plan.tokens.Pairwise (fun c c' => c.start + c.covered ≤ c'.start ∨ c'.start + c'.covered ≤ c.start)

/-! ### The reference selection, written from the rules (R223 to R233) -/

/-- `(i, j)` is a match of length `k` (R223). -/
def isMatch (cfg : Config.Params) (xs : List Word) (i j k : Nat) : Prop :=
  j + 2 ≤ i ∧ i - j < cfg.dictSize ∧ i + cfg.prefixLen ≤ xs.length ∧ cfg.prefixLen ≤ k ∧
    k ≤ min (xs.length - i) 65537 ∧ (∀ m, m < k → xs[j + m]? = xs[i + m]?) ∧
    (k = min (xs.length - i) 65537 ∨ xs[j + k]? ≠ xs[i + k]?)

/-- The candidate a match of length `k` with period `p` forms; it says nothing of a spiral's `dist` (R224). -/
def Candidate.formedBy (spiralEnable : Bool) (i p k : Nat) (c : Candidate) : Prop :=
  c.start = i ∧
    if spiralEnable = true ∧ 2 * p ≤ k then c.spiral = true ∧ c.chunk = p ∧ c.spiralLen = k / p - 1
    else if p < k then c.spiral = false ∧ c.chunk = p ∧ c.spiralLen = 0 ∧ c.dist = 0
    else c.spiral = false ∧ c.chunk = k ∧ c.spiralLen = 0 ∧ c.dist = p - k

/-- The product of the weights of the `n` symbols from `i` on (R225, R233). -/
def spanProduct (t : FreqTable) (xs : List Word) (i n : Nat) : Nat := (((xs.drop i).take n).map t.weightIn).prod

/-- A candidate the match `(i, j)` forms and the raw filter passes (R223 to R225). -/
def isFound (cfg : Config.Params) (t : FreqTable) (xs : List Word) (i j : Nat) (c : Candidate) : Prop :=
  ∃ k, isMatch cfg xs i j k ∧ c.formedBy cfg.spiralEnable i (i - j) k ∧
    21 * cfg.dictSize * c.covered * spanProduct t xs i c.covered < t.total ^ c.covered

/-- The kept candidate of a start: the largest covered length, and the nearest predecessor on a tie (R226). -/
def isKept (cfg : Config.Params) (t : FreqTable) (xs : List Word) (i : Nat) (c : Candidate) : Prop :=
  ∃ j, isFound cfg t xs i j c ∧
    ∀ j' c', isFound cfg t xs i j' c' → c'.covered < c.covered ∨ (c'.covered = c.covered ∧ j' ≤ j)

/-- `SplitCost(v, r, max, t, e)`: the product of the counts (R204). -/
def splitCodeCost (r max t e v : Nat) : Nat := ((splitCodes r max t e v).map Prod.snd).prod

/-- `Accept(c)`, the exact cost test (R233). -/
def isAccepted (t : FreqTable) (xs : List Word) (plan : LzPlan) (c : Candidate) : Prop :=
  (t.total + buffer t.total) *
        splitCodeCost plan.len.mode.number plan.len.max plan.len.threshold 0 (c.chunk - 2) *
        splitCodeCost plan.dist.mode.number (plan.distBound c.start c.chunk) plan.dist.threshold plan.useSpiral.toNat
          (if c.spiral then plan.distBound c.start c.chunk + 1 else c.dist) *
        (if c.spiral then splitCodeCost plan.spiral.mode.number plan.spiral.max plan.spiral.threshold 0 c.spiralLen else 1) *
      spanProduct t xs c.start c.covered <
    t.total ^ c.covered * buffer t.total

/-- A candidate lies within one of `parts` ranges of the `n` positions (R230). -/
def isEligible (n parts : Nat) (c : Candidate) : Prop :=
  ∃ w, w < parts ∧ n * w / parts ≤ c.start ∧ c.start + c.covered ≤ n * (w + 1) / parts

/-- `c` is processed before `c'` (R231). -/
def Candidate.before (c c' : Candidate) : Prop :=
  c'.covered < c.covered ∨ (c.covered = c'.covered ∧ c.start < c'.start)

/-- Two spans share a position. -/
def Candidate.meets (c c' : Candidate) : Prop :=
  ∃ x, c.start ≤ x ∧ x < c.start + c.covered ∧ c'.start ≤ x ∧ x < c'.start + c'.covered

/-- The plan of the reference selection, with the candidates it keeps: each start's kept candidate and no other; the policies
and the flag they give; and as tokens exactly the eligible ones that pass the cost test and meet no token processed before
(R223 to R233). -/
structure LzPlan.IsReference (cfg : Config.Params) (t : FreqTable) (xs : List Word) (kept : List Candidate) (plan : LzPlan) :
    Prop where
  kept_sound : ∀ c ∈ kept, isKept cfg t xs c.start c
  kept_complete : ∀ i j c, isFound cfg t xs i j c → ∃ c' ∈ kept, c'.start = i
  kept_once : kept.Pairwise (fun c c' => c.start < c'.start)
  useSpiral : plan.useSpiral = true ↔ ∃ c ∈ kept, c.spiral = true
  len : plan.len = choosePolicy (kept.map (fun c => c.chunk - 2))
  dist : plan.dist = choosePolicy ((kept.filter (fun c => !c.spiral)).map (fun c => c.dist))
  spiral : plan.spiral = choosePolicy ((kept.filter (fun c => c.spiral)).map (fun c => c.spiralLen))
  tokens : ∀ c, c ∈ plan.tokens ↔
    c ∈ kept ∧ isEligible xs.length cfg.parts c ∧ isAccepted t xs plan c ∧
      ∀ c' ∈ plan.tokens, c'.before c → ¬c'.meets c

end Sys2Proof.Machine
end

