-- ==== Sys2Proof/Certificates/Slice0/Obligations.lean ====
section
/-!
DEFINITION. Certificates/Slice0/Obligations.lean: the statements for the provers. The functions they are written with stand
in Safety.lean.
-/
section
open Sys2Proof Sys2Proof.Machine

/-! ### Encoding -/

/-- R70, R72, R74: no bit of an encoding is dropped; every operand of the word at every value it admits. -/
def Obligations.DecodeEncodeRoundTrip : Prop :=
  ∀ i : Instr, i.wellFormed = true → decode (encode i) = .ok i

/-- R70, R72, R74: a word has one meaning, and that meaning has one word. -/
def Obligations.EncodeDecodeRoundTrip : Prop :=
  ∀ (w : Word) (i : Instr), decode w = .ok i → i.wellFormed = true ∧ encode i = w

/-- R75: the illegal words are exactly those it lists; each raises BAD_OPCODE, a precise fault with aux 0. -/
def Obligations.IllegalWordsRaiseBadOpcode : Prop :=
  ∀ w : Word,
    (illegalWord w → ∀ s : State, runWord w s = .next { s with fault := .badOpcode, faultInfo := w, faultAux := 0 }) ∧
      (¬illegalWord w → ∃ i, decode w = .ok i ∧ ∀ u, i ≠ .illegal u)

/-- R74, R80: words the spec writes out, one of each family and form, and what they stand for. -/
def Obligations.SpecWordsDecode : Prop :=
  decode 0x00000001 = .ok .nop ∧ decode 0x00000011 = .ok .encWriteEqual ∧ decode 0x00001015 = .ok (.encWriteCount 16) ∧
    decode 0x00000516 = .ok (.encWriteSplit 1 true) ∧ decode 0x00001026 = .ok (.decReadCount 16) ∧
    decode 0x00000227 = .ok (.decReadSplit 2 false) ∧ decode 0x00000031 = .ok .ftInsert ∧
    decode 0x00000040 = .ok .lzEncode ∧ decode 0x00000111 = .error .modNotZero

/-! ### Steps and host accesses -/

/-- R56, R58, R39, R73: a step whose host access is a write to `CMD` runs the command the word decodes to, on the state in
which that access is taken from the queue and the command index has advanced; a rejected word leaves the record of BAD_OPCODE.
The queue and the index are the model's form of the host's program (log entry 4). -/
def Obligations.StepRunsDecodedCommand : Prop :=
  ∀ (s : State) (rest : List HostAccess) (w : Word),
    s.hostQueue = .write s.cfg.blkBase 32 w :: rest → (s.fault = .noFault ∨ w = 2) →
      (∀ i, decode w = .ok i → step s = exec i { s with hostQueue := rest, pc := s.pc + 1 }) ∧
        (∀ x, decode w = .error x →
          step s =
            .next { s with hostQueue := rest, pc := s.pc + 1, fault := .badOpcode, faultInfo := w, faultAux := 0 })

/-- R77, R71: the accesses a command statement expands to, made one after another, write the operands present to their
registers and then run the command on the state that leaves. -/
def Obligations.StatementRunsItsCommand : Prop :=
  ∀ (i : Instr) (operands : List Word) (s : State) (rest : List HostAccess),
    i.wellFormed = true → operands.length = (argRegs i).length → s.fault = .noFault →
      s.hostQueue = Stmt.expand s.cfg (.command i operands) ++ rest →
        runSteps (operands.length + 1) s =
          exec i
            (((argRegs i).zip operands).foldl (fun st p => st.setArg p.1 p.2)
              { s with hostQueue := rest, pc := s.pc + 1 })

/-- R306: while a fault is recorded every word but 0x00000002 is ignored, though the index advances; host writes and reads
work as in the same block without the fault; BLK_RESET clears the fault. -/
def Obligations.FaultedBlockIgnoresCommands : Prop :=
  ∀ s : State, s.fault ≠ .noFault →
    (∀ rest w, s.hostQueue = .write s.cfg.blkBase 32 w :: rest → w ≠ 2 →
        step s = .next { s with hostQueue := rest, pc := s.pc + 1 }) ∧
      (∀ off bits v, off ≠ 0 →
        ∃ t, hostWrite off bits v s = .next t ∧
          hostWrite off bits v { s with fault := .noFault } = .next { t with fault := .noFault }) ∧
      (∀ off bits, off ≠ 0x14 →
        (hostRead off bits s).hostData = (hostRead off bits { s with fault := .noFault }).hostData) ∧
      (∀ rest, s.hostQueue = .write s.cfg.blkBase 32 2 :: rest → ∃ t, step s = .next t ∧ t.fault = .noFault)

/-- R39: a step that issues a command advances the host's index by exactly one; no other step moves it. That BLK_RESET
advances it too, and does not set it to 0, is the model's reading of R39 beside R331 (DEDUCED, log entry 3). -/
def Obligations.EachCommandAdvancesTheIndex : Prop :=
  ∀ s t : State, step s = .next t →
    (∀ rest w, s.hostQueue = .write s.cfg.blkBase 32 w :: rest → t.pc = s.pc + 1) ∧
      ((∀ w, s.hostQueue.head? ≠ some (.write s.cfg.blkBase 32 w)) → t.pc = s.pc)

/-- R51, R63, R300, R306, R315, R338: a step whose access lies within the window answers a next state, whatever the access is,
and a fault of the block is state; a step with no access left changes nothing (log entry 2). That an access outside the window
stops the step, with its address, is the model's choice (DESIGN CHOICE, log entry 6): the spec gives no behaviour there. -/
def Obligations.StepStopsOnlyOutsideTheWindow : Prop :=
  ∀ s : State, (s.hostQueue = [] → step s = .next s) ∧
    ∀ (a : HostAccess) (rest : List HostAccess) (addr : Nat), s.hostQueue = a :: rest →
      ((∃ bits, a = .read addr bits) ∨ ∃ bits v, a = .write addr bits v) →
        (s.cfg.blkBase ≤ addr ∧ addr < s.cfg.blkBase + 0x100000 → ∃ t, step s = .next t) ∧
          (¬(s.cfg.blkBase ≤ addr ∧ addr < s.cfg.blkBase + 0x100000) → step s = .fault (.outsideWindow addr))

/-- R21, R22, R24, R25, R27, R30, R32, R35, R51, R53, R55, R180: a read changes nothing in the block and returns what its
offset holds: each register of the register map (`ENC_NBITS`, `FT_COUNT` and `FT_TOTAL` exactly, in a state of the invariant;
`STATUS` is another statement's), the bytes of `ENC_OUT` and `DEC_IN` and the words of `SYM_IN` and `SYM_OUT` below their
capacities, and 0 elsewhere; an access that is not 32 bits wide at a multiple of 4 reads 0. That a word of `ENC_OUT` or `DEC_IN`
that straddles the capacity is read byte by byte is the model's reading (DEDUCED, log entry 11). -/
def Obligations.HostReadsHaveNoSideEffects : Prop :=
  (∀ (s : State) (rest : List HostAccess) (addr bits : Nat),
      s.hostQueue = .read addr bits :: rest → s.cfg.blkBase ≤ addr → addr < s.cfg.blkBase + 0x100000 →
        step s =
          .next
            { s with
              hostQueue := rest
              hostData :=
                some
                  (if bits = 32 ∧ (addr - s.cfg.blkBase) % 4 = 0 then s.readWindow (addr - s.cfg.blkBase) else 0) }) ∧
    ∀ s : State,
      (∀ off, off = 0 ∨ (0x54 ≤ off ∧ off < 0x10000) ∨ 0xC0000 ≤ off → s.readWindow off = 0) ∧
        (∀ p ∈ s.registerMap, s.readWindow p.1 = p.2) ∧
        (s.Inv →
          (s.readWindow 0x2C).toNat = s.enc.bits.length ∧ (s.readWindow 0x44).toNat = s.ft.length ∧
            (s.readWindow 0x48).toNat = (s.ft.map (fun c => c.2.toNat)).sum) ∧
        ∀ m b : Nat, b < 4 →
          (4 * m < 0x10000 →
              (s.readWindow (0x10000 + 4 * m)).extractLsb' (8 * b) 8 =
                if 4 * m + b < s.cfg.encCap then s.enc.outByte (4 * m + b) else 0) ∧
            (4 * m < 0x20000 →
              (s.readWindow (0x20000 + 4 * m)).extractLsb' (8 * b) 8 =
                if 4 * m + b < s.cfg.inCap then s.mem.readByte (0x20000 + (4 * m + b)) else 0) ∧
            (4 * m < 0x40000 →
              (s.readWindow (0x40000 + 4 * m)).extractLsb' (8 * b) 8 =
                  (if m < s.cfg.symCap then s.mem.readByte (0x40000 + (4 * m + b)) else 0) ∧
                (s.readWindow (0x80000 + 4 * m)).extractLsb' (8 * b) 8 =
                  if m < s.cfg.symCap then s.mem.readByte (0x80000 + (4 * m + b)) else 0)

/-- R35, R50, R51, R55: a host write that is not a command changes at most the operand register or the bytes of `DEC_IN` or
`SYM_IN` it addresses, below the capacity; of any other width or alignment it changes nothing. -/
def Obligations.HostWritesReachOnlyHostState : Prop :=
  ∀ (s : State) (rest : List HostAccess) (addr bits : Nat) (v : Word),
    s.hostQueue = .write addr bits v :: rest → s.cfg.legal = true → s.mem.wf → s.cfg.blkBase ≤ addr →
      addr < s.cfg.blkBase + 0x100000 → ¬(addr = s.cfg.blkBase ∧ bits = 32) →
        ∃ t, step s = .next t ∧
          t = { s with hostQueue := rest, arg0 := t.arg0, arg1 := t.arg1, arg2 := t.arg2, mem := t.mem } ∧
          t.arg0 = (if bits = 32 ∧ addr = s.cfg.blkBase + 0x04 then v else s.arg0) ∧
          t.arg1 = (if bits = 32 ∧ addr = s.cfg.blkBase + 0x08 then v else s.arg1) ∧
          t.arg2 = (if bits = 32 ∧ addr = s.cfg.blkBase + 0x0C then v else s.arg2) ∧
          ∀ x, t.mem.readByte x ≠ s.mem.readByte x →
            bits = 32 ∧ (addr - s.cfg.blkBase) % 4 = 0 ∧ addr - s.cfg.blkBase ≤ x ∧ x < addr - s.cfg.blkBase + 4 ∧
              ((0x20000 ≤ x ∧ x < 0x20000 + s.cfg.inCap) ∨ (0x40000 ≤ x ∧ x < 0x40000 + 4 * s.cfg.symCap))

/-- R50, R51, R53: a step whose access is a 32-bit write to `DEC_IN` or `SYM_IN` stores the word, and the word reads back; at an
index at or beyond the capacity the write is ignored and a read gives 0. That a word of `DEC_IN` that straddles the capacity is
taken byte by byte is the model's reading (DEDUCED, log entry 11). -/
def Obligations.HostWordsReadBack : Prop :=
  ∀ (s : State) (rest : List HostAccess) (m : Nat) (v : Word), s.cfg.legal = true → s.mem.wf →
    (4 * m < 0x20000 → s.hostQueue = .write (s.cfg.blkBase + (0x20000 + 4 * m)) 32 v :: rest →
        ∃ t, step s = .next t ∧ t = { s with hostQueue := rest, mem := t.mem } ∧
          (∀ b, b < 4 →
            t.mem.readByte (0x20000 + (4 * m + b)) =
              if 4 * m + b < s.cfg.inCap then v.extractLsb' (8 * b) 8 else s.mem.readByte (0x20000 + (4 * m + b))) ∧
          (∀ x, x < 0x20000 + 4 * m ∨ 0x20000 + 4 * m + 4 ≤ x → t.mem.readByte x = s.mem.readByte x) ∧
          (4 * m + 4 ≤ s.cfg.inCap → t.readWindow (0x20000 + 4 * m) = v) ∧
          (s.cfg.inCap ≤ 4 * m → t = { s with hostQueue := rest } ∧ t.readWindow (0x20000 + 4 * m) = 0)) ∧
      (4 * m < 0x40000 → s.hostQueue = .write (s.cfg.blkBase + (0x40000 + 4 * m)) 32 v :: rest →
        ∃ t, step s = .next t ∧ t = { s with hostQueue := rest, mem := t.mem } ∧
          (m < s.cfg.symCap →
            t.readWindow (0x40000 + 4 * m) = v ∧ t.symInWord m = v ∧
              ∀ b, b < 4 → t.mem.readByte (0x40000 + (4 * m + b)) = v.extractLsb' (8 * b) 8) ∧
          (∀ x, x < 0x40000 + 4 * m ∨ 0x40000 + 4 * m + 4 ≤ x → t.mem.readByte x = s.mem.readByte x) ∧
          (s.cfg.symCap ≤ m → t = { s with hostQueue := rest } ∧ t.readWindow (0x40000 + 4 * m) = 0))

/-- R23, R301: the fields of `STATUS`, and the number of every fault code as R301 lists it. -/
def Obligations.StatusFields : Prop :=
  (∀ s : State, (s.readWindow 0x14).extractLsb' 0 8 = s.fault.toByte ∧
      (s.readWindow 0x14).extractLsb' 8 1 = (if s.enc.isSealed then 1 else 0) ∧
      (s.readWindow 0x14).extractLsb' 9 23 = 0) ∧
    (∀ p ∈ faultNumbers, p.1.toByte.toNat = p.2) ∧
    (∀ c : FaultCode, c.toByte.toNat ≤ 20 ∧ (c.toByte = 0 ↔ c = .noFault) ∧ ∃ n, (c, n) ∈ faultNumbers) ∧
    ∀ c c' : FaultCode, c.toByte = c'.toByte → c = c'

/-- R51, R52, R53: bit `k` of the stream is bit `7 - (k mod 8)` of byte `k div 8` of `ENC_OUT`, zeros follow the last bit, byte
`j` is byte `j mod 4` of its host word, and the decoder reads `DEC_IN` in the same order. Where the capacity is no multiple of 4
the last host word is read byte by byte, the model's reading (DEDUCED, log entry 11). -/
def Obligations.StreamBitsAreMsbFirst : Prop :=
  (∀ (e : Encoder) (k : Nat), (e.outByte (k / 8)).getLsbD (7 - k % 8) = e.bits.getD k false) ∧
    (∀ (s : State) (j : Nat), j < s.cfg.encCap → 4 * (j / 4) + 0x10000 < 0x20000 →
      (s.readWindow (0x10000 + 4 * (j / 4))).extractLsb' (8 * (j % 4)) 8 = s.enc.outByte j) ∧
    ∀ (s : State) (p : Nat), p / 8 < s.cfg.inCap → p < 8 * s.dec.inLen.toNat →
      s.input.bit s.dec.inLen.toNat p = (s.mem.readByte (0x20000 + p / 8)).getLsbD (7 - p % 8)

/-! ### Reset and the invariant -/

/-- R21, R64, R331: every register of the register map and every word of the memories at power-on; after BLK_RESET every
register again, `ENC_OUT` 0, the other memories unchanged. That BLK_RESET keeps the index is the model's reading (log entry 3). -/
def Obligations.ResetValues : Prop :=
  (∀ cfg : Config.Params, (∀ p ∈ resetRegisters, (State.powerOn cfg).readWindow p.1 = p.2) ∧
      (∀ off, 0x10000 ≤ off → (State.powerOn cfg).readWindow off = 0) ∧ (State.powerOn cfg).pc = 0) ∧
    ∀ s : State, ∃ t, exec .blkReset s = .next t ∧ (∀ p ∈ resetRegisters, t.readWindow p.1 = p.2) ∧
      (∀ off, 0x10000 ≤ off → off < 0x20000 → t.readWindow off = 0) ∧
      (∀ off, 0x20000 ≤ off → t.readWindow off = s.readWindow off) ∧ t.pc = s.pc

/-- R331: the reset state meets the invariant. -/
def Obligations.ResetMeetsInvariant : Prop := State.reset.Inv

/-- R27, R32, R37, R38, R180, R24: every step keeps the invariant: canonical memory within the spaces' capacities, a legal
table, the bound on the emitted bits, and, while no fault is recorded, both coders' bounds. The decoder's width is the model's
inference (log entry 12). -/
def Obligations.StepKeepsInvariant : Prop :=
  ∀ s t : State, s.Inv → step s = .next t → t.Inv

/-! ### Faults -/

/-- R301: a command raises only the faults R301 names for it, and the codes for which it lists no aux value record 0. -/
def Obligations.FaultsAreDocumented : Prop :=
  ∀ (i : Instr) (s t : State), s.Inv → s.fault = .noFault → exec i s = .next t → t.fault ≠ .noFault →
    t.fault ∈ documentedFaults i ∧ (carriesAux t.fault = false → t.faultAux = 0)

/-- R302, R305: whatever fault a command raises, the record names its word, and `RES`, `LZ_N`, `ENC_SEALED`, `DEC_INLEN`, the
table, the operand registers and every byte outside `SYM_OUT` are as before; only an encoder command or LZ_ENCODE disturbs the
encoder, only DEC_READ_FIB or LZ_DECODE the decoder, only LZ_DECODE `SYM_OUT`. -/
def Obligations.FaultRecordAndWhatItKeeps : Prop :=
  ∀ (i : Instr) (s t : State), s.mem.wf → s.fault = .noFault → exec i s = .next t → t.fault ≠ .noFault →
    t.faultInfo = encode i ∧ s.sameHostSide t ∧ t.res = s.res ∧ t.lzN = s.lzN ∧ t.ft = s.ft ∧
      t.enc.isSealed = s.enc.isSealed ∧ t.dec.inLen = s.dec.inLen ∧
      (isEncoderCommand i = false → i ≠ .lzEncode → t.enc = s.enc) ∧
      (i ≠ .decReadFib → i ≠ .lzDecode → t.dec = s.dec) ∧
      (i ≠ .lzDecode → s.sameBytes t) ∧
      ∀ x, ¬(0x80000 ≤ x ∧ x < 0x80000 + 4 * s.cfg.symCap) → t.mem.readByte x = s.mem.readByte x

/-- R303, R113, R149: every fault but CAPACITY, PENDING_OVF and the CORRUPT codes changes nothing but the record, and so does
CAPACITY of DEC_RESET. -/
def Obligations.PreciseFaultsChangeOnlyTheRecord : Prop :=
  ∀ (i : Instr) (s t : State), s.fault = .noFault → exec i s = .next t → t.fault ≠ .noFault →
    (t.fault = .capacity → i = .decReset) → t.fault ≠ .pendingOvf → t.fault ≠ .corruptFib → t.fault ≠ .corruptHeader →
      t.fault ≠ .corruptRef → t.fault ≠ .corruptOverrun → t = s.faultedBy i t.fault t.faultAux

/-- R22, R71: no command but its producers changes `RES`, and no command but BLK_RESET writes an operand register. -/
def Obligations.WhoWritesResultAndOperands : Prop :=
  ∀ (i : Instr) (s t : State), exec i s = .next t → i ≠ .blkReset →
    (writesRes i = false → t.res = s.res) ∧ t.arg0 = s.arg0 ∧ t.arg1 = s.arg1 ∧ t.arg2 = s.arg2

/-! ### Block control -/

/-- R280, R281, R282: NOP changes nothing; BLK_RESET, in every state, faulted or not, leaves the values of its pseudocode and
keeps the host-written memories; the illegal opcode leaves the record of BAD_OPCODE. That the index is kept is log entry 3. -/
def Obligations.BlockControlCommands : Prop :=
  ∀ s : State,
    exec .nop s = .next s ∧
      exec .blkReset s =
        .next
          { s with
            arg0 := 0, arg1 := 0, arg2 := 0, res := 0, fault := .noFault, faultInfo := 0, faultAux := 0,
            enc := ⟨0, 0xFFFFFFFF, 0, [], false⟩, dec := ⟨0, 0xFFFFFFFF, 0, 32, 0⟩, ft := [], lzN := 0 } ∧
      ∀ upper, exec (.illegal upper) s = .next (s.faultedBy (.illegal upper) .badOpcode 0)

/-! ### The range encoder -/

/-- R110: each of the eight commands that narrow the encoder refuses a sealed stream with SEALED, before any other check. -/
def Obligations.SealedStreamIsRefused : Prop :=
  ∀ (s : State) (W r : Nat) (extra : Bool), s.enc.isSealed = true →
    ∀ i ∈ [Instr.encWriteEqual, .encWritePart, .encWritePartFt, .encWriteFib, .encWriteCount W, .encWriteSplit r extra,
        .encFinish, .lzEncode],
      exec i s = .next (s.faultedBy i .isSealed 0)

/-- R332: ENC_RESET resets the encoder alone, sealed or not, and `ENC_OUT` reads 0 afterwards. -/
def Obligations.EncReset : Prop :=
  ∀ s : State, ∃ t, exec .encReset s = .next t ∧ t = { s with enc := ⟨0, 0xFFFFFFFF, 0, [], false⟩ } ∧
    ∀ j, t.encOutByte j = 0

/-- R105, R111, R112, R121: ENC_WRITE_EQUAL narrows the encoder by the uniform code of its operand: it completes where the
narrowings do, records the fault they end in, and completes wherever their bits fit; a value outside the count is EQ_RANGE. -/
def Obligations.EncWriteEqual : Prop :=
  ∀ s : State, s.cfg.legal = true → s.enc.isSealed = false →
    (s.arg0.toNat < s.arg1.toNat →
        s.writesTrace .encWriteEqual (uniformIntervals s.arg0.toNat s.arg1.toNat) (fun e => { s with enc := e })) ∧
      (s.arg1.toNat ≤ s.arg0.toNat → exec .encWriteEqual s = .next (s.faultedBy .encWriteEqual .eqRange 0))

/-- R101, R102, R111, R112, R122: ENC_WRITE_PART narrows by its Interval: it completes where the narrowing does, records the
fault it ends in, and completes wherever its bits fit; a length of 0 with a valid base changes nothing; an Interval whose base is
0 or above `2^30`, or whose end (without wrap-around) passes its base, is BAD_INTERVAL. -/
def Obligations.EncWritePart : Prop :=
  ∀ s : State, s.cfg.legal = true → s.enc.isSealed = false →
    (0 < s.arg2.toNat → s.arg2.toNat ≤ 0x40000000 → s.arg0.toNat + s.arg1.toNat ≤ s.arg2.toNat →
        s.writesTrace .encWritePart [⟨s.arg0.toNat, s.arg1.toNat, s.arg2.toNat⟩] (fun e => { s with enc := e }) ∧
          (s.arg1 = 0 → exec .encWritePart s = .next s)) ∧
      (s.arg2 = 0 ∨ 0x40000000 < s.arg2.toNat ∨ s.arg2.toNat < s.arg0.toNat + s.arg1.toNat →
        exec .encWritePart s = .next (s.faultedBy .encWritePart .badInterval 0))

/-- R102, R103: what one narrowing does. The new bounds are the part of the old range the Interval names, up to the whole range
for the certain symbol, and neighbouring Intervals give neighbouring parts; then the renormalization loop emits a 0 below the
middle and a 1 above it, counts a pending bit around it, doubling the range each time, and ends where none of its conditions
holds. -/
def Obligations.NarrowingArithmetic : Prop :=
  (∀ (e : Encoder) (cap a n base : Nat), e.Settled → 0 < n → 0 < base → base ≤ 0x40000000 → a + n ≤ base →
      let R := e.high.toNat - e.low.toNat + 1
      let part := e.select ⟨a, n, base⟩
      part.low.toNat = e.low.toNat + R * a / base ∧ part.high.toNat + 1 = e.low.toNat + R * (a + n) / base ∧
        part.low.toNat ≤ part.high.toNat ∧ (a = 0 → n = base → part = e) ∧
        (∀ m, 0 < m → a + n + m ≤ base → (e.select ⟨a + n, m, base⟩).low.toNat = part.high.toNat + 1) ∧
        e.narrow cap ⟨a, n, base⟩ = Encoder.renorm cap 32 part ∧
        ∀ e', Encoder.renorm cap 32 part = .ok e' →
          e'.low.toNat < 0x80000000 ∧ 0x80000000 ≤ e'.high.toNat ∧
            ¬(0x40000000 ≤ e'.low.toNat ∧ e'.high.toNat < 0xC0000000)) ∧
    ∀ (e : Encoder) (cap k : Nat),
      let again := fun (off : Nat) (e' : Encoder) =>
        Encoder.renorm cap k
          { e' with
            low := BitVec.ofNat 32 (2 * (e'.low.toNat - off))
            high := BitVec.ofNat 32 (2 * (e'.high.toNat - off) + 1) }
      Encoder.renorm cap (k + 1) e =
        if e.high.toNat < 0x80000000 then (e.emitBit cap false).bind (again 0)
        else if 0x80000000 ≤ e.low.toNat then (e.emitBit cap true).bind (again 0x80000000)
        else if 0x40000000 ≤ e.low.toNat ∧ e.high.toNat < 0xC0000000 then e.addPending.bind (again 0x40000000)
        else .ok e

/-- R111, R112, R123, R181, R182: ENC_WRITE_PART_FT narrows by the Interval the table gives its key, the weight of the smaller
keys, the key's weight and the total: it completes where the narrowing does, records the fault it ends in, and completes wherever
its bits fit; an absent key is FT_KEY with the key, a total above `2^30` BAD_INTERVAL. -/
def Obligations.EncWritePartFt : Prop :=
  ∀ s : State, s.cfg.legal = true → s.enc.isSealed = false → s.ft.Wf s.cfg.ftCap →
    (∀ w, (s.arg0, w) ∈ s.ft → s.ft.total ≤ 0x40000000 →
        s.writesTrace .encWritePartFt
          [⟨((s.ft.filter (fun c => c.1.toNat < s.arg0.toNat)).map (fun c => c.2.toNat)).sum, w.toNat,
            (s.ft.map (fun c => c.2.toNat)).sum⟩]
          (fun e => { s with enc := e })) ∧
      ((∀ w, (s.arg0, w) ∉ s.ft) → exec .encWritePartFt s = .next (s.faultedBy .encWritePartFt .ftKey s.arg0)) ∧
      (∀ w, (s.arg0, w) ∈ s.ft → 0x40000000 < s.ft.total →
        exec .encWritePartFt s = .next (s.faultedBy .encWritePartFt .badInterval 0))

/-- R106, R111, R112, R124: ENC_WRITE_FIB narrows by the bits of its operand's Fibonacci code, each a uniform bit: it completes
where the narrowings do, records the fault they end in, and completes wherever their bits fit; 0 is FIB_ZERO. -/
def Obligations.EncWriteFib : Prop :=
  ∀ s : State, s.cfg.legal = true → s.enc.isSealed = false →
    (s.arg0 ≠ 0 →
        s.writesTrace .encWriteFib (bitIntervals (fibCode s.arg0.toNat)) (fun e => { s with enc := e })) ∧
      (s.arg0 = 0 → exec .encWriteFib s = .next (s.faultedBy .encWriteFib .fibZero 0))

/-- R106: the code of a 32-bit `n ≥ 1` is a list of digits, weight `F(2)` first, with sum `n`, no two neighbouring ones, and a
last digit 1, followed by the terminator; it is at most 47 bits long. -/
def Obligations.FibonacciCodeIsZeckendorf : Prop :=
  ∀ n : Nat, 1 ≤ n → n ≤ 0xFFFFFFFF →
    ∃ digits : List Bool, fibCode n = digits ++ [true] ∧ digits.getLast? = some true ∧ (fibCode n).length ≤ 47 ∧
      (∀ k, ¬(digits.getD k false = true ∧ digits.getD (k + 1) false = true)) ∧
      ((List.range digits.length).map (fun k => if digits.getD k false then Nat.fib (k + 2) else 0)).sum = n

/-- R108, R111, R112, R125: ENC_WRITE_COUNT codes `⌊log2(n + 1)⌋` over `W + 1` values, then the rest of `n` uniformly: it
completes where the narrowings do, records the fault they end in, and completes wherever their bits fit; a width outside 1 to 32
or a value of more than `W` bits is COUNT_RANGE. -/
def Obligations.EncWriteCount : Prop :=
  ∀ (s : State) (W : Nat), s.cfg.legal = true → s.enc.isSealed = false →
    (1 ≤ W → W ≤ 32 → s.arg0.toNat < 2 ^ W →
        ∃ k, 2 ^ k ≤ s.arg0.toNat + 1 ∧ s.arg0.toNat + 1 < 2 ^ (k + 1) ∧
          s.writesTrace (.encWriteCount W) (countIntervals s.arg0.toNat W k) (fun e => { s with enc := e })) ∧
      (W < 1 ∨ 32 < W ∨ 2 ^ W ≤ s.arg0.toNat →
        exec (.encWriteCount W) s = .next (s.faultedBy (.encWriteCount W) .countRange 0))

/-- R111, R112, R200, R202, R210: ENC_WRITE_SPLIT narrows by the split code of its value under the effective policy: it
completes where the narrowings do, records the fault they end in, and completes wherever their bits fit; the mode 3 is
SPLIT_POLICY, and then a value outside the domain, or the extra bit with the largest `max`, is SPLIT_DOMAIN. -/
def Obligations.EncWriteSplit : Prop :=
  ∀ (s : State) (r : Nat) (extra : Bool), s.cfg.legal = true → s.enc.isSealed = false →
    (r < 3 → ¬(extra = true ∧ s.arg1 = 0xFFFFFFFF) → s.arg0.toNat ≤ s.arg1.toNat + extra.toNat →
        s.writesTrace (.encWriteSplit r extra)
          (splitCodeIntervals r s.arg1.toNat s.arg2.toNat extra.toNat s.arg0.toNat) (fun e => { s with enc := e })) ∧
      (3 ≤ r → exec (.encWriteSplit r extra) s = .next (s.faultedBy (.encWriteSplit r extra) .splitPolicy 0)) ∧
      (r < 3 → (extra = true ∧ s.arg1 = 0xFFFFFFFF) ∨ s.arg1.toNat + extra.toNat < s.arg0.toNat →
        exec (.encWriteSplit r extra) s = .next (s.faultedBy (.encWriteSplit r extra) .splitDomain 0))

/-- R109, R111, R112, R127: ENC_FINISH narrows by the sentinel's two Intervals, then emits the bit that pins the interval and the
pending bits inverted, one more of them than were pending; the stream is sealed and `RES` counts its bytes. A fault of the
sentinel's narrowings is recorded; then a full pending count is PENDING_OVF, and bits that do not fit are CAPACITY; wherever its
bits fit it completes. -/
def Obligations.EncFinish : Prop :=
  ∀ s : State, s.cfg.legal = true → s.enc.isSealed = false →
    let sentinel := s.enc.writeAll s.cfg.encCap [⟨18838, 1, 65536⟩, ⟨722, 1, 65536⟩]
    (∀ f, sentinel = .error f → (f.code = .capacity ∨ f.code = .pendingOvf) ∧ s.records .encFinish f.code f.aux) ∧
      (∀ e, sentinel = .ok e →
        let last := decide (0x40000000 ≤ e.low.toNat)
        let stream := e.bits ++ last :: List.replicate (e.pending.toNat + 1) (!last)
        (e.pending = 0xFFFFFFFF → s.records .encFinish .pendingOvf 0) ∧
          (e.pending ≠ 0xFFFFFFFF → stream.length ≤ 8 * s.cfg.encCap →
            exec .encFinish s =
              .next
                { s with
                  enc := { e with bits := stream, pending := 0, isSealed := true }
                  res := BitVec.ofNat 32 ((stream.length + 7) / 8) }) ∧
          (e.pending ≠ 0xFFFFFFFF → 8 * s.cfg.encCap < stream.length → s.enc.bits.length ≤ 8 * s.cfg.encCap →
            s.records .encFinish .capacity (BitVec.ofNat 32 (8 * s.cfg.encCap)))) ∧
      (s.enc.room s.cfg.encCap 66 →
        ∃ e, sentinel = .ok e ∧ e.pending ≠ 0xFFFFFFFF ∧ e.bits.length + e.pending.toNat + 2 ≤ 8 * s.cfg.encCap ∧
          ∃ t, exec .encFinish s = .next t ∧ t.fault = s.fault ∧ t.enc.isSealed = true)

/-- R104, R111, R112, R113, R221, R301: a bit is emitted at the end of the stream, followed by the pending bits inverted, where
all of them fit, and is CAPACITY with the number of bits `ENC_OUT` holds when full where they do not; a pending count at its
limit is PENDING_OVF. An encoder command or LZ_ENCODE that runs out of room records CAPACITY with that number; LZ_ENCODE also
records it, with `N` and as a precise fault, where `N` exceeds the symbol capacity. -/
def Obligations.EncoderCapacityAux : Prop :=
  (∀ (e : Encoder) (cap : Nat) (b : Bool),
      (e.bits.length + 1 + e.pending.toNat ≤ 8 * cap →
          e.emitBit cap b =
            .ok { e with bits := e.bits ++ b :: List.replicate e.pending.toNat (!b), pending := 0 }) ∧
        (e.bits.length ≤ 8 * cap → 8 * cap < e.bits.length + 1 + e.pending.toNat →
          e.emitBit cap b = .error ⟨.capacity, BitVec.ofNat 32 (8 * cap), .encoderRun⟩) ∧
        (e.pending ≠ 0xFFFFFFFF → e.addPending = .ok { e with pending := e.pending + 1 }) ∧
        (e.pending = 0xFFFFFFFF → e.addPending = .error ⟨.pendingOvf, 0, .encoderRun⟩)) ∧
    ∀ (i : Instr) (s t : State), s.Inv → s.fault = .noFault → exec i s = .next t → t.fault = .capacity →
      (isEncoderCommand i = true → t.faultAux.toNat = 8 * s.cfg.encCap) ∧
        (i = .lzEncode → s.arg0.toNat ≤ s.cfg.symCap → t.faultAux.toNat = 8 * s.cfg.encCap) ∧
        (i = .lzEncode → s.cfg.symCap < s.arg0.toNat → t = s.faultedBy i .capacity s.arg0)

/-- R22, R25 to R28, R50, R57, R104, R302: what an encoder command other than LZ_ENCODE leaves unchanged: everything but the
encoder, `RES` (which only ENC_FINISH writes) and the record; without a fault the bits already emitted stay, unless the command
is ENC_RESET. The count of free values is the model's own (log entry 7). -/
def Obligations.EncoderFrame : Prop :=
  ∀ (i : Instr) (s t : State), isEncoderCommand i = true → exec i s = .next t →
    s.sameHostSide t ∧ t.dec = s.dec ∧ t.ft = s.ft ∧ t.lzN = s.lzN ∧ s.sameBytes t ∧ (i ≠ .encFinish → t.res = s.res) ∧
      s.recordOf i t ∧ (t.fault = .noFault → t.freeCount = s.freeCount) ∧
      (t.fault = .noFault → i ≠ .encReset → s.enc.bits <+: t.enc.bits)

/-! ### The range decoder -/

/-- R150, R141: DEC_RESET loads the first 32 bits of the input, zeros past the end, and changes nothing else; more bytes
than `DEC_IN` has are CAPACITY with that number. -/
def Obligations.DecReset : Prop :=
  ∀ s : State,
    (s.arg0.toNat ≤ s.cfg.inCap →
        ∃ v : Word, exec .decReset s = .next { s with dec := ⟨0, 0xFFFFFFFF, v, 32, s.arg0⟩ } ∧
          ∀ k, k < 32 →
            v.getLsbD (31 - k) =
              (if k < 8 * s.arg0.toNat then (s.mem.readByte (0x20000 + k / 8)).getLsbD (7 - k % 8) else false)) ∧
      (s.cfg.inCap < s.arg0.toNat → exec .decReset s = .next (s.faultedBy .decReset .capacity s.arg0))

/-- R152, R142: DEC_PEEK puts the part that holds the value into `RES` by the formula of R142, a number below the base, and
changes nothing else; a base of 0 or above `2^30` is BAD_INTERVAL. -/
def Obligations.DecPeek : Prop :=
  ∀ s : State, s.dec.Settled →
    (0 < s.arg0.toNat → s.arg0.toNat ≤ 0x40000000 →
        ∃ v : Word, exec .decPeek s = .next { s with res := v } ∧ v.toNat < s.arg0.toNat ∧
          v.toNat = ((s.dec.value.toNat - s.dec.low.toNat + 1) * s.arg0.toNat - 1) /
            (s.dec.high.toNat - s.dec.low.toNat + 1)) ∧
      (s.arg0 = 0 ∨ 0x40000000 < s.arg0.toNat → exec .decPeek s = .next (s.faultedBy .decPeek .badInterval 0))

/-- R153, R143, R142: DEC_NARROW consumes an Interval exactly when the value lies in the part the encoder would select for it,
and otherwise records NARROW_MISMATCH with the peek value; a length of 0 with a valid base changes nothing; an invalid Interval
is BAD_INTERVAL. -/
def Obligations.DecNarrow : Prop :=
  ∀ s : State, s.dec.Settled →
    (s.arg2 = 0 ∨ 0x40000000 < s.arg2.toNat ∨ s.arg2.toNat < s.arg0.toNat + s.arg1.toNat →
        exec .decNarrow s = .next (s.faultedBy .decNarrow .badInterval 0)) ∧
      (0 < s.arg2.toNat → s.arg2.toNat ≤ 0x40000000 → s.arg0.toNat + s.arg1.toNat ≤ s.arg2.toNat →
        (s.arg1 = 0 → exec .decNarrow s = .next s) ∧
          (0 < s.arg1.toNat →
            let R := s.dec.high.toNat - s.dec.low.toNat + 1
            let lo := s.dec.low.toNat + R * s.arg0.toNat / s.arg2.toNat
            let hi := s.dec.low.toNat + R * (s.arg0.toNat + s.arg1.toNat) / s.arg2.toNat - 1
            (lo ≤ s.dec.value.toNat ∧ s.dec.value.toNat ≤ hi →
                exec .decNarrow s =
                  .next
                    { s with
                      dec :=
                        Decoder.renorm s.input 32
                          { s.dec with low := BitVec.ofNat 32 lo, high := BitVec.ofNat 32 hi } }) ∧
              (¬(lo ≤ s.dec.value.toNat ∧ s.dec.value.toNat ≤ hi) →
                exec .decNarrow s =
                  .next
                    (s.faultedBy .decNarrow .narrowMismatch
                      (BitVec.ofNat 32
                        (((s.dec.value.toNat - s.dec.low.toNat + 1) * s.arg2.toNat - 1) / R))))))

/-- R151, R145: DEC_READ_EQUAL returns a value below the count whose uniform code the decoder consumes, and changes only the
decoder and `RES`; a count of 0 is EQ_RANGE. -/
def Obligations.DecReadEqual : Prop :=
  ∀ s : State, s.dec.Settled →
    (0 < s.arg0.toNat →
        ∃ (v : Word) (d : Decoder), v.toNat < s.arg0.toNat ∧
          Decoder.narrowAll s.input (uniformIntervals v.toNat s.arg0.toNat) s.dec = .ok d ∧
          exec .decReadEqual s = .next { s with dec := d, res := v }) ∧
      (s.arg0 = 0 → exec .decReadEqual s = .next (s.faultedBy .decReadEqual .eqRange 0))

/-- R154, R181, R183: DEC_READ_PART_FT returns the key that owns the peek value over the total and consumes its Interval; an
empty table is FT_KEY with aux 0, a total above `2^30` BAD_INTERVAL. -/
def Obligations.DecReadPartFt : Prop :=
  ∀ s : State, s.dec.Settled → s.ft.Wf s.cfg.ftCap →
    (s.ft ≠ [] → s.ft.total ≤ 0x40000000 →
        ∃ (key w : Word) (d : Decoder), (key, w) ∈ s.ft ∧
          s.dec.narrow s.input
              ⟨((s.ft.filter (fun c => c.1.toNat < key.toNat)).map (fun c => c.2.toNat)).sum, w.toNat, s.ft.total⟩ =
            .ok d ∧
          exec .decReadPartFt s = .next { s with dec := d, res := key }) ∧
      (s.ft = [] → exec .decReadPartFt s = .next (s.faultedBy .decReadPartFt .ftKey 0)) ∧
      (0x40000000 < s.ft.total → exec .decReadPartFt s = .next (s.faultedBy .decReadPartFt .badInterval 0))

/-- R155, R146: DEC_READ_FIB returns the number whose code the input continues with; in every other case it records
CORRUPT_FIB. -/
def Obligations.DecReadFib : Prop :=
  ∀ s : State, s.dec.Settled →
    (∀ (n : Word) (d : Decoder), n ≠ 0 →
        Decoder.narrowAll s.input (bitIntervals (fibCode n.toNat)) s.dec = .ok d →
        exec .decReadFib s = .next { s with dec := d, res := n }) ∧
      ((∀ (n : Word) (d : Decoder), n ≠ 0 →
          Decoder.narrowAll s.input (bitIntervals (fibCode n.toNat)) s.dec ≠ .ok d) →
        ∃ t, exec .decReadFib s = .next t ∧ t.fault = .corruptFib ∧ t.faultInfo = 0x00000025 ∧ t.faultAux = 0)

/-- R156, R147: DEC_READ_COUNT returns a value of at most `W` bits whose count code the decoder consumes; a width outside 1 to
32 is COUNT_RANGE. -/
def Obligations.DecReadCount : Prop :=
  ∀ (s : State) (W : Nat), s.dec.Settled →
    (1 ≤ W → W ≤ 32 →
        ∃ (n : Word) (k : Nat) (d : Decoder), n.toNat < 2 ^ W ∧ 2 ^ k ≤ n.toNat + 1 ∧ n.toNat + 1 < 2 ^ (k + 1) ∧
          Decoder.narrowAll s.input (countIntervals n.toNat W k) s.dec = .ok d ∧
          exec (.decReadCount W) s = .next { s with dec := d, res := n }) ∧
      (W < 1 ∨ 32 < W → exec (.decReadCount W) s = .next (s.faultedBy (.decReadCount W) .countRange 0))

/-- R211, R203: DEC_READ_SPLIT returns a value of the policy's domain whose split code the decoder consumes, whatever `ARG0`
holds; the mode 3 is SPLIT_POLICY, and then the extra bit with the largest `max` is SPLIT_DOMAIN. -/
def Obligations.DecReadSplit : Prop :=
  ∀ (s : State) (r : Nat) (extra : Bool), s.dec.Settled →
    (r < 3 → ¬(extra = true ∧ s.arg1 = 0xFFFFFFFF) →
        ∃ (v : Word) (d : Decoder), v.toNat ≤ s.arg1.toNat + extra.toNat ∧
          Decoder.narrowAll s.input (splitCodeIntervals r s.arg1.toNat s.arg2.toNat extra.toNat v.toNat) s.dec = .ok d ∧
          exec (.decReadSplit r extra) s = .next { s with dec := d, res := v }) ∧
      (3 ≤ r → exec (.decReadSplit r extra) s = .next (s.faultedBy (.decReadSplit r extra) .splitPolicy 0)) ∧
      (r < 3 → extra = true → s.arg1 = 0xFFFFFFFF →
        exec (.decReadSplit r extra) s = .next (s.faultedBy (.decReadSplit r extra) .splitDomain 0))

/-- R157: a read returns the value whose code the input continues with: uniform, count, split and table symbol. -/
def Obligations.ReadsMirrorWrites : Prop :=
  ∀ (s : State) (d : Decoder), s.dec.Settled →
    (∀ c : Word, c.toNat < s.arg0.toNat →
        Decoder.narrowAll s.input (uniformIntervals c.toNat s.arg0.toNat) s.dec = .ok d →
        exec .decReadEqual s = .next { s with dec := d, res := c }) ∧
      (∀ (n : Word) (W k : Nat), 1 ≤ W → W ≤ 32 → n.toNat < 2 ^ W → 2 ^ k ≤ n.toNat + 1 → n.toNat + 1 < 2 ^ (k + 1) →
        Decoder.narrowAll s.input (countIntervals n.toNat W k) s.dec = .ok d →
        exec (.decReadCount W) s = .next { s with dec := d, res := n }) ∧
      (∀ (v : Word) (r : Nat) (extra : Bool), r < 3 → ¬(extra = true ∧ s.arg1 = 0xFFFFFFFF) →
        v.toNat ≤ s.arg1.toNat + extra.toNat →
        Decoder.narrowAll s.input (splitCodeIntervals r s.arg1.toNat s.arg2.toNat extra.toNat v.toNat) s.dec = .ok d →
        exec (.decReadSplit r extra) s = .next { s with dec := d, res := v }) ∧
      (∀ key w : Word, s.ft.Wf s.cfg.ftCap → (key, w) ∈ s.ft → s.ft.total ≤ 0x40000000 →
        s.dec.narrow s.input ⟨s.ft.cum key, w.toNat, s.ft.total⟩ = .ok d →
        exec .decReadPartFt s = .next { s with dec := d, res := key })

/-- R157, R126, R109: a decoder that is loaded with a finished stream consumes exactly the Intervals that were written, and
after them the sentinel, and ends with the encoder's bounds. -/
def Obligations.PrimitiveRoundTrip : Prop :=
  ∀ (cap : Nat) (trace : List Interval) (e f : Encoder) (inp : Input) (nbytes : Word),
    Encoder.writeAll cap trace Encoder.reset = .ok e → e.flush cap = .ok f →
      (∀ p, inp.bit nbytes.toNat p = f.bits.getD p false) →
        ∃ d e', Decoder.narrowAll inp trace (Decoder.load inp nbytes) = .ok d ∧ d.low = e.low ∧ d.high = e.high ∧
          Decoder.narrowAll inp (uniformIntervals 1234567890 4294967295) d = .ok e' ∧ e'.low = f.low ∧ e'.high = f.high

/-- R61, R335: the bytes of `DEC_IN` that the decoder has consumed wholly, or that lie beyond `DEC_INLEN`, have no effect on a
read. -/
def Obligations.ConsumedInputHasNoEffect : Prop :=
  ∀ (i : Instr) (s t : State) (m : Memory), isDecoderCommand i = true → i ≠ .decReset → exec i s = .next t →
    (∀ x, (∀ j, x = 0x20000 + j → s.dec.pos < 8 * (j + 1) → s.dec.inLen.toNat ≤ j) ∨ m.readByte x = s.mem.readByte x) →
      exec i { s with mem := m } = .next { t with mem := m }

/-- R22, R29 to R31, R50, R302, R333: what a decoder command other than LZ_DECODE leaves unchanged: everything but the decoder,
`RES` (for the reads and DEC_PEEK) and the record; DEC_PEEK leaves the decoder too, and only DEC_RESET sets `DEC_INLEN`. The count
of free values is the model's own (log entry 7). -/
def Obligations.DecoderFrame : Prop :=
  ∀ (i : Instr) (s t : State), isDecoderCommand i = true → exec i s = .next t →
    s.sameHostSide t ∧ t.enc = s.enc ∧ t.ft = s.ft ∧ t.lzN = s.lzN ∧ s.sameBytes t ∧
      (i = .decReset ∨ i = .decNarrow → t.res = s.res) ∧ (i = .decPeek → t.dec = s.dec) ∧
      (i ≠ .decReset → t.dec.inLen = s.dec.inLen) ∧ s.recordOf i t ∧ (t.fault = .noFault → t.freeCount = s.freeCount)

/-! ### The frequency table -/

/-- R186: FT_INSERT makes its four checks in their order; where all pass the table holds the key with the weight, every other
key as before, and the keys stay in order. -/
def Obligations.FtInsert : Prop :=
  ∀ s : State, s.ft.Wf s.cfg.ftCap →
    ((∃ w, (s.arg0, w) ∈ s.ft) → exec .ftInsert s = .next (s.faultedBy .ftInsert .ftKey s.arg0)) ∧
      ((∀ w, (s.arg0, w) ∉ s.ft) →
        (s.arg1 = 0 → exec .ftInsert s = .next (s.faultedBy .ftInsert .ftWeight 0)) ∧
          (s.arg1 ≠ 0 → s.ft.length = s.cfg.ftCap → exec .ftInsert s = .next (s.faultedBy .ftInsert .ftFull 0)) ∧
          (s.arg1 ≠ 0 → s.ft.length ≠ s.cfg.ftCap → 0xFFFFFFFF < s.ft.total + s.arg1.toNat →
            exec .ftInsert s = .next (s.faultedBy .ftInsert .ftWeight 0)) ∧
          (s.arg1 ≠ 0 → s.ft.length ≠ s.cfg.ftCap → s.ft.total + s.arg1.toNat ≤ 0xFFFFFFFF →
            ∃ t : FreqTable, exec .ftInsert s = .next { s with ft := t } ∧ t.Wf s.cfg.ftCap ∧
              (∀ c : Word × Word, c ∈ t ↔ c = (s.arg0, s.arg1) ∨ c ∈ s.ft) ∧ t.length = s.ft.length + 1 ∧
              t.total = s.ft.total + s.arg1.toNat))

/-- R187, R188, R185: FT_REMOVE deletes the key, FT_INCREASE adds 1 to its weight, and both leave every other key; an absent
key is FT_KEY with the key, and a total of 0xFFFFFFFF refuses the increment with FT_WEIGHT; FT_CLEAR empties the table. -/
def Obligations.FtRemoveIncreaseClear : Prop :=
  ∀ s : State, s.ft.Wf s.cfg.ftCap →
    ((∀ w, (s.arg0, w) ∉ s.ft) →
        exec .ftRemove s = .next (s.faultedBy .ftRemove .ftKey s.arg0) ∧
          exec .ftIncrease s = .next (s.faultedBy .ftIncrease .ftKey s.arg0)) ∧
      (∀ w, (s.arg0, w) ∈ s.ft →
        (∃ t : FreqTable, exec .ftRemove s = .next { s with ft := t } ∧ t.Wf s.cfg.ftCap ∧
            (∀ c : Word × Word, c ∈ t ↔ c ∈ s.ft ∧ c.1 ≠ s.arg0) ∧ t.total = s.ft.total - w.toNat) ∧
          (s.ft.total = 0xFFFFFFFF → exec .ftIncrease s = .next (s.faultedBy .ftIncrease .ftWeight 0)) ∧
          (s.ft.total ≠ 0xFFFFFFFF →
            ∃ t : FreqTable, exec .ftIncrease s = .next { s with ft := t } ∧ t.Wf s.cfg.ftCap ∧
              (∀ c : Word × Word, c ∈ t ↔ c = (s.arg0, w + 1) ∨ (c ∈ s.ft ∧ c.1 ≠ s.arg0)) ∧
              t.total = s.ft.total + 1)) ∧
      exec .ftClear s = .next { s with ft := [] }

/-- R189, R191, R192: FT_CUM returns the weight of the smaller keys, FT_WEIGHT the key's weight, FT_TOTAL the sum of the
weights, and each changes only `RES`; an absent key is FT_KEY with the key. -/
def Obligations.FtQueries : Prop :=
  ∀ s : State, s.ft.Wf s.cfg.ftCap →
    (∀ w, (s.arg0, w) ∈ s.ft →
        (∃ v : Word, exec .ftCum s = .next { s with res := v } ∧
            v.toNat = ((s.ft.filter (fun c => c.1.toNat < s.arg0.toNat)).map (fun c => c.2.toNat)).sum) ∧
          exec .ftWeight s = .next { s with res := w }) ∧
      ((∀ w, (s.arg0, w) ∉ s.ft) →
        exec .ftCum s = .next (s.faultedBy .ftCum .ftKey s.arg0) ∧
          exec .ftWeight s = .next (s.faultedBy .ftWeight .ftKey s.arg0)) ∧
      ∃ v : Word, exec .ftTotal s = .next { s with res := v } ∧ v.toNat = (s.ft.map (fun c => c.2.toNat)).sum

/-- R190, R183: for a position below the total FT_FIND returns the one key whose range of cumulative positions holds it;
for any other it records FT_KEY with the position. -/
def Obligations.FtFind : Prop :=
  ∀ s : State, s.ft.Wf s.cfg.ftCap →
    (s.arg0.toNat < s.ft.total →
        ∃ key w : Word, exec .ftFind s = .next { s with res := key } ∧ (key, w) ∈ s.ft ∧
          s.ft.cum key ≤ s.arg0.toNat ∧ s.arg0.toNat < s.ft.cum key + w.toNat ∧
          ∀ key' w' : Word, (key', w') ∈ s.ft → s.ft.cum key' ≤ s.arg0.toNat →
            s.arg0.toNat < s.ft.cum key' + w'.toNat → key' = key) ∧
      (s.ft.total ≤ s.arg0.toNat → exec .ftFind s = .next (s.faultedBy .ftFind .ftKey s.arg0))

/-- R22, R25, R29, R32, R185 to R192: what a table command leaves unchanged: everything but the table (which only FT_CLEAR,
FT_INSERT, FT_REMOVE and FT_INCREASE write), `RES` (which only the four queries write) and the record. -/
def Obligations.TableFrame : Prop :=
  ∀ (i : Instr) (s t : State), isTableCommand i = true → exec i s = .next t →
    s.sameHostSide t ∧ t.enc = s.enc ∧ t.dec = s.dec ∧ t.lzN = s.lzN ∧ s.sameBytes t ∧ t.freeCount = s.freeCount ∧
      s.recordOf i t ∧ (writesRes i = true → t.ft = s.ft) ∧ (writesRes i = false → t.res = s.res)

/-! ### Split policies and the LZ engine -/

/-- R205: a chosen policy's `max` is the largest of the values (0 for none); with the floor mean of the values as the bound, the
long branch is escaped where fewer than a third of them reach it, the short branch where more than two thirds do and some do not,
and otherwise they are coded whole; a split's threshold is the largest value below the bound, and it is below `max`. -/
def Obligations.ChosenPolicyCoversItsValues : Prop :=
  ∀ V : List Nat,
    let p := choosePolicy V
    let avg := V.sum / V.length
    let nge := (V.filter (fun v => avg ≤ v)).length
    (∀ v ∈ V, v ≤ p.max) ∧ (p.max ∈ V ∨ (V = [] ∧ p = ⟨.whole, 0, 0⟩)) ∧
      (p.mode = .escapeLong ↔ V ≠ [] ∧ 3 * nge < V.length) ∧
      (p.mode = .escapeShort ↔ V ≠ [] ∧ ¬3 * nge < V.length ∧ 2 * V.length < 3 * nge ∧ ∃ v ∈ V, v < avg) ∧
      (p.mode = .whole → p.threshold = 0) ∧
      (p.mode ≠ .whole →
        p.threshold ∈ V ∧ p.threshold < p.max ∧ p.threshold < avg ∧ ∀ v ∈ V, v < avg → v ≤ p.threshold)

/-- R222, R12: `Buffer(base)` is the least integer of at least 1 whose square is at least `base`. -/
def Obligations.BufferIsCeilingSquareRoot : Prop :=
  ∀ base : Nat, 1 ≤ buffer base ∧ base ≤ buffer base * buffer base ∧
    ∀ n, 1 ≤ n → base ≤ n * n → buffer base ≤ n

/-- R221, R260 to R262, R266, R269, R301: when LZ_ENCODE and LZ_DECODE fault, with what aux. The pre-checks of LZ_ENCODE after
the sealed flag, in their order, and those of LZ_DECODE, which makes no sealed check, are precise. LZ_DECODE records CAPACITY
with `N` for a count above the symbol capacity; CORRUPT_HEADER for a split policy (of the distance, the length or the spiral
length) with `max = 0`, and for a dummy stream with spirals; CORRUPT_REF with the output index for a token longer than the
output so far; CORRUPT_OVERRUN with that index for one that passes `N`. -/
def Obligations.LzFaultConditions : Prop :=
  (∀ s : State, ¬s.ft.usable → exec .lzDecode s = .next (s.faultedBy .lzDecode .lzModel 0)) ∧
  (∀ s : State, s.enc.isSealed = false →
    (s.cfg.symCap < s.arg0.toNat → exec .lzEncode s = .next (s.faultedBy .lzEncode .capacity s.arg0)) ∧
      (s.arg0.toNat ≤ s.cfg.symCap → ¬s.ft.usable → exec .lzEncode s = .next (s.faultedBy .lzEncode .lzModel 0)) ∧
      (s.arg0.toNat ≤ s.cfg.symCap → s.ft.usable →
        ∀ m, m < s.arg0.toNat → (∀ w, (s.symInWord m, w) ∉ s.ft) →
          (∀ q, q < m → ∃ w, (s.symInWord q, w) ∈ s.ft) →
            exec .lzEncode s = .next (s.faultedBy .lzEncode .lzSymbol (BitVec.ofNat 32 m)))) ∧
  ∀ (s : State) (n : Nat) (d : Decoder), s.dec.Settled → s.ft.Wf s.cfg.ftCap → s.ft.usable → n < 4294967296 →
    let reads := fun (trace : List Interval) => Decoder.narrowAll s.input trace s.dec = .ok d
    let badPolicy := fun (r : Nat) => uniformIntervals r 3 ++ countIntervals 0 16 0
    (s.cfg.symCap < n → reads (countIntervals n 32 (Nat.log2 (n + 1))) →
        s.records .lzDecode .capacity (BitVec.ofNat 32 n)) ∧
      (n ≤ s.cfg.symCap → ∀ (dist len : Policy) (r : Nat), dist.carried → len.carried → r = 1 ∨ r = 2 →
          (reads (countIntervals n 32 (Nat.log2 (n + 1)) ++ badPolicy r) ∨
              reads (countIntervals n 32 (Nat.log2 (n + 1)) ++ policyIntervals dist ++ badPolicy r) ∨
              reads (headerStart n false dist len ++ uniformIntervals 1 2 ++ badPolicy r) ∨
              (dist.max = 0 ∧ len.max = 0 ∧ reads (headerStart n true dist len ++ uniformIntervals 1 2))) →
            s.records .lzDecode .corruptHeader 0) ∧
      (n ≤ s.cfg.symCap → ∀ (plan : LzPlan) (out : List Word) (L : Nat), plan.Valid out → out.length < n →
        (∀ x ∈ out, ∃ w, (x, w) ∈ s.ft) → 2 ≤ L → L - 2 ≤ plan.len.max →
          let start := headerIntervals n false plan ++ bodyIntervals s.ft false plan out ++ tokenStart s.ft.total plan L
          (out.length < L → reads start → s.records .lzDecode .corruptRef (BitVec.ofNat 32 out.length)) ∧
            ∀ (dist : Nat) (sl : Option Nat), L ≤ out.length → (sl = none → dist ≤ plan.distBound out.length L) →
              (∀ k, sl = some k → plan.useSpiral = true ∧ k ≤ plan.spiral.max) →
                n < out.length + L * (sl.getD 0 + 1) →
                  reads (start ++ distanceIntervals plan out.length L dist sl) →
                    s.records .lzDecode .corruptOverrun (BitVec.ofNat 32 out.length))

/-- R111, R112, R220, R227, R234 to R241: LZ_ENCODE writes the header and the body of its plan: it completes where the
narrowings do, records the fault they end in, and completes wherever their bits fit; `RES` counts the tokens and `LZ_N` is `N`.
The plan is the reference selection's, or any valid one under ANY_VALID, where one free value is drawn (log entry 8) with
its policies and its flag `useSpiral` (DESIGN CHOICE, log entry 21), valid by R234's own list alone (DESIGN CHOICE, log entries 22
and 23); the stream is at most `17 + 8·N` Intervals long. -/
def Obligations.LzEncodeCompletes : Prop :=
  ∀ s : State, s.cfg.legal = true → s.enc.isSealed = false → s.ft.Wf s.cfg.ftCap → s.ft.usable →
    s.arg0.toNat ≤ s.cfg.symCap → (∀ m, m < s.arg0.toNat → ∃ w, (s.symInWord m, w) ∈ s.ft) →
      let xs := (List.range s.arg0.toNat).map s.symInWord
      let plan := s.lzPlan xs
      (s.cfg.lzSelect = .reference →
          plan = if (referencePlan s.cfg s.ft xs).tokens = [] then dummyPlan else referencePlan s.cfg s.ft xs) ∧
        plan.Valid xs ∧ (s.cfg.spiralEnable = false → plan.useSpiral = false) ∧
        (lzIntervals s.ft xs plan).length ≤ 17 + 8 * s.arg0.toNat ∧
        s.writesTrace .lzEncode (lzIntervals s.ft xs plan) (fun e =>
          { s with
            enc := e, lzN := s.arg0, res := BitVec.ofNat 32 plan.tokens.length,
            freeCount := if s.cfg.lzSelect = .reference then s.freeCount else s.freeCount + 1 })

/-- R223 to R228, R230 to R234, R243: the reference selection is exactly the one the rules give: every match is found, each start
keeps its longest candidate (the nearest predecessor's on a tie), the policies and the flag come from the kept candidates, and
the tokens are the eligible ones that pass the exact cost test and meet no token processed before. It meets the conditions of
R234: its tokens do not overlap, start their copies within the input before them, reproduce the input and lie in their policies'
domains, and the header can carry the policies. -/
def Obligations.ReferenceSelectionIsValid : Prop :=
  ∀ (cfg : Config.Params) (t : FreqTable) (xs : List Word), cfg.legal = true →
    (referencePlan cfg t xs).IsReference cfg t xs (keptCandidates cfg t xs) ∧ (referencePlan cfg t xs).Valid xs ∧
      (cfg.spiralEnable = false → (referencePlan cfg t xs).useSpiral = false) ∧
      ∀ c ∈ (referencePlan cfg t xs).tokens,
        2 ≤ c.chunk ∧ (if c.spiral then 0 else c.dist) + c.chunk ≤ c.start ∧
          c.start + c.chunk * (c.spiralLen + 1) ≤ xs.length

/-- R57, R184, R220, R241: what LZ_ENCODE leaves unchanged: everything but the encoder, `RES`, `LZ_N` and the record; the sealed
flag stays, and without a fault the bits already emitted do. The count of free values is the model's own (log entry 7). -/
def Obligations.LzEncodeFrame : Prop :=
  ∀ s t : State, exec .lzEncode s = .next t →
    s.sameHostSide t ∧ t.dec = s.dec ∧ t.ft = s.ft ∧ s.sameBytes t ∧ t.enc.isSealed = s.enc.isSealed ∧
      s.recordOf .lzEncode t ∧ (t.fault = .noFault → s.enc.bits <+: t.enc.bits)

/-- R234 to R240, R272, R274: where the input continues with the stream of a valid plan for `xs`, LZ_DECODE writes `xs` to
`SYM_OUT`, where the host reads them, and their number to `RES` and `LZ_N`. -/
def Obligations.LzDecodeMirrorsLzEncode : Prop :=
  ∀ (s : State) (xs : List Word) (plan : LzPlan) (d : Decoder),
    s.cfg.legal = true → s.dec.Settled → s.ft.Wf s.cfg.ftCap → s.ft.usable → xs.length ≤ s.cfg.symCap →
      (∀ x ∈ xs, ∃ w, (x, w) ∈ s.ft) → plan.Valid xs →
        Decoder.narrowAll s.input (lzIntervals s.ft xs plan) s.dec = .ok d →
          ∃ t, exec .lzDecode s = .next t ∧
            t = { s with
                  dec := d, mem := s.mem.writeSymOut 0 xs, lzN := BitVec.ofNat 32 xs.length,
                  res := BitVec.ofNat 32 xs.length } ∧
            (s.mem.wf → ∀ m (h : m < xs.length), t.symOutWord m = xs[m] ∧ t.readWindow (0x80000 + 4 * m) = xs[m])

/-- R57, R272, R336: what LZ_DECODE leaves unchanged: everything but the decoder, `RES`, `LZ_N`, the record and, where it
completes, the words `SYM_OUT[0 … N-1]`; where it faults, all of `SYM_OUT` is unspecified and every other byte as before. -/
def Obligations.LzDecodeFrame : Prop :=
  ∀ s t : State, s.mem.wf → s.fault = .noFault → exec .lzDecode s = .next t →
    s.sameHostSide t ∧ t.enc = s.enc ∧ t.ft = s.ft ∧ t.dec.inLen = s.dec.inLen ∧ s.recordOf .lzDecode t ∧
      (t.fault = .noFault →
        t.res = t.lzN ∧ t.res.toNat ≤ s.cfg.symCap ∧ t.freeCount = s.freeCount ∧
          ∀ x, ¬(0x80000 ≤ x ∧ x < 0x80000 + 4 * t.res.toNat) → t.mem.readByte x = s.mem.readByte x) ∧
      (t.fault ≠ .noFault →
        ∀ x, ¬(0x80000 ≤ x ∧ x < 0x80000 + 4 * s.cfg.symCap) → t.mem.readByte x = s.mem.readByte x)

end
end

