-- ==== Sys2Proof/Laws/State.lean ====
section
/-!
SUPPORT. Laws/State.lean: one lemma per field per update of State, so that no later proof unfolds a record update; what
taking a fault keeps (R302, R305); what `finish` can answer.
-/
namespace Sys2Proof.Machine

/-! ### Fields under `setRes`, `recordFault`, `advance` and `blockReset` -/

@[simp] theorem setRes_arg0 (s : State) (v : Word) : (s.setRes v).arg0 = s.arg0 := rfl
@[simp] theorem setRes_arg1 (s : State) (v : Word) : (s.setRes v).arg1 = s.arg1 := rfl
@[simp] theorem setRes_arg2 (s : State) (v : Word) : (s.setRes v).arg2 = s.arg2 := rfl
@[simp] theorem setRes_res (s : State) (v : Word) : (s.setRes v).res = v := rfl
@[simp] theorem setRes_fault (s : State) (v : Word) : (s.setRes v).fault = s.fault := rfl
@[simp] theorem setRes_faultInfo (s : State) (v : Word) : (s.setRes v).faultInfo = s.faultInfo := rfl
@[simp] theorem setRes_faultAux (s : State) (v : Word) : (s.setRes v).faultAux = s.faultAux := rfl
@[simp] theorem setRes_enc (s : State) (v : Word) : (s.setRes v).enc = s.enc := rfl
@[simp] theorem setRes_dec (s : State) (v : Word) : (s.setRes v).dec = s.dec := rfl
@[simp] theorem setRes_ft (s : State) (v : Word) : (s.setRes v).ft = s.ft := rfl
@[simp] theorem setRes_lzN (s : State) (v : Word) : (s.setRes v).lzN = s.lzN := rfl
@[simp] theorem setRes_mem (s : State) (v : Word) : (s.setRes v).mem = s.mem := rfl
@[simp] theorem setRes_pc (s : State) (v : Word) : (s.setRes v).pc = s.pc := rfl
@[simp] theorem setRes_hostQueue (s : State) (v : Word) : (s.setRes v).hostQueue = s.hostQueue := rfl
@[simp] theorem setRes_hostData (s : State) (v : Word) : (s.setRes v).hostData = s.hostData := rfl
@[simp] theorem setRes_cfg (s : State) (v : Word) : (s.setRes v).cfg = s.cfg := rfl
@[simp] theorem setRes_freeCount (s : State) (v : Word) : (s.setRes v).freeCount = s.freeCount := rfl

@[simp] theorem recordFault_arg0 (s : State) (w : Word) (r : Raise) : (s.recordFault w r).arg0 = s.arg0 := rfl
@[simp] theorem recordFault_arg1 (s : State) (w : Word) (r : Raise) : (s.recordFault w r).arg1 = s.arg1 := rfl
@[simp] theorem recordFault_arg2 (s : State) (w : Word) (r : Raise) : (s.recordFault w r).arg2 = s.arg2 := rfl
@[simp] theorem recordFault_res (s : State) (w : Word) (r : Raise) : (s.recordFault w r).res = s.res := rfl
@[simp] theorem recordFault_fault (s : State) (w : Word) (r : Raise) : (s.recordFault w r).fault = r.code := rfl
@[simp] theorem recordFault_faultInfo (s : State) (w : Word) (r : Raise) : (s.recordFault w r).faultInfo = w := rfl
@[simp] theorem recordFault_faultAux (s : State) (w : Word) (r : Raise) : (s.recordFault w r).faultAux = r.aux := rfl
@[simp] theorem recordFault_enc (s : State) (w : Word) (r : Raise) : (s.recordFault w r).enc = s.enc := rfl
@[simp] theorem recordFault_dec (s : State) (w : Word) (r : Raise) : (s.recordFault w r).dec = s.dec := rfl
@[simp] theorem recordFault_ft (s : State) (w : Word) (r : Raise) : (s.recordFault w r).ft = s.ft := rfl
@[simp] theorem recordFault_lzN (s : State) (w : Word) (r : Raise) : (s.recordFault w r).lzN = s.lzN := rfl
@[simp] theorem recordFault_mem (s : State) (w : Word) (r : Raise) : (s.recordFault w r).mem = s.mem := rfl
@[simp] theorem recordFault_pc (s : State) (w : Word) (r : Raise) : (s.recordFault w r).pc = s.pc := rfl
@[simp] theorem recordFault_hostQueue (s : State) (w : Word) (r : Raise) : (s.recordFault w r).hostQueue = s.hostQueue := rfl
@[simp] theorem recordFault_hostData (s : State) (w : Word) (r : Raise) : (s.recordFault w r).hostData = s.hostData := rfl
@[simp] theorem recordFault_cfg (s : State) (w : Word) (r : Raise) : (s.recordFault w r).cfg = s.cfg := rfl
@[simp] theorem recordFault_freeCount (s : State) (w : Word) (r : Raise) : (s.recordFault w r).freeCount = s.freeCount := rfl

@[simp] theorem advance_arg0 (s : State) : (s.advance).arg0 = s.arg0 := rfl
@[simp] theorem advance_arg1 (s : State) : (s.advance).arg1 = s.arg1 := rfl
@[simp] theorem advance_arg2 (s : State) : (s.advance).arg2 = s.arg2 := rfl
@[simp] theorem advance_res (s : State) : (s.advance).res = s.res := rfl
@[simp] theorem advance_fault (s : State) : (s.advance).fault = s.fault := rfl
@[simp] theorem advance_faultInfo (s : State) : (s.advance).faultInfo = s.faultInfo := rfl
@[simp] theorem advance_faultAux (s : State) : (s.advance).faultAux = s.faultAux := rfl
@[simp] theorem advance_enc (s : State) : (s.advance).enc = s.enc := rfl
@[simp] theorem advance_dec (s : State) : (s.advance).dec = s.dec := rfl
@[simp] theorem advance_ft (s : State) : (s.advance).ft = s.ft := rfl
@[simp] theorem advance_lzN (s : State) : (s.advance).lzN = s.lzN := rfl
@[simp] theorem advance_mem (s : State) : (s.advance).mem = s.mem := rfl
@[simp] theorem advance_pc (s : State) : (s.advance).pc = s.pc + 1 := rfl
@[simp] theorem advance_hostQueue (s : State) : (s.advance).hostQueue = s.hostQueue := rfl
@[simp] theorem advance_hostData (s : State) : (s.advance).hostData = s.hostData := rfl
@[simp] theorem advance_cfg (s : State) : (s.advance).cfg = s.cfg := rfl
@[simp] theorem advance_freeCount (s : State) : (s.advance).freeCount = s.freeCount := rfl

@[simp] theorem blockReset_arg0 (s : State) : (s.blockReset).arg0 = 0 := rfl
@[simp] theorem blockReset_arg1 (s : State) : (s.blockReset).arg1 = 0 := rfl
@[simp] theorem blockReset_arg2 (s : State) : (s.blockReset).arg2 = 0 := rfl
@[simp] theorem blockReset_res (s : State) : (s.blockReset).res = 0 := rfl
@[simp] theorem blockReset_fault (s : State) : (s.blockReset).fault = .noFault := rfl
@[simp] theorem blockReset_faultInfo (s : State) : (s.blockReset).faultInfo = 0 := rfl
@[simp] theorem blockReset_faultAux (s : State) : (s.blockReset).faultAux = 0 := rfl
@[simp] theorem blockReset_enc (s : State) : (s.blockReset).enc = Encoder.reset := rfl
@[simp] theorem blockReset_dec (s : State) : (s.blockReset).dec = Decoder.reset := rfl
@[simp] theorem blockReset_ft (s : State) : (s.blockReset).ft = [] := rfl
@[simp] theorem blockReset_lzN (s : State) : (s.blockReset).lzN = 0 := rfl
@[simp] theorem blockReset_mem (s : State) : (s.blockReset).mem = s.mem := rfl
@[simp] theorem blockReset_pc (s : State) : (s.blockReset).pc = s.pc := rfl
@[simp] theorem blockReset_hostQueue (s : State) : (s.blockReset).hostQueue = s.hostQueue := rfl
@[simp] theorem blockReset_hostData (s : State) : (s.blockReset).hostData = s.hostData := rfl
@[simp] theorem blockReset_cfg (s : State) : (s.blockReset).cfg = s.cfg := rfl
@[simp] theorem blockReset_freeCount (s : State) : (s.blockReset).freeCount = s.freeCount := rfl

@[simp] theorem queueCommand_arg0 (s : State) (w : Word) : (s.queueCommand w).arg0 = s.arg0 := rfl
@[simp] theorem queueCommand_arg1 (s : State) (w : Word) : (s.queueCommand w).arg1 = s.arg1 := rfl
@[simp] theorem queueCommand_arg2 (s : State) (w : Word) : (s.queueCommand w).arg2 = s.arg2 := rfl
@[simp] theorem queueCommand_res (s : State) (w : Word) : (s.queueCommand w).res = s.res := rfl
@[simp] theorem queueCommand_fault (s : State) (w : Word) : (s.queueCommand w).fault = s.fault := rfl
@[simp] theorem queueCommand_faultInfo (s : State) (w : Word) : (s.queueCommand w).faultInfo = s.faultInfo := rfl
@[simp] theorem queueCommand_faultAux (s : State) (w : Word) : (s.queueCommand w).faultAux = s.faultAux := rfl
@[simp] theorem queueCommand_enc (s : State) (w : Word) : (s.queueCommand w).enc = s.enc := rfl
@[simp] theorem queueCommand_dec (s : State) (w : Word) : (s.queueCommand w).dec = s.dec := rfl
@[simp] theorem queueCommand_ft (s : State) (w : Word) : (s.queueCommand w).ft = s.ft := rfl
@[simp] theorem queueCommand_lzN (s : State) (w : Word) : (s.queueCommand w).lzN = s.lzN := rfl
@[simp] theorem queueCommand_mem (s : State) (w : Word) : (s.queueCommand w).mem = s.mem := rfl
@[simp] theorem queueCommand_pc (s : State) (w : Word) : (s.queueCommand w).pc = s.pc := rfl
@[simp] theorem queueCommand_hostQueue (s : State) (w : Word) : (s.queueCommand w).hostQueue = cmdWrite s.cfg w :: s.hostQueue := rfl
@[simp] theorem queueCommand_hostData (s : State) (w : Word) : (s.queueCommand w).hostData = s.hostData := rfl
@[simp] theorem queueCommand_cfg (s : State) (w : Word) : (s.queueCommand w).cfg = s.cfg := rfl
@[simp] theorem queueCommand_freeCount (s : State) (w : Word) : (s.queueCommand w).freeCount = s.freeCount := rfl

/-! ### Taking a fault: the record, and what it keeps (R302, R305) -/

@[simp] theorem takeFault_fault (s : State) (w : Word) (r : Raise) : (s.takeFault w r).fault = r.code := rfl
@[simp] theorem takeFault_faultInfo (s : State) (w : Word) (r : Raise) : (s.takeFault w r).faultInfo = w := rfl
@[simp] theorem takeFault_faultAux (s : State) (w : Word) (r : Raise) : (s.takeFault w r).faultAux = r.aux := rfl
@[simp] theorem disturb_arg0 (s : State) (k : FaultKind) : (s.disturb k).arg0 = s.arg0 := by cases k <;> rfl
@[simp] theorem takeFault_arg0 (s : State) (w : Word) (r : Raise) : (s.takeFault w r).arg0 = s.arg0 := disturb_arg0 s r.kind
@[simp] theorem disturb_arg1 (s : State) (k : FaultKind) : (s.disturb k).arg1 = s.arg1 := by cases k <;> rfl
@[simp] theorem takeFault_arg1 (s : State) (w : Word) (r : Raise) : (s.takeFault w r).arg1 = s.arg1 := disturb_arg1 s r.kind
@[simp] theorem disturb_arg2 (s : State) (k : FaultKind) : (s.disturb k).arg2 = s.arg2 := by cases k <;> rfl
@[simp] theorem takeFault_arg2 (s : State) (w : Word) (r : Raise) : (s.takeFault w r).arg2 = s.arg2 := disturb_arg2 s r.kind
@[simp] theorem disturb_res (s : State) (k : FaultKind) : (s.disturb k).res = s.res := by cases k <;> rfl
@[simp] theorem takeFault_res (s : State) (w : Word) (r : Raise) : (s.takeFault w r).res = s.res := disturb_res s r.kind
@[simp] theorem disturb_ft (s : State) (k : FaultKind) : (s.disturb k).ft = s.ft := by cases k <;> rfl
@[simp] theorem takeFault_ft (s : State) (w : Word) (r : Raise) : (s.takeFault w r).ft = s.ft := disturb_ft s r.kind
@[simp] theorem disturb_lzN (s : State) (k : FaultKind) : (s.disturb k).lzN = s.lzN := by cases k <;> rfl
@[simp] theorem takeFault_lzN (s : State) (w : Word) (r : Raise) : (s.takeFault w r).lzN = s.lzN := disturb_lzN s r.kind
@[simp] theorem disturb_pc (s : State) (k : FaultKind) : (s.disturb k).pc = s.pc := by cases k <;> rfl
@[simp] theorem takeFault_pc (s : State) (w : Word) (r : Raise) : (s.takeFault w r).pc = s.pc := disturb_pc s r.kind
@[simp] theorem disturb_hostQueue (s : State) (k : FaultKind) : (s.disturb k).hostQueue = s.hostQueue := by cases k <;> rfl
@[simp] theorem takeFault_hostQueue (s : State) (w : Word) (r : Raise) : (s.takeFault w r).hostQueue = s.hostQueue := disturb_hostQueue s r.kind
@[simp] theorem disturb_hostData (s : State) (k : FaultKind) : (s.disturb k).hostData = s.hostData := by cases k <;> rfl
@[simp] theorem takeFault_hostData (s : State) (w : Word) (r : Raise) : (s.takeFault w r).hostData = s.hostData := disturb_hostData s r.kind
@[simp] theorem disturb_cfg (s : State) (k : FaultKind) : (s.disturb k).cfg = s.cfg := by cases k <;> rfl
@[simp] theorem takeFault_cfg (s : State) (w : Word) (r : Raise) : (s.takeFault w r).cfg = s.cfg := disturb_cfg s r.kind

@[simp] theorem takeFault_isSealed (s : State) (w : Word) (r : Raise) :
    (s.takeFault w r).enc.isSealed = s.enc.isSealed := by
  rcases r with ⟨_, _, k⟩; cases k <;> rfl

@[simp] theorem takeFault_inLen (s : State) (w : Word) (r : Raise) : (s.takeFault w r).dec.inLen = s.dec.inLen := by
  rcases r with ⟨_, _, k⟩; cases k <;> rfl

/-- A precise fault changes nothing but the record (R303). -/
theorem takeFault_precise (s : State) (w : Word) (code : FaultCode) (aux : Word) :
    s.takeFault w (.precise code aux) = { s with fault := code, faultInfo := w, faultAux := aux } := rfl

/-- An encoder fault leaves the decoder and the memory alone (R305). -/
theorem takeFault_encoderRun (s : State) (w : Word) (code : FaultCode) (aux : Word) :
    (s.takeFault w ⟨code, aux, .encoderRun⟩).dec = s.dec ∧ (s.takeFault w ⟨code, aux, .encoderRun⟩).mem = s.mem :=
  ⟨rfl, rfl⟩

/-- A fault of DEC_READ_FIB leaves the encoder and the memory alone (R305). -/
theorem takeFault_fibRun (s : State) (w : Word) (code : FaultCode) (aux : Word) :
    (s.takeFault w ⟨code, aux, .fibRun⟩).enc = s.enc ∧ (s.takeFault w ⟨code, aux, .fibRun⟩).mem = s.mem :=
  ⟨rfl, rfl⟩

/-- A fault of LZ_DECODE leaves the encoder alone (R305). -/
theorem takeFault_lzDecodeRun (s : State) (w : Word) (code : FaultCode) (aux : Word) :
    (s.takeFault w ⟨code, aux, .lzDecodeRun⟩).enc = s.enc := rfl

/-- Whatever the free values are, the bits of a disturbed encoder fit ENC_OUT (R27). -/
theorem takeFault_bits_le (s : State) (w : Word) (r : Raise) (h : s.enc.bits.length ≤ 8 * s.cfg.encCap) :
    (s.takeFault w r).enc.bits.length ≤ 8 * s.cfg.encCap := by
  rcases r with ⟨_, _, k⟩
  cases k <;> first | exact h | exact List.length_take_le _ _

/-! ### What a command answers -/

@[simp] theorem finish_ok (w : Word) (s t : State) : s.finish w (.ok t) = .next t := rfl

@[simp] theorem finish_error (w : Word) (s : State) (f : Raise) : s.finish w (.error f) = .next (s.takeFault w f) := rfl

/-- A command answers a next state: the one its rule gives, or the one its fault leaves. -/
theorem finish_next_iff (w : Word) (s t : State) (r : Coded State) :
    s.finish w r = .next t ↔ r = .ok t ∨ ∃ f, r = .error f ∧ t = s.takeFault w f := by
  cases r with
  | ok a => simp
  | error f =>
    simp only [finish_error, Host.Outcome.next.injEq, reduceCtorEq, false_or, Except.error.injEq, exists_eq_left']
    exact eq_comm

/-- A command never stops the machine. -/
theorem finish_completes (w : Word) (s : State) (r : Coded State) : ∃ t, s.finish w r = .next t := by
  cases r <;> exact ⟨_, rfl⟩

/-! ### Sequencing of subroutines -/

@[simp] theorem coded_bind_ok {α β : Type} (a : α) (f : α → Coded β) : (Except.ok a : Coded α) >>= f = f a := rfl

@[simp] theorem coded_bind_error {α β : Type} (r : Raise) (f : α → Coded β) :
    (Except.error r : Coded α) >>= f = .error r := rfl

/-- A sequence answers a value exactly when each part does. -/
theorem coded_bind_eq_ok {α β : Type} (x : Coded α) (f : α → Coded β) (b : β) :
    x >>= f = .ok b ↔ ∃ a, x = .ok a ∧ f a = .ok b := by
  cases x with
  | ok a => simp
  | error r => simp

/-- A sequence raises the fault of its first part, or of the second after the first answered. -/
theorem coded_bind_eq_error {α β : Type} (x : Coded α) (f : α → Coded β) (r : Raise) :
    x >>= f = .error r ↔ x = .error r ∨ ∃ a, x = .ok a ∧ f a = .error r := by
  cases x with
  | ok a => simp
  | error e => simp

end Sys2Proof.Machine
end

