-- ==== Sys2Proof/Laws/Coder.lean ====
section
/-!
SUPPORT. Laws/Coder.lean: what a renormalization step, a narrowing, a peek and an emission can do (R101 to R104, R142 to
R144), said once for the encoder and the decoder.
-/
namespace Sys2Proof.Machine

/-! ### Constants and words -/

@[simp] theorem half_eq : Config.half = 2147483648 := rfl
@[simp] theorem q1_eq : Config.q1 = 1073741824 := rfl
@[simp] theorem q3_eq : Config.q3 = 3221225472 := rfl
@[simp] theorem maxBase_eq : Config.maxBase = 1073741824 := rfl
@[simp] theorem top_eq : Config.top = 4294967295 := rfl
@[simp] theorem eqDirectMax_eq : Config.eqDirectMax = 65536 := rfl

theorem ofNat_toNat (n : Nat) : (Word.ofNat n).toNat = n % 4294967296 := by simp [Word.ofNat]

/-- A value below 2^32 is stored as it is (R12). -/
theorem ofNat_toNat_of_lt {n : Nat} (h : n < 4294967296) : (Word.ofNat n).toNat = n := by
  rw [ofNat_toNat, Nat.mod_eq_of_lt h]

theorem word_lt (w : Word) : w.toNat < 4294967296 := w.isLt

theorem bool_toNat_le (b : Bool) : b.toNat ≤ 1 := by cases b <;> decide

/-! ### Renormalization steps (R103) -/

theorem renormStep_lowHalf {l h : Word} : renormStep l h = .lowHalf ↔ h.toNat < 2147483648 := by
  unfold renormStep; split <;> [simp_all; (split <;> [simp_all; (split <;> simp_all)])]

theorem renormStep_highHalf {l h : Word} :
    renormStep l h = .highHalf ↔ 2147483648 ≤ h.toNat ∧ 2147483648 ≤ l.toNat := by
  unfold renormStep
  split
  · rename_i hh; simp at hh; simp; omega
  · rename_i hh; simp at hh
    split
    · rename_i hl; simp at hl; simp; omega
    · rename_i hl; simp at hl; split <;> simp <;> omega

theorem renormStep_middle {l h : Word} :
    renormStep l h = .middle ↔
      2147483648 ≤ h.toNat ∧ l.toNat < 2147483648 ∧ 1073741824 ≤ l.toNat ∧ h.toNat < 3221225472 := by
  unfold renormStep
  split
  · rename_i hh; simp at hh; simp; omega
  · rename_i hh; simp at hh
    split
    · rename_i hl; simp at hl; simp; omega
    · rename_i hl; simp at hl
      split
      · rename_i hm; simp at hm; simp; omega
      · rename_i hm; simp at hm; simp; omega

/-- The loop stops exactly at bounds that hold the middle and are wide (R103). -/
theorem renormStep_done {l h : Word} :
    renormStep l h = .done ↔
      2147483648 ≤ h.toNat ∧ l.toNat < 2147483648 ∧ (l.toNat < 1073741824 ∨ 3221225472 ≤ h.toNat) := by
  unfold renormStep
  split
  · rename_i hh; simp at hh; simp; omega
  · rename_i hh; simp at hh
    split
    · rename_i hl; simp at hl; simp; omega
    · rename_i hl; simp at hl
      split
      · rename_i hm; simp at hm; simp; omega
      · rename_i hm; simp at hm; simp; omega

theorem shiftIn_toNat (off : Nat) (w : Word) (b : Bool) :
    (shiftIn off w b).toNat = (2 * (w.toNat - off) + b.toNat) % 4294967296 := ofNat_toNat _

/-- After `k` steps the low bits of the bounds are the bits shifted in. -/
def shifted (k : Nat) (l h : Word) : Prop := l.toNat % 2 ^ k = 0 ∧ h.toNat % 2 ^ k = 2 ^ k - 1

theorem shifted_zero (l h : Word) : shifted 0 l h := by simp [shifted, Nat.mod_one]

theorem shiftIn_mod (k off : Nat) (w : Word) (b : Bool) (hk : k < 32) (hoff : off ≤ w.toNat) (hd : off % 2 ^ k = 0) :
    (shiftIn off w b).toNat % 2 ^ (k + 1) = 2 * (w.toNat % 2 ^ k) + b.toNat := by
  have hdvd : 2 ^ (k + 1) ∣ 4294967296 := by
    have : (4294967296 : Nat) = 2 ^ 32 := rfl
    rw [this]; exact Nat.pow_dvd_pow 2 (by omega)
  have hpow : 2 ^ (k + 1) = 2 * 2 ^ k := by rw [Nat.pow_succ, Nat.mul_comm]
  have hpos : 0 < 2 ^ k := Nat.pow_pos (by decide)
  have hb := bool_toNat_le b
  have hsub : (w.toNat - off) % 2 ^ k = w.toNat % 2 ^ k := by
    obtain ⟨q, hq⟩ := Nat.dvd_of_mod_eq_zero hd
    rw [hq, Nat.sub_mul_mod (by omega)]
  have hlt : w.toNat % 2 ^ k < 2 ^ k := Nat.mod_lt _ hpos
  rw [shiftIn_toNat, Nat.mod_mod_of_dvd _ hdvd, hpow]
  have hdiv := Nat.div_add_mod (w.toNat - off) (2 ^ k)
  rw [hsub] at hdiv
  have : 2 * (w.toNat - off) + b.toNat =
      (2 * (w.toNat % 2 ^ k) + b.toNat) + 2 * 2 ^ k * ((w.toNat - off) / 2 ^ k) := by
    have : 2 * 2 ^ k * ((w.toNat - off) / 2 ^ k) = 2 * (2 ^ k * ((w.toNat - off) / 2 ^ k)) := by ring
    omega
  rw [this, Nat.add_mul_mod_self_left, Nat.mod_eq_of_lt (by omega)]

/-- One step shifts one more bit into each bound. -/
theorem shifted_succ {k : Nat} {l h : Word} (hk : k < 32) (hs : shifted k l h) (st : RenormStep)
    (hst : renormStep l h = st) (hne : st ≠ .done) :
    shifted (k + 1) (shiftIn st.offset l false) (shiftIn st.offset h true) := by
  have hpos : 0 < 2 ^ k := Nat.pow_pos (by decide)
  have hpow : 2 ^ (k + 1) = 2 * 2 ^ k := by rw [Nat.pow_succ, Nat.mul_comm]
  have key : st.offset ≤ l.toNat ∧ st.offset ≤ h.toNat ∧ st.offset % 2 ^ k = 0 := by
    cases st with
    | lowHalf => simp [RenormStep.offset]
    | highHalf =>
      have := renormStep_highHalf.1 hst
      refine ⟨this.2, this.1, ?_⟩
      have h31 : (Config.half : Nat) = 2 ^ 31 := rfl
      simp only [RenormStep.offset, h31]
      exact Nat.mod_eq_zero_of_dvd (Nat.pow_dvd_pow 2 (by omega))
    | middle =>
      obtain ⟨h1, h2, h3, h4⟩ := renormStep_middle.1 hst
      refine ⟨h3, by simp only [RenormStep.offset, q1_eq]; omega, ?_⟩
      have h30 : (Config.q1 : Nat) = 2 ^ 30 := rfl
      simp only [RenormStep.offset, h30]
      rcases Nat.lt_or_ge 30 k with hgt | hle
      · have hk31 : k = 31 := by omega
        subst hk31
        have := hs.1
        omega
      · exact Nat.mod_eq_zero_of_dvd (Nat.pow_dvd_pow 2 hle)
    | done => exact absurd rfl hne
  refine ⟨?_, ?_⟩
  · rw [shiftIn_mod k _ l false hk key.1 key.2.2, hs.1]; rfl
  · rw [shiftIn_mod k _ h true hk key.2.1 key.2.2, hs.2, hpow]
    simp only [Bool.toNat_true]; omega

/-- After 32 steps the bounds are `[0, TOP]`, where the loop stops: 32 is a bound on its iterations (R103). -/
theorem shifted_full {l h : Word} (hs : shifted 32 l h) : renormStep l h = .done := by
  have h1 := hs.1; have h2 := hs.2; have := word_lt l; have := word_lt h
  rw [renormStep_done]; omega

/-! ### Bounds after a narrowing (R102) -/

/-- The check of R101 passes exactly on these Intervals. -/
theorem checkInterval_ok (iv : Interval) :
    checkInterval iv = .ok () ↔ 0 < iv.base ∧ iv.base ≤ 1073741824 ∧ iv.lower + iv.length ≤ iv.base := by
  unfold checkInterval
  split
  · rename_i h; simp at h; simp; omega
  · rename_i h; simp at h; simp; omega

/-- An Interval that narrows a coder (R15, R101, R102). -/
structure Interval.Valid (iv : Interval) : Prop where
  base_pos : 0 < iv.base
  base_le : iv.base ≤ 1073741824
  length_pos : 0 < iv.length
  fits : iv.lower + iv.length ≤ iv.base

/-- The new bounds, exactly: nothing wraps, and `l ≤ l' ≤ h' ≤ h` (R102). -/
theorem narrow_bounds {l h : Word} {iv : Interval} (hw : l.toNat + 1073741825 ≤ h.toNat) (hv : iv.Valid) :
    (narrowLow l h iv).toNat = l.toNat + rangeWidth l h * iv.lower / iv.base ∧
      (narrowHigh l h iv).toNat = l.toNat + rangeWidth l h * (iv.lower + iv.length) / iv.base - 1 ∧
      l.toNat ≤ (narrowLow l h iv).toNat ∧ (narrowLow l h iv).toNat ≤ (narrowHigh l h iv).toNat ∧
      (narrowHigh l h iv).toNat ≤ h.toNat := by
  obtain ⟨hb, hb', hl, hf⟩ := hv
  have hh := word_lt h
  have hR : rangeWidth l h = h.toNat - l.toNat + 1 := rfl
  have hgap : rangeWidth l h * iv.lower / iv.base + 1 ≤ rangeWidth l h * (iv.lower + iv.length) / iv.base := by
    rw [Nat.le_div_iff_mul_le hb]
    have h1 : rangeWidth l h * iv.lower / iv.base * iv.base ≤ rangeWidth l h * iv.lower := Nat.div_mul_le_self _ _
    have h2 : rangeWidth l h ≤ rangeWidth l h * iv.length := Nat.le_mul_of_pos_right _ hl
    have h3 : (rangeWidth l h * iv.lower / iv.base + 1) * iv.base =
        rangeWidth l h * iv.lower / iv.base * iv.base + iv.base := by ring
    have h4 : rangeWidth l h * (iv.lower + iv.length) = rangeWidth l h * iv.lower + rangeWidth l h * iv.length := by ring
    rw [h3, h4]; omega
  have htop : rangeWidth l h * (iv.lower + iv.length) / iv.base ≤ rangeWidth l h :=
    Nat.div_le_of_le_mul (by rw [Nat.mul_comm iv.base]; exact Nat.mul_le_mul_left _ hf)
  unfold narrowLow narrowHigh
  generalize rangeWidth l h * iv.lower / iv.base = A at *
  generalize rangeWidth l h * (iv.lower + iv.length) / iv.base = B at *
  have e1 : (Word.ofNat (l.toNat + A)).toNat = l.toNat + A := ofNat_toNat_of_lt (by omega)
  have e2 : (Word.ofNat (l.toNat + B - 1)).toNat = l.toNat + B - 1 := ofNat_toNat_of_lt (by omega)
  rw [e1, e2]
  exact ⟨rfl, rfl, by omega, by omega, by omega⟩

/-! ### The encoder -/

/-- Where `Append` succeeds and what it leaves (R104). -/
theorem append_eq_ok {cap : Nat} {b : Bool} {e e' : Encoder} :
    e.append cap b = .ok e' ↔ e.bits.length + 1 ≤ 8 * cap ∧ e' = { e with bits := e.bits ++ [b] } := by
  unfold Encoder.append
  split
  · rename_i h; simp; omega
  · rename_i h; simp; constructor
    · intro h'; exact ⟨by omega, h'.symm⟩
    · intro h'; exact h'.2.symm

theorem appendRun_eq_ok {cap : Nat} {b : Bool} (n : Nat) {e e' : Encoder} (hbits : e.bits.length ≤ 8 * cap) :
    Encoder.appendRun cap b n e = .ok e' ↔
      e.bits.length + n ≤ 8 * cap ∧ e' = { e with bits := e.bits ++ List.replicate n b } := by
  induction n generalizing e with
  | zero =>
    simp only [Encoder.appendRun, Except.ok.injEq, Nat.add_zero, List.replicate_zero, List.append_nil]
    constructor
    · intro h; exact ⟨hbits, h.symm⟩
    · intro h; exact h.2.symm
  | succ n ih =>
    unfold Encoder.appendRun
    rw [show (e.append cap b).bind (Encoder.appendRun cap b n) = (e.append cap b >>= Encoder.appendRun cap b n) from rfl,
      coded_bind_eq_ok]
    constructor
    · rintro ⟨a, ha, hrun⟩
      obtain ⟨hle, rfl⟩ := append_eq_ok.1 ha
      rw [ih (by simpa using hle)] at hrun
      simp only [List.length_append, List.length_singleton] at hrun
      refine ⟨by omega, ?_⟩
      rw [hrun.2, List.append_assoc]; rfl
    · rintro ⟨hle, rfl⟩
      refine ⟨{ e with bits := e.bits ++ [b] }, append_eq_ok.2 ⟨by omega, rfl⟩, ?_⟩
      rw [ih (by simpa using (by omega : e.bits.length + 1 ≤ 8 * cap))]
      simp only [List.length_append, List.length_singleton, List.append_assoc]
      exact ⟨by omega, rfl⟩

/-- What `EmitBit` emits, and where it succeeds (R104). -/
theorem emitBit_eq_ok {cap : Nat} {b : Bool} {e e' : Encoder} :
    e.emitBit cap b = .ok e' ↔
      e.bits.length + 1 + e.pending.toNat ≤ 8 * cap ∧
        e' = { e with bits := e.bits ++ b :: List.replicate e.pending.toNat (!b), pending := 0 } := by
  unfold Encoder.emitBit
  simp only [coded_bind_eq_ok]
  constructor
  · rintro ⟨a, ha, c, hc, he⟩
    obtain ⟨hle, rfl⟩ := append_eq_ok.1 ha
    rw [appendRun_eq_ok _ (by simpa using hle)] at hc
    simp only [List.length_append, List.length_singleton] at hc
    obtain ⟨hle', rfl⟩ := hc
    simp only [Except.ok.injEq] at he
    exact ⟨hle', by rw [← he, List.append_assoc]; rfl⟩
  · rintro ⟨hle, rfl⟩
    refine ⟨_, append_eq_ok.2 ⟨by omega, rfl⟩, { e with bits := e.bits ++ [b] ++ List.replicate e.pending.toNat (!b) }, ?_, ?_⟩
    · rw [appendRun_eq_ok _ (by simpa using (by omega : e.bits.length + 1 ≤ 8 * cap))]
      simp only [List.length_append, List.length_singleton]
      exact ⟨hle, trivial⟩
    · simp

/-- Where the bits do not fit, `EmitBit` names the number of bits a full stream has (R104, R112). -/
theorem emitBit_eq_error {cap : Nat} {b : Bool} {e : Encoder} (hle : e.bits.length ≤ 8 * cap)
    (h : 8 * cap < e.bits.length + 1 + e.pending.toNat) :
    e.emitBit cap b = .error ⟨.capacity, Word.ofNat (8 * cap), .encoderRun⟩ := by
  have full : ∀ (n : Nat) (b : Bool) (e : Encoder), e.bits.length ≤ 8 * cap → 8 * cap < e.bits.length + n →
      Encoder.appendRun cap b n e = .error ⟨.capacity, Word.ofNat (8 * cap), .encoderRun⟩ := by
    intro n
    induction n with
    | zero => intro b e _ _; omega
    | succ n ih =>
      intro b e h1 h2
      unfold Encoder.appendRun
      rw [show (e.append cap b).bind (Encoder.appendRun cap b n) = (e.append cap b >>= Encoder.appendRun cap b n) from rfl]
      by_cases hx : e.bits.length + 1 ≤ 8 * cap
      · rw [append_eq_ok.2 ⟨hx, rfl⟩, coded_bind_ok]
        exact ih b _ (by simpa using hx) (by simp; omega)
      · unfold Encoder.append
        rw [if_pos (by omega), show e.bits.length = 8 * cap by omega]; rfl
  unfold Encoder.emitBit
  by_cases hx : e.bits.length + 1 ≤ 8 * cap
  · rw [append_eq_ok.2 ⟨hx, rfl⟩, coded_bind_ok, full _ _ _ (by simpa using hx) (by simp; omega)]; rfl
  · unfold Encoder.append
    rw [if_pos (by omega), show e.bits.length = 8 * cap by omega]; rfl

theorem addPending_eq_error {e : Encoder} (h : e.pending = 0xFFFFFFFF) : e.addPending = .error ⟨.pendingOvf, 0, .encoderRun⟩ := by
  unfold Encoder.addPending; rw [if_pos h]

/-- Where a pending bit can be added (R111). -/
theorem addPending_eq_ok {e e' : Encoder} :
    e.addPending = .ok e' ↔ e.pending.toNat ≠ 4294967295 ∧ e' = { e with pending := e.pending + 1 } := by
  have hiff : e.pending = 0xFFFFFFFF ↔ e.pending.toNat = 4294967295 := by
    constructor
    · intro h; rw [h]; rfl
    · intro h; exact BitVec.eq_of_toNat_eq h
  unfold Encoder.addPending
  split
  · rename_i h; simp [hiff.1 h]
  · rename_i h; simp only [Except.ok.injEq, ne_eq, ← hiff, h, not_false_eq_true, true_and]; exact eq_comm

/-- Bits emitted and pending together: each renormalization step adds exactly one. -/
def Encoder.weight (e : Encoder) : Nat := e.bits.length + e.pending.toNat

/-- One step of the encoder's loop: what it emits (R103). -/
def Encoder.stepBits (cap : Nat) (e : Encoder) : RenormStep → Coded Encoder
  | .lowHalf => e.emitBit cap false
  | .highHalf => e.emitBit cap true
  | .middle => e.addPending
  | .done => .ok e

theorem renorm_succ (cap n : Nat) (e : Encoder) :
    Encoder.renorm cap (n + 1) e =
      if renormStep e.low e.high = .done then .ok e
      else (e.stepBits cap (renormStep e.low e.high) >>= fun e' =>
        Encoder.renorm cap n (e'.double (renormStep e.low e.high))) := by
  conv_lhs => unfold Encoder.renorm
  cases h : renormStep e.low e.high <;> rfl

theorem stepBits_ok {cap : Nat} {e e' : Encoder} {st : RenormStep} (h : e.stepBits cap st = .ok e') :
    e'.low = e.low ∧ e'.high = e.high ∧ e'.isSealed = e.isSealed ∧
      (e.bits.length ≤ 8 * cap → e'.bits.length ≤ 8 * cap) := by
  cases st with
  | lowHalf =>
    obtain ⟨hle, rfl⟩ := emitBit_eq_ok.1 h
    exact ⟨rfl, rfl, rfl, fun _ => by simp; omega⟩
  | highHalf =>
    obtain ⟨hle, rfl⟩ := emitBit_eq_ok.1 h
    exact ⟨rfl, rfl, rfl, fun _ => by simp; omega⟩
  | middle =>
    obtain ⟨hle, rfl⟩ := addPending_eq_ok.1 h
    exact ⟨rfl, rfl, rfl, id⟩
  | done =>
    simp only [Encoder.stepBits, Except.ok.injEq] at h
    subst h
    exact ⟨rfl, rfl, rfl, id⟩

/-- A step succeeds where its bit fits, and adds one to the bits emitted or pending. -/
theorem stepBits_completes {cap : Nat} {e : Encoder} {st : RenormStep} (hst : st ≠ .done)
    (hroom : e.weight + 1 ≤ 8 * cap) (hcap : 8 * cap < 4294967296) :
    ∃ e', e.stepBits cap st = .ok e' ∧ e'.weight = e.weight + 1 := by
  unfold Encoder.weight at hroom
  cases st with
  | lowHalf => exact ⟨_, emitBit_eq_ok.2 ⟨by omega, rfl⟩, by simp [Encoder.weight]; omega⟩
  | highHalf => exact ⟨_, emitBit_eq_ok.2 ⟨by omega, rfl⟩, by simp [Encoder.weight]; omega⟩
  | middle =>
    refine ⟨_, addPending_eq_ok.2 ⟨by omega, rfl⟩, ?_⟩
    have h1 : (1 : Word).toNat = 1 := rfl
    simp only [Encoder.weight, BitVec.toNat_add, h1]
    omega
  | done => exact absurd rfl hst

/-- What the renormalization leaves: bounds where the loop stops, the sealed flag, and the bits within their bound. It
holds of every encoder, whatever its bounds. -/
theorem renorm_ok {cap : Nat} (n : Nat) {e e' : Encoder} (hs : shifted (32 - n) e.low e.high) (hn : n ≤ 32)
    (h : Encoder.renorm cap n e = .ok e') :
    renormStep e'.low e'.high = .done ∧ e'.isSealed = e.isSealed ∧
      (e.bits.length ≤ 8 * cap → e'.bits.length ≤ 8 * cap) := by
  induction n generalizing e with
  | zero =>
    simp only [Encoder.renorm, Except.ok.injEq] at h
    subst h
    exact ⟨shifted_full hs, rfl, id⟩
  | succ n ih =>
    rw [renorm_succ] at h
    split at h
    · rename_i hd
      simp only [Except.ok.injEq] at h
      subst h
      exact ⟨hd, rfl, id⟩
    · rename_i hd
      obtain ⟨a, ha, hrest⟩ := (coded_bind_eq_ok _ _ _).1 h
      obtain ⟨hl, hh, hsl, hb⟩ := stepBits_ok ha
      have hs' := shifted_succ (by omega) hs _ rfl hd
      have := ih (e := a.double (renormStep e.low e.high))
        (by simpa only [Encoder.double, hl, hh, show 32 - (n + 1) + 1 = 32 - n by omega] using hs') (by omega) hrest
      exact ⟨this.1, this.2.1.trans hsl, fun hle => this.2.2 (hb hle)⟩

/-- The renormalization succeeds where one bit for each of its steps fits. -/
theorem renorm_completes {cap : Nat} (n : Nat) (e : Encoder) (hroom : e.weight + n ≤ 8 * cap)
    (hcap : 8 * cap < 4294967296) :
    ∃ e', Encoder.renorm cap n e = .ok e' ∧ e'.weight ≤ e.weight + n := by
  induction n generalizing e with
  | zero => exact ⟨e, rfl, Nat.le_refl _⟩
  | succ n ih =>
    rw [renorm_succ]
    split
    · exact ⟨e, rfl, by omega⟩
    · rename_i hd
      obtain ⟨a, ha, hwa⟩ := stepBits_completes (cap := cap) (e := e) hd (by omega) hcap
      have hw : (a.double (renormStep e.low e.high)).weight = a.weight := rfl
      obtain ⟨e', he', hle⟩ := ih (a.double (renormStep e.low e.high)) (by omega)
      exact ⟨e', by rw [ha]; exact he', by omega⟩

/-- Bounds where the loop stops are settled (R37). -/
theorem Encoder.settled_of_done {e : Encoder} (h : renormStep e.low e.high = .done) : e.Settled := by
  have := renormStep_done.1 h
  exact ⟨by simp only [half_eq]; omega, by simp only [half_eq]; omega, by simp only [q1_eq]; omega⟩

/-- What a narrowing can do: nothing (length 0), or settle the bounds; it keeps the sealed flag and the bits' bound. -/
theorem Encoder.narrow_ok {cap : Nat} {iv : Interval} {e e' : Encoder} (h : e.narrow cap iv = .ok e') :
    (0 < iv.base ∧ iv.base ≤ 1073741824 ∧ iv.lower + iv.length ≤ iv.base) ∧
      ((iv.length = 0 ∧ e' = e) ∨ (0 < iv.length ∧ e'.Settled)) ∧
      e'.isSealed = e.isSealed ∧ (e.bits.length ≤ 8 * cap → e'.bits.length ≤ 8 * cap) := by
  unfold Encoder.narrow at h
  obtain ⟨u, hu, h⟩ := (coded_bind_eq_ok _ _ _).1 h
  refine ⟨(checkInterval_ok iv).1 hu, ?_⟩
  split at h
  · rename_i hz
    simp only [Except.ok.injEq] at h
    subst h
    exact ⟨.inl ⟨hz, rfl⟩, rfl, id⟩
  · rename_i hz
    obtain ⟨h1, h2, h3⟩ := renorm_ok 32 (by simpa using shifted_zero _ _) (Nat.le_refl _) h
    exact ⟨.inr ⟨Nat.pos_of_ne_zero hz, Encoder.settled_of_done h1⟩, h2, h3⟩

/-- A valid Interval narrows wherever 32 bits fit; it adds at most 32 to the bits emitted or pending. -/
theorem Encoder.narrow_completes {cap : Nat} {iv : Interval} (e : Encoder) (hv : iv.Valid)
    (hroom : e.weight + 32 ≤ 8 * cap) (hcap : 8 * cap < 4294967296) :
    ∃ e', e.narrow cap iv = .ok e' ∧ e'.weight ≤ e.weight + 32 := by
  unfold Encoder.narrow
  rw [(checkInterval_ok iv).2 ⟨hv.base_pos, hv.base_le, hv.fits⟩]
  simp only [coded_bind_ok, Nat.pos_iff_ne_zero.1 hv.length_pos, if_false]
  exact renorm_completes 32 (e.select iv) hroom hcap

theorem writeAll_cons (cap : Nat) (iv : Interval) (rest : List Interval) (e : Encoder) :
    Encoder.writeAll cap (iv :: rest) e = (e.narrow cap iv >>= Encoder.writeAll cap rest) := rfl

/-- Writing a trace keeps settled bounds, the sealed flag and the bits' bound. -/
theorem Encoder.writeAll_ok {cap : Nat} (t : List Interval) {e e' : Encoder} (h : e.writeAll cap t = .ok e') :
    (e.Settled → e'.Settled) ∧ e'.isSealed = e.isSealed ∧ (e.bits.length ≤ 8 * cap → e'.bits.length ≤ 8 * cap) := by
  induction t generalizing e with
  | nil =>
    simp only [Encoder.writeAll, Except.ok.injEq] at h
    subst h
    exact ⟨id, rfl, id⟩
  | cons iv rest ih =>
    rw [writeAll_cons] at h
    obtain ⟨a, ha, hrest⟩ := (coded_bind_eq_ok _ _ _).1 h
    obtain ⟨_, hcase, hsl, hb⟩ := Encoder.narrow_ok ha
    obtain ⟨i1, i2, i3⟩ := ih hrest
    refine ⟨fun he => i1 ?_, i2.trans hsl, fun hle => i3 (hb hle)⟩
    rcases hcase with ⟨_, rfl⟩ | ⟨_, hset⟩
    · exact he
    · exact hset

/-- A renormalization step keeps the bits already emitted (R104). -/
theorem stepBits_prefix {cap : Nat} {e e' : Encoder} {st : RenormStep} (h : e.stepBits cap st = .ok e') :
    e.bits <+: e'.bits := by
  cases st with
  | lowHalf => obtain ⟨_, rfl⟩ := emitBit_eq_ok.1 h; exact List.prefix_append _ _
  | highHalf => obtain ⟨_, rfl⟩ := emitBit_eq_ok.1 h; exact List.prefix_append _ _
  | middle => obtain ⟨_, rfl⟩ := addPending_eq_ok.1 h; exact List.prefix_refl _
  | done => simp only [Encoder.stepBits, Except.ok.injEq] at h; rw [h]

theorem renorm_prefix {cap : Nat} (n : Nat) {e e' : Encoder} (h : Encoder.renorm cap n e = .ok e') : e.bits <+: e'.bits := by
  induction n generalizing e with
  | zero => simp only [Encoder.renorm, Except.ok.injEq] at h; rw [h]
  | succ n ih =>
    rw [renorm_succ] at h
    split at h
    · simp only [Except.ok.injEq] at h; rw [h]
    · obtain ⟨a, ha, hrest⟩ := (coded_bind_eq_ok _ _ _).1 h
      exact (stepBits_prefix ha).trans (ih (e := a.double (renormStep e.low e.high)) hrest)

/-- Narrowing keeps the bits already emitted (R27, R104). -/
theorem Encoder.writeAll_prefix {cap : Nat} (t : List Interval) {e e' : Encoder} (h : e.writeAll cap t = .ok e') :
    e.bits <+: e'.bits := by
  induction t generalizing e with
  | nil => simp only [Encoder.writeAll, Except.ok.injEq] at h; rw [h]
  | cons iv rest ih =>
    rw [writeAll_cons] at h
    obtain ⟨a, ha, hrest⟩ := (coded_bind_eq_ok _ _ _).1 h
    refine List.IsPrefix.trans ?_ (ih hrest)
    unfold Encoder.narrow at ha
    obtain ⟨_, _, ha⟩ := (coded_bind_eq_ok _ _ _).1 ha
    split at ha
    · simp only [Except.ok.injEq] at ha; rw [ha]
    · exact renorm_prefix 32 (e := e.select iv) ha

/-- A trace of valid Intervals is written wherever 32 bits for each of them fit. -/
theorem Encoder.writeAll_completes {cap : Nat} (t : List Interval) (e : Encoder) (hv : ∀ iv ∈ t, iv.Valid)
    (hroom : e.weight + 32 * t.length ≤ 8 * cap) (hcap : 8 * cap < 4294967296) :
    ∃ e', e.writeAll cap t = .ok e' ∧ e'.weight ≤ e.weight + 32 * t.length := by
  induction t generalizing e with
  | nil => exact ⟨e, rfl, Nat.le_refl _⟩
  | cons iv rest ih =>
    rw [List.length_cons] at hroom
    obtain ⟨a, ha, hwa⟩ := Encoder.narrow_completes e (hv iv (by simp)) (by omega) hcap
    obtain ⟨e', he', hwe⟩ := ih a (fun iv' h' => hv iv' (by simp [h'])) (by omega)
    refine ⟨e', ?_, by rw [List.length_cons]; omega⟩
    rw [writeAll_cons, ha]
    exact he'

/-! ### The decoder -/

/-- The value of a step's shift, when nothing wraps. -/
theorem shiftIn_exact {off : Nat} {w : Word} {b : Bool} (h : w.toNat - off < 2147483648) :
    (shiftIn off w b).toNat = 2 * (w.toNat - off) + b.toNat := by
  have := bool_toNat_le b
  rw [shiftIn_toNat, Nat.mod_eq_of_lt (by omega)]

theorem decoder_renorm_succ (inp : Input) (n : Nat) (d : Decoder) :
    Decoder.renorm inp (n + 1) d =
      if renormStep d.low d.high = .done then d
      else Decoder.renorm inp n (d.double inp (renormStep d.low d.high)) := by
  conv_lhs => unfold Decoder.renorm
  cases h : renormStep d.low d.high <;> rfl

/-- One decoder step keeps the value between the bounds (R38, R144). -/
theorem Decoder.double_value {inp : Input} {d : Decoder} (hne : renormStep d.low d.high ≠ .done)
    (h1 : d.low.toNat ≤ d.value.toNat) (h2 : d.value.toNat ≤ d.high.toNat) :
    (d.double inp (renormStep d.low d.high)).low.toNat ≤ (d.double inp (renormStep d.low d.high)).value.toNat ∧
      (d.double inp (renormStep d.low d.high)).value.toNat ≤ (d.double inp (renormStep d.low d.high)).high.toNat := by
  have hh := word_lt d.high
  have hb := bool_toNat_le (inp.bit d.inLen.toNat d.pos)
  have key : (renormStep d.low d.high).offset ≤ d.low.toNat ∧
      d.high.toNat - (renormStep d.low d.high).offset < 2147483648 := by
    cases hst : renormStep d.low d.high with
    | lowHalf => have := renormStep_lowHalf.1 hst; simp [RenormStep.offset]; omega
    | highHalf => have := renormStep_highHalf.1 hst; simp [RenormStep.offset]; omega
    | middle => have := renormStep_middle.1 hst; simp [RenormStep.offset]; omega
    | done => exact absurd hst hne
  simp only [Decoder.double, Decoder.shiftValue]
  rw [shiftIn_exact (by omega), shiftIn_exact (by omega), shiftIn_exact (by omega)]
  simp only [Bool.toNat_false, Bool.toNat_true]
  omega

/-- What the decoder's renormalization leaves (R38, R144). -/
theorem Decoder.renorm_spec (inp : Input) (n : Nat) {d : Decoder} (hs : shifted (32 - n) d.low d.high) (hn : n ≤ 32) :
    renormStep (Decoder.renorm inp n d).low (Decoder.renorm inp n d).high = .done ∧
      (Decoder.renorm inp n d).inLen = d.inLen ∧
      (d.low.toNat ≤ d.value.toNat ∧ d.value.toNat ≤ d.high.toNat →
        (Decoder.renorm inp n d).low.toNat ≤ (Decoder.renorm inp n d).value.toNat ∧
          (Decoder.renorm inp n d).value.toNat ≤ (Decoder.renorm inp n d).high.toNat) := by
  induction n generalizing d with
  | zero => exact ⟨shifted_full hs, rfl, id⟩
  | succ n ih =>
    rw [decoder_renorm_succ]
    split
    · rename_i hd; exact ⟨hd, rfl, id⟩
    · rename_i hd
      have hs' := shifted_succ (by omega) hs _ rfl hd
      obtain ⟨i1, i2, i3⟩ := ih (d := d.double inp (renormStep d.low d.high))
        (by simpa only [Decoder.double, show 32 - (n + 1) + 1 = 32 - n by omega] using hs') (by omega)
      exact ⟨i1, i2, fun h => i3 (Decoder.double_value hd h.1 h.2)⟩

/-- What a peek answers between settled bounds: a part below `base`, by the formula of R142. -/
theorem Decoder.peek_ok {d : Decoder} (hd : d.Settled) {base : Nat} (h0 : 0 < base) (h1 : base ≤ 1073741824) :
    ∃ v, d.peek base = .ok v ∧ v = ((d.value.toNat - d.low.toNat + 1) * base - 1) / rangeWidth d.low d.high ∧
      v < base := by
  have hv := hd.value_ge; have hv' := hd.value_le
  refine ⟨_, ?_, rfl, ?_⟩
  · unfold Decoder.peek
    rw [if_neg (by simp only [maxBase_eq]; omega)]
  · have hR : rangeWidth d.low d.high = d.high.toNat - d.low.toNat + 1 := rfl
    rw [Nat.div_lt_iff_lt_mul (by omega)]
    have : (d.value.toNat - d.low.toNat + 1) * base ≤ base * rangeWidth d.low d.high := by
      rw [Nat.mul_comm]; exact Nat.mul_le_mul_left _ (by omega)
    have : 0 < (d.value.toNat - d.low.toNat + 1) * base := Nat.mul_pos (by omega) h0
    omega

/-- The containment test of DEC_NARROW is the value lying between the new bounds (R142, R143). -/
theorem Decoder.peek_contains {d : Decoder} (hd : d.Settled) {iv : Interval} (hv : iv.Valid) :
    (iv.lower ≤ ((d.value.toNat - d.low.toNat + 1) * iv.base - 1) / rangeWidth d.low d.high ∧
        ((d.value.toNat - d.low.toNat + 1) * iv.base - 1) / rangeWidth d.low d.high < iv.lower + iv.length) ↔
      (narrowLow d.low d.high iv).toNat ≤ d.value.toNat ∧ d.value.toNat ≤ (narrowHigh d.low d.high iv).toNat := by
  have hw := hd.width; simp only [q1_eq] at hw
  have h1 := hd.value_ge
  obtain ⟨e1, e2, _, _, _⟩ := narrow_bounds (l := d.low) (h := d.high) (by omega) hv
  rw [e1, e2]
  have hb := hv.base_pos; have hl := hv.length_pos
  have hR : 0 < rangeWidth d.low d.high := Nat.succ_pos _
  obtain ⟨x, hx⟩ : ∃ x, d.value.toNat = d.low.toNat + x := ⟨_, (Nat.add_sub_cancel' h1).symm⟩
  have hxx : d.value.toNat - d.low.toNat = x := by omega
  have hpos : 0 < (x + 1) * iv.base := Nat.mul_pos (Nat.succ_pos _) hb
  have hgap : 0 < rangeWidth d.low d.high * (iv.lower + iv.length) / iv.base := by
    have := narrow_bounds (l := d.low) (h := d.high) (iv := iv) (by omega) hv
    have hww := hv.base_le
    have : 1 * iv.base ≤ rangeWidth d.low d.high * (iv.lower + iv.length) :=
      Nat.le_trans (by simp only [rangeWidth]; omega) (Nat.le_mul_of_pos_right _ (by omega))
    exact (Nat.le_div_iff_mul_le hb).2 this
  rw [hxx, Nat.le_div_iff_mul_le hR, Nat.div_lt_iff_lt_mul hR, hx]
  have a1 : iv.lower * rangeWidth d.low d.high ≤ (x + 1) * iv.base - 1 ↔
      rangeWidth d.low d.high * iv.lower / iv.base < x + 1 := by
    rw [Nat.div_lt_iff_lt_mul hb, Nat.mul_comm (rangeWidth d.low d.high)]; omega
  have a2 : (x + 1) * iv.base - 1 < (iv.lower + iv.length) * rangeWidth d.low d.high ↔
      x + 1 ≤ rangeWidth d.low d.high * (iv.lower + iv.length) / iv.base := by
    rw [Nat.le_div_iff_mul_le hb, Nat.mul_comm (rangeWidth d.low d.high)]; omega
  rw [a1, a2]; omega

/-- What a decoder narrowing can do: nothing (length 0), or consume an Interval that holds the value and settle the
bounds; it keeps `DEC_INLEN` (R143). -/
theorem Decoder.narrow_ok {inp : Input} {iv : Interval} {d d' : Decoder} (hd : d.Settled)
    (h : d.narrow inp iv = .ok d') :
    (0 < iv.base ∧ iv.base ≤ 1073741824 ∧ iv.lower + iv.length ≤ iv.base) ∧ d'.Settled ∧ d'.inLen = d.inLen ∧
      ((iv.length = 0 ∧ d' = d) ∨
        (0 < iv.length ∧ d' = Decoder.renorm inp renormFuel (d.select iv) ∧
          ∃ v, d.peek iv.base = .ok v ∧ iv.lower ≤ v ∧ v < iv.lower + iv.length)) := by
  unfold Decoder.narrow at h
  obtain ⟨u, hu, h⟩ := (coded_bind_eq_ok _ _ _).1 h
  obtain ⟨hb, hb', hf⟩ := (checkInterval_ok iv).1 hu
  refine ⟨⟨hb, hb', hf⟩, ?_⟩
  split at h
  · rename_i hz
    simp only [Except.ok.injEq] at h
    subst h
    exact ⟨hd, rfl, .inl ⟨hz, rfl⟩⟩
  · rename_i hz
    have hl : 0 < iv.length := Nat.pos_of_ne_zero hz
    obtain ⟨v, hpeek, hrest⟩ := (coded_bind_eq_ok _ _ _).1 h
    split at hrest
    · exact absurd hrest (by simp)
    · rename_i hin
      simp only [Except.ok.injEq] at hrest
      have hlo : iv.lower ≤ v := by omega
      have hhi : v < iv.lower + iv.length := by omega
      obtain ⟨v', hv', hvform, _⟩ := Decoder.peek_ok hd hb hb'
      have hvv : v = v' := by rw [hpeek] at hv'; simpa using hv'
      have hin' := (Decoder.peek_contains hd ⟨hb, hb', hl, hf⟩).1 (by rw [← hvform, ← hvv]; exact ⟨hlo, hhi⟩)
      obtain ⟨r1, r2, r3⟩ := Decoder.renorm_spec inp 32 (d := d.select iv) (by simpa using shifted_zero _ _) (Nat.le_refl _)
      have hval := r3 hin'
      have hdone := renormStep_done.1 r1
      have hd' : d' = Decoder.renorm inp renormFuel (d.select iv) := hrest.symm
      refine ⟨?_, by rw [hd']; exact r2, .inr ⟨hl, hd', v, hpeek, hlo, hhi⟩⟩
      rw [hd']
      refine ⟨?_, ?_, ?_, hval.1, hval.2⟩
      · exact (by simp only [half_eq]; omega :
          (Decoder.renorm inp 32 (d.select iv)).low.toNat < Config.half)
      · exact (by simp only [half_eq]; omega :
          Config.half ≤ (Decoder.renorm inp 32 (d.select iv)).high.toNat)
      · exact (by simp only [q1_eq]; omega :
          (Decoder.renorm inp 32 (d.select iv)).low.toNat + Config.q1 + 1 ≤ (Decoder.renorm inp 32 (d.select iv)).high.toNat)

/-- A valid Interval that holds the peek value is consumed (R143). -/
theorem Decoder.narrow_completes {inp : Input} {iv : Interval} {d : Decoder} (hv : iv.Valid) {v : Nat}
    (hpeek : d.peek iv.base = .ok v) (hlo : iv.lower ≤ v) (hhi : v < iv.lower + iv.length) :
    d.narrow inp iv = .ok (Decoder.renorm inp renormFuel (d.select iv)) := by
  unfold Decoder.narrow
  rw [(checkInterval_ok iv).2 ⟨hv.base_pos, hv.base_le, hv.fits⟩]
  simp only [coded_bind_ok, Nat.pos_iff_ne_zero.1 hv.length_pos, if_false, hpeek]
  rw [if_neg (by omega)]

end Sys2Proof.Machine
end

