-- ==== Sys2Proof/Laws/Freq.lean ====
section
/-!
SUPPORT. Laws/Freq.lean: the queries and updates of the frequency table (R180 to R183, R186 to R188), each said once.
-/
namespace Sys2Proof.Machine

/-- A table in order with positive weights: `FreqTable.Wf` without its bounds. -/
structure FreqTable.Ordered (t : FreqTable) : Prop where
  sorted : t.Pairwise (fun c c' => c.1.toNat < c'.1.toNat)
  positive : ∀ c ∈ t, c.2 ≠ 0

theorem FreqTable.Wf.ordered {cap : Nat} {t : FreqTable} (h : t.Wf cap) : t.Ordered := ⟨h.sorted, h.positive⟩

theorem FreqTable.ordered_cons {c : Word × Word} {t : FreqTable} :
    FreqTable.Ordered (c :: t) ↔ (∀ c' ∈ t, c.1.toNat < c'.1.toNat) ∧ c.2 ≠ 0 ∧ FreqTable.Ordered t := by
  constructor
  · rintro ⟨h1, h2⟩
    rw [List.pairwise_cons] at h1
    exact ⟨h1.1, h2 c (by simp), h1.2, fun c' hc' => h2 c' (by simp [hc'])⟩
  · rintro ⟨h1, h2, h3⟩
    refine ⟨List.pairwise_cons.2 ⟨h1, h3.sorted⟩, ?_⟩
    intro c' hc'
    rcases List.mem_cons.1 hc' with rfl | h
    · exact h2
    · exact h3.positive c' h

@[simp] theorem FreqTable.total_nil : FreqTable.total [] = 0 := rfl

@[simp] theorem FreqTable.total_cons (c : Word × Word) (t : FreqTable) :
    FreqTable.total (c :: t) = c.2.toNat + FreqTable.total t := by simp [FreqTable.total]

@[simp] theorem FreqTable.cum_nil (key : Word) : FreqTable.cum [] key = 0 := rfl

theorem FreqTable.cum_cons (c : Word × Word) (t : FreqTable) (key : Word) :
    FreqTable.cum (c :: t) key = (if c.1.toNat < key.toNat then c.2.toNat else 0) + FreqTable.cum t key := by
  unfold FreqTable.cum
  by_cases h : c.1.toNat < key.toNat <;> simp [h]

/-- No smaller keys: nothing to the left. -/
theorem FreqTable.cum_eq_zero {t : FreqTable} {key : Word} (h : ∀ c ∈ t, key.toNat ≤ c.1.toNat) : t.cum key = 0 := by
  induction t with
  | nil => rfl
  | cons c t ih =>
    rw [FreqTable.cum_cons, ih (fun c' h' => h c' (by simp [h'])), if_neg (by have := h c (by simp); omega)]

theorem FreqTable.cum_le_total (t : FreqTable) (key : Word) : t.cum key ≤ t.total := by
  induction t with
  | nil => simp
  | cons c t ih => rw [FreqTable.cum_cons, FreqTable.total_cons]; split <;> omega

theorem word_ne_zero_pos {w : Word} (h : w ≠ 0) : 0 < w.toNat := by
  rcases Nat.eq_zero_or_pos w.toNat with h0 | h0
  · exact absurd (BitVec.eq_of_toNat_eq (by simpa using h0)) h
  · exact h0

/-! ### The weight of a key (R180) -/

theorem FreqTable.weight?_mem {t : FreqTable} {key w : Word} (h : t.weight? key = some w) : (key, w) ∈ t := by
  induction t with
  | nil => simp [FreqTable.weight?] at h
  | cons c t ih =>
    rcases c with ⟨k, w'⟩
    simp only [FreqTable.weight?] at h
    split at h
    · rename_i hk; simp at h; simp [hk, h]
    · exact List.mem_cons_of_mem _ (ih h)

theorem FreqTable.weight?_eq_none {t : FreqTable} {key : Word} : t.weight? key = none ↔ ∀ w, (key, w) ∉ t := by
  induction t with
  | nil => simp [FreqTable.weight?]
  | cons c t ih =>
    rcases c with ⟨k, w'⟩
    simp only [FreqTable.weight?, List.mem_cons, Prod.mk.injEq, not_or]
    split
    · rename_i hk; simp only [reduceCtorEq, false_iff, not_forall]; exact ⟨w', fun h => h.1 ⟨hk, rfl⟩⟩
    · rename_i hk; rw [ih]; simp [hk]

theorem FreqTable.sorted_ne {t : FreqTable} {c : Word × Word} (h : ∀ c' ∈ t, c.1.toNat < c'.1.toNat) :
    ∀ w, (c.1, w) ∉ t := fun w hm => absurd (h _ hm) (Nat.lt_irrefl _)

/-- In an ordered table a key has its one weight. -/
theorem FreqTable.weight?_eq_some {t : FreqTable} (ht : t.Ordered) {key w : Word} :
    t.weight? key = some w ↔ (key, w) ∈ t := by
  refine ⟨FreqTable.weight?_mem, fun h => ?_⟩
  induction t with
  | nil => simp at h
  | cons c t ih =>
    rcases c with ⟨k, w'⟩
    obtain ⟨h1, _, h3⟩ := FreqTable.ordered_cons.1 ht
    simp only [FreqTable.weight?]
    rcases List.mem_cons.1 h with h | h
    · cases h; simp
    · rw [if_neg (fun hk : key = k => FreqTable.sorted_ne h1 w (hk ▸ h))]; exact ih h3 h

theorem FreqTable.has_iff {t : FreqTable} {key : Word} : t.has key = true ↔ ∃ w, (key, w) ∈ t := by
  unfold FreqTable.has
  cases h : t.weight? key with
  | none => simp [FreqTable.weight?_eq_none.1 h]
  | some _ => simpa using ⟨_, FreqTable.weight?_mem h⟩

/-- The fault of an absent key, and the weight of a present one. -/
theorem FreqTable.requireWeight_eq (t : FreqTable) (key : Word) :
    t.requireWeight key = match t.weight? key with
      | some w => .ok w
      | none => .error (.precise .ftKey key) := rfl

theorem FreqTable.weight_le_total {t : FreqTable} {key w : Word} (h : (key, w) ∈ t) : w.toNat ≤ t.total := by
  induction t with
  | nil => simp at h
  | cons c t ih =>
    rw [FreqTable.total_cons]
    rcases List.mem_cons.1 h with rfl | h
    · simp
    · have := ih h; omega

/-- A key's range ends within the total (R181). -/
theorem FreqTable.cum_add_le_total {t : FreqTable} {key w : Word} (h : (key, w) ∈ t) : t.cum key + w.toNat ≤ t.total := by
  induction t with
  | nil => simp at h
  | cons c t ih =>
    rw [FreqTable.cum_cons, FreqTable.total_cons]
    rcases List.mem_cons.1 h with rfl | h
    · have := FreqTable.cum_le_total t key; simp; omega
    · have := ih h; split <;> omega

/-- The Interval of a key narrows a coder when the total is at most `MAX_BASE` (R181). -/
theorem FreqTable.interval_valid {t : FreqTable} (ht : t.Ordered) {key w : Word} (h : (key, w) ∈ t) {base : Nat}
    (hb : t.total ≤ base) (hmax : base ≤ 1073741824) : Interval.Valid ⟨t.cum key, w.toNat, base⟩ := by
  have hw := word_ne_zero_pos (ht.positive _ h)
  have := FreqTable.cum_add_le_total h
  exact ⟨by show 0 < base; simp only at hw; omega, hmax, hw, by show t.cum key + w.toNat ≤ base; omega⟩

theorem FreqTable.total_pos {t : FreqTable} (ht : t.Ordered) (hne : t ≠ []) : 0 < t.total := by
  cases t with
  | nil => exact absurd rfl hne
  | cons c t =>
    have := word_ne_zero_pos ((FreqTable.ordered_cons.1 ht).2.1)
    rw [FreqTable.total_cons]; omega

/-! ### The key of a position (R183) -/

/-- Every position below the total has an owner, whose range holds it. -/
theorem FreqTable.find?_spec {t : FreqTable} (ht : t.Ordered) {pos : Nat} (h : pos < t.total) :
    ∃ key w, t.find? pos = some key ∧ (key, w) ∈ t ∧ t.cum key ≤ pos ∧ pos < t.cum key + w.toNat := by
  induction t generalizing pos with
  | nil => simp at h
  | cons c t ih =>
    rcases c with ⟨k, w⟩
    obtain ⟨h1, h2, h3⟩ := FreqTable.ordered_cons.1 ht
    rw [FreqTable.total_cons] at h
    simp only [FreqTable.find?]
    split
    · rename_i hp
      refine ⟨k, w, rfl, by simp, ?_⟩
      rw [FreqTable.cum_cons, if_neg (by simp), FreqTable.cum_eq_zero (fun c hc => Nat.le_of_lt (h1 c hc))]
      omega
    · rename_i hp
      obtain ⟨key, w', hf, hm, hlo, hhi⟩ := ih h3 (pos := pos - w.toNat) (by simp only at h; omega)
      have hlt : k.toNat < key.toNat := h1 _ hm
      refine ⟨key, w', hf, List.mem_cons_of_mem _ hm, ?_⟩
      rw [FreqTable.cum_cons, if_pos hlt]
      simp only; omega

theorem FreqTable.find?_eq_none {t : FreqTable} {pos : Nat} : t.find? pos = none ↔ t.total ≤ pos := by
  induction t generalizing pos with
  | nil => simp [FreqTable.find?]
  | cons c t ih =>
    rcases c with ⟨k, w⟩
    rw [FreqTable.total_cons]
    simp only [FreqTable.find?]
    split
    · simp; omega
    · rw [ih]; omega

/-- The ranges of distinct keys are disjoint. -/
theorem FreqTable.owner_unique {t : FreqTable} (ht : t.Ordered) {pos : Nat} {k w k' w' : Word} (h : (k, w) ∈ t)
    (h' : (k', w') ∈ t) (hlo : t.cum k ≤ pos) (hhi : pos < t.cum k + w.toNat) (hlo' : t.cum k' ≤ pos)
    (hhi' : pos < t.cum k' + w'.toNat) : k = k' := by
  induction t generalizing pos with
  | nil => simp at h
  | cons c t ih =>
    rcases c with ⟨k0, w0⟩
    obtain ⟨h1, _, h3⟩ := FreqTable.ordered_cons.1 ht
    rw [FreqTable.cum_cons] at hlo hhi hlo' hhi'
    have z : FreqTable.cum t k0 = 0 := FreqTable.cum_eq_zero (fun c hc => Nat.le_of_lt (h1 c hc))
    rcases List.mem_cons.1 h with e | e <;> rcases List.mem_cons.1 h' with e' | e'
    · cases e; cases e'; rfl
    · cases e
      have hlt : k.toNat < k'.toNat := h1 _ e'
      rw [if_pos hlt] at hlo'
      rw [if_neg (Nat.lt_irrefl _), z] at hhi
      simp only at hlo' hhi; omega
    · cases e'
      have hlt : k'.toNat < k.toNat := h1 _ e
      rw [if_pos hlt] at hlo
      rw [if_neg (Nat.lt_irrefl _), z] at hhi'
      simp only at hlo hhi'; omega
    · have a : k0.toNat < k.toNat := h1 _ e
      have b : k0.toNat < k'.toNat := h1 _ e'
      rw [if_pos a] at hlo hhi
      rw [if_pos b] at hlo' hhi'
      simp only at hlo hhi hlo' hhi'
      exact ih h3 e e' (pos := pos - w0.toNat) (by omega) (by omega) (by omega) (by omega)

/-- The key found is the one whose range holds the position. -/
theorem FreqTable.find?_of_mem {t : FreqTable} (ht : t.Ordered) {pos : Nat} {k w : Word} (h : (k, w) ∈ t)
    (hlo : t.cum k ≤ pos) (hhi : pos < t.cum k + w.toNat) : t.find? pos = some k := by
  have := FreqTable.cum_add_le_total h
  obtain ⟨k', w', hf, hm, hlo', hhi'⟩ := FreqTable.find?_spec ht (pos := pos) (by omega)
  rw [hf, FreqTable.owner_unique ht h hm hlo hhi hlo' hhi']

/-! ### Updates (R186 to R188) -/

/-- Setting a key: its entry is the new weight, every other entry stays. -/
theorem FreqTable.mem_set {t : FreqTable} (ht : t.Ordered) {key weight : Word} {c : Word × Word} :
    c ∈ t.set key weight ↔ c = (key, weight) ∨ (c ∈ t ∧ c.1 ≠ key) := by
  induction t with
  | nil => simp [FreqTable.set]
  | cons d t ih =>
    rcases d with ⟨k, w⟩
    obtain ⟨h1, _, h3⟩ := FreqTable.ordered_cons.1 ht
    simp only [FreqTable.set]
    split
    · rename_i hlt
      have hne : ∀ c' ∈ (k, w) :: t, c'.1 ≠ key := by
        intro c' hc' he
        rcases List.mem_cons.1 hc' with h | h
        · subst h; subst he; simp at hlt
        · have := h1 _ h; rw [he] at this; simp only at this; omega
      constructor
      · intro h
        rcases List.mem_cons.1 h with h | h
        · exact .inl h
        · exact .inr ⟨h, hne c h⟩
      · rintro (h | h)
        · simp [h]
        · exact List.mem_cons_of_mem _ h.1
    · split
      · rename_i _ he
        have hne : ∀ c' ∈ t, c'.1 ≠ key := by
          intro c' hc' he'
          have := h1 _ hc'; rw [he', he] at this; simp at this
        simp only [List.mem_cons]
        constructor
        · rintro (h | h)
          · exact .inl h
          · exact .inr ⟨.inr h, hne c h⟩
        · rintro (h | ⟨h | h, hk⟩)
          · exact .inl h
          · exact absurd (by rw [h]; exact he.symm) hk
          · exact .inr h
      · rename_i _ hne
        simp only [List.mem_cons, ih h3]
        constructor
        · rintro (h | h | h)
          · exact .inr ⟨.inl h, by rw [h]; exact fun e => hne e.symm⟩
          · exact .inl h
          · exact .inr ⟨.inr h.1, h.2⟩
        · rintro (h | ⟨h | h, hk⟩)
          · exact .inr (.inl h)
          · exact .inl h
          · exact .inr (.inr ⟨h, hk⟩)

theorem FreqTable.ordered_set {t : FreqTable} (ht : t.Ordered) {key weight : Word} (hw : weight ≠ 0) :
    (t.set key weight).Ordered := by
  induction t with
  | nil => exact FreqTable.ordered_cons.2 ⟨by simp, hw, ht⟩
  | cons d t ih =>
    rcases d with ⟨k, w⟩
    obtain ⟨h1, h2, h3⟩ := FreqTable.ordered_cons.1 ht
    simp only [FreqTable.set]
    split
    · rename_i hlt
      refine FreqTable.ordered_cons.2 ⟨?_, hw, ht⟩
      intro c hc
      rcases List.mem_cons.1 hc with h | h
      · rw [h]; exact hlt
      · exact Nat.lt_trans hlt (h1 c h)
    · split
      · rename_i _ he
        exact FreqTable.ordered_cons.2 ⟨by simpa [he] using h1, hw, h3⟩
      · rename_i hge hne
        have hlt : k.toNat < key.toNat := by
          rcases Nat.lt_or_eq_of_le (Nat.le_of_not_lt hge) with h | h
          · exact h
          · exact absurd (BitVec.eq_of_toNat_eq h.symm) hne
        refine FreqTable.ordered_cons.2 ⟨?_, h2, ih h3⟩
        intro c hc
        rcases (FreqTable.mem_set h3).1 hc with h | h
        · rw [h]; exact hlt
        · exact h1 c h.1

/-- A new key adds its weight to the total and 1 to the count. -/
theorem FreqTable.set_fresh {t : FreqTable} {key weight : Word} (h : ∀ w, (key, w) ∉ t) :
    (t.set key weight).total = t.total + weight.toNat ∧ (t.set key weight).length = t.length + 1 := by
  induction t with
  | nil => simp [FreqTable.set]
  | cons d t ih =>
    rcases d with ⟨k, w⟩
    have hk : key ≠ k := fun e => h w (by simp [e])
    obtain ⟨i1, i2⟩ := ih (fun w' hm => h w' (List.mem_cons_of_mem _ hm))
    simp only [FreqTable.set]
    split
    · constructor <;> simp [FreqTable.total_cons] <;> omega
    · constructor <;> simp [FreqTable.total_cons, i1, i2] <;> omega

/-- A new weight for a present key: the total changes by the difference, the count stays. -/
theorem FreqTable.set_present {t : FreqTable} (ht : t.Ordered) {key w weight : Word} (h : (key, w) ∈ t) :
    (t.set key weight).total + w.toNat = t.total + weight.toNat ∧ (t.set key weight).length = t.length := by
  induction t with
  | nil => simp at h
  | cons d t ih =>
    rcases d with ⟨k, w0⟩
    obtain ⟨h1, _, h3⟩ := FreqTable.ordered_cons.1 ht
    simp only [FreqTable.set]
    rcases List.mem_cons.1 h with e | e
    · cases e
      constructor <;> simp [FreqTable.total_cons] <;> omega
    · have hlt := h1 _ e
      simp only at hlt
      have hne : key ≠ k := fun he => by rw [he] at hlt; omega
      obtain ⟨i1, i2⟩ := ih h3 e
      rw [if_neg (by omega), if_neg hne]
      constructor <;> simp [FreqTable.total_cons] <;> omega

theorem FreqTable.mem_delete {t : FreqTable} {key : Word} {c : Word × Word} :
    c ∈ t.delete key ↔ c ∈ t ∧ c.1 ≠ key := by simp [FreqTable.delete]

theorem FreqTable.ordered_delete {t : FreqTable} (ht : t.Ordered) (key : Word) : (t.delete key).Ordered :=
  ⟨ht.sorted.filter _, fun c hc => ht.positive c (FreqTable.mem_delete.1 hc).1⟩

theorem FreqTable.delete_absent {t : FreqTable} {key : Word} (h : ∀ c ∈ t, c.1 ≠ key) : t.delete key = t :=
  List.filter_eq_self.2 (fun c hc => by simpa using h c hc)

/-- Deleting a key takes its weight from the total and 1 from the count. -/
theorem FreqTable.delete_present {t : FreqTable} (ht : t.Ordered) {key w : Word} (h : (key, w) ∈ t) :
    (t.delete key).total + w.toNat = t.total ∧ (t.delete key).length + 1 = t.length := by
  induction t with
  | nil => simp at h
  | cons d t ih =>
    rcases d with ⟨k, w0⟩
    obtain ⟨h1, _, h3⟩ := FreqTable.ordered_cons.1 ht
    rcases List.mem_cons.1 h with e | e
    · cases e
      have habs : ∀ c ∈ t, c.1 ≠ key := fun c hc he => by have := h1 c hc; rw [he] at this; simp at this
      have : FreqTable.delete ((key, w) :: t) key = t := by
        have := FreqTable.delete_absent habs
        unfold FreqTable.delete at this ⊢
        rw [List.filter_cons, if_neg (by simp), this]
      rw [this]; constructor <;> simp [FreqTable.total_cons] <;> omega
    · have hlt := h1 _ e
      simp only at hlt
      have hne : k ≠ key := fun he => by rw [he] at hlt; omega
      obtain ⟨i1, i2⟩ := ih h3 e
      have : FreqTable.delete ((k, w0) :: t) key = (k, w0) :: FreqTable.delete t key := by
        unfold FreqTable.delete; rw [List.filter_cons, if_pos (by simpa using hne)]
      rw [this]; constructor <;> simp [FreqTable.total_cons] <;> omega

/-- What FT_INSERT's checks allow (R186). -/
theorem FreqTable.insertKey_ok {cap : Nat} {t t' : FreqTable} {key weight : Word} (h : t.insertKey cap key weight = .ok t') :
    (∀ w, (key, w) ∉ t) ∧ weight ≠ 0 ∧ t.length ≠ cap ∧ t.total + weight.toNat ≤ 4294967295 ∧ t' = t.set key weight := by
  unfold FreqTable.insertKey at h
  split at h
  · simp at h
  · rename_i hhas
    split at h
    · simp at h
    · rename_i hw
      split at h
      · simp at h
      · rename_i hlen
        split at h
        · simp at h
        · rename_i htot
          simp only [Except.ok.injEq] at h
          refine ⟨fun w hm => hhas (FreqTable.has_iff.2 ⟨w, hm⟩), hw, hlen, ?_, h.symm⟩
          simpa using htot

/-- FT_INSERT keeps the table's invariant. -/
theorem FreqTable.wf_insertKey {cap : Nat} {t t' : FreqTable} {key weight : Word} (ht : t.Wf cap)
    (h : t.insertKey cap key weight = .ok t') : t'.Wf cap := by
  obtain ⟨habs, hw, hlen, htot, rfl⟩ := FreqTable.insertKey_ok h
  obtain ⟨e1, e2⟩ := FreqTable.set_fresh (weight := weight) habs
  have ho := FreqTable.ordered_set ht.ordered (key := key) hw
  exact ⟨ho.sorted, ho.positive, by have := ht.count_le; omega, by rw [e1]; exact htot⟩

/-- Removing a key keeps the table's invariant. -/
theorem FreqTable.wf_delete {cap : Nat} {t : FreqTable} (ht : t.Wf cap) {key w : Word} (h : (key, w) ∈ t) :
    (t.delete key).Wf cap := by
  obtain ⟨e1, e2⟩ := FreqTable.delete_present ht.ordered h
  have ho := FreqTable.ordered_delete ht.ordered key
  exact ⟨ho.sorted, ho.positive, by have := ht.count_le; omega, by have := ht.total_le; omega⟩

/-- Adding 1 to a weight keeps the table's invariant, where the total allows it. -/
theorem FreqTable.wf_increase {cap : Nat} {t : FreqTable} (ht : t.Wf cap) {key w : Word} (h : (key, w) ∈ t)
    (htot : t.total ≠ Config.top) :
    (t.set key (w + 1)).Wf cap ∧ (t.set key (w + 1)).total = t.total + 1 := by
  have hle := FreqTable.weight_le_total h
  have hmax := ht.total_le
  simp only [top_eq] at *
  have hw : (w + 1).toNat = w.toNat + 1 := by
    have h1 : (1 : Word).toNat = 1 := rfl
    rw [BitVec.toNat_add, h1]; omega
  have hne : w + 1 ≠ 0 := fun e => by rw [e] at hw; simp at hw
  obtain ⟨e1, e2⟩ := FreqTable.set_present ht.ordered (weight := w + 1) h
  have ho := FreqTable.ordered_set ht.ordered (key := key) hne
  exact ⟨⟨ho.sorted, ho.positive, by have := ht.count_le; omega, by simp only [top_eq]; omega⟩, by omega⟩

end Sys2Proof.Machine
end

