-- ==== Sys2Proof/Laws/Codes.lean ====
section
/-!
SUPPORT. Laws/Codes.lean: the uniform, count and split codes: which trace a write gives, where a read ends, and that a
read mirrors the trace (R105, R108, R145, R147, R202, R203).
-/
namespace Sys2Proof.Machine

/-! ### Settled encoders and traces of valid Intervals -/

theorem narrowAll_cons (inp : Input) (iv : Interval) (rest : List Interval) (d : Decoder) :
    Decoder.narrowAll inp (iv :: rest) d = (d.narrow inp iv >>= Decoder.narrowAll inp rest) := rfl

theorem narrowAll_nil (inp : Input) (d : Decoder) : Decoder.narrowAll inp [] d = .ok d := rfl

/-- A trace is consumed part by part. -/
theorem narrowAll_append (inp : Input) (a b : List Interval) (d : Decoder) :
    Decoder.narrowAll inp (a ++ b) d = (Decoder.narrowAll inp a d >>= Decoder.narrowAll inp b) := by
  induction a generalizing d with
  | nil => rfl
  | cons iv rest ih =>
    rw [List.cons_append, narrowAll_cons, narrowAll_cons]
    cases h : d.narrow inp iv with
    | error r => rfl
    | ok d' => simp only [coded_bind_ok]; exact ih d'

/-- The parts of a consumed trace. -/
theorem narrowAll_append_ok {inp : Input} {a b : List Interval} {d d' : Decoder}
    (h : Decoder.narrowAll inp (a ++ b) d = .ok d') :
    ∃ m, Decoder.narrowAll inp a d = .ok m ∧ Decoder.narrowAll inp b m = .ok d' := by
  rw [narrowAll_append] at h; exact (coded_bind_eq_ok _ _ _).1 h

/-- Consuming a trace keeps settled bounds and `DEC_INLEN`. -/
theorem narrowAll_settled {inp : Input} (t : List Interval) {d d' : Decoder} (hd : d.Settled)
    (h : Decoder.narrowAll inp t d = .ok d') : d'.Settled ∧ d'.inLen = d.inLen := by
  induction t generalizing d with
  | nil => simp only [narrowAll_nil, Except.ok.injEq] at h; subst h; exact ⟨hd, rfl⟩
  | cons iv rest ih =>
    rw [narrowAll_cons] at h
    obtain ⟨m, hm, hrest⟩ := (coded_bind_eq_ok _ _ _).1 h
    obtain ⟨_, hs, hl, _⟩ := Decoder.narrow_ok hd hm
    obtain ⟨i1, i2⟩ := ih hs hrest
    exact ⟨i1, i2.trans hl⟩

/-! ### Uniform codes -/

/-- The trace of a uniform write (R105). -/
theorem uniformTrace_ok {c count : Nat} (h : c < count) : uniformTrace c count = .ok (uniformIntervals c count) := by
  unfold uniformTrace uniformIntervals uniformLow
  rw [if_neg (by omega)]
  simp only [eqDirectMax_eq]
  by_cases hle : count ≤ 65536 <;> simp [hle]

theorem uniformTrace_error {c count : Nat} (h : count ≤ c) :
    uniformTrace c count = .error (.precise .eqRange 0) := by
  unfold uniformTrace; rw [if_pos (by omega)]

theorem uniformIntervals_length (c count : Nat) : (uniformIntervals c count).length ≤ 2 := by
  unfold uniformIntervals; split <;> simp

theorem uniformIntervals_length_direct {c count : Nat} (h : count ≤ 65536) :
    (uniformIntervals c count).length = 1 := by unfold uniformIntervals; simp [h]

/-- Every Interval of a uniform code is valid, for any count the spec uses (R105). -/
theorem uniformIntervals_valid {c count : Nat} (h : c < count) (hmax : count ≤ 8589934592) :
    ∀ iv ∈ uniformIntervals c count, iv.Valid := by
  intro iv hiv
  unfold uniformIntervals at hiv
  split at hiv
  · simp only [List.mem_singleton] at hiv
    subst hiv
    exact ⟨by show 0 < count; omega, by show count ≤ 1073741824; omega, Nat.one_pos, by show c + 1 ≤ count; omega⟩
  · simp only [List.mem_cons, List.not_mem_nil, or_false] at hiv
    rcases hiv with h' | h'
    · subst h'
      exact ⟨Nat.succ_pos _, by show (count - 1) / 65536 + 1 ≤ 1073741824; omega, Nat.one_pos,
        by show c / 65536 + 1 ≤ (count - 1) / 65536 + 1; have := Nat.div_le_div_right (c := 65536) (show c ≤ count - 1 by omega); omega⟩
    · subst h'
      split
      · exact ⟨by show 0 < 65536; decide, by show 65536 ≤ 1073741824; decide, Nat.one_pos, by show c % 65536 + 1 ≤ 65536; have := Nat.mod_lt c (show 65536 > 0 by decide); omega⟩
      · exact ⟨Nat.succ_pos _, by show (count - 1) % 65536 + 1 ≤ 1073741824; omega, Nat.one_pos,
          by show c % 65536 + 1 ≤ (count - 1) % 65536 + 1; omega⟩

/-- Several uniform values in order. -/
theorem uniformTraces_ok {l : List (Nat × Nat)} (h : ∀ p ∈ l, p.1 < p.2) :
    uniformTraces l = .ok (l.flatMap (fun p => uniformIntervals p.1 p.2)) := by
  induction l with
  | nil => rfl
  | cons p rest ih =>
    rcases p with ⟨c, count⟩
    unfold uniformTraces
    rw [uniformTrace_ok (h (c, count) (by simp)), ih (fun q hq => h q (by simp [hq]))]
    rfl

theorem flatMap_uniform_valid {l : List (Nat × Nat)} (h : ∀ p ∈ l, p.1 < p.2) (hmax : ∀ p ∈ l, p.2 ≤ 8589934592) :
    ∀ iv ∈ l.flatMap (fun p => uniformIntervals p.1 p.2), iv.Valid := by
  intro iv hiv
  obtain ⟨p, hp, hm⟩ := List.mem_flatMap.1 hiv
  exact uniformIntervals_valid (h p hp) (hmax p hp) iv hm

theorem flatMap_uniform_length (l : List (Nat × Nat)) :
    (l.flatMap (fun p => uniformIntervals p.1 p.2)).length ≤ 2 * l.length := by
  induction l with
  | nil => simp
  | cons p rest ih =>
    have := uniformIntervals_length p.1 p.2
    simp only [List.flatMap_cons, List.length_append, List.length_cons]; omega

/-! ### Uniform reads -/

/-- A direct read between settled bounds: a value below `n`, whose Interval is consumed (R145). -/
theorem Decoder.direct_spec {inp : Input} {d : Decoder} (hd : d.Settled) {n : Nat} (h0 : 0 < n) (h1 : n ≤ 1073741824) :
    ∃ v d', d.direct inp n = .ok (v, d') ∧ v < n ∧ d.narrow inp ⟨v, 1, n⟩ = .ok d' ∧ d'.Settled ∧ d'.inLen = d.inLen := by
  obtain ⟨v, hv, _, hlt⟩ := Decoder.peek_ok hd h0 h1
  have hval : Interval.Valid ⟨v, 1, n⟩ := ⟨h0, h1, Nat.one_pos, by show v + 1 ≤ n; omega⟩
  have hn := Decoder.narrow_completes (inp := inp) hval (v := v) hv (Nat.le_refl _) (by show v < v + 1; omega)
  obtain ⟨_, hs, hl, _⟩ := Decoder.narrow_ok hd hn
  refine ⟨v, _, ?_, hlt, hn, hs, hl⟩
  unfold Decoder.direct
  rw [hv]
  simp only [coded_bind_ok, hn]

/-- A direct read of a consumed value gives it. -/
theorem Decoder.direct_of_narrow {inp : Input} {d d' : Decoder} (hd : d.Settled) {c n : Nat}
    (h : d.narrow inp ⟨c, 1, n⟩ = .ok d') : d.direct inp n = .ok (c, d') := by
  obtain ⟨_, _, _, hcase⟩ := Decoder.narrow_ok hd h
  rcases hcase with ⟨h0, _⟩ | ⟨_, _, v, hv, hlo, hhi⟩
  · simp at h0
  · have hvc : v = c := by simp only at hlo hhi; omega
    unfold Decoder.direct
    simp only at hv
    rw [hv]
    simp only [coded_bind_ok, hvc, h]

/-- A uniform read between settled bounds: a value below the count, whose code is consumed (R145). -/
theorem Decoder.uniform_spec {inp : Input} {d : Decoder} (hd : d.Settled) {count : Nat} (h0 : 0 < count)
    (h1 : count ≤ 8589934592) :
    ∃ v d', d.uniform inp count = .ok (v, d') ∧ v < count ∧
      Decoder.narrowAll inp (uniformIntervals v count) d = .ok d' ∧ d'.Settled ∧ d'.inLen = d.inLen := by
  unfold Decoder.uniform uniformIntervals
  rw [if_neg (by omega)]
  simp only [eqDirectMax_eq]
  by_cases hle : count ≤ 65536
  · simp only [hle, if_true]
    obtain ⟨v, d', hdir, hlt, hn, hs, hl⟩ := Decoder.direct_spec (inp := inp) hd h0 (by omega)
    exact ⟨v, d', hdir, hlt, by rw [narrowAll_cons, hn]; rfl, hs, hl⟩
  · simp only [hle, if_false]
    obtain ⟨hi, d1, hdir1, hlt1, hn1, hs1, hl1⟩ :=
      Decoder.direct_spec (inp := inp) hd (n := (count - 1) / 65536 + 1) (by omega) (by omega)
    have hlow : uniformReadLow count hi = if hi < (count - 1) / 65536 then 65536 else (count - 1) % 65536 + 1 := by
      unfold uniformReadLow; simp
    have hlow0 : 0 < uniformReadLow count hi ∧ uniformReadLow count hi ≤ 65536 := by
      rw [hlow]; split <;> omega
    obtain ⟨lo, d2, hdir2, hlt2, hn2, hs2, hl2⟩ := Decoder.direct_spec (inp := inp) hs1 hlow0.1 (by omega)
    have hdiv : (hi * 65536 + lo) / 65536 = hi := by omega
    have hmod : (hi * 65536 + lo) % 65536 = lo := by omega
    refine ⟨hi * 65536 + lo, d2, ?_, ?_, ?_, hs2, hl2.trans hl1⟩
    · simp only [hdir1, coded_bind_ok, hdir2]
    · rw [hlow] at hlt2; split at hlt2 <;> omega
    · rw [hdiv, hmod, narrowAll_cons, hn1, coded_bind_ok, narrowAll_cons, ← hlow, hn2]; rfl

/-- A uniform read of a consumed code gives its value (R145, R157). -/
theorem Decoder.uniform_of_narrowAll {inp : Input} {d d' : Decoder} (hd : d.Settled) {c count : Nat} (hc : c < count)
    (h : Decoder.narrowAll inp (uniformIntervals c count) d = .ok d') : d.uniform inp count = .ok (c, d') := by
  unfold uniformIntervals at h
  unfold Decoder.uniform
  rw [if_neg (by omega)]
  simp only [eqDirectMax_eq]
  by_cases hle : count ≤ 65536
  · simp only [hle, if_true] at h ⊢
    rw [narrowAll_cons] at h
    obtain ⟨m, hm, hr⟩ := (coded_bind_eq_ok _ _ _).1 h
    simp only [narrowAll_nil, Except.ok.injEq] at hr
    subst hr
    exact Decoder.direct_of_narrow hd hm
  · simp only [hle, if_false] at h ⊢
    rw [narrowAll_cons] at h
    obtain ⟨m, hm, hr⟩ := (coded_bind_eq_ok _ _ _).1 h
    rw [narrowAll_cons] at hr
    obtain ⟨m', hm', hr'⟩ := (coded_bind_eq_ok _ _ _).1 hr
    simp only [narrowAll_nil, Except.ok.injEq] at hr'
    subst hr'
    have hs := (Decoder.narrow_ok hd hm).2.1
    rw [Decoder.direct_of_narrow hd hm]
    simp only [coded_bind_ok]
    have hlow : uniformReadLow count (c / 65536) =
        if c / 65536 < (count - 1) / 65536 then 65536 else (count - 1) % 65536 + 1 := by
      unfold uniformReadLow; simp
    rw [hlow, Decoder.direct_of_narrow hs hm']
    simp only [coded_bind_ok]
    have : c / 65536 * 65536 + c % 65536 = c := by omega
    rw [this]

/-! ### Count codes -/

theorem countLog_spec (n : Nat) : 2 ^ countLog n ≤ n + 1 ∧ n + 1 < 2 ^ (countLog n + 1) :=
  ⟨Nat.log2_self_le (by omega), Nat.lt_log2_self⟩

theorem log_unique {n k k' : Nat} (h : 2 ^ k ≤ n ∧ n < 2 ^ (k + 1)) (h' : 2 ^ k' ≤ n ∧ n < 2 ^ (k' + 1)) : k = k' := by
  have a : k < k' + 1 := (Nat.pow_lt_pow_iff_right (by decide : 1 < 2)).1 (Nat.lt_of_le_of_lt h.1 h'.2)
  have b : k' < k + 1 := (Nat.pow_lt_pow_iff_right (by decide : 1 < 2)).1 (Nat.lt_of_le_of_lt h'.1 h.2)
  omega

theorem log_le_width {n k W : Nat} (hn : n < 2 ^ W) (h : 2 ^ k ≤ n + 1) : k ≤ W :=
  (Nat.pow_le_pow_iff_right (by decide : 1 < 2)).1 (Nat.le_trans h hn)

theorem pow_le_pow32 {k : Nat} (h : k ≤ 32) : 2 ^ k ≤ 4294967296 :=
  Nat.le_trans (Nat.pow_le_pow_right (by decide) h) (by decide)

/-- The trace of a count write (R108). -/
theorem countTrace_ok {n W : Nat} (h0 : 1 ≤ W) (h1 : W ≤ 32) (hn : n < 2 ^ W) :
    countTrace n W = .ok (countIntervals n W (countLog n)) := by
  have hk := countLog_spec n
  have hkW := log_le_width hn hk.1
  unfold countTrace countIntervals
  rw [if_neg (by omega)]
  dsimp only
  rw [uniformTraces_ok]
  · split <;> simp [List.flatMap]
  · intro p hp
    split at hp
    · simp only [List.mem_cons, List.not_mem_nil, or_false] at hp
      rcases hp with h | h
      · subst h; show countLog n < W + 1; omega
      · subst h
        show n + 1 - 2 ^ countLog n < 2 ^ countLog n
        have := hk.2; rw [Nat.pow_succ] at this; omega
    · simp only [List.mem_singleton] at hp; subst hp; show countLog n < W + 1; omega

theorem countTrace_error {n W : Nat} (h : W < 1 ∨ 32 < W ∨ 2 ^ W ≤ n) :
    countTrace n W = .error (.precise .countRange 0) := by
  unfold countTrace; rw [if_pos (by omega)]

theorem countIntervals_valid {n W k : Nat} (h1 : W ≤ 32) (hn : n < 2 ^ W)
    (hk : 2 ^ k ≤ n + 1 ∧ n + 1 < 2 ^ (k + 1)) :
    (∀ iv ∈ countIntervals n W k, iv.Valid) ∧ (countIntervals n W k).length ≤ 3 := by
  have hkW := log_le_width hn hk.1
  have hpow := pow_le_pow32 (show k ≤ 32 by omega)
  have h2 := hk.2; rw [Nat.pow_succ] at h2
  unfold countIntervals
  constructor
  · intro iv hiv
    rcases List.mem_append.1 hiv with h | h
    · exact uniformIntervals_valid (by omega) (by omega) iv h
    · split at h
      · exact uniformIntervals_valid (by omega) (by omega) iv h
      · simp at h
  · rw [List.length_append, uniformIntervals_length_direct (by omega)]
    split
    · have := uniformIntervals_length (n + 1 - 2 ^ k) (2 ^ k); omega
    · simp

/-- A count read between settled bounds (R147). -/
theorem Decoder.count_spec {inp : Input} {d : Decoder} (hd : d.Settled) {W : Nat} (h0 : 1 ≤ W) (h1 : W ≤ 32) :
    ∃ n k d', d.count inp W = .ok (n, d') ∧ n < 2 ^ W ∧ (2 ^ k ≤ n + 1 ∧ n + 1 < 2 ^ (k + 1)) ∧
      Decoder.narrowAll inp (countIntervals n W k) d = .ok d' ∧ d'.Settled ∧ d'.inLen = d.inLen := by
  unfold Decoder.count
  rw [if_neg (by omega)]
  obtain ⟨k, d1, hu, hlt, hn, hs, hl⟩ := Decoder.uniform_spec (inp := inp) hd (count := W + 1) (by omega) (by omega)
  simp only [hu, coded_bind_ok]
  by_cases hk0 : k = 0
  · subst hk0
    refine ⟨0, 0, d1, by simp, by have := Nat.one_lt_two_pow (n := W) (by omega); omega, by decide, ?_, hs, hl⟩
    unfold countIntervals
    rw [if_neg (by simp), List.append_nil]; exact hn
  · by_cases hkW : k = W
    · subst hkW
      have hpos : 0 < 2 ^ k := Nat.pow_pos (by decide)
      have hsucc : 2 ^ (k + 1) = 2 ^ k * 2 := Nat.pow_succ 2 k
      refine ⟨2 ^ k - 1, k, d1, by simp [hk0], by omega, by omega, ?_, hs, hl⟩
      unfold countIntervals
      rw [if_neg (by simp), List.append_nil]; exact hn
    · have hpow := pow_le_pow32 (show k ≤ 32 by omega)
      have hpos : 0 < 2 ^ k := Nat.pow_pos (by decide)
      have hsucc : 2 ^ (k + 1) = 2 ^ k * 2 := Nat.pow_succ 2 k
      have hle : 2 ^ (k + 1) ≤ 2 ^ W := Nat.pow_le_pow_right (by decide) (by omega)
      obtain ⟨rem, d2, hu2, hlt2, hn2, hs2, hl2⟩ :=
        Decoder.uniform_spec (inp := inp) hs (count := 2 ^ k) hpos (by omega)
      refine ⟨2 ^ k - 1 + rem, k, d2, by simp [hk0, hkW, hu2], by omega, by omega, ?_, hs2, hl2.trans hl⟩
      unfold countIntervals
      rw [if_pos (by omega), narrowAll_append, hn, coded_bind_ok, show 2 ^ k - 1 + rem + 1 - 2 ^ k = rem by omega]
      exact hn2

/-- A count read of a consumed code gives its value (R147, R157). -/
theorem Decoder.count_of_narrowAll {inp : Input} {d d' : Decoder} (hd : d.Settled) {n W k : Nat} (h0 : 1 ≤ W)
    (h1 : W ≤ 32) (hn : n < 2 ^ W) (hk : 2 ^ k ≤ n + 1 ∧ n + 1 < 2 ^ (k + 1))
    (h : Decoder.narrowAll inp (countIntervals n W k) d = .ok d') : d.count inp W = .ok (n, d') := by
  have hkW := log_le_width hn hk.1
  have h2 := hk.2; rw [Nat.pow_succ] at h2
  unfold countIntervals at h
  obtain ⟨m, hm, hr⟩ := narrowAll_append_ok h
  have hs := (narrowAll_settled _ hd hm).1
  unfold Decoder.count
  rw [if_neg (by omega), Decoder.uniform_of_narrowAll hd (by omega) hm]
  simp only [coded_bind_ok]
  by_cases hk0 : k = 0
  · subst hk0
    rw [if_neg (by simp), narrowAll_nil] at hr
    have : n = 0 := by simp at hk; omega
    simp only [if_true, this]
    simpa using hr
  · by_cases hkw : k = W
    · subst hkw
      rw [if_neg (by simp), narrowAll_nil] at hr
      have : 2 ^ k - 1 = n := by omega
      simp only [hk0, if_false, if_true, this]
      simpa using hr
    · rw [if_pos (by omega)] at hr
      simp only [hk0, hkw, if_false]
      rw [Decoder.uniform_of_narrowAll hs (by omega) hr]
      simp only [coded_bind_ok]
      have : 2 ^ k - 1 + (n + 1 - 2 ^ k) = n := by omega
      rw [this]

/-! ### Split codes -/

theorem ofNumber_number (mode : SplitMode) : SplitMode.ofNumber mode.number = some mode := by cases mode <;> rfl

theorem ofNumber_some {r : Nat} {mode : SplitMode} (h : SplitMode.ofNumber r = some mode) : mode.number = r := by
  unfold SplitMode.ofNumber at h
  split at h <;> simp at h <;> subst h <;> rfl

theorem ofNumber_lt {r : Nat} (h : r < 3) : ∃ mode, SplitMode.ofNumber r = some mode ∧ mode.number = r := by
  have : r = 0 ∨ r = 1 ∨ r = 2 := by omega
  rcases this with rfl | rfl | rfl <;> exact ⟨_, rfl, rfl⟩

theorem ofNumber_ge {r : Nat} (h : 3 ≤ r) : SplitMode.ofNumber r = none := by
  unfold SplitMode.ofNumber; split <;> first | omega | rfl

/-- The pairs of a policy are those of the rule's table (R200, R202). -/
theorem effective_pairs (p : Policy) (e v : Nat) :
    p.effective.pairs e v = splitCodes p.mode.number p.max p.threshold e v := by
  rcases p with ⟨mode, max, t⟩
  unfold Policy.effective splitCodes
  cases mode
  · simp [Policy.pairs, SplitMode.number]
  · by_cases h : t ≥ max
    · simp [Policy.pairs, h, SplitMode.number]
    · simp [Policy.pairs, h, SplitMode.number]
  · by_cases h : t ≥ max
    · simp [Policy.pairs, h, SplitMode.number]
    · simp only [Policy.pairs, SplitMode.number, h, and_false, if_false, or_false]
      simp

/-- Every pair of a value of the domain is a value below its count, and the counts are bounded (R202). -/
theorem splitCodes_bounds {r max t e v : Nat} (hv : v ≤ max + e) (he : e ≤ 1) :
    (∀ p ∈ splitCodes r max t e v, p.1 < p.2 ∧ p.2 ≤ max + 2) ∧ (splitCodes r max t e v).length ≤ 2 := by
  unfold splitCodes
  split
  · simp; omega
  · split
    · split <;> simp <;> omega
    · split <;> simp <;> omega

/-- The trace of a split write (R202). -/
theorem splitTrace_ok {p : Policy} {e v : Nat} (hv : v ≤ p.max + e) (he : e ≤ 1) :
    splitTrace p e v = .ok (splitCodeIntervals p.mode.number p.max p.threshold e v) := by
  unfold splitTrace splitIntervals
  rw [if_neg (by omega)]
  simp only [coded_bind_ok, effective_pairs]
  exact uniformTraces_ok (fun q hq => ((splitCodes_bounds hv he).1 q hq).1)

theorem splitTrace_error {p : Policy} {e v : Nat} (hv : p.max + e < v) :
    splitTrace p e v = .error (.precise .splitDomain 0) := by
  unfold splitTrace splitIntervals
  rw [if_pos (by omega)]
  rfl

theorem splitCodeIntervals_valid {r max t e v : Nat} (hv : v ≤ max + e) (he : e ≤ 1) (hmax : max ≤ 4294967296) :
    (∀ iv ∈ splitCodeIntervals r max t e v, iv.Valid) ∧ (splitCodeIntervals r max t e v).length ≤ 4 := by
  have hb := splitCodes_bounds (r := r) (t := t) hv he
  refine ⟨flatMap_uniform_valid (fun p hp => (hb.1 p hp).1) (fun p hp => by have := (hb.1 p hp).2; omega), ?_⟩
  have := flatMap_uniform_length (splitCodes r max t e v)
  unfold splitCodeIntervals
  have := hb.2
  omega

theorem flatMap_pair (a b : Nat × Nat) :
    [a, b].flatMap (fun p => uniformIntervals p.1 p.2) = uniformIntervals a.1 a.2 ++ uniformIntervals b.1 b.2 := by simp

theorem flatMap_single (a : Nat × Nat) :
    [a].flatMap (fun p => uniformIntervals p.1 p.2) = uniformIntervals a.1 a.2 := by simp

/-- A split read between settled bounds (R203). -/
theorem Decoder.split_spec {inp : Input} {d : Decoder} (hd : d.Settled) (p : Policy) {e : Nat} (he : e ≤ 1)
    (hmax : p.max ≤ 4294967296) :
    ∃ v d', d.split inp p e = .ok (v, d') ∧ v ≤ p.max + e ∧
      Decoder.narrowAll inp (splitCodeIntervals p.mode.number p.max p.threshold e v) d = .ok d' ∧ d'.Settled ∧
      d'.inLen = d.inLen := by
  rcases p with ⟨mode, max, t⟩
  simp only at hmax
  have whole : ∃ v d', d.uniform inp (max + 1 + e) = .ok (v, d') ∧ v ≤ max + e ∧
      Decoder.narrowAll inp ([(v, max + 1 + e)].flatMap (fun p => uniformIntervals p.1 p.2)) d = .ok d' ∧ d'.Settled ∧
      d'.inLen = d.inLen := by
    obtain ⟨v, d', hu, hlt, hn, hs, hl⟩ := Decoder.uniform_spec (inp := inp) hd (count := max + 1 + e) (by omega) (by omega)
    exact ⟨v, d', hu, by omega, by rw [flatMap_single]; exact hn, hs, hl⟩
  unfold Decoder.split Policy.effective splitCodeIntervals splitCodes
  cases mode
  · simpa [Decoder.splitEffective, SplitMode.number] using whole
  · by_cases h : t ≥ max
    · simpa [Decoder.splitEffective, h, SplitMode.number] using whole
    · simp only [ne_eq, reduceCtorEq, not_false_eq_true, h, and_false, if_false, Decoder.splitEffective,
        SplitMode.number, or_false, Nat.succ_ne_zero, if_true]
      obtain ⟨s, d1, hu, hlt, hn, hs, hl⟩ := Decoder.uniform_spec (inp := inp) hd (count := t + 2) (by omega) (by omega)
      simp only [hu, coded_bind_ok]
      by_cases hst : s ≤ t
      · exact ⟨s, d1, by simp [hst], by omega, by simp only [hst, if_true]; rw [flatMap_single]; exact hn, hs, hl⟩
      · obtain ⟨u, d2, hu2, hlt2, hn2, hs2, hl2⟩ :=
          Decoder.uniform_spec (inp := inp) hs (count := max - t + e) (by omega) (by omega)
        have hse : s = t + 1 := by omega
        refine ⟨t + 1 + u, d2, by simp [hst, hu2], by omega, ?_, hs2, hl2.trans hl⟩
        rw [if_neg (by omega), flatMap_pair, narrowAll_append, ← hse, hn, coded_bind_ok, hse,
          show t + 1 + u - t - 1 = u by omega]
        exact hn2
  · by_cases h : t ≥ max
    · simpa [Decoder.splitEffective, h, SplitMode.number] using whole
    · simp only [ne_eq, reduceCtorEq, not_false_eq_true, h, and_false, if_false, Decoder.splitEffective,
        SplitMode.number, or_false, show (2 : Nat) ≠ 0 by decide, show (2 : Nat) ≠ 1 by decide]
      obtain ⟨s, d1, hu, hlt, hn, hs, hl⟩ :=
        Decoder.uniform_spec (inp := inp) hd (count := max - t + e + 1) (by omega) (by omega)
      simp only [hu, coded_bind_ok]
      by_cases hst : s < max - t + e
      · refine ⟨t + 1 + s, d1, by simp [hst], by omega, ?_, hs, hl⟩
        rw [if_pos (by omega), flatMap_single, show t + 1 + s - t - 1 = s by omega]; exact hn
      · obtain ⟨u, d2, hu2, hlt2, hn2, hs2, hl2⟩ :=
          Decoder.uniform_spec (inp := inp) hs (count := t + 1) (by omega) (by omega)
        have hse : s = max - t + e := by omega
        refine ⟨u, d2, by simp [hst, hu2], by omega, ?_, hs2, hl2.trans hl⟩
        rw [if_neg (by omega), flatMap_pair, narrowAll_append]
        rw [hse] at hn
        simp only [hn, coded_bind_ok]
        exact hn2

/-- A split read of a consumed code gives its value (R203, R157). -/
theorem Decoder.split_of_narrowAll {inp : Input} {d d' : Decoder} (hd : d.Settled) (p : Policy) {e v : Nat} (he : e ≤ 1)
    (hv : v ≤ p.max + e)
    (h : Decoder.narrowAll inp (splitCodeIntervals p.mode.number p.max p.threshold e v) d = .ok d') :
    d.split inp p e = .ok (v, d') := by
  rcases p with ⟨mode, max, t⟩
  simp only at hv h
  have whole : ∀ {v}, v ≤ max + e →
      Decoder.narrowAll inp ([(v, max + 1 + e)].flatMap (fun p => uniformIntervals p.1 p.2)) d = .ok d' →
      d.uniform inp (max + 1 + e) = .ok (v, d') := by
    intro v hv h
    rw [flatMap_single] at h
    exact Decoder.uniform_of_narrowAll hd (by omega) h
  unfold splitCodeIntervals splitCodes at h
  unfold Decoder.split Policy.effective
  cases mode
  · simp only [SplitMode.number, true_or, if_true] at h
    simpa [Decoder.splitEffective] using whole hv h
  · by_cases hge : t ≥ max
    · simp only [SplitMode.number, hge, or_true, if_true] at h
      simpa [Decoder.splitEffective, hge] using whole hv h
    · simp only [SplitMode.number, hge, or_false, Nat.succ_ne_zero, if_false, if_true] at h
      simp only [ne_eq, reduceCtorEq, not_false_eq_true, hge, and_false, if_false, Decoder.splitEffective]
      by_cases hvt : v ≤ t
      · rw [if_pos hvt, flatMap_single] at h
        rw [Decoder.uniform_of_narrowAll hd (by omega) h]
        simp [hvt]
      · rw [if_neg hvt, flatMap_pair] at h
        obtain ⟨m, hm, hr⟩ := narrowAll_append_ok h
        have hs := (narrowAll_settled _ hd hm).1
        rw [Decoder.uniform_of_narrowAll hd (by simp) hm]
        simp only [coded_bind_ok, show ¬ t + 1 ≤ t by omega, if_false]
        rw [Decoder.uniform_of_narrowAll hs (by simp only; omega) hr]
        simp only [coded_bind_ok]
        rw [show t + 1 + (v - t - 1) = v by omega]
  · by_cases hge : t ≥ max
    · simp only [SplitMode.number, hge, or_true, if_true] at h
      simpa [Decoder.splitEffective, hge] using whole hv h
    · simp only [SplitMode.number, hge, or_false, show (2 : Nat) ≠ 0 by decide, show (2 : Nat) ≠ 1 by decide,
        if_false] at h
      simp only [ne_eq, reduceCtorEq, not_false_eq_true, hge, and_false, if_false, Decoder.splitEffective]
      by_cases hvt : v > t
      · rw [if_pos hvt, flatMap_single] at h
        rw [Decoder.uniform_of_narrowAll hd (by simp only; omega) h]
        simp only [coded_bind_ok]
        rw [if_pos (by omega), show t + 1 + (v - t - 1) = v by omega]
      · rw [if_neg hvt, flatMap_pair] at h
        obtain ⟨m, hm, hr⟩ := narrowAll_append_ok h
        have hs := (narrowAll_settled _ hd hm).1
        rw [Decoder.uniform_of_narrowAll hd (by simp only; omega) hm]
        simp only [coded_bind_ok]
        rw [if_neg (by omega)]
        exact Decoder.uniform_of_narrowAll hs (by omega) hr

end Sys2Proof.Machine
end

