-- ==== Sys2Proof/Laws/Fib.lean ====
section
/-!
SUPPORT. Laws/Fib.lean: the Fibonacci code of R106 is the Zeckendorf representation, and the read of R146 mirrors it.
-/
namespace Sys2Proof.Machine

theorem fibPair_eq (k : Nat) : fibPair k = (Nat.fib k, Nat.fib (k + 1)) := by
  induction k with
  | zero => rfl
  | succ k ih => rw [fibPair, ih, Nat.fib_add_two]

/-- The model's Fibonacci numbers are Mathlib's. -/
theorem fib_eq (k : Nat) : fib k = Nat.fib k := by unfold fib; rw [fibPair_eq]

/-- The sum of a digit string, lowest weight first, whose first weight is `F(k)`. -/
def fibSum : Nat → List Bool → Nat
  | _, [] => 0
  | k, b :: rest => (if b then Nat.fib k else 0) + fibSum (k + 1) rest

/-- No two neighbouring ones, where the digit before the string is `prev`. -/
def noAdjacent : Bool → List Bool → Prop
  | _, [] => True
  | prev, b :: rest => ¬(prev = true ∧ b = true) ∧ noAdjacent b rest

theorem fibSum_append (k : Nat) (a b : List Bool) : fibSum k (a ++ b) = fibSum k a + fibSum (k + a.length) b := by
  induction a generalizing k with
  | nil => simp [fibSum]
  | cons x a ih =>
    simp only [List.cons_append, fibSum, ih, List.length_cons, show k + (a.length + 1) = k + 1 + a.length by omega]
    omega

theorem noAdjacent_append (prev : Bool) (a : List Bool) (b : Bool) :
    noAdjacent prev (a ++ [b]) ↔ noAdjacent prev a ∧ ¬((prev :: a).getLast (by simp) = true ∧ b = true) := by
  induction a generalizing prev with
  | nil => simp [noAdjacent]
  | cons x a ih =>
    simp only [List.cons_append, noAdjacent, ih, List.getLast_cons_cons]
    tauto

/-- A digit string without neighbouring ones sums to less than the next weight but one. -/
theorem fibSum_lt (a : List Bool) :
    noAdjacent false a →
      fibSum 2 a < Nat.fib (a.length + 2) ∧
        ((false :: a).getLast (by simp) = false → fibSum 2 a < Nat.fib (a.length + 1) ∨ a = []) := by
  induction a using List.reverseRecOn with
  | nil => intro _; exact ⟨by decide, fun _ => .inr rfl⟩
  | append_singleton a b ih =>
    intro h
    obtain ⟨h1, h2⟩ := (noAdjacent_append false a b).1 h
    obtain ⟨i1, i2⟩ := ih h1
    have hl : (a ++ [b]).length = a.length + 1 := by simp
    have hs : fibSum 2 (a ++ [b]) = fibSum 2 a + (if b then Nat.fib (a.length + 2) else 0) := by
      rw [fibSum_append]; simp [fibSum, Nat.add_comm]
    have hf : Nat.fib (a.length + 3) = Nat.fib (a.length + 1) + Nat.fib (a.length + 2) := Nat.fib_add_two
    have hpos : 0 < Nat.fib (a.length + 1) := Nat.fib_pos.2 (by omega)
    rw [hs, hl]
    refine ⟨?_, ?_⟩
    · show _ < Nat.fib (a.length + 3)
      cases b with
      | false => simp only [Bool.false_eq_true, if_false]; omega
      | true =>
        simp only [if_true]
        rcases i2 (by simpa using h2) with h' | h'
        · omega
        · subst h'; decide
    · intro hlast
      have hb : b = false := by
        have : (false :: (a ++ [b])).getLast (by simp) = b := by simp
        rw [this] at hlast; exact hlast
      subst hb
      left
      simpa using i1

/-- The digits R106 takes, lowest weight first. -/
def lowDigits (j rem : Nat) : List Bool := (zeckendorf j rem).reverse

theorem lowDigits_length (j rem : Nat) : (lowDigits j rem).length = j := by
  unfold lowDigits
  rw [List.length_reverse]
  induction j generalizing rem with
  | zero => rfl
  | succ j ih => unfold zeckendorf; split <;> simp [ih]

theorem lowDigits_succ (j rem : Nat) :
    lowDigits (j + 1) rem =
      if Nat.fib (j + 2) ≤ rem then lowDigits j (rem - Nat.fib (j + 2)) ++ [true] else lowDigits j rem ++ [false] := by
  unfold lowDigits
  conv_lhs => unfold zeckendorf
  rw [fib_eq]
  split <;> simp

/-- The greedy digits: no two neighbouring ones, and their sum is the number. -/
theorem lowDigits_spec (j rem : Nat) (h : rem < Nat.fib (j + 2)) :
    noAdjacent false (lowDigits j rem) ∧ fibSum 2 (lowDigits j rem) = rem := by
  induction j using Nat.strong_induction_on generalizing rem with
  | _ j ih =>
    cases j with
    | zero => simp [lowDigits, zeckendorf, noAdjacent, fibSum] at *; omega
    | succ j =>
      have hf : Nat.fib (j + 3) = Nat.fib (j + 1) + Nat.fib (j + 2) := Nat.fib_add_two
      rw [lowDigits_succ]
      split
      · rename_i hle
        have hrem : rem - Nat.fib (j + 2) < Nat.fib (j + 1) := by
          have : rem < Nat.fib (j + 3) := h
          omega
        have hmono : Nat.fib (j + 1) ≤ Nat.fib (j + 2) := Nat.fib_mono (by omega)
        obtain ⟨i1, i2⟩ := ih j (by omega) (rem - Nat.fib (j + 2)) (by omega)
        refine ⟨(noAdjacent_append _ _ _).2 ⟨i1, ?_⟩, ?_⟩
        · cases j with
          | zero => simp [lowDigits, zeckendorf]
          | succ j =>
            rw [lowDigits_succ, if_neg (by have : rem - Nat.fib (j + 3) < Nat.fib (j + 2) := hrem; exact Nat.not_le.2 this)]
            simp
        · rw [fibSum_append, i2, lowDigits_length]
          simp [fibSum, Nat.add_comm 2 j]; omega
      · rename_i hlt
        obtain ⟨i1, i2⟩ := ih j (by omega) rem (by omega)
        refine ⟨(noAdjacent_append _ _ _).2 ⟨i1, by simp⟩, ?_⟩
        rw [fibSum_append, i2]; simp [fibSum]

/-- A digit string without neighbouring ones is the greedy one of its sum (Zeckendorf). -/
theorem lowDigits_unique (a : List Bool) : noAdjacent false a → a = lowDigits a.length (fibSum 2 a) := by
  induction a using List.reverseRecOn with
  | nil => intro _; rfl
  | append_singleton a b ih =>
    intro h
    obtain ⟨h1, h2⟩ := (noAdjacent_append false a b).1 h
    have hlt := (fibSum_lt a h1).1
    have hs : fibSum 2 (a ++ [b]) = fibSum 2 a + (if b then Nat.fib (a.length + 2) else 0) := by
      rw [fibSum_append]; simp [fibSum, Nat.add_comm]
    rw [List.length_append, List.length_singleton, hs, lowDigits_succ]
    cases b with
    | false =>
      simp only [Bool.false_eq_true, if_false, Nat.add_zero]
      rw [if_neg (by omega), ← ih h1]
    | true =>
      simp only [if_true]
      rw [if_pos (by omega), Nat.add_sub_cancel, ← ih h1]

/-- The search for the top digit (R106). -/
theorem fibTopFrom_spec {n : Nat} (hn : 1 ≤ n) (k : Nat) (hk : 2 ≤ k) (h : n < Nat.fib (k + 1)) :
    2 ≤ fibTopFrom n k ∧ fibTopFrom n k ≤ k ∧ Nat.fib (fibTopFrom n k) ≤ n ∧ n < Nat.fib (fibTopFrom n k + 1) := by
  induction k with
  | zero => omega
  | succ k ih =>
    unfold fibTopFrom
    rw [fib_eq]
    by_cases hc : Nat.fib (k + 1) ≤ n ∨ k + 1 ≤ 2
    · rw [if_pos hc]
      refine ⟨hk, Nat.le_refl _, ?_, h⟩
      rcases hc with h' | h'
      · exact h'
      · have : k = 1 := by omega
        subst this; simpa using hn
    · rw [if_neg hc]
      obtain ⟨i1, i2, i3, i4⟩ := ih (by omega) (by omega)
      exact ⟨i1, by omega, i3, i4⟩

theorem fib48_gt : 4294967295 < Nat.fib 48 := by decide +kernel

/-- The top digit of a 32-bit number. -/
theorem fibTop_spec {n : Nat} (hn : 1 ≤ n) (h : n ≤ 4294967295) :
    2 ≤ fibTop n ∧ fibTop n ≤ 47 ∧ Nat.fib (fibTop n) ≤ n ∧ n < Nat.fib (fibTop n + 1) :=
  fibTopFrom_spec hn 47 (by decide) (Nat.lt_of_le_of_lt h fib48_gt)

/-- The code of a 32-bit number: its digits, the last of them 1, then the terminator (R106). -/
theorem fibCode_spec {n : Nat} (hn : 1 ≤ n) (h : n ≤ 4294967295) :
    ∃ ds, fibCode n = ds ++ [true] ∧ ds.getLast? = some true ∧ noAdjacent false ds ∧ fibSum 2 ds = n ∧ ds.length ≤ 46 := by
  obtain ⟨h1, h2, h3, h4⟩ := fibTop_spec hn h
  obtain ⟨j, hj⟩ : ∃ j, fibTop n = j + 2 := ⟨fibTop n - 2, by omega⟩
  rw [hj] at h3 h4
  have hs := lowDigits_spec (j + 1) n h4
  refine ⟨lowDigits (j + 1) n, ?_, ?_, hs.1, hs.2, by rw [lowDigits_length]; omega⟩
  · unfold fibCode lowDigits; rw [hj]; rfl
  · rw [lowDigits_succ, if_pos h3]; simp

/-- Every such digit string is the code of its sum. -/
theorem fibCode_unique {ds : List Bool} (hlast : ds.getLast? = some true) (hadj : noAdjacent false ds)
    (hmax : fibSum 2 ds ≤ 4294967295) : fibCode (fibSum 2 ds) = ds ++ [true] ∧ 1 ≤ fibSum 2 ds := by
  obtain ⟨a, rfl⟩ : ∃ a, ds = a ++ [true] := by
    cases ds using List.reverseRecOn with
    | nil => simp at hlast
    | append_singleton a b => simp at hlast; exact ⟨a, by rw [hlast]⟩
  have hs : fibSum 2 (a ++ [true]) = fibSum 2 a + Nat.fib (a.length + 2) := by
    rw [fibSum_append]; simp [fibSum, Nat.add_comm]
  have hpos : 0 < Nat.fib (a.length + 2) := Nat.fib_pos.2 (by omega)
  have hlt := (fibSum_lt _ hadj).1
  rw [List.length_append, List.length_singleton] at hlt
  refine ⟨?_, by omega⟩
  obtain ⟨h1, h2, h3, h4⟩ := fibTop_spec (n := fibSum 2 (a ++ [true])) (by omega) hmax
  have htop : fibTop (fibSum 2 (a ++ [true])) = a.length + 2 := by
    have x : fibTop (fibSum 2 (a ++ [true])) < a.length + 3 := by
      by_contra hc
      have : Nat.fib (a.length + 3) ≤ Nat.fib (fibTop (fibSum 2 (a ++ [true]))) := Nat.fib_mono (by omega)
      have hlt' : fibSum 2 (a ++ [true]) < Nat.fib (a.length + 3) := hlt
      omega
    have y : a.length + 2 < fibTop (fibSum 2 (a ++ [true])) + 1 := by
      by_contra hc
      have : Nat.fib (fibTop (fibSum 2 (a ++ [true])) + 1) ≤ Nat.fib (a.length + 2) := Nat.fib_mono (by omega)
      omega
    omega
  have hu := lowDigits_unique _ hadj
  rw [List.length_append, List.length_singleton] at hu
  unfold fibCode
  rw [htop]
  show lowDigits (a.length + 1) _ ++ [true] = _
  rw [← hu]

theorem fibCode_length {n : Nat} (hn : 1 ≤ n) (h : n ≤ 4294967295) : (fibCode n).length ≤ 47 := by
  obtain ⟨ds, he, _, _, _, hl⟩ := fibCode_spec hn h
  rw [he]; simp; omega

/-! ### Traces and reads -/

theorem bitIntervals_valid (bits : List Bool) : ∀ iv ∈ bitIntervals bits, iv.Valid := by
  intro iv hiv
  obtain ⟨b, _, rfl⟩ := List.mem_map.1 hiv
  exact ⟨by show 0 < 2; decide, by show 2 ≤ 1073741824; decide, Nat.one_pos, by
    show b.toNat + 1 ≤ 2; have := bool_toNat_le b; omega⟩

theorem bitIntervals_length (bits : List Bool) : (bitIntervals bits).length = bits.length := by simp [bitIntervals]

/-- The trace of a Fibonacci write (R106). -/
theorem fibTrace_ok {n : Nat} (hn : 1 ≤ n) : fibTrace n = .ok (bitIntervals (fibCode n)) := by
  unfold fibTrace
  rw [if_neg (by omega), uniformTraces_ok]
  · congr 1
    unfold bitIntervals
    induction fibCode n with
    | nil => rfl
    | cons b rest ih => simp only [List.map_cons, List.flatMap_cons, ih]; rfl
  · intro p hp
    obtain ⟨b, _, rfl⟩ := List.mem_map.1 hp
    cases b <;> decide

theorem bit_narrowAll {inp : Input} {b : Bool} {rest : List Bool} {d d' : Decoder} (hd : d.Settled)
    (h : Decoder.narrowAll inp (bitIntervals (b :: rest)) d = .ok d') :
    ∃ m, d.uniform inp 2 = .ok (b.toNat, m) ∧ m.Settled ∧ Decoder.narrowAll inp (bitIntervals rest) m = .ok d' := by
  unfold bitIntervals at h
  rw [List.map_cons, narrowAll_cons] at h
  obtain ⟨m, hm, hr⟩ := (coded_bind_eq_ok _ _ _).1 h
  refine ⟨m, ?_, (Decoder.narrow_ok hd hm).2.1, hr⟩
  apply Decoder.uniform_of_narrowAll hd (by have := bool_toNat_le b; omega)
  show Decoder.narrowAll inp [⟨b.toNat, 1, 2⟩] d = _
  rw [narrowAll_cons, hm]; rfl

/-- The read of a consumed digit string and its terminator (R146). -/
theorem Decoder.fibLoop_of_narrowAll {inp : Input} (ds : List Bool) {left k n : Nat} {prev : Bool} {d d' : Decoder}
    (hd : d.Settled) (hleft : ds.length + 1 ≤ left) (hadj : noAdjacent prev ds)
    (hlast : (prev :: ds).getLast (by simp) = true) (hmax : n + fibSum k ds ≤ 4294967295)
    (h : Decoder.narrowAll inp (bitIntervals (ds ++ [true])) d = .ok d') :
    Decoder.fibLoop inp left k n prev d = .ok (n + fibSum k ds, d') := by
  induction ds generalizing left k n prev d with
  | nil =>
    obtain ⟨m, hu, _, hr⟩ := bit_narrowAll hd h
    have hp : prev = true := by simpa using hlast
    cases left with
    | zero => simp at hleft
    | succ left =>
      simp only [bitIntervals, List.map_nil, narrowAll_nil, Except.ok.injEq] at hr
      simp only [Decoder.fibLoop, hu, coded_bind_ok, Bool.toNat_true, hp, and_self, if_true, fibSum, Nat.add_zero, hr]
  | cons b ds ih =>
    obtain ⟨m, hu, hm, hr⟩ := bit_narrowAll hd h
    have hnot := hadj.1
    rw [List.getLast_cons_cons] at hlast
    simp only [List.length_cons] at hleft
    cases left with
    | zero => omega
    | succ left =>
      have hl0 : left ≠ 0 := by omega
      cases b with
      | false =>
        simp only [fibSum, Bool.false_eq_true, if_false, Nat.zero_add] at hmax ⊢
        simp only [Decoder.fibLoop, hu, coded_bind_ok, Bool.toNat_false, Nat.zero_ne_one, false_and, if_false, hl0]
        exact ih hm (by omega) hadj.2 hlast hmax hr
      | true =>
        have hp : prev = false := by simpa using hnot
        simp only [fibSum, if_true] at hmax ⊢
        simp only [Decoder.fibLoop, hu, coded_bind_ok, Bool.toNat_true, hp, Bool.false_eq_true, and_false, if_false, hl0,
          if_true, fib_eq, top_eq]
        rw [if_neg (by omega), ih hm (by omega) hadj.2 hlast (by omega) hr]
        congr 2; omega

/-- A successful read has consumed a digit string and its terminator; the only fault is CORRUPT_FIB (R146). -/
theorem Decoder.fibLoop_cases {inp : Input} (left : Nat) {k n : Nat} {prev : Bool} {d : Decoder} (hd : d.Settled)
    (hn : n ≤ 4294967295) :
    Decoder.fibLoop inp left k n prev d = .error corruptFib ∨
      ∃ ds d', Decoder.fibLoop inp left k n prev d = .ok (n + fibSum k ds, d') ∧ noAdjacent prev ds ∧
        (prev :: ds).getLast (by simp) = true ∧ n + fibSum k ds ≤ 4294967295 ∧
        Decoder.narrowAll inp (bitIntervals (ds ++ [true])) d = .ok d' := by
  induction left generalizing k n prev d with
  | zero => exact .inl rfl
  | succ left ih =>
    obtain ⟨v, m, hu, hlt, hnar, hm, _⟩ := Decoder.uniform_spec (inp := inp) hd (count := 2) (by decide) (by decide)
    have hbits : ∀ b : Bool, b.toNat = v → ∀ rest : List Bool, Decoder.narrowAll inp (bitIntervals (b :: rest)) d =
        Decoder.narrowAll inp (bitIntervals rest) m := by
      intro b hb rest
      show Decoder.narrowAll inp ([⟨b.toNat, 1, 2⟩] ++ bitIntervals rest) d = _
      rw [narrowAll_append, hb]
      have : Decoder.narrowAll inp [⟨v, 1, 2⟩] d = .ok m := hnar
      rw [this]; rfl
    simp only [Decoder.fibLoop, hu, coded_bind_ok]
    by_cases hterm : v = 1 ∧ prev = true
    · right
      refine ⟨[], m, by simp [hterm, fibSum], trivial, by simpa using hterm.2, by simpa [fibSum] using hn, ?_⟩
      rw [List.nil_append, hbits true (by simp [hterm.1])]; rfl
    · simp only [hterm, if_false]
      by_cases hl0 : left = 0
      · simp [hl0]
      · simp only [hl0, if_false]
        by_cases hv : v = 1
        · have hp : prev = false := by simpa [hv] using hterm
          simp only [hv, if_true, fib_eq, top_eq]
          by_cases hbig : n + Nat.fib k > 4294967295
          · simp [hbig]
          · simp only [hbig, if_false]
            rcases ih (k := k + 1) (n := n + Nat.fib k) (prev := true) hm (by omega) with h | ⟨ds, d', h1, h2, h3, h4, h5⟩
            · exact .inl h
            · refine .inr ⟨true :: ds, d', ?_, ⟨by simp [hp], h2⟩, by rw [List.getLast_cons_cons]; exact h3, ?_, ?_⟩
              · rw [h1]; simp only [fibSum, if_true]; congr 2; omega
              · simp only [fibSum, if_true]; omega
              · rw [List.cons_append, hbits true (by simp [hv])]; exact h5
        · have hv0 : v = 0 := by omega
          simp only [hv, if_false]
          rcases ih (k := k + 1) (n := n) (prev := false) hm hn with h | ⟨ds, d', h1, h2, h3, h4, h5⟩
          · exact .inl h
          · refine .inr ⟨false :: ds, d', ?_, ⟨by simp, h2⟩, by rw [List.getLast_cons_cons]; exact h3, ?_, ?_⟩
            · rw [h1]; simp [fibSum]
            · simpa [fibSum] using h4
            · rw [List.cons_append, hbits false (by simp [hv0])]; exact h5

/-- A read between settled bounds returns the number whose code it consumed, or raises CORRUPT_FIB (R146). -/
theorem Decoder.fib_cases {inp : Input} {d : Decoder} (hd : d.Settled) :
    d.fib inp = .error corruptFib ∨
      ∃ n d', d.fib inp = .ok (n, d') ∧ 1 ≤ n ∧ n ≤ 4294967295 ∧
        Decoder.narrowAll inp (bitIntervals (fibCode n)) d = .ok d' := by
  rcases Decoder.fibLoop_cases (inp := inp) 47 (k := 2) (n := 0) (prev := false) hd (by decide) with
    h | ⟨ds, d', h1, h2, h3, h4, h5⟩
  · exact .inl h
  · rw [Nat.zero_add] at h1 h4
    have hlast : ds.getLast? = some true := by
      cases ds with
      | nil => simp at h3
      | cons b ds => rw [List.getLast_cons_cons] at h3; rw [List.getLast?_eq_getLast_of_ne_nil (by simp), h3]
    obtain ⟨hc, hpos⟩ := fibCode_unique hlast h2 h4
    exact .inr ⟨fibSum 2 ds, d', h1, hpos, h4, by rw [hc]; exact h5⟩

/-- A read of a consumed code gives its number (R146, R157). -/
theorem Decoder.fib_of_narrowAll {inp : Input} {d d' : Decoder} (hd : d.Settled) {n : Nat} (hn : 1 ≤ n)
    (hmax : n ≤ 4294967295) (h : Decoder.narrowAll inp (bitIntervals (fibCode n)) d = .ok d') :
    d.fib inp = .ok (n, d') := by
  obtain ⟨ds, he, hlast, hadj, hsum, hlen⟩ := fibCode_spec hn hmax
  have hne : ds ≠ [] := by rintro rfl; simp at hlast
  rw [he] at h
  have := Decoder.fibLoop_of_narrowAll ds (left := 47) (k := 2) (n := 0) hd (by omega) hadj
    (by
      cases ds with
      | nil => exact absurd rfl hne
      | cons b ds =>
        rw [List.getLast_cons_cons]
        rw [List.getLast?_eq_getLast_of_ne_nil (by simp)] at hlast
        simpa using hlast)
    (by omega) h
  rw [hsum, Nat.zero_add] at this
  exact this

end Sys2Proof.Machine
end

