-- ==== Sys2Proof/Laws/Selection.lean ====
section
/-!
SUPPORT. Laws/Selection.lean: the parts of the LZ encoder's search (R205, R222 to R234), each said once: what the square
root, the chosen policy, a match, a kept candidate and the selected tokens are.
-/
namespace Sys2Proof.Machine

/-! ### The square root (R12, R222) -/

theorem sqrtBelow_spec (n k s : Nat) (h0 : s * s < n) (h1 : n ≤ (s + 2 ^ k) * (s + 2 ^ k)) :
    sqrtBelow n k s * sqrtBelow n k s < n ∧ n ≤ (sqrtBelow n k s + 1) * (sqrtBelow n k s + 1) := by
  induction k generalizing s with
  | zero => exact ⟨h0, h1⟩
  | succ k ih =>
    unfold sqrtBelow
    split
    · rename_i h
      refine ih _ h ?_
      rw [show s + 2 ^ k + 2 ^ k = s + 2 ^ (k + 1) by rw [Nat.pow_succ]; omega]
      exact h1
    · rename_i h
      exact ih s h0 (Nat.not_lt.1 h)

/-- `isqrt_ceil(n)` is the least integer whose square is at least `n` (R12). -/
theorem isqrtCeil_spec (n : Nat) : n ≤ isqrtCeil n * isqrtCeil n ∧ ∀ m, n ≤ m * m → isqrtCeil n ≤ m := by
  unfold isqrtCeil
  split
  · rename_i h; subst h; simp
  · rename_i h
    have hlt : n < 2 ^ (Nat.log2 n + 1) := Nat.lt_log2_self
    have hpos : 1 ≤ 2 ^ (Nat.log2 n + 1) := Nat.one_le_two_pow
    have hsq : n ≤ (0 + 2 ^ (Nat.log2 n + 1)) * (0 + 2 ^ (Nat.log2 n + 1)) := by
      rw [Nat.zero_add]
      exact Nat.le_trans (Nat.le_of_lt hlt) (Nat.le_mul_of_pos_left _ hpos)
    obtain ⟨h1, h2⟩ := sqrtBelow_spec n (Nat.log2 n + 1) 0 (by omega) hsq
    refine ⟨h2, fun m hm => ?_⟩
    by_contra hc
    have : m ≤ sqrtBelow n (Nat.log2 n + 1) 0 := by omega
    have := Nat.mul_le_mul this this
    omega

theorem buffer_pos (base : Nat) : 1 ≤ buffer base := Nat.le_max_right _ _

theorem total_lt_widened (base : Nat) : base < widened base := by
  have := buffer_pos base; unfold widened; omega

/-! ### Policies (R205) -/

theorem foldl_max_spec (V : List Nat) (a : Nat) :
    a ≤ V.foldl Nat.max a ∧ (∀ v ∈ V, v ≤ V.foldl Nat.max a) ∧ (V.foldl Nat.max a = a ∨ V.foldl Nat.max a ∈ V) := by
  induction V generalizing a with
  | nil => simp
  | cons x V ih =>
    obtain ⟨h1, h2, h3⟩ := ih (Nat.max a x)
    rw [List.foldl_cons]
    refine ⟨Nat.le_trans (Nat.le_max_left a x) h1, ?_, ?_⟩
    · intro v hv
      rcases List.mem_cons.1 hv with h | h
      · rw [h]; exact Nat.le_trans (Nat.le_max_right a x) h1
      · exact h2 v h
    · rcases h3 with h | h
      · rw [h]
        rcases Nat.le_total a x with hle | hle
        · right; rw [show Nat.max a x = x from Nat.max_eq_right hle]; simp
        · left; exact Nat.max_eq_left hle
      · right; simp [h]

theorem maxBelow_spec {V : List Nat} {bound : Nat} (h : V.filter (· < bound) ≠ []) :
    maxBelow V bound ∈ V ∧ maxBelow V bound < bound ∧ ∀ v ∈ V, v < bound → v ≤ maxBelow V bound := by
  obtain ⟨_, h2, h3⟩ := foldl_max_spec (V.filter (· < bound)) 0
  have hm : maxBelow V bound ∈ V.filter (· < bound) := by
    rcases h3 with h3 | h3
    · obtain ⟨x, hx⟩ := List.exists_mem_of_ne_nil _ h
      have := h2 x hx
      rw [h3] at this
      have hx0 : x = 0 := by omega
      unfold maxBelow
      rw [h3, ← hx0]; exact hx
    · exact h3
  rw [List.mem_filter] at hm
  exact ⟨hm.1, by simpa using hm.2, fun v hv hlt => h2 v (List.mem_filter.2 ⟨hv, by simpa using hlt⟩)⟩

theorem sum_le_length_mul (V : List Nat) (m : Nat) (h : ∀ v ∈ V, v ≤ m) : V.sum ≤ m * V.length := by
  induction V with
  | nil => simp
  | cons x V ih =>
    have := h x (by simp)
    have := ih (fun v hv => h v (by simp [hv]))
    simp only [List.sum_cons, List.length_cons, Nat.mul_add, Nat.mul_one]; omega

/-- What a chosen policy is: every value of its category is at most `max`, and a split's threshold is below it (R205). -/
theorem choosePolicy_spec (V : List Nat) :
    (∀ v ∈ V, v ≤ (choosePolicy V).max) ∧ ((choosePolicy V).max = 0 ∨ (choosePolicy V).max ∈ V) ∧
      ((choosePolicy V).mode = .whole ∨ (choosePolicy V).threshold < (choosePolicy V).max) := by
  unfold choosePolicy
  obtain ⟨_, h2, h3⟩ := foldl_max_spec V 0
  by_cases hV : V.isEmpty
  · simp only [hV, if_true]
    have : V = [] := by simpa using hV
    subst this; simp
  · simp only [hV, Bool.false_eq_true, if_false]
    have hne : V ≠ [] := by simpa using hV
    have hlen : 0 < V.length := List.length_pos_of_ne_nil hne
    have havg : V.sum / V.length ≤ V.foldl Nat.max 0 := Nat.div_le_of_le_mul (by
      rw [Nat.mul_comm]; exact sum_le_length_mul V _ h2)
    have hthr : V.filter (· < V.sum / V.length) ≠ [] → maxBelow V (V.sum / V.length) < V.foldl Nat.max 0 := fun h =>
      Nat.lt_of_lt_of_le (maxBelow_spec h).2.1 havg
    split
    · rename_i hc
      refine ⟨h2, h3, .inr (hthr ?_)⟩
      intro he
      rw [he] at hc
      simp at hc; omega
    · split
      · rename_i hc
        exact ⟨h2, h3, .inr (hthr hc.2)⟩
      · exact ⟨h2, h3, .inl rfl⟩

/-! ### Matches and candidates (R223, R224) -/

theorem commonPrefix_spec (a b : List Word) :
    commonPrefix a b ≤ a.length ∧ commonPrefix a b ≤ b.length ∧ ∀ m, m < commonPrefix a b → a[m]? = b[m]? := by
  induction a generalizing b with
  | nil => simp [commonPrefix]
  | cons x a ih =>
    cases b with
    | nil => simp [commonPrefix]
    | cons y b =>
      simp only [commonPrefix]
      split
      · rename_i hxy
        obtain ⟨h1, h2, h3⟩ := ih b
        refine ⟨by simp; omega, by simp; omega, ?_⟩
        intro m hm
        cases m with
        | zero => simp [hxy]
        | succ m => simpa using h3 m (by omega)
      · simp

/-- What a match length says of the input (R223). -/
theorem matchLength_spec (xs : List Word) (i j : Nat) :
    matchLength xs i j ≤ 65537 ∧ (matchLength xs i j = 0 ∨ i + matchLength xs i j ≤ xs.length) ∧
      ∀ m, m < matchLength xs i j → xs[i + m]? = xs[j + m]? := by
  obtain ⟨h1, _, h3⟩ := commonPrefix_spec (xs.drop i) (xs.drop j)
  have hle : matchLength xs i j ≤ commonPrefix (xs.drop i) (xs.drop j) := Nat.min_le_left _ _
  refine ⟨Nat.le_trans (Nat.min_le_right _ _) (by decide), ?_, ?_⟩
  · rw [List.length_drop] at h1; omega
  · intro m hm
    have := h3 m (by omega)
    rwa [List.getElem?_drop, List.getElem?_drop] at this

theorem mem_predecessors {dictSize i j : Nat} (h : j ∈ predecessors dictSize i) : j + 2 ≤ i ∧ i - j < dictSize := by
  unfold predecessors at h
  have h1 := List.takeWhile_subset _ h
  have h2 := List.mem_takeWhile_imp h
  simp at h1 h2
  omega

/-- A candidate reproduces the input where it stands: what R224 says of its form, and the sizes its fields have. -/
structure Candidate.Sound (xs : List Word) (c : Candidate) : Prop where
  chunk_ge : 2 ≤ c.chunk
  chunk_le : c.dist + c.chunk ≤ c.start
  within : c.start + c.covered ≤ xs.length
  chunk_small : c.chunk ≤ 65537
  dist_small : c.dist < 65536
  spiral_small : c.spiralLen < 65536
  plain : c.spiral = false → c.spiralLen = 0
  spiral_dist : c.spiral = true → c.dist = 0
  reproduces : ∀ q, q < c.covered → xs[c.start + q]? = xs[c.start - c.dist - c.chunk + q % c.chunk]?

theorem periodic {xs : List Word} {i j p k : Nat} (hp : 0 < p) (hij : i = j + p)
    (h : ∀ m, m < k → xs[i + m]? = xs[j + m]?) (q : Nat) (hq : q < k) : xs[i + q]? = xs[j + q % p]? := by
  induction q using Nat.strong_induction_on with
  | _ q ih =>
    rcases Nat.lt_or_ge q p with hlt | hge
    · rw [Nat.mod_eq_of_lt hlt]; exact h q hq
    · rw [h q hq, show j + q = i + (q - p) by omega, ih (q - p) (by omega) (by omega), ← Nat.mod_eq_sub_mod hge]

/-- A candidate the search forms is sound (R223, R224). -/
theorem candidateAt_sound {cfg : Config.Params} (hcfg : cfg.legal = true) {t : FreqTable} {xs : List Word} {i j : Nat}
    (hj : j ∈ predecessors cfg.dictSize i) {c : Candidate} (h : candidateAt cfg t xs i j = some c) :
    c.Sound xs ∧ c.start = i := by
  obtain ⟨hji, hdict⟩ := mem_predecessors hj
  have hds : cfg.dictSize ≤ 65536 ∧ 2 ≤ cfg.prefixLen := by simp [Config.Params.legal] at hcfg; omega
  unfold candidateAt at h
  simp only at h
  split at h
  · rename_i hpre
    split at h
    · simp only [Option.some.injEq] at h
      obtain ⟨m1, m2, m3⟩ := matchLength_spec xs i j
      generalize matchLength xs i j = k at *
      have hk : 2 ≤ k := by omega
      have hik : i + k ≤ xs.length := by omega
      have hper := fun q (hq : q < k) => periodic (p := i - j) (by omega) (by omega) m3 q hq
      unfold formCandidate at h
      dsimp only at h
      split at h
      · rename_i hs
        have hdiv : (i - j) * (k / (i - j)) ≤ k := Nat.mul_div_le _ _
        have hge : 2 ≤ k / (i - j) := (Nat.le_div_iff_mul_le (by omega)).2 hs.2
        have hsmall : k / (i - j) ≤ k / 2 := Nat.div_le_div_left (by omega) (by decide)
        have hcov : (i - j) * (k / (i - j) - 1 + 1) = (i - j) * (k / (i - j)) := by
          rw [show k / (i - j) - 1 + 1 = k / (i - j) by omega]
        subst h
        refine ⟨⟨by show 2 ≤ i - j; omega, by show 0 + (i - j) ≤ i; omega, ?_, by show i - j ≤ 65537; omega, by show 0 < 65536; decide,
          by show k / (i - j) - 1 < 65536; omega, by simp, by simp, ?_⟩, rfl⟩
        · show i + (i - j) * (k / (i - j) - 1 + 1) ≤ xs.length
          omega
        · intro q hq
          have hq' : q < (i - j) * (k / (i - j) - 1 + 1) := hq
          show xs[i + q]? = xs[i - 0 - (i - j) + q % (i - j)]?
          rw [show i - 0 - (i - j) = j by omega]
          exact hper q (by omega)
      · split at h
        · rename_i _ hkp
          subst h
          refine ⟨⟨by show 2 ≤ i - j; omega, by show 0 + (i - j) ≤ i; omega, ?_, by show i - j ≤ 65537; omega, by show 0 < 65536; decide,
            by show 0 < 65536; decide, by simp, by simp, ?_⟩, rfl⟩
          · show i + (i - j) * (0 + 1) ≤ xs.length
            omega
          · intro q hq
            have hq' : q < (i - j) * (0 + 1) := hq
            show xs[i + q]? = xs[i - 0 - (i - j) + q % (i - j)]?
            rw [show i - 0 - (i - j) = j by omega]
            exact hper q (by omega)
        · rename_i _ hkp
          subst h
          refine ⟨⟨by show 2 ≤ k; omega, by show i - j - k + k ≤ i; omega, ?_, by show k ≤ 65537; omega, by show i - j - k < 65536; omega,
            by show 0 < 65536; decide, by simp, by simp, ?_⟩, rfl⟩
          · show i + k * (0 + 1) ≤ xs.length
            omega
          · intro q hq
            have hq' : q < k * (0 + 1) := hq
            show xs[i + q]? = xs[i - (i - j - k) - k + q % k]?
            rw [show i - (i - j - k) - k = j by omega, Nat.mod_eq_of_lt (by omega)]
            exact m3 q (by omega)
    · simp at h
  · simp at h

theorem keepLongest_mem (best : Option Candidate) (l : List Candidate) {c : Candidate} (h : keepLongest best l = some c) :
    best = some c ∨ c ∈ l := by
  induction l generalizing best with
  | nil => exact .inl h
  | cons x l ih =>
    cases best with
    | none =>
      rcases ih (some x) h with h' | h'
      · simp only [Option.some.injEq] at h'; exact .inr (by simp [h'])
      · exact .inr (by simp [h'])
    | some b =>
      rcases ih _ h with h' | h'
      · simp only [Option.some.injEq] at h'
        split at h'
        · exact .inr (by simp [h'])
        · exact .inl (by simp [h'])
      · exact .inr (by simp [h'])

/-- Every kept candidate is sound (R226). -/
theorem kept_sound {cfg : Config.Params} (hcfg : cfg.legal = true) {t : FreqTable} {xs : List Word} {c : Candidate}
    (h : c ∈ keptCandidates cfg t xs) : c.Sound xs := by
  unfold keptCandidates at h
  obtain ⟨i, _, hi⟩ := List.mem_filterMap.1 h
  unfold keptAt at hi
  rcases keepLongest_mem _ _ hi with h' | h'
  · simp at h'
  · obtain ⟨j, hj, hc⟩ := List.mem_filterMap.1 h'
    exact (candidateAt_sound hcfg hj hc).1

/-- A kept candidate comes from a predecessor of its start (R226). -/
theorem kept_from {cfg : Config.Params} {t : FreqTable} {xs : List Word} {c : Candidate} (h : c ∈ keptCandidates cfg t xs) :
    ∃ i j, i < xs.length ∧ j ∈ predecessors cfg.dictSize i ∧ candidateAt cfg t xs i j = some c := by
  unfold keptCandidates at h
  obtain ⟨i, hi, hk⟩ := List.mem_filterMap.1 h
  unfold keptAt at hk
  rcases keepLongest_mem _ _ hk with h' | h'
  · simp at h'
  · obtain ⟨j, hj, hc⟩ := List.mem_filterMap.1 h'
    exact ⟨i, j, List.mem_range.1 hi, hj, hc⟩

/-- Without `SPIRAL_ENABLE` the reference selection uses no spirals (R227). -/
theorem referencePlan_no_spiral {cfg : Config.Params} (h : cfg.spiralEnable = false) (t : FreqTable) (xs : List Word) :
    (referencePlan cfg t xs).useSpiral = false := by
  show (keptCandidates cfg t xs).any (·.spiral) = false
  rw [List.any_eq_false]
  intro c hc
  obtain ⟨i, j, _, _, hat⟩ := kept_from hc
  have hsp : ∀ k, (formCandidate false i j k).spiral = false := by
    intro k
    unfold formCandidate
    simp only [Bool.false_eq_true, false_and, if_false]
    split <;> rfl
  unfold candidateAt at hat
  rw [h] at hat
  dsimp only at hat
  split at hat
  · split at hat
    · simp only [Option.some.injEq] at hat
      rw [← hat, hsp]; decide
    · simp at hat
  · simp at hat

/-! ### Selection (R230 to R233) -/

theorem mem_insertByCovered {c x : Candidate} {l : List Candidate} : x ∈ insertByCovered c l ↔ x = c ∨ x ∈ l := by
  induction l with
  | nil => simp [insertByCovered]
  | cons b l ih =>
    unfold insertByCovered
    split
    · simp
    · simp only [List.mem_cons, ih]; tauto

theorem mem_selectionOrder {cs : List Candidate} {x : Candidate} : x ∈ selectionOrder cs ↔ x ∈ cs := by
  unfold selectionOrder
  have : ∀ acc : List Candidate, x ∈ cs.foldl (fun acc c => insertByCovered c acc) acc ↔ x ∈ cs ∨ x ∈ acc := by
    induction cs with
    | nil => simp
    | cons c cs ih =>
      intro acc
      rw [List.foldl_cons, ih, mem_insertByCovered, List.mem_cons]
      tauto
  simpa using this []

theorem overlaps_comm (a b : Candidate) : a.overlaps b = b.overlaps a := by
  unfold Candidate.overlaps; exact Bool.and_comm _ _

theorem disjointTokens_append {l : List Candidate} {c : Candidate} (h : disjointTokens l = true)
    (hc : l.any c.overlaps = false) : disjointTokens (l ++ [c]) = true := by
  induction l with
  | nil => simp [disjointTokens]
  | cons x l ih =>
    simp only [disjointTokens, Bool.and_eq_true, Bool.not_eq_true', List.any_cons, Bool.or_eq_false_iff,
      List.cons_append, List.any_append, List.any_nil, Bool.or_false] at h hc ⊢
    exact ⟨⟨h.1, by rw [overlaps_comm]; exact hc.1⟩, ih h.2 hc.2⟩

/-- The selected tokens are accepted candidates that do not overlap (R231). -/
theorem selected_spec (t : FreqTable) (xs : List Word) (plan : LzPlan) (cs : List Candidate) (acc : List Candidate)
    (hd : disjointTokens acc = true) :
    disjointTokens (cs.foldl (considerCandidate t xs plan) acc) = true ∧
      ∀ c ∈ cs.foldl (considerCandidate t xs plan) acc, c ∈ acc ∨ (c ∈ cs ∧ accept t xs plan c = true) := by
  induction cs generalizing acc with
  | nil => exact ⟨hd, fun c hc => .inl hc⟩
  | cons x cs ih =>
    rw [List.foldl_cons]
    have step : disjointTokens (considerCandidate t xs plan acc x) = true ∧
        ∀ c ∈ considerCandidate t xs plan acc x, c ∈ acc ∨ (c = x ∧ accept t xs plan x = true) := by
      unfold considerCandidate
      split
      · exact ⟨hd, fun c hc => .inl hc⟩
      · rename_i hany
        split
        · rename_i hacc
          refine ⟨disjointTokens_append hd (by simpa using hany), ?_⟩
          intro c hc
          rcases List.mem_append.1 hc with h | h
          · exact .inl h
          · simp only [List.mem_singleton] at h; exact .inr ⟨h, hacc⟩
        · exact ⟨hd, fun c hc => .inl hc⟩
    obtain ⟨i1, i2⟩ := ih _ step.1
    refine ⟨i1, fun c hc => ?_⟩
    rcases i2 c hc with h | ⟨h, ha⟩
    · rcases step.2 c h with h' | ⟨h', ha⟩
      · exact .inl h'
      · exact .inr ⟨by simp [h'], by rw [h']; exact ha⟩
    · exact .inr ⟨by simp [h], ha⟩

/-- A token of the reference selection is a kept candidate that passed the cost test (R230, R231). -/
theorem referenceTokens_spec (cfg : Config.Params) (t : FreqTable) (xs : List Word) :
    disjointTokens (referencePlan cfg t xs).tokens = true ∧
      ∀ c ∈ (referencePlan cfg t xs).tokens,
        c ∈ keptCandidates cfg t xs ∧ accept t xs (planOf (keptCandidates cfg t xs)) c = true := by
  unfold referencePlan
  obtain ⟨h1, h2⟩ := selected_spec t xs (planOf (keptCandidates cfg t xs))
    (selectionOrder ((keptCandidates cfg t xs).filter (eligible xs.length cfg.parts))) [] rfl
  refine ⟨h1, fun c hc => ?_⟩
  rcases h2 c hc with h | ⟨h, ha⟩
  · simp at h
  · rw [mem_selectionOrder] at h
    exact ⟨(List.mem_filter.1 h).1, ha⟩

theorem writable_choose {V : List Nat} (h : ∀ v ∈ V, v < 65536) : (choosePolicy V).writable = true := by
  obtain ⟨_, h2, h3⟩ := choosePolicy_spec V
  unfold Policy.writable
  have hmax : (choosePolicy V).max < 65536 := by
    rcases h2 with h2 | h2
    · omega
    · exact h _ h2
  simp only [Config.hdrMaxW, Nat.reducePow, Bool.and_eq_true, decide_eq_true_eq, Bool.or_eq_true, beq_iff_eq]
  exact ⟨decide_eq_true hmax, h3⟩

/-- The policies of kept candidates can be written and hold every kept candidate's values (R228, R232). -/
theorem planOf_spec {xs : List Word} {kept : List Candidate} (hs : ∀ c ∈ kept, c.Sound xs) :
    (planOf kept).dist.writable = true ∧ (planOf kept).len.writable = true ∧ (planOf kept).spiral.writable = true ∧
      ∀ c ∈ kept, validToken xs (planOf kept) c = true := by
  unfold planOf
  refine ⟨writable_choose ?_, writable_choose ?_, writable_choose ?_, ?_⟩
  · intro v hv
    obtain ⟨c, hc, rfl⟩ := List.mem_map.1 hv
    exact (hs c (List.mem_filter.1 hc).1).dist_small
  · intro v hv
    obtain ⟨c, hc, rfl⟩ := List.mem_map.1 hv
    have := (hs c hc).chunk_small
    show c.chunk - 2 < 65536
    omega
  · intro v hv
    obtain ⟨c, hc, rfl⟩ := List.mem_map.1 hv
    exact (hs c (List.mem_filter.1 hc).1).spiral_small
  · intro c hc
    have hsc := hs c hc
    have hlen := (choosePolicy_spec (kept.map (fun c => c.chunk - 2))).1 _ (List.mem_map.2 ⟨c, hc, rfl⟩)
    have hcs := hsc.chunk_le
    unfold validToken
    simp only [Bool.and_eq_true, decide_eq_true_eq]
    refine ⟨⟨⟨⟨⟨hsc.chunk_ge, by omega⟩, hlen⟩, hsc.within⟩, ?_⟩, ?_⟩
    · by_cases hsp : c.spiral = true
      · simp only [hsp, if_true, Bool.and_eq_true, decide_eq_true_eq]
        exact ⟨List.any_eq_true.2 ⟨c, hc, hsp⟩,
          (choosePolicy_spec _).1 _ (List.mem_map.2 ⟨c, List.mem_filter.2 ⟨hc, hsp⟩, rfl⟩)⟩
      · have hsp' : c.spiral = false := by simpa using hsp
        simp only [hsp', Bool.false_eq_true, if_false, Bool.and_eq_true, beq_iff_eq, decide_eq_true_eq]
        refine ⟨hsc.plain hsp', Nat.le_min.2 ⟨?_, by omega⟩⟩
        exact (choosePolicy_spec _).1 _ (List.mem_map.2 ⟨c, List.mem_filter.2 ⟨hc, by simp [hsp']⟩, rfl⟩)
    · unfold Candidate.reproduces
      rw [List.all_eq_true]
      intro q hq
      have hq' : q < c.covered := by simpa using hq
      have := hsc.reproduces q hq'
      rw [beq_iff_eq]
      have hdist : (if c.spiral = true then 0 else c.dist) = c.dist := by
        by_cases hsp : c.spiral = true
        · simp [hsp, hsc.spiral_dist hsp]
        · simp [hsp]
      simp only [hdist]
      exact this

end Sys2Proof.Machine
end

