-- ==== Sys2Proof/Laws/Lz.lean ====
section
/-!
SUPPORT. Laws/Lz.lean: the stream of the LZ engine, part by part: the Intervals each part is written with, that they are
valid and how many there are (R236 to R239), and the decoder's read of the same part (R261 to R271).
-/
namespace Sys2Proof.Machine

/-! ### Policies a header carries -/

/-- What a decoder knows of a policy: the threshold of an unsplit one is not written (R237, R261). -/
def Policy.normal (p : Policy) : Policy := if p.mode = .whole then ⟨.whole, p.max, 0⟩ else p

@[simp] theorem Policy.normal_max (p : Policy) : p.normal.max = p.max := by unfold Policy.normal; split <;> rfl

@[simp] theorem Policy.normal_mode (p : Policy) : p.normal.mode = p.mode := by
  unfold Policy.normal; split
  · rename_i h; exact h.symm
  · rfl

/-- The threshold of an unsplit policy is not read (R202). -/
theorem splitCodeIntervals_normal (p : Policy) (max e v : Nat) :
    splitCodeIntervals p.mode.number max p.normal.threshold e v = splitCodeIntervals p.mode.number max p.threshold e v := by
  unfold Policy.normal
  split
  · rename_i h; rw [h]; simp [splitCodeIntervals, splitCodes, SplitMode.number]
  · rfl

theorem Policy.writable_iff (p : Policy) :
    p.writable = true ↔ p.max < 65536 ∧ (p.mode = .whole ∨ p.threshold < p.max) := by
  unfold Policy.writable
  simp only [Config.hdrMaxW, Nat.reducePow, Bool.and_eq_true, decide_eq_true_eq, Bool.or_eq_true, beq_iff_eq]
  exact ⟨fun h => ⟨of_decide_eq_true h.1, h.2⟩, fun h => ⟨decide_eq_true h.1, h.2⟩⟩

theorem number_lt (m : SplitMode) : m.number < 3 := by cases m <;> decide

theorem count16_length {n : Nat} (hn : n < 65536) : (countIntervals n 16 (countLog n)).length ≤ 2 := by
  have hk := countLog_spec n
  have hkW : countLog n ≤ 16 := log_le_width (W := 16) hn hk.1
  unfold countIntervals
  rw [List.length_append, uniformIntervals_length_direct (show 16 + 1 ≤ 65536 by decide)]
  split
  · rename_i h
    have : 2 ^ countLog n ≤ 2 ^ 16 := Nat.pow_le_pow_right (by decide) hkW
    rw [uniformIntervals_length_direct (by omega)]
  · simp

theorem policyIntervals_eq (p : Policy) :
    policyIntervals p =
      uniformIntervals p.mode.number 3 ++
        (countIntervals p.max 16 (countLog p.max) ++ if p.mode = .whole then [] else uniformIntervals p.threshold p.max) :=
  List.append_assoc _ _ _

theorem tripleTrace_ok {p : Policy} (h : p.writable = true) : tripleTrace p = .ok (policyIntervals p) := by
  obtain ⟨h1, h2⟩ := (p.writable_iff).1 h
  unfold tripleTrace
  rw [policyIntervals_eq]
  rw [uniformTrace_ok (number_lt p.mode), show Config.hdrMaxW = 16 from rfl, countTrace_ok (by decide) (by decide) h1]
  by_cases hm : p.mode = .whole
  · simp [hm, joinTraces]
  · have hlt : p.threshold < p.max := by rcases h2 with h2 | h2; exact absurd h2 hm; exact h2
    simp only [hm, joinTraces, uniformTrace_ok hlt, coded_bind_ok, ne_eq, not_false_iff, if_true, if_false, List.append_nil]

theorem policyIntervals_valid {p : Policy} (h : p.writable = true) :
    (∀ iv ∈ policyIntervals p, iv.Valid) ∧ (policyIntervals p).length ≤ 4 := by
  obtain ⟨h1, h2⟩ := (p.writable_iff).1 h
  have hc := count16_length h1
  rw [policyIntervals_eq]
  constructor
  · intro iv hiv
    rcases List.mem_append.1 hiv with hiv | hiv
    · exact uniformIntervals_valid (number_lt p.mode) (by decide) iv hiv
    · rcases List.mem_append.1 hiv with hiv | hiv
      · exact (countIntervals_valid (W := 16) (by decide) h1 (countLog_spec _)).1 iv hiv
      · split at hiv
        · simp at hiv
        · rename_i hm
          exact uniformIntervals_valid (by rcases h2 with h2 | h2; exact absurd h2 hm; exact h2) (by omega) iv hiv
  · rw [List.length_append, List.length_append, uniformIntervals_length_direct (show 3 ≤ 65536 by decide)]
    split
    · simp; omega
    · rw [uniformIntervals_length_direct (by omega)]; omega

/-- `ReadTriple` reads what `WriteTriple` wrote (R237, R261). -/
theorem Decoder.triple_of_narrowAll {inp : Input} {d d' : Decoder} (hd : d.Settled) {p : Policy} (hw : p.writable = true)
    (h : Decoder.narrowAll inp (policyIntervals p) d = .ok d') : d.triple inp = .ok (p.normal, d') := by
  obtain ⟨h1, h2⟩ := (p.writable_iff).1 hw
  rw [policyIntervals_eq] at h
  obtain ⟨m, hm, h⟩ := narrowAll_append_ok h
  obtain ⟨m', hm', h⟩ := narrowAll_append_ok h
  have s1 := (narrowAll_settled _ hd hm).1
  have s2 := (narrowAll_settled _ s1 hm').1
  unfold Decoder.triple
  rw [Decoder.uniform_of_narrowAll hd (number_lt p.mode) hm]
  simp only [coded_bind_ok]
  rw [show Config.hdrMaxW = 16 from rfl, Decoder.count_of_narrowAll s1 (by decide) (by decide) h1 (countLog_spec _) hm']
  simp only [coded_bind_ok, ofNumber_number]
  unfold Policy.normal
  rcases p with ⟨mode, max, t⟩
  cases mode with
  | whole =>
    simp only [if_true, narrowAll_nil, Except.ok.injEq] at h ⊢
    rw [h]
  | escapeLong =>
    have hlt : t < max := by rcases h2 with h2 | h2; exact absurd h2 (by simp); exact h2
    simp only [reduceCtorEq, if_false] at h ⊢
    rw [if_neg (by omega), Decoder.uniform_of_narrowAll s2 hlt h]; rfl
  | escapeShort =>
    have hlt : t < max := by rcases h2 with h2 | h2; exact absurd h2 (by simp); exact h2
    simp only [reduceCtorEq, if_false] at h ⊢
    rw [if_neg (by omega), Decoder.uniform_of_narrowAll s2 hlt h]; rfl

/-! ### Plans a stream is written from -/

theorem Policy.carried_iff (p : Policy) : p.carried ↔ p.writable = true := (p.writable_iff).symm

/-- The model's test of one token is what R234 asks of it. -/
theorem validToken_iff {xs : List Word} {plan : LzPlan} {c : Candidate} :
    validToken xs plan c = true ↔ plan.ValidToken xs c := by
  unfold validToken Candidate.reproduces
  simp only [Bool.and_eq_true, decide_eq_true_eq, List.all_eq_true, List.mem_range, beq_iff_eq]
  constructor
  · rintro ⟨⟨⟨⟨⟨h1, h2⟩, h3⟩, h4⟩, h5⟩, h6⟩
    refine ⟨h1, h2, h3, h4, fun hs => ?_, fun hs => ?_, h6⟩
    · rw [if_pos hs] at h5; simpa using h5
    · rw [if_neg (by simp [hs])] at h5
      exact (by simpa using h5 : c.spiralLen = 0 ∧ c.dist ≤ distMax plan c)
  · rintro ⟨h1, h2, h3, h4, h5, h6, h7⟩
    refine ⟨⟨⟨⟨⟨h1, h2⟩, h3⟩, h4⟩, ?_⟩, h7⟩
    by_cases hs : c.spiral = true
    · rw [if_pos hs]; simpa using h5 hs
    · rw [if_neg hs]
      have := h6 (by simpa using hs)
      simpa using (show c.spiralLen = 0 ∧ c.dist ≤ distMax plan c from this)

theorem LzPlan.ValidToken.covered_ge {xs : List Word} {plan : LzPlan} {c : Candidate} (h : plan.ValidToken xs c) :
    2 ≤ c.covered :=
  Nat.le_trans h.chunk_ge (Nat.le_mul_of_pos_right _ (Nat.succ_pos _))

/-- The spans of two candidates share no position. -/
theorem overlaps_iff {a b : Candidate} :
    a.overlaps b = false ↔ b.start + b.covered ≤ a.start ∨ a.start + a.covered ≤ b.start := by
  unfold Candidate.overlaps
  simp only [Bool.and_eq_false_iff, decide_eq_false_iff_not, Nat.not_lt]

theorem disjointTokens_iff {l : List Candidate} :
    disjointTokens l = true ↔
      l.Pairwise (fun c c' => c.start + c.covered ≤ c'.start ∨ c'.start + c'.covered ≤ c.start) := by
  induction l with
  | nil => simp [disjointTokens]
  | cons c rest ih =>
    simp only [disjointTokens, Bool.and_eq_true, Bool.not_eq_true', List.any_eq_false, ih, List.pairwise_cons,
      Bool.not_eq_true, overlaps_iff]
    exact and_congr_left fun _ => ⟨fun h a ha => (h a ha).symm, fun h a ha => (h a ha).symm⟩

theorem validPlan_iff (xs : List Word) (plan : LzPlan) :
    validPlan xs plan = true ↔ plan.dist.writable = true ∧ plan.len.writable = true ∧ plan.spiral.writable = true ∧
      (∀ c ∈ plan.tokens, validToken xs plan c = true) ∧ disjointTokens plan.tokens = true := by
  unfold validPlan
  simp only [Bool.and_eq_true, List.all_eq_true]
  tauto

/-- A plan the model's test passes meets R234. -/
theorem valid_of_validPlan {xs : List Word} {plan : LzPlan} (h : validPlan xs plan = true) : plan.Valid xs := by
  obtain ⟨h1, h2, h3, h4, h5⟩ := (validPlan_iff xs plan).1 h
  exact ⟨plan.dist.carried_iff.2 h1, plan.len.carried_iff.2 h2, fun _ => plan.spiral.carried_iff.2 h3,
    fun c hc => validToken_iff.1 (h4 c hc), disjointTokens_iff.1 h5⟩

/-- What a header with the flag `dummy` can carry of a plan (R235 to R238). -/
structure LzPlan.Carried (dummy : Bool) (plan : LzPlan) : Prop where
  dist : plan.dist.writable = true
  len : plan.len.writable = true
  spiral : plan.useSpiral = true → plan.spiral.writable = true
  dummy_zero : dummy = true → plan.dist.max = 0 ∧ plan.len.max = 0 ∧ plan.useSpiral = false

/-- A plan a body is written from: in dummy mode it has no token (R235, R239). -/
structure LzPlan.Good (xs : List Word) (dummy : Bool) (plan : LzPlan) : Prop extends plan.Carried dummy where
  tokens : ∀ c ∈ plan.tokens, plan.ValidToken xs c
  disjoint : plan.tokens.Pairwise (fun c c' => c.start + c.covered ≤ c'.start ∨ c'.start + c'.covered ≤ c.start)
  no_tokens : dummy = true → plan.tokens = []

theorem dummyPlan_good (xs : List Word) : dummyPlan.Good xs true where
  dist := rfl
  len := rfl
  spiral := fun _ => rfl
  dummy_zero := fun _ => ⟨rfl, rfl, rfl⟩
  tokens := by simp [dummyPlan]
  disjoint := List.Pairwise.nil
  no_tokens := fun _ => rfl

/-- A valid plan is good where the stream is not in dummy mode. -/
theorem LzPlan.Valid.good {xs : List Word} {plan : LzPlan} (h : plan.Valid xs) : plan.Good xs false where
  dist := plan.dist.carried_iff.1 h.dist
  len := plan.len.carried_iff.1 h.len
  spiral := fun hs => plan.spiral.carried_iff.1 (h.spiral hs)
  dummy_zero := by simp
  tokens := h.tokens
  disjoint := h.disjoint
  no_tokens := by simp

theorem orDummy_eq (plan : LzPlan) : plan.orDummy = if plan.tokens = [] then dummyPlan else plan := by
  unfold LzPlan.orDummy dummyPlan
  cases plan.tokens <;> rfl

/-- Dummy mode keeps a plan valid. -/
theorem LzPlan.Valid.orDummy {xs : List Word} {plan : LzPlan} (h : plan.Valid xs) : plan.orDummy.Valid xs := by
  rw [orDummy_eq]
  split
  · exact ⟨⟨by decide, .inl rfl⟩, ⟨by decide, .inl rfl⟩, fun _ => ⟨by decide, .inl rfl⟩, by simp [dummyPlan],
      List.Pairwise.nil⟩
  · exact h

/-- The reference selection is valid before dummy mode is applied. -/
theorem referencePlan_valid {cfg : Config.Params} (hcfg : cfg.legal = true) (t : FreqTable) (xs : List Word) :
    validPlan xs (referencePlan cfg t xs) = true := by
  obtain ⟨p1, p2, p3, p4⟩ := planOf_spec (xs := xs) (kept := keptCandidates cfg t xs) (fun c hc => kept_sound hcfg hc)
  obtain ⟨r1, r2⟩ := referenceTokens_spec cfg t xs
  exact (validPlan_iff _ _).2 ⟨p1, p2, p3, fun c hc => p4 c (r2 c hc).1, r1⟩

/-- Whatever is proposed, the plan a stream is written from is valid, has no spirals where they are disabled, and is the plan
of dummy mode where it has no token (R227, R234, R235). -/
theorem choosePlan_spec {cfg : Config.Params} (hcfg : cfg.legal = true) (free : LzPlan) (t : FreqTable) (xs : List Word) :
    (choosePlan cfg free t xs).Valid xs ∧ (cfg.spiralEnable = false → (choosePlan cfg free t xs).useSpiral = false) ∧
      ((choosePlan cfg free t xs).tokens = [] → choosePlan cfg free t xs = dummyPlan) := by
  have hd : ∀ plan : LzPlan, plan.orDummy.tokens = [] → plan.orDummy = dummyPlan := by
    intro plan
    rw [orDummy_eq]
    split
    · exact fun _ => rfl
    · rename_i h; exact fun h' => absurd h' h
  have hsp : ∀ plan : LzPlan, plan.useSpiral = false → plan.orDummy.useSpiral = false := by
    intro plan h
    rw [orDummy_eq]
    split
    · rfl
    · exact h
  have href := (valid_of_validPlan (referencePlan_valid hcfg t xs)).orDummy
  have hns : cfg.spiralEnable = false → (referencePlan cfg t xs).orDummy.useSpiral = false :=
    fun h => hsp _ (referencePlan_no_spiral h t xs)
  unfold choosePlan
  cases cfg.lzSelect with
  | reference => exact ⟨href, hns, hd _⟩
  | anyValid =>
    simp only
    split
    · rename_i h
      obtain ⟨h1, h2⟩ := Bool.and_eq_true_iff.1 h
      refine ⟨(valid_of_validPlan h1).orDummy, fun hs => hsp _ ?_, hd _⟩
      rw [hs] at h2; simpa using h2
    · exact ⟨href, hns, hd _⟩

/-- The distance a token writes lies in its domain (R232). -/
theorem distValue_le {xs : List Word} {plan : LzPlan} {c : Candidate} (h : plan.ValidToken xs c) :
    distValue plan c ≤ distMax plan c + plan.useSpiral.toNat := by
  unfold distValue
  split
  · rename_i hs; rw [(h.spiral hs).1]; exact Nat.le_refl _
  · rename_i hs
    have : c.dist ≤ distMax plan c := (h.plain (by simpa using hs)).2
    omega

/-! ### The header -/

theorem bool_lt_two (b : Bool) : b.toNat < 2 := by cases b <;> decide

theorem headerStart_eq (n : Nat) (dummy : Bool) (dist len : Policy) :
    headerStart n dummy dist len =
      countIntervals n 32 (countLog n) ++
        (policyIntervals dist ++
          (policyIntervals len ++ if dist.max = 0 ∧ len.max = 0 then uniformIntervals dummy.toNat 2 else [])) := by
  simp only [headerStart, List.append_assoc]; rfl

theorem headerIntervals_eq (n : Nat) (dummy : Bool) (plan : LzPlan) :
    headerIntervals n dummy plan =
      headerStart n dummy plan.dist plan.len ++
        (uniformIntervals plan.useSpiral.toNat 2 ++ if plan.useSpiral then policyIntervals plan.spiral else []) :=
  List.append_assoc _ _ _

/-- The header of a plan is written with its Intervals (R236, R238). -/
theorem headerTrace_ok {n : Nat} {plan : LzPlan} (hn : n < 4294967296) (hp : plan.Carried plan.dummy) :
    headerTrace n plan = .ok (headerIntervals n plan.dummy plan) := by
  unfold headerTrace
  rw [headerIntervals_eq, headerStart_eq, countTrace_ok (by decide) (by decide) hn, tripleTrace_ok hp.dist,
    tripleTrace_ok hp.len, uniformTrace_ok (bool_lt_two plan.dummy), uniformTrace_ok (bool_lt_two plan.useSpiral)]
  by_cases h1 : plan.dist.max = 0 ∧ plan.len.max = 0 <;> by_cases h2 : plan.useSpiral = true <;>
    simp only [h1, h2, joinTraces, coded_bind_ok, and_self, if_true, if_false, List.append_nil, List.nil_append,
      Bool.false_eq_true, List.append_assoc, tripleTrace_ok (hp.spiral _)]

theorem headerIntervals_valid {n : Nat} {dummy : Bool} {plan : LzPlan} (hn : n < 4294967296) (hp : plan.Carried dummy) :
    (∀ iv ∈ headerIntervals n dummy plan, iv.Valid) ∧ (headerIntervals n dummy plan).length ≤ 17 := by
  have hc := countIntervals_valid (n := n) (W := 32) (by decide) hn (countLog_spec n)
  have hd := policyIntervals_valid hp.dist
  have hl := policyIntervals_valid hp.len
  rw [headerIntervals_eq, headerStart_eq]
  constructor
  · intro iv hiv
    simp only [List.mem_append] at hiv
    rcases hiv with (h | h | h | h) | h | h
    · exact hc.1 iv h
    · exact hd.1 iv h
    · exact hl.1 iv h
    · split at h
      · exact uniformIntervals_valid (bool_lt_two _) (by decide) iv h
      · simp at h
    · exact uniformIntervals_valid (bool_lt_two _) (by decide) iv h
    · split at h
      · rename_i hu; exact (policyIntervals_valid (hp.spiral hu)).1 iv h
      · simp at h
  · simp only [List.length_append]
    have h1 : (if plan.dist.max = 0 ∧ plan.len.max = 0 then uniformIntervals dummy.toNat 2 else []).length ≤ 1 := by
      split
      · exact Nat.le_of_eq (uniformIntervals_length_direct (by decide))
      · simp
    have h2 : (uniformIntervals plan.useSpiral.toNat 2).length = 1 := uniformIntervals_length_direct (by decide)
    have h3 : (if plan.useSpiral then policyIntervals plan.spiral else []).length ≤ 4 := by
      split
      · rename_i hu; exact (policyIntervals_valid (hp.spiral hu)).2
      · simp
    omega

/-- What the decoder knows after the header of a plan. -/
def LzHeader.ofPlan (n : Nat) (dummy : Bool) (plan : LzPlan) : LzHeader :=
  ⟨n, ⟨plan.dist.normal, plan.len.normal, if plan.useSpiral then plan.spiral.normal else ⟨.whole, 0, 0⟩, plan.useSpiral, []⟩,
    dummy⟩

theorem Decoder.flag_of_narrowAll {inp : Input} {d d' : Decoder} (hd : d.Settled) {b : Bool}
    (h : Decoder.narrowAll inp (uniformIntervals b.toNat 2) d = .ok d') : d.flag inp = .ok (b, d') := by
  unfold Decoder.flag
  rw [Decoder.uniform_of_narrowAll hd (bool_lt_two b) h]
  cases b <;> rfl

/-- What is left of `ReadHeader` after the flag `dummy` (R261). -/
def Decoder.headerEnd (inp : Input) (n : Nat) (dist len : Policy) (dummy : Bool) (d : Decoder) :
    Coded (LzHeader × Decoder) := do
  let (useSpiral, d) ← d.flag inp
  if useSpiral then
    if dummy then .error (lzFault .corruptHeader 0)
    else
      let (spiral, d) ← d.triple inp
      .ok (⟨n, ⟨dist, len, spiral, true, []⟩, dummy⟩, d)
  else .ok (⟨n, ⟨dist, len, ⟨.whole, 0, 0⟩, false, []⟩, dummy⟩, d)

/-- What is left of `ReadHeader` after the count and the distance policy (R261). -/
def Decoder.headerMiddle (inp : Input) (n : Nat) (dist : Policy) (d : Decoder) : Coded (LzHeader × Decoder) := do
  let (len, d) ← d.triple inp
  let (dummy, d) ← if dist.max = 0 ∧ len.max = 0 then d.flag inp else .ok (false, d)
  d.headerEnd inp n dist len dummy

/-- `ReadHeader` after its count was read. -/
theorem Decoder.header_of_count {inp : Input} {d m : Decoder} (hd : d.Settled) {n cap : Nat} (hn : n < 4294967296)
    (h : Decoder.narrowAll inp (countIntervals n 32 (countLog n)) d = .ok m) :
    d.header inp cap =
      if n > cap then .error (lzFault .capacity n)
      else m.triple inp >>= fun x => x.2.headerMiddle inp n x.1 := by
  unfold Decoder.header
  rw [Decoder.count_of_narrowAll hd (by decide) (by decide) hn (countLog_spec _) h]
  rfl

/-- `ReadHeader` after its first part was read. -/
theorem Decoder.header_of_start {inp : Input} {d m : Decoder} (hd : d.Settled) {n cap : Nat} (hn : n < 4294967296)
    (hcap : n ≤ cap) {dist len : Policy} {dummy : Bool} (hdist : dist.writable = true) (hlen : len.writable = true)
    (hdummy : dummy = true → dist.max = 0 ∧ len.max = 0)
    (h : Decoder.narrowAll inp (headerStart n dummy dist len) d = .ok m) :
    d.header inp cap = m.headerEnd inp n dist.normal len.normal dummy := by
  rw [headerStart_eq] at h
  obtain ⟨d1, h1, h⟩ := narrowAll_append_ok h
  have s1 := (narrowAll_settled _ hd h1).1
  obtain ⟨d2, h2, h⟩ := narrowAll_append_ok h
  have s2 := (narrowAll_settled _ s1 h2).1
  obtain ⟨d3, h3, h⟩ := narrowAll_append_ok h
  have s3 := (narrowAll_settled _ s2 h3).1
  rw [Decoder.header_of_count hd hn h1, if_neg (by omega), Decoder.triple_of_narrowAll s1 hdist h2]
  simp only [coded_bind_ok, Decoder.headerMiddle]
  rw [Decoder.triple_of_narrowAll s2 hlen h3]
  simp only [coded_bind_ok, Policy.normal_max]
  by_cases hz : dist.max = 0 ∧ len.max = 0
  · rw [if_pos hz] at h ⊢
    rw [Decoder.flag_of_narrowAll s3 h]
    rfl
  · rw [if_neg hz, narrowAll_nil] at h
    simp only [Except.ok.injEq] at h
    subst h
    rw [if_neg hz]
    cases dummy with
    | false => rfl
    | true => exact absurd (hdummy rfl) hz

/-- `ReadHeader` reads what `WriteHeader` wrote (R238, R261). -/
theorem Decoder.header_of_narrowAll {inp : Input} {d d' : Decoder} (hd : d.Settled) {n cap : Nat} {dummy : Bool}
    {plan : LzPlan} (hn : n < 4294967296) (hcap : n ≤ cap) (hp : plan.Carried dummy)
    (h : Decoder.narrowAll inp (headerIntervals n dummy plan) d = .ok d') :
    d.header inp cap = .ok (LzHeader.ofPlan n dummy plan, d') := by
  rw [headerIntervals_eq] at h
  obtain ⟨d1, h1, h⟩ := narrowAll_append_ok h
  have s1 := (narrowAll_settled _ hd h1).1
  obtain ⟨d2, h2, h⟩ := narrowAll_append_ok h
  have s2 := (narrowAll_settled _ s1 h2).1
  rw [Decoder.header_of_start hd hn hcap hp.dist hp.len (fun hb => ⟨(hp.dummy_zero hb).1, (hp.dummy_zero hb).2.1⟩) h1]
  unfold Decoder.headerEnd LzHeader.ofPlan
  rw [Decoder.flag_of_narrowAll s1 h2]
  simp only [coded_bind_ok]
  by_cases hu : plan.useSpiral = true
  · have hnd : ¬dummy = true := fun hb => by have := (hp.dummy_zero hb).2.2; rw [hu] at this; exact absurd this (by decide)
    rw [if_pos hu] at h
    simp only [hu, if_true, hnd, if_false, Bool.false_eq_true]
    rw [Decoder.triple_of_narrowAll s2 (hp.spiral hu) h]
    rfl
  · rw [if_neg hu, narrowAll_nil] at h
    simp only [Except.ok.injEq] at h
    subst h
    simp only [hu, if_false, Bool.false_eq_true]

/-! ### The body -/

theorem tokenIntervals_eq (base : Nat) (plan : LzPlan) (c : Candidate) :
    tokenIntervals base plan c =
      [⟨base, buffer base, widened base⟩] ++
        (splitCodeIntervals plan.len.mode.number plan.len.max plan.len.threshold 0 (c.chunk - 2) ++
          (splitCodeIntervals plan.dist.mode.number (distMax plan c) plan.dist.threshold plan.useSpiral.toNat
              (distValue plan c) ++
            if c.spiral then splitCodeIntervals plan.spiral.mode.number plan.spiral.max plan.spiral.threshold 0 c.spiralLen
            else [])) := by
  unfold tokenIntervals tokenStart distanceIntervals distValue distMax LzPlan.distBound widened
  cases c.spiral <;> rfl

theorem tokenTrace_ok {xs : List Word} {plan : LzPlan} {c : Candidate} (base : Nat) (h : plan.ValidToken xs c) :
    tokenTrace base plan c = .ok (tokenIntervals base plan c) := by
  unfold tokenTrace
  rw [tokenIntervals_eq, splitTrace_ok (p := plan.len) (e := 0) h.chunk_domain (by decide),
    splitTrace_ok (p := distPolicy plan (distMax plan c)) (distValue_le h) (bool_toNat_le _)]
  by_cases hs : c.spiral = true
  · rw [if_pos hs, if_pos hs, splitTrace_ok (p := plan.spiral) (e := 0) (h.spiral hs).2 (by decide)]
    simp only [joinTraces, coded_bind_ok, List.append_nil, distPolicy]
  · rw [if_neg hs, if_neg hs]
    simp only [joinTraces, coded_bind_ok, List.append_nil, distPolicy]

theorem escape_valid {base : Nat} (h : widened base ≤ 1073741824) : Interval.Valid ⟨base, buffer base, widened base⟩ :=
  ⟨Nat.lt_of_le_of_lt (Nat.zero_le _) (total_lt_widened base), h, buffer_pos base, Nat.le_refl _⟩

theorem tokenIntervals_valid {xs : List Word} {dummy : Bool} {plan : LzPlan} {c : Candidate} {base : Nat}
    (hp : plan.Carried dummy) (hb : widened base ≤ 1073741824) (h : plan.ValidToken xs c) :
    (∀ iv ∈ tokenIntervals base plan c, iv.Valid) ∧ (tokenIntervals base plan c).length ≤ 13 := by
  have wd := (plan.dist.writable_iff).1 hp.dist
  have wl := (plan.len.writable_iff).1 hp.len
  have hdm : distMax plan c ≤ plan.dist.max := Nat.min_le_left _ _
  have v1 := splitCodeIntervals_valid (r := plan.len.mode.number) (max := plan.len.max) (t := plan.len.threshold) (e := 0)
    h.chunk_domain (by decide) (by omega)
  have v2 := splitCodeIntervals_valid (r := plan.dist.mode.number) (t := plan.dist.threshold) (distValue_le h) (bool_toNat_le _)
    (by omega)
  have v3 : c.spiral = true →
      (∀ iv ∈ splitCodeIntervals plan.spiral.mode.number plan.spiral.max plan.spiral.threshold 0 c.spiralLen, iv.Valid) ∧
        (splitCodeIntervals plan.spiral.mode.number plan.spiral.max plan.spiral.threshold 0 c.spiralLen).length ≤ 4 := by
    intro hs
    have ws := (plan.spiral.writable_iff).1 (hp.spiral (h.spiral hs).1)
    exact splitCodeIntervals_valid (h.spiral hs).2 (by decide) (by omega)
  rw [tokenIntervals_eq]
  constructor
  · intro iv hiv
    simp only [List.mem_append] at hiv
    rcases hiv with h' | h' | h' | h'
    · simp only [List.mem_singleton] at h'; subst h'; exact escape_valid hb
    · exact v1.1 iv h'
    · exact v2.1 iv h'
    · split at h'
      · rename_i hs; exact (v3 hs).1 iv h'
      · simp at h'
  · simp only [List.length_append, List.length_cons, List.length_nil]
    have : (if c.spiral then splitCodeIntervals plan.spiral.mode.number plan.spiral.max plan.spiral.threshold 0 c.spiralLen
        else []).length ≤ 4 := by
      split
      · rename_i hs; exact (v3 hs).2
      · simp
    omega

theorem weight?_eq_lookup (t : FreqTable) (x : Word) : t.weight? x = List.lookup x t := by
  induction t with
  | nil => rfl
  | cons c rest ih =>
    rcases c with ⟨k, w⟩
    unfold FreqTable.weight?
    rw [List.lookup_cons]
    by_cases h : x = k
    · simp [h]
    · rw [if_neg h, ih, show (x == k) = false by simpa using h]

/-- The weight of a key the table holds. -/
theorem weightIn_of_mem {t : FreqTable} (ht : t.Ordered) {x w : Word} (h : (x, w) ∈ t) : t.weightIn x = w.toNat := by
  unfold FreqTable.weightIn
  rw [← weight?_eq_lookup, (FreqTable.weight?_eq_some ht).2 h]; rfl

/-- The base a literal is written over (R235, R239). -/
def literalBase (t : FreqTable) (dummy : Bool) : Nat := if dummy then t.total else widened t.total

theorem literalBase_bounds (t : FreqTable) (dummy : Bool) :
    t.total ≤ literalBase t dummy ∧ literalBase t dummy ≤ widened t.total := by
  have := total_lt_widened t.total
  unfold literalBase
  split <;> omega

theorem literalInterval_eq {t : FreqTable} (ht : t.Ordered) (dummy : Bool) {x w : Word} (h : (x, w) ∈ t) :
    literalInterval t dummy x = ⟨t.cum x, w.toNat, literalBase t dummy⟩ := by
  unfold literalInterval
  rw [weightIn_of_mem ht h]; rfl

theorem literalTrace_ok {t : FreqTable} (ht : t.Ordered) {plan : LzPlan} {x w : Word} (h : (x, w) ∈ t) :
    literalTrace t plan x = .ok [literalInterval t plan.dummy x] := by
  rw [literalInterval_eq ht _ h]
  unfold literalTrace FreqTable.requireInterval
  rw [(FreqTable.weight?_eq_some ht).2 h]
  rfl

/-- What the body writes from position `i` on (R239). -/
def bodyFrom (t : FreqTable) (dummy : Bool) (plan : LzPlan) (xs : List Word) (i : Nat) : List Interval :=
  (List.range' i (xs.length - i)).flatMap (positionIntervals t dummy plan xs)

theorem bodyIntervals_eq (t : FreqTable) (dummy : Bool) (plan : LzPlan) (xs : List Word) :
    bodyIntervals t dummy plan xs = bodyFrom t dummy plan xs 0 := by
  unfold bodyIntervals bodyFrom; rw [List.range_eq_range']; rfl

/-- The loop of `WriteBody` can stand at position `i`: no token covers it from before (R239). -/
def LzPlan.headAt (plan : LzPlan) (i : Nat) : Prop := ∀ c ∈ plan.tokens, ¬(c.start < i ∧ i < c.start + c.covered)

theorem headAt_zero (plan : LzPlan) : plan.headAt 0 := fun _ _ h => absurd h.1 (Nat.not_lt_zero _)

theorem positionIntervals_head {t : FreqTable} {dummy : Bool} {plan : LzPlan} {xs : List Word} {i : Nat}
    (h : plan.headAt i) :
    positionIntervals t dummy plan xs i =
      match plan.tokens.find? (fun c => c.start == i) with
      | some c => tokenIntervals t.total plan c
      | none => [literalInterval t dummy (xs.getD i 0)] := by
  unfold positionIntervals
  refine if_neg fun hany => ?_
  obtain ⟨c, hc, h1⟩ := List.any_eq_true.1 hany
  exact h c hc (by simpa using h1)

theorem positionIntervals_inside {t : FreqTable} {dummy : Bool} {plan : LzPlan} {xs : List Word} {i : Nat} {c : Candidate}
    (hc : c ∈ plan.tokens) (h1 : c.start < i) (h2 : i < c.start + c.covered) : positionIntervals t dummy plan xs i = [] := by
  unfold positionIntervals
  exact if_pos (List.any_eq_true.2 ⟨c, hc, by simpa using ⟨h1, h2⟩⟩)

theorem bodyFrom_end {t : FreqTable} {dummy : Bool} {plan : LzPlan} {xs : List Word} {i : Nat} (h : xs.length ≤ i) :
    bodyFrom t dummy plan xs i = [] := by
  unfold bodyFrom
  rw [show xs.length - i = 0 by omega]; rfl

theorem bodyFrom_succ {t : FreqTable} {dummy : Bool} {plan : LzPlan} {xs : List Word} {i : Nat} (h : i < xs.length) :
    bodyFrom t dummy plan xs i = positionIntervals t dummy plan xs i ++ bodyFrom t dummy plan xs (i + 1) := by
  unfold bodyFrom
  rw [show xs.length - i = (xs.length - (i + 1)) + 1 by omega, List.range'_succ, List.flatMap_cons]

/-- A literal at a head, and the next head. -/
theorem bodyFrom_literal {t : FreqTable} {dummy : Bool} {plan : LzPlan} {xs : List Word} {i : Nat} (hi : i < xs.length)
    (hh : plan.headAt i) (hf : plan.tokens.find? (fun c => c.start == i) = none) :
    bodyFrom t dummy plan xs i = literalInterval t dummy xs[i] :: bodyFrom t dummy plan xs (i + 1) ∧
      plan.headAt (i + 1) := by
  constructor
  · rw [bodyFrom_succ hi, positionIntervals_head hh, hf, List.getD_eq_getElem?_getD, List.getElem?_eq_getElem hi]
    rfl
  · rintro c hc ⟨h1, h2⟩
    have hne : c.start ≠ i := by simpa using List.find?_eq_none.1 hf c hc
    exact hh c hc ⟨by omega, by omega⟩

/-- Two tokens of a disjoint list are the same or share no position. -/
theorem disjoint_or_eq {l : List Candidate}
    (h : l.Pairwise (fun c c' => c.start + c.covered ≤ c'.start ∨ c'.start + c'.covered ≤ c.start)) {a b : Candidate}
    (ha : a ∈ l) (hb : b ∈ l) : a = b ∨ a.start + a.covered ≤ b.start ∨ b.start + b.covered ≤ a.start := by
  induction l with
  | nil => simp at ha
  | cons x l ih =>
    obtain ⟨h1, h2⟩ := List.pairwise_cons.1 h
    rcases List.mem_cons.1 ha with rfl | ha <;> rcases List.mem_cons.1 hb with rfl | hb
    · exact .inl rfl
    · exact .inr (h1 b hb)
    · exact .inr (Or.symm (h1 a (by assumption)))
    · exact ih h2 ha hb

/-- A token at a head, and the head after it. -/
theorem bodyFrom_token {t : FreqTable} {dummy : Bool} {plan : LzPlan} {xs : List Word} {i : Nat}
    (hv : ∀ c ∈ plan.tokens, plan.ValidToken xs c)
    (hd : plan.tokens.Pairwise (fun c c' => c.start + c.covered ≤ c'.start ∨ c'.start + c'.covered ≤ c.start))
    (hh : plan.headAt i) {c : Candidate} (hf : plan.tokens.find? (fun c => c.start == i) = some c) :
    bodyFrom t dummy plan xs i = tokenIntervals t.total plan c ++ bodyFrom t dummy plan xs (i + c.covered) ∧
      plan.headAt (i + c.covered) := by
  have hmem := List.mem_of_find?_eq_some hf
  have hstart : c.start = i := by simpa using List.find?_some hf
  have hcov := (hv c hmem).covered_ge
  have hwithin := (hv c hmem).within
  constructor
  · have skip : ∀ k, k < c.covered → bodyFrom t dummy plan xs (i + 1) = bodyFrom t dummy plan xs (i + 1 + k) := by
      intro k hk
      induction k with
      | zero => rfl
      | succ k ih =>
        rw [ih (by omega), bodyFrom_succ (by omega), positionIntervals_inside hmem (by omega) (by omega), List.nil_append]
        rfl
    rw [bodyFrom_succ (by omega), positionIntervals_head hh, hf, skip (c.covered - 1) (by omega),
      show i + 1 + (c.covered - 1) = i + c.covered by omega]
  · rintro c' hc' ⟨h1, h2⟩
    rcases disjoint_or_eq hd hmem hc' with rfl | h | h <;> omega

/-- Positions a token covers are passed over (R239). -/
theorem bodyTrace_skip (t : FreqTable) (plan : LzPlan) (skip i : Nat) (l : List Word) :
    bodyTrace t plan i skip l = bodyTrace t plan (i + skip) 0 (l.drop skip) := by
  induction skip generalizing i l with
  | zero => rfl
  | succ skip ih =>
    cases l with
    | nil => simp [bodyTrace]
    | cons x rest =>
      simp only [bodyTrace, List.drop_succ_cons]
      rw [ih, show i + 1 + skip = i + (skip + 1) by omega]

/-- The body of a good plan is written with its Intervals: valid ones, at most eight for each symbol (R239). -/
theorem bodyTrace_ok {t : FreqTable} (ht : t.Ordered) (hb : widened t.total ≤ 1073741824) {xs : List Word} {plan : LzPlan}
    (hp : plan.Good xs plan.dummy) (hx : ∀ x ∈ xs, ∃ w, (x, w) ∈ t) (k i : Nat) (hk : xs.length ≤ i + k)
    (hi : i ≤ xs.length) (hh : plan.headAt i) :
    bodyTrace t plan i 0 (xs.drop i) = .ok (bodyFrom t plan.dummy plan xs i) ∧
      (∀ iv ∈ bodyFrom t plan.dummy plan xs i, iv.Valid) ∧
      (bodyFrom t plan.dummy plan xs i).length ≤ 8 * (xs.length - i) := by
  have done : i = xs.length → bodyTrace t plan i 0 (xs.drop i) = .ok (bodyFrom t plan.dummy plan xs i) ∧
      (∀ iv ∈ bodyFrom t plan.dummy plan xs i, iv.Valid) ∧
      (bodyFrom t plan.dummy plan xs i).length ≤ 8 * (xs.length - i) := by
    intro h
    rw [bodyFrom_end (by omega), h, List.drop_length]
    exact ⟨rfl, by simp, by simp⟩
  induction k generalizing i with
  | zero => exact done (by omega)
  | succ k ih =>
    rcases Nat.lt_or_ge i xs.length with hlt | hge
    · have hdrop : xs.drop i = xs[i] :: xs.drop (i + 1) := List.drop_eq_getElem_cons hlt
      rw [hdrop]
      unfold bodyTrace
      cases hf : plan.tokens.find? (fun c => c.start == i) with
      | some c =>
        have hmem := List.mem_of_find?_eq_some hf
        have hstart : c.start = i := by simpa using List.find?_some hf
        have hv := hp.tokens c hmem
        have hcov := hv.covered_ge
        have hwithin := hv.within
        obtain ⟨tv, tl⟩ := tokenIntervals_valid (base := t.total) hp.toCarried hb hv
        obtain ⟨hbody, hnext⟩ := bodyFrom_token (t := t) (dummy := plan.dummy) hp.tokens hp.disjoint hh hf
        obtain ⟨hr, rv, rl⟩ := ih (i + c.covered) (by omega) (by omega) hnext (fun h => by
          rw [bodyFrom_end (by omega), h, List.drop_length]
          exact ⟨rfl, by simp, by simp⟩)
        rw [hbody]
        refine ⟨?_, ?_, ?_⟩
        · simp only [tokenTrace_ok t.total hv, coded_bind_ok]
          rw [bodyTrace_skip, List.drop_drop, show i + 1 + (c.covered - 1) = i + c.covered by omega, hr]; rfl
        · intro iv hiv
          rcases List.mem_append.1 hiv with h | h
          · exact tv iv h
          · exact rv iv h
        · rw [List.length_append]; omega
      | none =>
        obtain ⟨w, hw⟩ := hx xs[i] (List.getElem_mem hlt)
        obtain ⟨hbody, hnext⟩ := bodyFrom_literal (t := t) (dummy := plan.dummy) hlt hh hf
        obtain ⟨hr, rv, rl⟩ := ih (i + 1) (by omega) (by omega) hnext (fun h => by
          rw [bodyFrom_end (by omega), h, List.drop_length]
          exact ⟨rfl, by simp, by simp⟩)
        have hlb := literalBase_bounds t plan.dummy
        rw [hbody]
        refine ⟨?_, ?_, ?_⟩
        · simp only [literalTrace_ok ht hw, coded_bind_ok, hr]; rfl
        · intro iv hiv
          rcases List.mem_cons.1 hiv with h | h
          · subst h
            rw [literalInterval_eq ht _ hw]
            exact FreqTable.interval_valid ht hw hlb.1 (by omega)
          · exact rv iv h
        · simp only [List.length_cons]; omega
    · exact done (by omega)

/-- The stream of a plan that is the plan of dummy mode where it has no token. -/
theorem lzIntervals_eq {t : FreqTable} {xs : List Word} {plan : LzPlan} (h : plan.tokens = [] → plan = dummyPlan) :
    lzIntervals t xs plan = headerIntervals xs.length plan.dummy plan ++ bodyIntervals t plan.dummy plan xs := by
  unfold lzIntervals LzPlan.dummy
  split
  · rename_i ht; rw [← h ht, ht]; rfl
  · rename_i ht; rw [show plan.tokens.isEmpty = false by simpa using ht]

theorem LzPlan.Valid.good_dummy {xs : List Word} {plan : LzPlan} (h : plan.Valid xs)
    (hd : plan.tokens = [] → plan = dummyPlan) : plan.Good xs plan.dummy := by
  by_cases ht : plan.tokens = []
  · rw [hd ht]; exact dummyPlan_good xs
  · rw [show plan.dummy = false by simpa [LzPlan.dummy] using ht]; exact h.good

/-- The stream the encoder writes for a plan is the one the rules give: valid Intervals, at most `17 + 8·N` of them
(R236 to R241). -/
theorem lzTrace_ok {t : FreqTable} (ht : t.Ordered) (hb : widened t.total ≤ 1073741824) {xs : List Word} {plan : LzPlan}
    (hp : plan.Valid xs) (hdummy : plan.tokens = [] → plan = dummyPlan) (hn : xs.length < 4294967296)
    (hx : ∀ x ∈ xs, ∃ w, (x, w) ∈ t) :
    lzTrace t xs plan = .ok (lzIntervals t xs plan) ∧ (∀ iv ∈ lzIntervals t xs plan, iv.Valid) ∧
      (lzIntervals t xs plan).length ≤ 17 + 8 * xs.length := by
  have hg := hp.good_dummy hdummy
  obtain ⟨hbody, bv, bl⟩ := bodyTrace_ok ht hb hg hx xs.length 0 (by omega) (Nat.zero_le _) (headAt_zero plan)
  rw [← bodyIntervals_eq] at hbody bv bl
  obtain ⟨hv, hl⟩ := headerIntervals_valid hn hg.toCarried
  rw [lzIntervals_eq hdummy]
  refine ⟨?_, ?_, ?_⟩
  · unfold lzTrace
    rw [List.drop_zero] at hbody
    simp only [joinTraces, headerTrace_ok hn hg.toCarried, hbody, coded_bind_ok, List.append_nil]
  · intro iv hiv
    rcases List.mem_append.1 hiv with h | h
    · exact hv iv h
    · exact bv iv h
  · rw [List.length_append]; omega

/-! ### The decoder's body -/

/-- A narrowing that succeeds holds the peek value (R143). -/
theorem Decoder.peek_of_narrow {inp : Input} {iv : Interval} {d d' : Decoder} (hd : d.Settled) (hl : 0 < iv.length)
    (h : d.narrow inp iv = .ok d') : ∃ v, d.peek iv.base = .ok v ∧ iv.lower ≤ v ∧ v < iv.lower + iv.length := by
  obtain ⟨_, _, _, hc⟩ := Decoder.narrow_ok hd h
  rcases hc with ⟨hz, _⟩ | ⟨_, _, v, hv⟩
  · omega
  · exact ⟨v, hv⟩

/-- The table symbol whose Interval was consumed is the one read, over any base of at least the total (R154, R264). -/
theorem Decoder.symbol_of_narrow {inp : Input} {d d' : Decoder} (hd : d.Settled) {t : FreqTable} (ht : t.Ordered)
    {x w : Word} (hm : (x, w) ∈ t) {base : Nat} (h : d.narrow inp ⟨t.cum x, w.toNat, base⟩ = .ok d') :
    d.symbol inp t base = .ok (x, d') := by
  obtain ⟨v, hv, hlo, hhi⟩ := Decoder.peek_of_narrow hd (word_ne_zero_pos (ht.positive _ hm)) h
  have hf := FreqTable.find?_of_mem ht hm hlo hhi
  unfold Decoder.symbol
  rw [hv]
  simp only [coded_bind_ok, FreqTable.requireKey, hf, FreqTable.requireInterval, (FreqTable.weight?_eq_some ht).2 hm,
    FreqTable.interval, h]

theorem flatten_replicate_getElem? {α : Type} (b : List α) (n q : Nat) (hb : 0 < b.length) (hq : q < b.length * n) :
    (List.replicate n b).flatten[q]? = b[q % b.length]? := by
  induction n generalizing q with
  | zero => simp at hq
  | succ n ih =>
    rw [List.replicate_succ, List.flatten_cons]
    rcases Nat.lt_or_ge q b.length with hlt | hge
    · rw [List.getElem?_append_left hlt, Nat.mod_eq_of_lt hlt]
    · rw [List.getElem?_append_right hge, ih _ (by rw [Nat.mul_succ] at hq; omega), ← Nat.mod_eq_sub_mod hge]

/-- Copying a span that reproduces the input extends the decoded prefix by the token's symbols (R270). -/
theorem copyChunks_take {xs : List Word} {i start chunk sl : Nat} (hc : 0 < chunk) (hs : start + chunk ≤ i)
    (hi : i + chunk * (sl + 1) ≤ xs.length)
    (h : ∀ q, q < chunk * (sl + 1) → xs[i + q]? = xs[start + q % chunk]?) :
    copyChunks (xs.take i) start chunk sl = xs.take (i + chunk * (sl + 1)) := by
  have hlen : (((xs.take i).drop start).take chunk).length = chunk := by
    simp only [List.length_take, List.length_drop]; omega
  unfold copyChunks
  rw [List.take_add]
  congr 1
  apply List.ext_getElem?
  intro q
  rcases Nat.lt_or_ge q (chunk * (sl + 1)) with hq | hq
  · rw [flatten_replicate_getElem? _ _ _ (by omega) (by rw [hlen]; exact hq), hlen, List.getElem?_take_of_lt hq,
      List.getElem?_drop, h q hq]
    have hm := Nat.mod_lt q hc
    rw [List.getElem?_take_of_lt hm, List.getElem?_drop, List.getElem?_take_of_lt (by omega)]
  · rw [List.getElem?_eq_none, List.getElem?_eq_none]
    · simp only [List.length_take, List.length_drop]; omega
    · simp only [List.length_flatten, List.map_replicate, List.sum_replicate, hlen, smul_eq_mul]
      rw [Nat.mul_comm]; exact hq

/-- The decoder's fields of a token, for a distance value of the domain (R267). -/
theorem Decoder.tokenDistance_of_narrowAll {inp : Input} {d d' : Decoder} (hd : d.Settled) {plan : LzPlan} {n : Nat}
    {dummy : Bool} {i chunk dist : Nat} {sl : Option Nat}
    (hplain : sl = none → dist ≤ plan.distBound i chunk)
    (hspiral : ∀ k, sl = some k → plan.useSpiral = true ∧ k ≤ plan.spiral.max)
    (h : Decoder.narrowAll inp (distanceIntervals plan i chunk dist sl) d = .ok d') :
    d.tokenDistance inp (LzHeader.ofPlan n dummy plan).plan i chunk =
      .ok ((if sl.isSome then 0 else dist, sl.getD 0), d') := by
  unfold distanceIntervals at h
  obtain ⟨m, hm, h⟩ := narrowAll_append_ok h
  have s1 := (narrowAll_settled _ hd hm).1
  unfold Decoder.tokenDistance LzHeader.ofPlan
  simp only [Policy.normal_max]
  rw [show Nat.min plan.dist.max (i - chunk) = plan.distBound i chunk from rfl]
  have hread : ∀ v, v ≤ plan.distBound i chunk + plan.useSpiral.toNat →
      Decoder.narrowAll inp (splitCodeIntervals plan.dist.mode.number (plan.distBound i chunk) plan.dist.threshold
        plan.useSpiral.toNat v) d = .ok m →
      d.split inp (distPolicy ⟨plan.dist.normal, plan.len.normal,
        if plan.useSpiral = true then plan.spiral.normal else ⟨.whole, 0, 0⟩, plan.useSpiral, []⟩ (plan.distBound i chunk))
        plan.useSpiral.toNat = .ok (v, m) := by
    intro v hv hm
    refine Decoder.split_of_narrowAll hd _ (bool_toNat_le _) hv ?_
    show Decoder.narrowAll inp (splitCodeIntervals plan.dist.normal.mode.number (plan.distBound i chunk)
      plan.dist.normal.threshold plan.useSpiral.toNat v) d = .ok m
    rw [Policy.normal_mode, splitCodeIntervals_normal]
    exact hm
  cases sl with
  | some k =>
    obtain ⟨hu, hk⟩ := hspiral k rfl
    simp only at hm h
    rw [hread _ (by rw [hu]; exact Nat.le_refl _) hm]
    simp only [coded_bind_ok]
    simp only [hu, and_self, if_true]
    have : m.split inp plan.spiral.normal 0 = .ok (k, d') := by
      refine Decoder.split_of_narrowAll s1 _ (by decide) (by rw [Policy.normal_max]; exact hk) ?_
      rw [Policy.normal_mode, Policy.normal_max, splitCodeIntervals_normal]
      exact h
    rw [this]
    rfl
  | none =>
    have hle := hplain rfl
    simp only [narrowAll_nil, Except.ok.injEq] at hm h
    subst h
    rw [hread _ (by omega) hm]
    simp only [coded_bind_ok]
    rw [if_neg (by omega)]
    rfl

/-- `DecodeToken` after the escape and the chunk length were read (R265, R266). -/
theorem Decoder.token_of_start {inp : Input} {d m : Decoder} (hd : d.Settled) {plan : LzPlan} {n base chunk : Nat}
    {dummy : Bool} (out : List Word) (h2 : 2 ≤ chunk) (hdom : chunk - 2 ≤ plan.len.max)
    (h : Decoder.narrowAll inp (tokenStart base plan chunk) d = .ok m) :
    d.token inp base (LzHeader.ofPlan n dummy plan) out =
      if out.length < chunk then .error (lzFault .corruptRef out.length)
      else m.tokenDistance inp (LzHeader.ofPlan n dummy plan).plan out.length chunk >>= fun x =>
        if out.length + chunk * (x.1.2 + 1) > n then .error (lzFault .corruptOverrun out.length)
        else .ok (copyChunks out (out.length - x.1.1 - chunk) chunk x.1.2, x.2) := by
  unfold tokenStart at h
  rw [narrowAll_cons] at h
  obtain ⟨d1, hesc, h⟩ := (coded_bind_eq_ok _ _ _).1 h
  have s1 := (Decoder.narrow_ok hd hesc).2.1
  have hread : d1.split inp (LzHeader.ofPlan n dummy plan).plan.len 0 = .ok (chunk - 2, m) := by
    refine Decoder.split_of_narrowAll s1 plan.len.normal (by decide) (by rw [Policy.normal_max]; exact hdom) ?_
    rw [Policy.normal_mode, Policy.normal_max, splitCodeIntervals_normal]
    exact h
  unfold Decoder.token
  rw [show d.narrow inp ⟨base, buffer base, widened base⟩ = .ok d1 from hesc]
  simp only [coded_bind_ok]
  rw [hread]
  simp only [coded_bind_ok, show chunk - 2 + 2 = chunk by omega]
  rfl

/-- `DecodeToken` reads what a token's Intervals wrote and extends the prefix by its symbols (R265 to R270). -/
theorem Decoder.token_of_narrowAll {inp : Input} {d d' : Decoder} (hd : d.Settled) {xs : List Word} {plan : LzPlan}
    {c : Candidate} (hv : plan.ValidToken xs c) (base : Nat) {n : Nat} (hn : xs.length ≤ n) {dummy : Bool}
    (h : Decoder.narrowAll inp (tokenIntervals base plan c) d = .ok d') :
    d.token inp base (LzHeader.ofPlan n dummy plan) (xs.take c.start) = .ok (xs.take (c.start + c.covered), d') := by
  have h4 := hv.within
  have h1 := hv.chunk_ge
  have h2 := hv.chunk_le
  have hcov : c.covered = c.chunk * (c.spiralLen + 1) := rfl
  have hlen : (xs.take c.start).length = c.start := by rw [List.length_take]; omega
  unfold tokenIntervals at h
  obtain ⟨m, hm, h⟩ := narrowAll_append_ok h
  have s1 := (narrowAll_settled _ hd hm).1
  rw [Decoder.token_of_start hd _ h1 hv.chunk_domain hm, hlen, if_neg (by omega)]
  have hdist := Decoder.tokenDistance_of_narrowAll (n := n) (dummy := dummy) s1 (plan := plan) ?_ ?_ h
  · rw [hdist]
    simp only [coded_bind_ok]
    have hsl : (if c.spiral = true then some c.spiralLen else none).getD 0 = c.spiralLen := by
      by_cases hs : c.spiral = true
      · rw [if_pos hs]; rfl
      · rw [if_neg hs, (hv.plain (by simpa using hs)).1]; rfl
    have hdd : (if (if c.spiral = true then some c.spiralLen else none).isSome = true then 0 else c.dist) =
        if c.spiral = true then 0 else c.dist := by
      cases c.spiral <;> rfl
    rw [hsl, hdd, if_neg (by rw [← hcov]; omega)]
    have hstart : c.start - (if c.spiral = true then 0 else c.dist) - c.chunk + c.chunk ≤ c.start := by
      by_cases hs : c.spiral = true
      · rw [if_pos hs]; omega
      · have := (hv.plain (by simpa using hs)).2
        have hb : plan.distBound c.start c.chunk ≤ c.start - c.chunk := Nat.min_le_right _ _
        rw [if_neg hs]; omega
    rw [copyChunks_take (by omega) hstart (by omega) hv.copies, hcov]
  · intro hs
    by_cases hsp : c.spiral = true
    · rw [if_pos hsp] at hs; simp at hs
    · exact (hv.plain (by simpa using hsp)).2
  · intro k hk
    by_cases hsp : c.spiral = true
    · rw [if_pos hsp] at hk
      simp only [Option.some.injEq] at hk
      subst hk
      exact hv.spiral hsp
    · rw [if_neg hsp] at hk; simp at hk

/-- The decoder peeks at or above the base where an escape follows, and below it where a widened literal does (R263). -/
theorem Decoder.peek_escape {inp : Input} {d d' : Decoder} (hd : d.Settled) {base : Nat} {plan : LzPlan} {chunk : Nat}
    (h : Decoder.narrowAll inp (tokenStart base plan chunk) d = .ok d') :
    ∃ v, d.peek (widened base) = .ok v ∧ base ≤ v := by
  unfold tokenStart at h
  rw [narrowAll_cons] at h
  obtain ⟨a, ha, _⟩ := (coded_bind_eq_ok _ _ _).1 h
  obtain ⟨v, hv1, hv2, _⟩ := Decoder.peek_of_narrow hd (iv := ⟨base, buffer base, widened base⟩) (buffer_pos base) ha
  exact ⟨v, hv1, hv2⟩

/-- The decoder's body reads what `WriteBody` wrote, and stands at its last symbol (R263 to R271). -/
theorem Decoder.body_of_narrowAll {inp : Input} {t : FreqTable} (ht : t.Ordered) {xs : List Word} {plan : LzPlan}
    {dummy : Bool} (hp : plan.Good xs dummy) (hx : ∀ x ∈ xs, ∃ w, (x, w) ∈ t) {n : Nat} (hn : xs.length ≤ n) (k : Nat)
    {i : Nat} {d d' : Decoder} (hd : d.Settled) (hi : i ≤ xs.length) (hk : xs.length ≤ i + k) (hh : plan.headAt i)
    (h : Decoder.narrowAll inp (bodyFrom t dummy plan xs i) d = .ok d') :
    ∃ m, m ≤ xs.length - i ∧ ∀ fuel,
      Decoder.body inp t (LzHeader.ofPlan n dummy plan) (fuel + m) (xs.take i) d =
        Decoder.body inp t (LzHeader.ofPlan n dummy plan) fuel xs d' := by
  have done : ∀ {i d}, i = xs.length → Decoder.narrowAll inp (bodyFrom t dummy plan xs i) d = .ok d' →
      ∃ m, m ≤ xs.length - i ∧ ∀ fuel,
        Decoder.body inp t (LzHeader.ofPlan n dummy plan) (fuel + m) (xs.take i) d =
          Decoder.body inp t (LzHeader.ofPlan n dummy plan) fuel xs d' := by
    intro i d hx h
    rw [bodyFrom_end (by omega), narrowAll_nil] at h
    simp only [Except.ok.injEq] at h
    exact ⟨0, Nat.zero_le _, fun fuel => by rw [hx, List.take_length, h]; rfl⟩
  induction k generalizing i d with
  | zero => exact done (by omega) h
  | succ k ih =>
    rcases Nat.lt_or_ge i xs.length with hlt | hge
    · have hlen : (xs.take i).length = i := by rw [List.length_take]; omega
      have step : ∀ {j m}, i < j → j ≤ xs.length →
          d.bodyItem inp t (LzHeader.ofPlan n dummy plan) (xs.take i) = .ok (xs.take j, m) → m.Settled → plan.headAt j →
          Decoder.narrowAll inp (bodyFrom t dummy plan xs j) m = .ok d' →
          ∃ m, m ≤ xs.length - i ∧ ∀ fuel,
            Decoder.body inp t (LzHeader.ofPlan n dummy plan) (fuel + m) (xs.take i) d =
              Decoder.body inp t (LzHeader.ofPlan n dummy plan) fuel xs d' := by
        intro j m hij hj hitem hs hhj hr
        obtain ⟨q, hq, hbody⟩ := ih hs hj (by omega) hhj hr
        refine ⟨q + 1, by omega, fun fuel => ?_⟩
        rw [← hbody fuel, show fuel + (q + 1) = (fuel + q) + 1 from rfl]
        conv_lhs => unfold Decoder.body
        rw [if_pos (by rw [hlen]; show i < n; omega), hitem]
        rfl
      cases hf : plan.tokens.find? (fun c => c.start == i) with
      | some c =>
        have hmem := List.mem_of_find?_eq_some hf
        have hstart : c.start = i := by simpa using List.find?_some hf
        have hv := hp.tokens c hmem
        have hcov := hv.covered_ge
        have hwithin := hv.within
        obtain ⟨hbody, hnext⟩ := bodyFrom_token (t := t) (dummy := dummy) hp.tokens hp.disjoint hh hf
        rw [hbody] at h
        obtain ⟨m, hm, h⟩ := narrowAll_append_ok h
        refine step (by omega) (by omega) ?_ (narrowAll_settled _ hd hm).1 hnext h
        have hnd : dummy = false := by
          cases hb : dummy with
          | false => rfl
          | true => rw [hp.no_tokens hb] at hmem; simp at hmem
        have hm2 := hm
        unfold tokenIntervals at hm2
        obtain ⟨a, ha, _⟩ := narrowAll_append_ok hm2
        obtain ⟨v, hv1, hv2⟩ := Decoder.peek_escape hd ha
        unfold Decoder.bodyItem
        rw [show (LzHeader.ofPlan n dummy plan).dummy = false from hnd]
        simp only [Bool.false_eq_true, if_false, hv1, coded_bind_ok]
        rw [if_pos hv2]
        have htok := Decoder.token_of_narrowAll hd hv t.total hn (dummy := dummy) hm
        rw [hstart] at htok
        exact htok
      | none =>
        obtain ⟨w, hw⟩ := hx xs[i] (List.getElem_mem hlt)
        obtain ⟨hbody, hnext⟩ := bodyFrom_literal (t := t) (dummy := dummy) hlt hh hf
        rw [hbody, narrowAll_cons, literalInterval_eq ht _ hw] at h
        obtain ⟨m, hm, h⟩ := (coded_bind_eq_ok _ _ _).1 h
        refine step (Nat.lt_succ_self i) hlt ?_ (Decoder.narrow_ok hd hm).2.1 hnext h
        have hsym := Decoder.symbol_of_narrow hd ht hw hm
        have htake : xs.take i ++ [xs[i]] = xs.take (i + 1) := List.take_append_getElem hlt
        unfold Decoder.bodyItem Decoder.literal
        cases hb : dummy with
        | true =>
          subst hb
          rw [show (LzHeader.ofPlan n true plan).dummy = true from rfl]
          rw [show literalBase t true = t.total from rfl] at hsym
          simp only [if_true, hsym, coded_bind_ok, htake]
        | false =>
          subst hb
          rw [show (LzHeader.ofPlan n false plan).dummy = false from rfl]
          obtain ⟨v, hv, _, hhi⟩ := Decoder.peek_of_narrow hd (word_ne_zero_pos (ht.positive _ hw)) hm
          rw [show literalBase t false = widened t.total from rfl] at hsym
          simp only [show literalBase t false = widened t.total from rfl] at hv
          have hcum := FreqTable.cum_add_le_total hw
          simp only at hhi
          simp only [Bool.false_eq_true, if_false, hv, coded_bind_ok]
          rw [if_neg (by omega), hsym]
          simp only [coded_bind_ok, htake]
    · exact done (by omega) h

/-- `LZ_DECODE`'s stream after a header and the symbols `xs` were read: it is in its loop with them (R261, R263). -/
theorem Decoder.lzStream_of_prefix {inp : Input} {t : FreqTable} (ht : t.Ordered) {xs : List Word} {plan : LzPlan}
    {dummy : Bool} (hp : plan.Good xs dummy) (hx : ∀ x ∈ xs, ∃ w, (x, w) ∈ t) {n cap : Nat} (hn : n < 4294967296)
    (hcap : n ≤ cap) (hle : xs.length ≤ n) {d d' : Decoder} (hd : d.Settled)
    (h : Decoder.narrowAll inp (headerIntervals n dummy plan ++ bodyIntervals t dummy plan xs) d = .ok d') :
    ∃ fuel, n - xs.length ≤ fuel ∧
      d.lzStream inp t cap =
        Decoder.body inp t (LzHeader.ofPlan n dummy plan) fuel xs d' >>= fun x => .ok ((n, x.1), x.2) := by
  obtain ⟨m, hm, h⟩ := narrowAll_append_ok h
  have s1 := (narrowAll_settled _ hd hm).1
  rw [bodyIntervals_eq] at h
  obtain ⟨q, hq, hbody⟩ := Decoder.body_of_narrowAll ht hp hx hle xs.length s1 (Nat.zero_le _) (by omega)
    (headAt_zero plan) h
  refine ⟨n - q, by omega, ?_⟩
  unfold Decoder.lzStream
  rw [Decoder.header_of_narrowAll hd hn hcap hp.toCarried hm]
  simp only [coded_bind_ok]
  rw [show (LzHeader.ofPlan n dummy plan).count = (n - q) + q by show n = n - q + q; omega,
    show ([] : List Word) = xs.take 0 from rfl, hbody]
  rw [show n - q + q = n by omega]

/-- The decoder reads the stream of a plan back (R272, R274). -/
theorem Decoder.lzStream_of_narrowAll {inp : Input} {t : FreqTable} (ht : t.Ordered) {xs : List Word} {plan : LzPlan}
    (hp : plan.Valid xs) (hx : ∀ x ∈ xs, ∃ w, (x, w) ∈ t) {cap : Nat} (hcap : xs.length ≤ cap)
    (hn : xs.length < 4294967296) {d d' : Decoder} (hd : d.Settled)
    (h : Decoder.narrowAll inp (lzIntervals t xs plan) d = .ok d') : d.lzStream inp t cap = .ok ((xs.length, xs), d') := by
  have fin : ∀ {dummy : Bool} {p : LzPlan}, p.Good xs dummy →
      Decoder.narrowAll inp (headerIntervals xs.length dummy p ++ bodyIntervals t dummy p xs) d = .ok d' →
      d.lzStream inp t cap = .ok ((xs.length, xs), d') := by
    intro dummy p hg h
    obtain ⟨fuel, _, hs⟩ := Decoder.lzStream_of_prefix ht hg hx hn hcap (Nat.le_refl _) hd h
    rw [hs]
    have : Decoder.body inp t (LzHeader.ofPlan xs.length dummy p) fuel xs d' = .ok (xs, d') := by
      cases fuel with
      | zero => rfl
      | succ fuel =>
        unfold Decoder.body
        exact if_neg (show ¬xs.length < xs.length from Nat.lt_irrefl _)
    rw [this]; rfl
  unfold lzIntervals at h
  split at h
  · exact fin (dummyPlan_good xs) h
  · exact fin hp.good h

end Sys2Proof.Machine
end

