-- ==== Sys2Proof/Laws/Memory.lean ====
section
/-!
SUPPORT. Laws/Memory.lean: every memory operation keeps the canonical form, and reads see writes (R50, R53, R64).
-/
namespace Sys2Proof.Machine

theorem Memory.wf_nil : Memory.wf [] := ⟨List.Pairwise.nil, by simp⟩

theorem Memory.wf_cons (c : Host.Cell) (m : Memory) :
    Memory.wf (c :: m) ↔ (∀ c' ∈ m, c.1 < c'.1) ∧ c.2 ≠ 0 ∧ Memory.wf m := by
  simp only [Memory.wf, List.pairwise_cons, List.forall_mem_cons]
  constructor
  · rintro ⟨⟨h1, h2⟩, h3, h4⟩; exact ⟨h1, h3, h2, h4⟩
  · rintro ⟨h1, h3, h2, h4⟩; exact ⟨⟨h1, h2⟩, h3, h4⟩

/-- A filter of a canonical memory is canonical. -/
theorem Memory.wf_filter (p : Host.Cell → Bool) {m : Memory} (h : m.wf) : Memory.wf (m.filter p) :=
  ⟨h.1.filter p, fun c hc => h.2 c (List.mem_filter.1 hc).1⟩

theorem Memory.readByte_of_not_mem (m : Memory) (x : Nat) (h : ∀ c ∈ m, c.1 ≠ x) : m.readByte x = 0 := by
  induction m with
  | nil => rfl
  | cons c rest ih =>
    rcases c with ⟨a, b⟩
    have ha : a ≠ x := h (a, b) (by simp)
    simp only [Memory.readByte, Ne.symm ha, if_false]
    exact ih (fun c hc => h c (by simp [hc]))

/-- Erasing an offset makes it read 0 and leaves the others. -/
theorem Memory.readByte_erase (m : Memory) (x y : Nat) :
    (m.erase x).readByte y = if y = x then 0 else m.readByte y := by
  induction m with
  | nil => simp [Memory.erase, Memory.readByte]
  | cons c rest ih =>
    rcases c with ⟨a, b⟩
    have ih' : (List.filter (fun c : Host.Cell => decide (c.1 ≠ x)) rest |> fun m => Memory.readByte m y) =
        if y = x then 0 else Memory.readByte rest y := ih
    by_cases hax : a = x
    · subst hax
      simp only [Memory.erase, List.filter_cons, ne_eq, not_true_eq_false, decide_false, Bool.false_eq_true, if_false]
      by_cases hy : y = a
      · simp only [hy, if_true] at ih' ⊢; simpa using ih'
      · simp only [hy, if_false] at ih' ⊢; simpa [Memory.readByte, hy] using ih'
    · simp only [Memory.erase, List.filter_cons, ne_eq, hax, not_false_eq_true, decide_true, if_true, Memory.readByte]
      by_cases hya : y = a
      · subst hya; simp [hax]
      · simp only [hya, if_false]; simpa using ih'

theorem Memory.readByte_insertByte (m : Memory) (x y : Nat) (v : Byte) (h : m.wf) :
    (m.insertByte x v).readByte y = if y = x then v else m.readByte y := by
  induction m with
  | nil => simp [Memory.insertByte, Memory.readByte]
  | cons c rest ih =>
    rcases c with ⟨a, b⟩
    have ih := ih ((Memory.wf_cons _ _).1 h).2.2
    simp only [Memory.insertByte]
    split
    · simp only [Memory.readByte]
    · split
      · rename_i hxa; subst hxa; simp only [Memory.readByte]; split <;> rfl
      · rename_i hxa
        simp only [Memory.readByte, ih]
        by_cases hya : y = a
        · subst hya; simp [Ne.symm hxa]
        · simp [hya]

/-- A read after a write of a byte: the byte written there, and every other offset as before. -/
theorem Memory.readByte_writeByte (m : Memory) (x y : Nat) (v : Byte) (h : m.wf) :
    (m.writeByte x v).readByte y = if y = x then v else m.readByte y := by
  unfold Memory.writeByte
  split
  · rename_i hv; rw [Memory.readByte_erase, hv]
  · exact Memory.readByte_insertByte m x y v h

theorem Memory.mem_insertByte (m : Memory) (x : Nat) (v : Byte) (c : Host.Cell) (hc : c ∈ m.insertByte x v) :
    c = (x, v) ∨ c ∈ m := by
  induction m with
  | nil => simpa [Memory.insertByte] using hc
  | cons d rest ih =>
    rcases d with ⟨a, b⟩
    simp only [Memory.insertByte] at hc
    split at hc
    · simpa using hc
    · split at hc
      · simp only [List.mem_cons] at hc ⊢; tauto
      · simp only [List.mem_cons] at hc ⊢
        rcases hc with h | h
        · exact .inr (.inl h)
        · rcases ih h with h | h
          · exact .inl h
          · exact .inr (.inr h)

/-- A write stores at its own offset only. -/
theorem Memory.mem_writeByte (m : Memory) (x : Nat) (v : Byte) (c : Host.Cell) (hc : c ∈ m.writeByte x v) :
    c.1 = x ∨ c ∈ m := by
  unfold Memory.writeByte at hc
  split at hc
  · exact .inr (List.mem_filter.1 hc).1
  · rcases Memory.mem_insertByte m x v c hc with h | h
    · exact .inl (by rw [h])
    · exact .inr h

/-- A write of one byte keeps the canonical form. -/
theorem Memory.wf_writeByte (m : Memory) (x : Nat) (v : Byte) (h : m.wf) : (m.writeByte x v).wf := by
  unfold Memory.writeByte
  split
  · exact Memory.wf_filter _ h
  · rename_i hv
    induction m with
    | nil => exact (Memory.wf_cons _ _).2 ⟨by simp, hv, Memory.wf_nil⟩
    | cons c rest ih =>
      rcases c with ⟨a, b⟩
      obtain ⟨hlt, hb, hrest⟩ := (Memory.wf_cons _ _).1 h
      simp only [Memory.insertByte]
      split
      · rename_i hxa
        refine (Memory.wf_cons _ _).2 ⟨?_, hv, h⟩
        intro c hc
        rcases List.mem_cons.1 hc with h' | h'
        · rw [h']; exact hxa
        · exact Nat.lt_trans hxa (hlt c h')
      · split
        · rename_i hxa
          exact (Memory.wf_cons _ _).2 ⟨fun c hc => by rw [hxa]; exact hlt c hc, hv, hrest⟩
        · rename_i h1 h2
          refine (Memory.wf_cons _ _).2 ⟨?_, hb, ih hrest⟩
          intro c hc
          rcases Memory.mem_insertByte rest x v c hc with h' | h'
          · rw [h']; show a < x; omega
          · exact hlt c h'

theorem Memory.wf_writeWord (m : Memory) (x : Nat) (v : Word) (h : m.wf) : (m.writeWord x v).wf :=
  Memory.wf_writeByte _ _ _ (Memory.wf_writeByte _ _ _ (Memory.wf_writeByte _ _ _ (Memory.wf_writeByte _ _ _ h)))

/-- A read after a write of a word: byte `k` of the word at `x + k`, and every other offset as before (R53). -/
theorem Memory.readByte_writeWord (m : Memory) (x y : Nat) (v : Word) (h : m.wf) :
    (m.writeWord x v).readByte y =
      if y = x + 3 then wordByte v 3 else if y = x + 2 then wordByte v 2 else if y = x + 1 then wordByte v 1
      else if y = x then wordByte v 0 else m.readByte y := by
  have h0 := Memory.wf_writeByte m x (wordByte v 0) h
  have h1 := Memory.wf_writeByte _ (x + 1) (wordByte v 1) h0
  have h2 := Memory.wf_writeByte _ (x + 2) (wordByte v 2) h1
  simp only [Memory.writeWord, Memory.readByte_writeByte _ _ _ _ h2, Memory.readByte_writeByte _ _ _ _ h1,
    Memory.readByte_writeByte _ _ _ _ h0, Memory.readByte_writeByte _ _ _ _ h]

/-- The four bytes of a word make the word (R53). -/
theorem wordOfBytes_wordByte (v : Word) :
    wordOfBytes (wordByte v 0) (wordByte v 1) (wordByte v 2) (wordByte v 3) = v := by
  apply BitVec.eq_of_getLsbD_eq
  intro i hi
  simp only [wordOfBytes, wordByte, BitVec.getLsbD_append, BitVec.getLsbD_extractLsb']
  have split : ∀ k, 8 * k ≤ i → 8 * k + (i - 8 * k) = i := fun k h => by omega
  rcases Nat.lt_or_ge i 8 with h | h
  · simp [h, show i < 16 by omega, show i < 24 by omega]
  rcases Nat.lt_or_ge i 16 with h' | h'
  · simp [show ¬ i < 8 by omega, show i - 8 < 8 by omega, h', split 1 h, show i < 24 by omega]
  rcases Nat.lt_or_ge i 24 with h'' | h''
  · simp [show ¬ i < 16 by omega, show i - 16 < 8 by omega, h'', split 2 h']
  · simp [show ¬ i < 24 by omega, show i - 24 < 8 by omega, split 3 h'']

/-- Byte `b` of a word made of four bytes (R53). -/
theorem wordByte_wordOfBytes (b0 b1 b2 b3 : Byte) {b : Nat} (hb : b < 4) :
    wordByte (wordOfBytes b0 b1 b2 b3) b = if b = 0 then b0 else if b = 1 then b1 else if b = 2 then b2 else b3 := by
  have : b = 0 ∨ b = 1 ∨ b = 2 ∨ b = 3 := by omega
  unfold wordByte wordOfBytes
  rcases this with rfl | rfl | rfl | rfl <;>
    (apply BitVec.eq_of_getLsbD_eq
     intro i hi
     simp only [BitVec.getLsbD_extractLsb', hi, decide_true, Bool.true_and, BitVec.getLsbD_append])
  · simp [show i < 24 by omega, show i < 16 by omega, hi]
  · rw [if_pos (by omega), if_pos (by omega), if_neg (by omega), show 8 * 1 + i - 8 = i by omega]
    simp
  · rw [if_pos (by omega), if_neg (by omega), if_neg (by omega), show 8 * 2 + i - (8 + 8) = i by omega]
    simp
  · rw [if_neg (by omega), if_neg (by omega), if_neg (by omega), show 8 * 3 + i - (8 + (8 + 8)) = i by omega]
    simp

/-- Byte `b` of a word in memory (R53). -/
theorem Memory.wordByte_readWord (m : Memory) (x : Nat) {b : Nat} (hb : b < 4) :
    wordByte (m.readWord x) b = m.readByte (x + b) := by
  unfold Memory.readWord
  rw [wordByte_wordOfBytes _ _ _ _ hb]
  have : b = 0 ∨ b = 1 ∨ b = 2 ∨ b = 3 := by omega
  rcases this with rfl | rfl | rfl | rfl <;> rfl

/-- A word read back where it was written (R53). -/
theorem Memory.readWord_writeWord (m : Memory) (x : Nat) (v : Word) (h : m.wf) : (m.writeWord x v).readWord x = v := by
  simp only [Memory.readWord, Memory.readByte_writeWord m x _ v h]
  simpa using wordOfBytes_wordByte v

/-- A write of a word stores within its four bytes only. -/
theorem Memory.mem_writeWord (m : Memory) (x : Nat) (v : Word) (c : Host.Cell) (hc : c ∈ m.writeWord x v) :
    (x ≤ c.1 ∧ c.1 < x + 4) ∨ c ∈ m := by
  unfold Memory.writeWord at hc
  rcases Memory.mem_writeByte _ _ _ _ hc with h | hc
  · exact .inl (by omega)
  rcases Memory.mem_writeByte _ _ _ _ hc with h | hc
  · exact .inl (by omega)
  rcases Memory.mem_writeByte _ _ _ _ hc with h | hc
  · exact .inl (by omega)
  rcases Memory.mem_writeByte _ _ _ _ hc with h | hc
  · exact .inl (by omega)
  exact .inr hc

theorem Memory.wf_foldl_writeByte (cells : List Host.Cell) (m : Memory) (h : m.wf) :
    Memory.wf (cells.foldl (fun acc c => Memory.writeByte acc c.1 c.2) m) := by
  induction cells generalizing m with
  | nil => exact h
  | cons c rest ih => exact ih _ (Memory.wf_writeByte m c.1 c.2 h)

/-- Refilling a region keeps the canonical form. -/
theorem Memory.wf_refill (m : Memory) (base len : Nat) (cells : List Host.Cell) (h : m.wf) :
    (m.refill base len cells).wf :=
  Memory.wf_foldl_writeByte _ _ (Memory.wf_filter _ h)

theorem Memory.readByte_filter (p : Host.Cell → Bool) (q : Nat → Bool) (hp : ∀ c : Host.Cell, p c = q c.1) (m : Memory)
    (y : Nat) : Memory.readByte (m.filter p) y = if q y then m.readByte y else 0 := by
  induction m with
  | nil => simp [Memory.readByte]
  | cons c rest ih =>
    rcases c with ⟨a, b⟩
    simp only [List.filter_cons, hp (a, b)]
    by_cases hqa : q a
    · simp only [hqa, if_true, Memory.readByte]
      by_cases hya : y = a
      · subst hya; simp [hqa]
      · simpa [hya] using ih
    · simp only [hqa, Bool.false_eq_true, if_false, Memory.readByte]
      by_cases hya : y = a
      · subst hya; simpa [hqa] using ih
      · simpa [hya] using ih

/-- Refilling a region leaves every offset outside it as before. -/
theorem Memory.readByte_refill_outside (m : Memory) (base len : Nat) (cells : List Host.Cell) (h : m.wf) (y : Nat)
    (hy : ¬(base ≤ y ∧ y < base + len)) : (m.refill base len cells).readByte y = m.readByte y := by
  have key : ∀ (cs : List Host.Cell) (m' : Memory), m'.wf → (∀ c ∈ cs, base ≤ c.1 ∧ c.1 < base + len) →
      Memory.readByte (cs.foldl (fun acc c => Memory.writeByte acc c.1 c.2) m') y = m'.readByte y := by
    intro cs
    induction cs with
    | nil => intro m' _ _; rfl
    | cons c rest ih =>
      intro m' hm' hcs
      have hne : y ≠ c.1 := fun e => hy (e ▸ hcs c (by simp))
      simp only [List.foldl_cons]
      rw [ih _ (Memory.wf_writeByte m' c.1 c.2 hm') (fun c' hc' => hcs c' (by simp [hc'])),
        Memory.readByte_writeByte m' c.1 y c.2 hm', if_neg hne]
  unfold Memory.refill
  rw [key _ _ (Memory.wf_filter _ h) (fun c hc => by simpa using (List.mem_filter.1 hc).2),
    Memory.readByte_filter _ (fun a => decide ¬(base ≤ a ∧ a < base + len)) (fun c => rfl)]
  exact if_pos (decide_eq_true hy)

/-- Writing symbols keeps the canonical form. -/
theorem Memory.wf_writeSymOut (xs : List Word) (mem : Memory) (m : Nat) (h : mem.wf) : (mem.writeSymOut m xs).wf := by
  induction xs generalizing mem m with
  | nil => exact h
  | cons v rest ih => exact ih _ _ (Memory.wf_writeWord mem _ v h)

/-- Writing symbols leaves every offset outside their words as before (R57). -/
theorem Memory.readByte_writeSymOut_outside (xs : List Word) (mem : Memory) (m y : Nat) (h : mem.wf)
    (hy : ¬(symOutBase + 4 * m ≤ y ∧ y < symOutBase + 4 * (m + xs.length))) :
    (mem.writeSymOut m xs).readByte y = mem.readByte y := by
  induction xs generalizing mem m with
  | nil => rfl
  | cons v rest ih =>
    simp only [Memory.writeSymOut, List.length_cons] at *
    rw [ih _ _ (Memory.wf_writeWord mem _ v h) (by omega), Memory.readByte_writeWord mem _ y v h]
    rw [if_neg (by omega), if_neg (by omega), if_neg (by omega), if_neg (by omega)]

/-- A word reads back from `SYM_OUT` (R53, R57). -/
theorem Memory.readWord_writeSymOut (xs : List Word) (mem : Memory) (m k : Nat) (h : mem.wf) (hk : k < xs.length) :
    (mem.writeSymOut m xs).readWord (symOutBase + 4 * (m + k)) = xs[k] := by
  induction xs generalizing mem m k with
  | nil => exact absurd hk (Nat.not_lt_zero k)
  | cons v rest ih =>
    have hw := Memory.wf_writeWord mem (symOutBase + 4 * m) v h
    cases k with
    | zero =>
      have keep : ∀ b, b < 4 → (Memory.writeSymOut mem m (v :: rest)).readByte (symOutBase + 4 * (m + 0) + b) =
          (mem.writeWord (symOutBase + 4 * m) v).readByte (symOutBase + 4 * (m + 0) + b) :=
        fun b hb => Memory.readByte_writeSymOut_outside rest _ _ _ hw (by omega)
      have := keep 0 (by decide)
      rw [Nat.add_zero (symOutBase + 4 * (m + 0))] at this
      unfold Memory.readWord
      rw [this, keep 1 (by decide), keep 2 (by decide), keep 3 (by decide)]
      exact Memory.readWord_writeWord mem (symOutBase + 4 * m) v h
    | succ k =>
      rw [show symOutBase + 4 * (m + (k + 1)) = symOutBase + 4 * (m + 1 + k) by omega]
      exact ih _ _ _ hw (by simpa using hk)

end Sys2Proof.Machine
end

