-- ==== Sys2Proof/Laws/Commands.lean ====
section
/-!
SUPPORT. Laws/Commands.lean: what a command can do, said once (`exec_cases`): it takes a fault of a class that belongs to it,
or it completes and changes only what its unit may change.
-/
namespace Sys2Proof.Machine

/-! ### The faults a computation can raise -/

/-- Every fault a computation raises satisfies `P`. -/
def Raises {α : Type} (P : Raise → Prop) (x : Coded α) : Prop := ∀ r, x = .error r → P r

theorem raises_ok {α : Type} {P : Raise → Prop} (a : α) : Raises P (.ok a : Coded α) := fun _ h => by simp at h

theorem raises_error {α : Type} {P : Raise → Prop} {r : Raise} (h : P r) : Raises P (.error r : Coded α) :=
  fun _ h' => by simp only [Except.error.injEq] at h'; rw [← h']; exact h

theorem raises_bind {α β : Type} {P : Raise → Prop} {x : Coded α} {f : α → Coded β} (hx : Raises P x)
    (hf : ∀ a, x = .ok a → Raises P (f a)) : Raises P (x >>= f) := by
  intro r h
  rcases (coded_bind_eq_error _ _ _).1 h with h | ⟨a, ha, h⟩
  · exact hx r h
  · exact hf a ha r h

theorem raises_mono {α : Type} {P Q : Raise → Prop} {x : Coded α} (hx : Raises P x) (h : ∀ r, P r → Q r) : Raises Q x :=
  fun r hr => h r (hx r hr)

/-- The execution-time faults of a class (R305). -/
def runCodes : FaultKind → List FaultCode
  | .precise => []
  | .encoderRun => [.capacity, .pendingOvf]
  | .fibRun => [.corruptFib]
  | .lzDecodeRun => [.capacity, .corruptHeader, .corruptRef, .corruptOverrun]

/-- A fault a command of class `k` may raise: a precise one, or an execution-time one of its class (R303). -/
def Raise.Of (k : FaultKind) (r : Raise) : Prop :=
  r.code ≠ .noFault ∧ (r.kind = .precise ∨ (r.kind = k ∧ r.code ∈ runCodes k))

theorem of_precise {k : FaultKind} {c : FaultCode} {a : Word} (h : c ≠ .noFault) : Raise.Of k (.precise c a) := ⟨h, .inl rfl⟩

theorem of_run {k : FaultKind} {c : FaultCode} {a : Word} (h : c ∈ runCodes k) (hc : c ≠ .noFault) : Raise.Of k ⟨c, a, k⟩ :=
  ⟨hc, .inr ⟨rfl, h⟩⟩

theorem of_precise_mono {k : FaultKind} {r : Raise} (h : Raise.Of .precise r) : Raise.Of k r := by
  obtain ⟨h1, h2⟩ := h
  exact ⟨h1, h2.elim .inl (fun h => absurd h.2 (by simp [runCodes]))⟩

/-! #### The encoder -/

theorem checkInterval_raises {k : FaultKind} (iv : Interval) : Raises (Raise.Of k) (checkInterval iv) := by
  unfold checkInterval
  split
  · exact raises_error (of_precise (by decide))
  · exact raises_ok _

theorem append_raises (cap : Nat) (b : Bool) (e : Encoder) : Raises (Raise.Of .encoderRun) (e.append cap b) := by
  unfold Encoder.append
  split
  · exact raises_error (of_run (by decide) (by decide))
  · exact raises_ok _

theorem appendRun_raises (cap : Nat) (b : Bool) (n : Nat) (e : Encoder) :
    Raises (Raise.Of .encoderRun) (Encoder.appendRun cap b n e) := by
  induction n generalizing e with
  | zero => exact raises_ok _
  | succ n ih => exact raises_bind (append_raises cap b e) (fun a _ => ih a)

theorem emitBit_raises (cap : Nat) (b : Bool) (e : Encoder) : Raises (Raise.Of .encoderRun) (e.emitBit cap b) :=
  raises_bind (append_raises cap b e) (fun _ _ => raises_bind (appendRun_raises cap _ _ _) (fun _ _ => raises_ok _))

theorem addPending_raises (e : Encoder) : Raises (Raise.Of .encoderRun) e.addPending := by
  unfold Encoder.addPending
  split
  · exact raises_error (of_run (by decide) (by decide))
  · exact raises_ok _

theorem renorm_raises (cap n : Nat) (e : Encoder) : Raises (Raise.Of .encoderRun) (Encoder.renorm cap n e) := by
  induction n generalizing e with
  | zero => exact raises_ok _
  | succ n ih =>
    unfold Encoder.renorm
    split
    · exact raises_bind (emitBit_raises cap _ e) (fun a _ => ih _)
    · exact raises_bind (emitBit_raises cap _ e) (fun a _ => ih _)
    · exact raises_bind (addPending_raises e) (fun a _ => ih _)
    · exact raises_ok _

theorem narrow_raises (cap : Nat) (iv : Interval) (e : Encoder) : Raises (Raise.Of .encoderRun) (e.narrow cap iv) := by
  unfold Encoder.narrow
  refine raises_bind (checkInterval_raises iv) (fun _ _ => ?_)
  split
  · exact raises_ok _
  · exact renorm_raises cap _ _

theorem writeAll_raises (cap : Nat) (t : List Interval) (e : Encoder) :
    Raises (Raise.Of .encoderRun) (e.writeAll cap t) := by
  induction t generalizing e with
  | nil => exact raises_ok _
  | cons iv rest ih => rw [writeAll_cons]; exact raises_bind (narrow_raises cap iv e) (fun a _ => ih a)

theorem uniformTrace_raises {k : FaultKind} (c count : Nat) : Raises (Raise.Of k) (uniformTrace c count) := by
  unfold uniformTrace
  split
  · exact raises_error (of_precise (by decide))
  · split <;> exact raises_ok _

theorem uniformTraces_raises {k : FaultKind} (l : List (Nat × Nat)) : Raises (Raise.Of k) (uniformTraces l) := by
  induction l with
  | nil => exact raises_ok _
  | cons p rest ih =>
    rcases p with ⟨c, count⟩
    exact raises_bind (uniformTrace_raises c count) (fun _ _ => raises_bind ih (fun _ _ => raises_ok _))

theorem countTrace_raises {k : FaultKind} (n W : Nat) : Raises (Raise.Of k) (countTrace n W) := by
  unfold countTrace
  split
  · exact raises_error (of_precise (by decide))
  · exact uniformTraces_raises _

theorem splitTrace_raises {k : FaultKind} (p : Policy) (e v : Nat) : Raises (Raise.Of k) (splitTrace p e v) := by
  unfold splitTrace splitIntervals
  refine raises_bind ?_ (fun _ _ => uniformTraces_raises _)
  split
  · exact raises_error (of_precise (by decide))
  · exact raises_ok _

theorem checkSealed_raises {k : FaultKind} (s : State) : Raises (Raise.Of k) s.checkSealed := by
  unfold State.checkSealed
  split
  · exact raises_error (of_precise (by decide))
  · exact raises_ok _

theorem encodeTrace_raises (s : State) (t : List Interval) : Raises (Raise.Of .encoderRun) (s.encodeTrace t) :=
  raises_bind (writeAll_raises _ t s.enc) (fun _ _ => raises_ok _)

theorem requireInterval_raises {k : FaultKind} (t : FreqTable) (key : Word) : Raises (Raise.Of k) (t.requireInterval key) := by
  unfold FreqTable.requireInterval
  split
  · exact raises_ok _
  · exact raises_error (of_precise (by decide))

theorem requireWeight_raises {k : FaultKind} (t : FreqTable) (key : Word) : Raises (Raise.Of k) (t.requireWeight key) := by
  unfold FreqTable.requireWeight
  split
  · exact raises_ok _
  · exact raises_error (of_precise (by decide))

theorem argPolicy_raises {k : FaultKind} (s : State) (r : Nat) (extra : Bool) : Raises (Raise.Of k) (s.argPolicy r extra) := by
  unfold State.argPolicy policyOf
  refine raises_bind ?_ (fun _ _ => ?_)
  · split
    · exact raises_ok _
    · exact raises_error (of_precise (by decide))
  · split
    · exact raises_error (of_precise (by decide))
    · exact raises_ok _

theorem flush_raises (cap : Nat) (e : Encoder) : Raises (Raise.Of .encoderRun) (e.flush cap) := by
  unfold Encoder.flush
  refine raises_bind (uniformTrace_raises _ _) (fun _ _ => raises_bind (writeAll_raises _ _ _) (fun _ _ => ?_))
  exact raises_bind (addPending_raises _) (fun _ _ => raises_bind (emitBit_raises _ _ _) (fun _ _ => raises_ok _))

/-! #### The decoder -/

theorem peek_raises {k : FaultKind} (d : Decoder) (base : Nat) : Raises (Raise.Of k) (d.peek base) := by
  unfold Decoder.peek
  split
  · exact raises_error (of_precise (by decide))
  · exact raises_ok _

theorem decNarrow_raises {k : FaultKind} (inp : Input) (iv : Interval) (d : Decoder) :
    Raises (Raise.Of k) (d.narrow inp iv) := by
  unfold Decoder.narrow
  refine raises_bind (checkInterval_raises iv) (fun _ _ => ?_)
  split
  · exact raises_ok _
  · refine raises_bind (peek_raises d _) (fun _ _ => ?_)
    split
    · exact raises_error (of_precise (by decide))
    · exact raises_ok _

theorem direct_raises {k : FaultKind} (inp : Input) (n : Nat) (d : Decoder) : Raises (Raise.Of k) (d.direct inp n) :=
  raises_bind (peek_raises d n) (fun _ _ => raises_bind (decNarrow_raises inp _ d) (fun _ _ => raises_ok _))

theorem uniform_raises {k : FaultKind} (inp : Input) (count : Nat) (d : Decoder) :
    Raises (Raise.Of k) (d.uniform inp count) := by
  unfold Decoder.uniform
  split
  · exact raises_error (of_precise (by decide))
  · split
    · exact direct_raises inp _ d
    · exact raises_bind (direct_raises inp _ d) (fun _ _ => raises_bind (direct_raises inp _ _) (fun _ _ => raises_ok _))

theorem fibLoop_raises (inp : Input) (left k n : Nat) (prev : Bool) (d : Decoder) :
    Raises (Raise.Of .fibRun) (Decoder.fibLoop inp left k n prev d) := by
  have bad : Raise.Of .fibRun corruptFib := of_run (by decide) (by decide)
  induction left generalizing k n prev d with
  | zero => exact raises_error bad
  | succ left ih =>
    unfold Decoder.fibLoop
    refine raises_bind (uniform_raises inp 2 d) (fun a _ => ?_)
    rcases a with ⟨v, d'⟩
    dsimp only
    split
    · exact raises_ok _
    · split
      · exact raises_error bad
      · split
        · split
          · exact raises_error bad
          · exact ih _ _ _ _
        · exact ih _ _ _ _

theorem count_raises {k : FaultKind} (inp : Input) (W : Nat) (d : Decoder) : Raises (Raise.Of k) (d.count inp W) := by
  unfold Decoder.count
  split
  · exact raises_error (of_precise (by decide))
  · refine raises_bind (uniform_raises inp _ d) (fun a _ => ?_)
    rcases a with ⟨v, d'⟩
    dsimp only
    split
    · exact raises_ok _
    · split
      · exact raises_ok _
      · exact raises_bind (uniform_raises inp _ d') (fun _ _ => raises_ok _)

theorem split_raises {k : FaultKind} (inp : Input) (p : Policy) (e : Nat) (d : Decoder) :
    Raises (Raise.Of k) (d.split inp p e) := by
  unfold Decoder.split Decoder.splitEffective
  split
  · exact uniform_raises inp _ d
  · refine raises_bind (uniform_raises inp _ d) (fun a _ => ?_)
    rcases a with ⟨v, d'⟩
    dsimp only
    split
    · exact raises_ok _
    · exact raises_bind (uniform_raises inp _ d') (fun _ _ => raises_ok _)
  · refine raises_bind (uniform_raises inp _ d) (fun a _ => ?_)
    rcases a with ⟨v, d'⟩
    dsimp only
    split
    · exact raises_ok _
    · exact uniform_raises inp _ d'

theorem symbol_raises {k : FaultKind} (inp : Input) (t : FreqTable) (base : Nat) (d : Decoder) :
    Raises (Raise.Of k) (d.symbol inp t base) := by
  unfold Decoder.symbol FreqTable.requireKey
  refine raises_bind (peek_raises d base) (fun _ _ => raises_bind ?_ (fun _ _ => ?_))
  · split
    · exact raises_ok _
    · exact raises_error (of_precise (by decide))
  · exact raises_bind (requireInterval_raises t _) (fun _ _ => raises_bind (decNarrow_raises inp _ d) (fun _ _ => raises_ok _))

/-! #### The table and the LZ engine -/

theorem insertKey_raises {k : FaultKind} (cap : Nat) (t : FreqTable) (key weight : Word) :
    Raises (Raise.Of k) (t.insertKey cap key weight) := by
  unfold FreqTable.insertKey
  repeat' split
  all_goals first
    | exact raises_error (of_precise (by decide))
    | exact raises_ok _

theorem checkModel_raises {k : FaultKind} (t : FreqTable) : Raises (Raise.Of k) t.checkModel := by
  unfold FreqTable.checkModel
  repeat' split
  all_goals first
    | exact raises_error (of_precise (by decide))
    | exact raises_ok _

theorem checkSymbols_raises {k : FaultKind} (t : FreqTable) (m : Nat) (l : List Word) :
    Raises (Raise.Of k) (checkSymbols t m l) := by
  induction l generalizing m with
  | nil => exact raises_ok _
  | cons x rest ih =>
    unfold checkSymbols
    split
    · exact ih _
    · exact raises_error (of_precise (by decide))

theorem lzPrecheck_raises {k : FaultKind} (s : State) : Raises (Raise.Of k) s.lzPrecheck := by
  unfold State.lzPrecheck
  refine raises_bind (checkSealed_raises s) (fun _ _ => ?_)
  split
  · exact raises_error (of_precise (by decide))
  · exact raises_bind (checkModel_raises _) (fun _ _ => checkSymbols_raises _ _ _)

theorem joinTraces_raises {P : Raise → Prop} (l : List (Coded (List Interval))) (h : ∀ t ∈ l, Raises P t) :
    Raises P (joinTraces l) := by
  induction l with
  | nil => exact raises_ok _
  | cons t rest ih =>
    exact raises_bind (h t (by simp)) (fun _ _ => raises_bind (ih (fun u hu => h u (by simp [hu]))) (fun _ _ => raises_ok _))

theorem tripleTrace_raises {k : FaultKind} (p : Policy) : Raises (Raise.Of k) (tripleTrace p) := by
  refine joinTraces_raises _ (fun t ht => ?_)
  simp only [List.mem_cons, List.not_mem_nil, or_false] at ht
  rcases ht with rfl | rfl | rfl
  · exact uniformTrace_raises _ _
  · exact countTrace_raises _ _
  · split
    · exact uniformTrace_raises _ _
    · exact raises_ok _

theorem headerTrace_raises {k : FaultKind} (n : Nat) (plan : LzPlan) : Raises (Raise.Of k) (headerTrace n plan) := by
  refine joinTraces_raises _ (fun t ht => ?_)
  simp only [List.mem_cons, List.not_mem_nil, or_false] at ht
  rcases ht with rfl | rfl | rfl | rfl | rfl | rfl
  · exact countTrace_raises _ _
  · exact tripleTrace_raises _
  · exact tripleTrace_raises _
  · split
    · exact uniformTrace_raises _ _
    · exact raises_ok _
  · exact uniformTrace_raises _ _
  · split
    · exact tripleTrace_raises _
    · exact raises_ok _

theorem tokenTrace_raises {k : FaultKind} (base : Nat) (plan : LzPlan) (c : Candidate) :
    Raises (Raise.Of k) (tokenTrace base plan c) := by
  refine joinTraces_raises _ (fun t ht => ?_)
  simp only [List.mem_cons, List.not_mem_nil, or_false] at ht
  rcases ht with rfl | rfl | rfl | rfl
  · exact raises_ok _
  · exact splitTrace_raises _ _ _
  · exact splitTrace_raises _ _ _
  · split
    · exact splitTrace_raises _ _ _
    · exact raises_ok _

theorem bodyTrace_raises {k : FaultKind} (t : FreqTable) (plan : LzPlan) (i skip : Nat) (l : List Word) :
    Raises (Raise.Of k) (bodyTrace t plan i skip l) := by
  induction l generalizing i skip with
  | nil => cases skip <;> exact raises_ok _
  | cons x rest ih =>
    cases skip with
    | succ skip => exact ih _ _
    | zero =>
      unfold bodyTrace
      split
      · exact raises_bind (tokenTrace_raises _ _ _) (fun _ _ => raises_bind (ih _ _) (fun _ _ => raises_ok _))
      · refine raises_bind ?_ (fun _ _ => raises_bind (ih _ _) (fun _ _ => raises_ok _))
        exact raises_bind (requireInterval_raises _ _) (fun _ _ => raises_ok _)

theorem lzTrace_raises {k : FaultKind} (t : FreqTable) (xs : List Word) (plan : LzPlan) :
    Raises (Raise.Of k) (lzTrace t xs plan) := by
  refine joinTraces_raises _ (fun u hu => ?_)
  simp only [List.mem_cons, List.not_mem_nil, or_false] at hu
  rcases hu with rfl | rfl
  · exact headerTrace_raises _ _
  · exact bodyTrace_raises _ _ _ _ _

theorem triple_raises (inp : Input) (d : Decoder) : Raises (Raise.Of .lzDecodeRun) (d.triple inp) := by
  unfold Decoder.triple
  refine raises_bind (uniform_raises inp 3 d) (fun a _ => ?_)
  rcases a with ⟨r, d1⟩
  refine raises_bind (count_raises inp _ d1) (fun a _ => ?_)
  rcases a with ⟨max, d2⟩
  dsimp only
  split
  · exact raises_ok _
  · exact raises_ok _
  · split
    · exact raises_error (of_run (by decide) (by decide))
    · exact raises_bind (uniform_raises inp _ d2) (fun _ _ => raises_ok _)

theorem flag_raises {k : FaultKind} (inp : Input) (d : Decoder) : Raises (Raise.Of k) (d.flag inp) :=
  raises_bind (uniform_raises inp 2 d) (fun _ _ => raises_ok _)

theorem header_raises (inp : Input) (cap : Nat) (d : Decoder) : Raises (Raise.Of .lzDecodeRun) (d.header inp cap) := by
  unfold Decoder.header
  refine raises_bind (count_raises inp 32 d) (fun a _ => ?_)
  rcases a with ⟨n, d1⟩
  dsimp only
  split
  · exact raises_error (of_run (by decide) (by decide))
  · refine raises_bind (triple_raises inp d1) (fun a _ => ?_)
    rcases a with ⟨dist, d2⟩
    refine raises_bind (triple_raises inp d2) (fun a _ => ?_)
    rcases a with ⟨len, d3⟩
    dsimp only
    have tail : ∀ (dummy : Bool) (d4 : Decoder), Raises (Raise.Of .lzDecodeRun) (do
        let (useSpiral, d) ← d4.flag inp
        if useSpiral then
          if dummy then .error (lzFault .corruptHeader 0)
          else
            let (spiral, d) ← d.triple inp
            .ok (⟨n, ⟨dist, len, spiral, true, []⟩, dummy⟩, d)
        else .ok (⟨n, ⟨dist, len, ⟨.whole, 0, 0⟩, false, []⟩, dummy⟩, d) : Coded (LzHeader × Decoder)) := by
      intro dummy d4
      refine raises_bind (flag_raises inp d4) (fun a _ => ?_)
      rcases a with ⟨u, d5⟩
      dsimp only
      split
      · split
        · exact raises_error (of_run (by decide) (by decide))
        · exact raises_bind (triple_raises inp d5) (fun _ _ => raises_ok _)
      · exact raises_ok _
    split
    · exact raises_bind (flag_raises inp d3) (fun a _ => tail a.1 a.2)
    · exact tail false d3

theorem tokenDistance_raises {k : FaultKind} (inp : Input) (plan : LzPlan) (i chunk : Nat) (d : Decoder) :
    Raises (Raise.Of k) (d.tokenDistance inp plan i chunk) := by
  unfold Decoder.tokenDistance
  refine raises_bind (split_raises inp _ _ d) (fun a _ => ?_)
  rcases a with ⟨v, d1⟩
  dsimp only
  split
  · exact raises_bind (split_raises inp _ _ d1) (fun _ _ => raises_ok _)
  · exact raises_ok _

theorem token_raises (inp : Input) (base : Nat) (hd : LzHeader) (out : List Word) (d : Decoder) :
    Raises (Raise.Of .lzDecodeRun) (d.token inp base hd out) := by
  unfold Decoder.token
  refine raises_bind (decNarrow_raises inp _ d) (fun d1 _ => ?_)
  refine raises_bind (split_raises inp _ _ d1) (fun a _ => ?_)
  rcases a with ⟨v, d2⟩
  dsimp only
  split
  · exact raises_error (of_run (by decide) (by decide))
  · refine raises_bind (tokenDistance_raises inp _ _ _ d2) (fun a _ => ?_)
    rcases a with ⟨⟨dist, sl⟩, d3⟩
    dsimp only
    split
    · exact raises_error (of_run (by decide) (by decide))
    · exact raises_ok _

theorem bodyItem_raises (inp : Input) (t : FreqTable) (hd : LzHeader) (out : List Word) (d : Decoder) :
    Raises (Raise.Of .lzDecodeRun) (d.bodyItem inp t hd out) := by
  unfold Decoder.bodyItem Decoder.literal
  split
  · exact raises_bind (symbol_raises inp t _ d) (fun _ _ => raises_ok _)
  · refine raises_bind (peek_raises d _) (fun v _ => ?_)
    split
    · exact token_raises inp _ hd out d
    · exact raises_bind (symbol_raises inp t _ d) (fun _ _ => raises_ok _)

theorem body_raises (inp : Input) (t : FreqTable) (hd : LzHeader) (fuel : Nat) (out : List Word) (d : Decoder) :
    Raises (Raise.Of .lzDecodeRun) (Decoder.body inp t hd fuel out d) := by
  induction fuel generalizing out d with
  | zero => exact raises_ok _
  | succ fuel ih =>
    unfold Decoder.body
    split
    · exact raises_bind (bodyItem_raises inp t hd out d) (fun a _ => ih a.1 a.2)
    · exact raises_ok _

theorem lzStream_raises (inp : Input) (t : FreqTable) (cap : Nat) (d : Decoder) :
    Raises (Raise.Of .lzDecodeRun) (d.lzStream inp t cap) := by
  unfold Decoder.lzStream
  exact raises_bind (header_raises inp cap d) (fun a _ => raises_bind (body_raises inp t _ _ _ _) (fun _ _ => raises_ok _))

/-! ### `DEC_INLEN` and the sealed flag, whatever the bounds -/

theorem decoder_double_inLen (inp : Input) (st : RenormStep) (d : Decoder) : (d.double inp st).inLen = d.inLen := rfl

theorem decoder_renorm_inLen (inp : Input) (n : Nat) (d : Decoder) : (Decoder.renorm inp n d).inLen = d.inLen := by
  induction n generalizing d with
  | zero => rfl
  | succ n ih =>
    unfold Decoder.renorm
    split
    · rw [ih, decoder_double_inLen]
    · rw [ih, decoder_double_inLen]
    · rw [ih, decoder_double_inLen]
    · rfl

/-- A decoder computation keeps `DEC_INLEN`. -/
def KeepsInLen {α : Type} (d : Decoder) (x : Coded (α × Decoder)) : Prop := ∀ a, x = .ok a → a.2.inLen = d.inLen

theorem keeps_ok {α : Type} {d d' : Decoder} (a : α) (h : d'.inLen = d.inLen) : KeepsInLen d (.ok (a, d') : Coded (α × Decoder)) := by
  intro b hb; simp only [Except.ok.injEq] at hb; rw [← hb]; exact h

theorem keeps_error {α : Type} {d : Decoder} (r : Raise) : KeepsInLen d (.error r : Coded (α × Decoder)) := by
  intro b hb; simp at hb

theorem keeps_bind {α β : Type} {d : Decoder} {x : Coded (α × Decoder)} {f : α × Decoder → Coded (β × Decoder)}
    (hx : KeepsInLen d x) (hf : ∀ a, x = .ok a → KeepsInLen a.2 (f a)) : KeepsInLen d (x >>= f) := by
  intro b hb
  obtain ⟨a, ha, hb⟩ := (coded_bind_eq_ok _ _ _).1 hb
  exact (hf a ha b hb).trans (hx a ha)

theorem keeps_bind_any {α β : Type} {d : Decoder} {x : Coded α} {f : α → Coded (β × Decoder)}
    (hf : ∀ a, x = .ok a → KeepsInLen d (f a)) : KeepsInLen d (x >>= f) := by
  intro b hb
  obtain ⟨a, ha, hb⟩ := (coded_bind_eq_ok _ _ _).1 hb
  exact hf a ha b hb

theorem decNarrow_inLen {inp : Input} {iv : Interval} {d d' : Decoder} (h : d.narrow inp iv = .ok d') : d'.inLen = d.inLen := by
  unfold Decoder.narrow at h
  obtain ⟨_, _, h⟩ := (coded_bind_eq_ok _ _ _).1 h
  split at h
  · simp only [Except.ok.injEq] at h; rw [← h]
  · obtain ⟨v, _, h⟩ := (coded_bind_eq_ok _ _ _).1 h
    split at h
    · simp at h
    · simp only [Except.ok.injEq] at h; rw [← h]; exact decoder_renorm_inLen inp _ _

theorem direct_keeps (inp : Input) (n : Nat) (d : Decoder) : KeepsInLen d (d.direct inp n) :=
  keeps_bind_any (fun v _ => keeps_bind_any (fun _ h => keeps_ok v (decNarrow_inLen h)))

theorem uniform_keeps (inp : Input) (count : Nat) (d : Decoder) : KeepsInLen d (d.uniform inp count) := by
  unfold Decoder.uniform
  split
  · exact keeps_error _
  · split
    · exact direct_keeps inp _ d
    · exact keeps_bind (direct_keeps inp _ d) (fun a _ => keeps_bind (direct_keeps inp _ a.2) (fun b _ => keeps_ok _ rfl))

theorem fibLoop_keeps (inp : Input) (left k n : Nat) (prev : Bool) (d : Decoder) :
    KeepsInLen d (Decoder.fibLoop inp left k n prev d) := by
  induction left generalizing k n prev d with
  | zero => exact keeps_error _
  | succ left ih =>
    unfold Decoder.fibLoop
    refine keeps_bind (uniform_keeps inp 2 d) (fun a _ => ?_)
    rcases a with ⟨v, d'⟩
    dsimp only
    repeat' split
    all_goals first
      | exact keeps_ok _ rfl
      | exact keeps_error _
      | exact ih _ _ _ _

theorem count_keeps (inp : Input) (W : Nat) (d : Decoder) : KeepsInLen d (d.count inp W) := by
  unfold Decoder.count
  split
  · exact keeps_error _
  · refine keeps_bind (uniform_keeps inp _ d) (fun a _ => ?_)
    rcases a with ⟨v, d'⟩
    dsimp only
    split
    · exact keeps_ok _ rfl
    · split
      · exact keeps_ok _ rfl
      · exact keeps_bind (uniform_keeps inp _ d') (fun _ _ => keeps_ok _ rfl)

theorem split_keeps (inp : Input) (p : Policy) (e : Nat) (d : Decoder) : KeepsInLen d (d.split inp p e) := by
  unfold Decoder.split Decoder.splitEffective
  split
  · exact uniform_keeps inp _ d
  · refine keeps_bind (uniform_keeps inp _ d) (fun a _ => ?_)
    rcases a with ⟨v, d'⟩
    dsimp only
    split
    · exact keeps_ok _ rfl
    · exact keeps_bind (uniform_keeps inp _ d') (fun _ _ => keeps_ok _ rfl)
  · refine keeps_bind (uniform_keeps inp _ d) (fun a _ => ?_)
    rcases a with ⟨v, d'⟩
    dsimp only
    split
    · exact keeps_ok _ rfl
    · exact uniform_keeps inp _ d'

theorem symbol_keeps (inp : Input) (t : FreqTable) (base : Nat) (d : Decoder) : KeepsInLen d (d.symbol inp t base) :=
  keeps_bind_any (fun _ _ => keeps_bind_any (fun k _ => keeps_bind_any (fun _ _ =>
    keeps_bind_any (fun _ h => keeps_ok k (decNarrow_inLen h)))))

theorem triple_keeps (inp : Input) (d : Decoder) : KeepsInLen d (d.triple inp) := by
  unfold Decoder.triple
  refine keeps_bind (uniform_keeps inp 3 d) (fun a _ => ?_)
  rcases a with ⟨r, d1⟩
  refine keeps_bind (count_keeps inp _ d1) (fun b _ => ?_)
  rcases b with ⟨max, d2⟩
  dsimp only
  split
  · exact keeps_ok _ rfl
  · exact keeps_ok _ rfl
  · split
    · exact keeps_error _
    · exact keeps_bind (uniform_keeps inp _ d2) (fun _ _ => keeps_ok _ rfl)

theorem flag_keeps (inp : Input) (d : Decoder) : KeepsInLen d (d.flag inp) :=
  keeps_bind (uniform_keeps inp 2 d) (fun _ _ => keeps_ok _ rfl)

/-- The header keeps `DEC_INLEN`, and its `N` is at most the symbol capacity (R261). -/
theorem header_keeps (inp : Input) (cap : Nat) (d : Decoder) :
    KeepsInLen d (d.header inp cap) ∧ ∀ a, d.header inp cap = .ok a → a.1.count ≤ cap := by
  unfold Decoder.header
  have tail : ∀ (n : Nat) (dist len : Policy) (dummy : Bool) (d4 : Decoder) (x : Coded (LzHeader × Decoder)),
      (x = do
        let (useSpiral, d) ← d4.flag inp
        if useSpiral then
          if dummy then .error (lzFault .corruptHeader 0)
          else
            let (spiral, d) ← d.triple inp
            .ok (⟨n, ⟨dist, len, spiral, true, []⟩, dummy⟩, d)
        else .ok (⟨n, ⟨dist, len, ⟨.whole, 0, 0⟩, false, []⟩, dummy⟩, d)) →
      KeepsInLen d4 x ∧ ∀ a, x = .ok a → a.1.count = n := by
    rintro n dist len dummy d4 x rfl
    constructor
    · refine keeps_bind (flag_keeps inp d4) (fun a _ => ?_)
      rcases a with ⟨u, d5⟩
      dsimp only
      split
      · split
        · exact keeps_error _
        · exact keeps_bind (triple_keeps inp d5) (fun _ _ => keeps_ok _ rfl)
      · exact keeps_ok _ rfl
    · intro b hb
      obtain ⟨⟨u, d5⟩, _, hb⟩ := (coded_bind_eq_ok _ _ _).1 hb
      dsimp only at hb
      split at hb
      · split at hb
        · simp at hb
        · obtain ⟨_, _, hb⟩ := (coded_bind_eq_ok _ _ _).1 hb
          simp only [Except.ok.injEq] at hb; rw [← hb]
      · simp only [Except.ok.injEq] at hb; rw [← hb]
  constructor
  · refine keeps_bind (count_keeps inp 32 d) (fun a _ => ?_)
    rcases a with ⟨n, d1⟩
    dsimp only
    split
    · exact keeps_error _
    · refine keeps_bind (triple_keeps inp d1) (fun a _ => keeps_bind (triple_keeps inp a.2) (fun b _ => ?_))
      split
      · exact keeps_bind (flag_keeps inp b.2) (fun c _ => (tail n a.1 b.1 c.1 c.2 _ rfl).1)
      · exact (tail n a.1 b.1 false b.2 _ rfl).1
  · intro x hx
    obtain ⟨⟨n, d1⟩, _, hx⟩ := (coded_bind_eq_ok _ _ _).1 hx
    dsimp only at hx
    split at hx
    · simp at hx
    · rename_i hn
      obtain ⟨a, _, hx⟩ := (coded_bind_eq_ok _ _ _).1 hx
      obtain ⟨b, _, hx⟩ := (coded_bind_eq_ok _ _ _).1 hx
      split at hx
      · obtain ⟨c, _, hx⟩ := (coded_bind_eq_ok _ _ _).1 hx
        rw [(tail n a.1 b.1 c.1 c.2 _ rfl).2 x hx]; omega
      · rw [(tail n a.1 b.1 false b.2 _ rfl).2 x hx]; omega

theorem copyChunks_length (out : List Word) (start chunk sl : Nat) :
    (copyChunks out start chunk sl).length ≤ out.length + chunk * (sl + 1) := by
  unfold copyChunks
  simp only [List.length_append, List.length_flatten, List.map_replicate, List.sum_replicate, smul_eq_mul]
  have : (((out.drop start).take chunk).length) ≤ chunk := List.length_take_le _ _
  have := Nat.mul_le_mul_left (sl + 1) this
  rw [Nat.mul_comm chunk]; omega

/-- One item keeps `DEC_INLEN` and never passes `N` (R269, R271). -/
theorem bodyItem_spec (inp : Input) (t : FreqTable) (hd : LzHeader) (out : List Word) (d : Decoder)
    (hout : out.length < hd.count) :
    KeepsInLen d (d.bodyItem inp t hd out) ∧ ∀ a, d.bodyItem inp t hd out = .ok a → a.1.length ≤ hd.count := by
  have lit : ∀ base, KeepsInLen d (d.literal inp t base out) ∧ ∀ a, d.literal inp t base out = .ok a → a.1.length ≤ hd.count := by
    intro base
    refine ⟨keeps_bind (symbol_keeps inp t base d) (fun _ _ => keeps_ok _ rfl), fun a ha => ?_⟩
    obtain ⟨b, _, ha⟩ := (coded_bind_eq_ok _ _ _).1 ha
    simp only [Except.ok.injEq] at ha
    rw [← ha]; simp; omega
  have tok : KeepsInLen d (d.token inp t.total hd out) ∧ ∀ a, d.token inp t.total hd out = .ok a → a.1.length ≤ hd.count := by
    unfold Decoder.token Decoder.tokenDistance
    constructor
    · intro a ha
      obtain ⟨d1, h1, ha⟩ := (coded_bind_eq_ok _ _ _).1 ha
      rw [← decNarrow_inLen h1]
      refine keeps_bind (split_keeps inp _ _ d1) (fun b _ => ?_) a ha
      dsimp only
      split
      · exact keeps_error _
      · refine keeps_bind ?_ (fun c _ => ?_)
        · refine keeps_bind (split_keeps inp _ _ b.2) (fun c _ => ?_)
          split
          · exact keeps_bind (split_keeps inp _ _ c.2) (fun _ _ => keeps_ok _ rfl)
          · exact keeps_ok _ rfl
        · split
          · exact keeps_error _
          · exact keeps_ok _ rfl
    · intro a ha
      obtain ⟨d1, h1, ha⟩ := (coded_bind_eq_ok _ _ _).1 ha
      obtain ⟨b, _, ha⟩ := (coded_bind_eq_ok _ _ _).1 ha
      dsimp only at ha
      split at ha
      · simp at ha
      · obtain ⟨c, _, ha⟩ := (coded_bind_eq_ok _ _ _).1 ha
        split at ha
        · simp at ha
        · rename_i hle
          simp only [Except.ok.injEq] at ha
          rw [← ha]
          exact Nat.le_trans (copyChunks_length out _ _ _) (Nat.not_lt.1 hle)
  unfold Decoder.bodyItem
  split
  · exact lit _
  · constructor
    · refine keeps_bind_any (fun v _ => ?_)
      split
      · exact tok.1
      · exact (lit _).1
    · intro a ha
      obtain ⟨v, _, ha⟩ := (coded_bind_eq_ok _ _ _).1 ha
      split at ha
      · exact tok.2 a ha
      · exact (lit _).2 a ha

theorem body_spec (inp : Input) (t : FreqTable) (hd : LzHeader) (fuel : Nat) (out : List Word) (d : Decoder)
    (hout : out.length ≤ hd.count) :
    KeepsInLen d (Decoder.body inp t hd fuel out d) ∧
      ∀ a, Decoder.body inp t hd fuel out d = .ok a → a.1.length ≤ hd.count := by
  induction fuel generalizing out d with
  | zero =>
    refine ⟨keeps_ok _ rfl, fun a ha => ?_⟩
    simp only [Decoder.body, Except.ok.injEq] at ha
    rw [← ha]; exact hout
  | succ fuel ih =>
    unfold Decoder.body
    split
    · rename_i hlt
      obtain ⟨i1, i2⟩ := bodyItem_spec inp t hd out d hlt
      constructor
      · exact keeps_bind i1 (fun a ha => (ih a.1 a.2 (i2 a ha)).1)
      · intro b hb
        obtain ⟨a, ha, hb⟩ := (coded_bind_eq_ok _ _ _).1 hb
        exact (ih a.1 a.2 (i2 a ha)).2 b hb
    · refine ⟨keeps_ok _ rfl, fun a ha => ?_⟩
      simp only [Except.ok.injEq] at ha
      rw [← ha]; exact hout

/-- The stream keeps `DEC_INLEN`; `N` is at most the symbol capacity, and no more than `N` symbols come out (R261, R269). -/
theorem lzStream_spec (inp : Input) (t : FreqTable) (cap : Nat) (d : Decoder) :
    KeepsInLen d (d.lzStream inp t cap) ∧
      ∀ a, d.lzStream inp t cap = .ok a → a.1.1 ≤ cap ∧ a.1.2.length ≤ a.1.1 := by
  obtain ⟨h1, h2⟩ := header_keeps inp cap d
  unfold Decoder.lzStream
  constructor
  · exact keeps_bind h1 (fun a _ => keeps_bind (body_spec inp t a.1 a.1.count [] a.2 (Nat.zero_le _)).1 (fun _ _ => keeps_ok _ rfl))
  · intro b hb
    obtain ⟨a, ha, hb⟩ := (coded_bind_eq_ok _ _ _).1 hb
    obtain ⟨c, hc, hb⟩ := (coded_bind_eq_ok _ _ _).1 hb
    simp only [Except.ok.injEq] at hb
    rw [← hb]
    exact ⟨h2 a ha, (body_spec inp t a.1 a.1.count [] a.2 (Nat.zero_le _)).2 c hc⟩

theorem flush_isSealed {cap : Nat} {e e' : Encoder} (h : e.flush cap = .ok e') : e'.isSealed = true := by
  unfold Encoder.flush at h
  obtain ⟨_, _, h⟩ := (coded_bind_eq_ok _ _ _).1 h
  obtain ⟨_, _, h⟩ := (coded_bind_eq_ok _ _ _).1 h
  obtain ⟨_, _, h⟩ := (coded_bind_eq_ok _ _ _).1 h
  obtain ⟨_, _, h⟩ := (coded_bind_eq_ok _ _ _).1 h
  simp only [Except.ok.injEq] at h
  rw [← h]

theorem flush_prefix {cap : Nat} {e e' : Encoder} (h : e.flush cap = .ok e') : e.bits <+: e'.bits := by
  unfold Encoder.flush at h
  obtain ⟨_, _, h⟩ := (coded_bind_eq_ok _ _ _).1 h
  obtain ⟨a, ha, h⟩ := (coded_bind_eq_ok _ _ _).1 h
  obtain ⟨b, hb, h⟩ := (coded_bind_eq_ok _ _ _).1 h
  obtain ⟨c, hc, h⟩ := (coded_bind_eq_ok _ _ _).1 h
  simp only [Except.ok.injEq] at h
  rw [← h]
  obtain ⟨_, rfl⟩ := addPending_eq_ok.1 hb
  obtain ⟨_, rfl⟩ := emitBit_eq_ok.1 hc
  exact (Encoder.writeAll_prefix _ ha).trans (List.prefix_append _ _)

/-! ### The faults of a trace -/

/-- The faults narrowings with valid Intervals end in: a full stream, or a full pending count (R111, R112). -/
def Raise.Runs (r : Raise) : Prop := r.code = .capacity ∨ r.code = .pendingOvf

theorem emitBit_runs (cap : Nat) (b : Bool) (e : Encoder) : Raises Raise.Runs (e.emitBit cap b) := by
  have app : ∀ (b : Bool) (e : Encoder), Raises Raise.Runs (e.append cap b) := by
    intro b e
    unfold Encoder.append
    split
    · exact raises_error (.inl rfl)
    · exact raises_ok _
  have run : ∀ (n : Nat) (b : Bool) (e : Encoder), Raises Raise.Runs (Encoder.appendRun cap b n e) := by
    intro n
    induction n with
    | zero => exact fun _ _ => raises_ok _
    | succ n ih => exact fun b e => raises_bind (app b e) (fun a _ => ih b a)
  exact raises_bind (app b e) (fun _ _ => raises_bind (run _ _ _) (fun _ _ => raises_ok _))

theorem addPending_runs (e : Encoder) : Raises Raise.Runs e.addPending := by
  unfold Encoder.addPending
  split
  · exact raises_error (.inr rfl)
  · exact raises_ok _

theorem renorm_runs (cap n : Nat) (e : Encoder) : Raises Raise.Runs (Encoder.renorm cap n e) := by
  induction n generalizing e with
  | zero => exact raises_ok _
  | succ n ih =>
    unfold Encoder.renorm
    split
    · exact raises_bind (emitBit_runs cap _ e) (fun _ _ => ih _)
    · exact raises_bind (emitBit_runs cap _ e) (fun _ _ => ih _)
    · exact raises_bind (addPending_runs e) (fun _ _ => ih _)
    · exact raises_ok _

theorem writeAll_runs (cap : Nat) (t : List Interval) (hv : ∀ iv ∈ t, checkInterval iv = .ok ()) (e : Encoder) :
    Raises Raise.Runs (e.writeAll cap t) := by
  induction t generalizing e with
  | nil => exact raises_ok _
  | cons iv rest ih =>
    rw [writeAll_cons]
    refine raises_bind ?_ (fun a _ => ih (fun iv' h => hv iv' (by simp [h])) a)
    unfold Encoder.narrow
    rw [hv iv (by simp)]
    simp only [coded_bind_ok]
    split
    · exact raises_ok _
    · exact renorm_runs cap _ _

theorem Interval.Valid.checked {iv : Interval} (h : iv.Valid) : checkInterval iv = .ok () :=
  (checkInterval_ok iv).2 ⟨h.base_pos, h.base_le, h.fits⟩

/-- A command that writes a trace of valid Intervals and then answers what `done` makes of the encoder. -/
theorem writesTrace_of {i : Instr} {s : State} {trace : List Interval} {done : Encoder → State} (hl : s.cfg.legal = true)
    (hv : ∀ iv ∈ trace, iv.Valid)
    (h : exec i s = s.finish (encode i) (s.enc.writeAll s.cfg.encCap trace >>= fun e => .ok (done e))) :
    s.writesTrace i trace done := by
  have hok : ∀ e, s.enc.writeAll s.cfg.encCap trace = .ok e → exec i s = .next (done e) := by
    intro e he; rw [h, he]; rfl
  refine ⟨hok, fun f hf => ?_, fun hroom => ?_⟩
  · refine ⟨writeAll_runs _ trace (fun iv hiv => (hv iv hiv).checked) s.enc f hf, s.takeFault (encode i) f, ?_, by simp⟩
    rw [h, hf]; rfl
  · have hcap : s.cfg.encCap ≤ 65536 := by
      have := hl; simp only [Config.Params.legal, Bool.and_eq_true, decide_eq_true_eq] at this; omega
    obtain ⟨e, he, _⟩ := Encoder.writeAll_completes trace s.enc hv (cap := s.cfg.encCap)
      (by unfold Encoder.room at hroom; unfold Encoder.weight; omega) (by omega)
    exact ⟨e, he, hok e he⟩

/-! ### What a command can do -/

/-- The class of a command's execution-time faults (R305). -/
def faultClass : Instr → FaultKind
  | .encWriteEqual | .encWritePart | .encWritePartFt | .encWriteFib | .encWriteCount _ | .encWriteSplit _ _ | .encFinish
  | .lzEncode => .encoderRun
  | .decReadFib => .fibRun
  | .lzDecode => .lzDecodeRun
  | .illegal _ | .nop | .blkReset | .encReset | .decReset | .decReadEqual | .decPeek | .decNarrow | .decReadPartFt
  | .decReadCount _ | .decReadSplit _ _ | .ftClear | .ftInsert | .ftRemove | .ftIncrease | .ftCum | .ftFind | .ftTotal
  | .ftWeight => .precise

/-- What a command other than BLK_RESET leaves unchanged when it completes. -/
structure Completed (i : Instr) (s t : State) : Prop where
  host : s.sameHostSide t
  record : t.fault = s.fault ∧ t.faultInfo = s.faultInfo ∧ t.faultAux = s.faultAux
  enc : isEncoderCommand i = false → i ≠ .lzEncode → t.enc = s.enc
  isSealed : i ≠ .encReset → i ≠ .encFinish → t.enc.isSealed = s.enc.isSealed
  dec : (isDecoderCommand i = false ∨ i = .decPeek) → i ≠ .lzDecode → t.dec = s.dec
  inLen : i ≠ .decReset → t.dec.inLen = s.dec.inLen
  ft : (isTableCommand i = false ∨ writesRes i = true) → t.ft = s.ft
  lzN : i ≠ .lzEncode → i ≠ .lzDecode → t.lzN = s.lzN
  res : writesRes i = false → t.res = s.res
  mem : i ≠ .lzDecode → t.mem = s.mem
  freeCount : i ≠ .lzEncode → t.freeCount = s.freeCount
  bits : i ≠ .encReset → s.enc.bits <+: t.enc.bits

theorem completed_refl (i : Instr) (s : State) : Completed i s s :=
  ⟨⟨rfl, rfl, rfl, rfl, rfl, rfl, rfl⟩, ⟨rfl, rfl, rfl⟩, fun _ _ => rfl, fun _ _ => rfl, fun _ _ => rfl, fun _ => rfl,
    fun _ => rfl, fun _ _ => rfl, fun _ => rfl, fun _ => rfl, fun _ => rfl, fun _ => List.prefix_refl _⟩

theorem completed_enc {i : Instr} {s : State} {e : Encoder} (hi : isEncoderCommand i = true)
    (he : i = .encReset ∨ (e.isSealed = s.enc.isSealed ∧ s.enc.bits <+: e.bits)) : Completed i s { s with enc := e } :=
  ⟨⟨rfl, rfl, rfl, rfl, rfl, rfl, rfl⟩, ⟨rfl, rfl, rfl⟩, fun h => absurd hi (by simp [h]),
    fun h _ => he.elim (fun h' => absurd h' h) (·.1), fun _ _ => rfl, fun _ => rfl, fun _ => rfl, fun _ _ => rfl, fun _ => rfl,
    fun _ => rfl, fun _ => rfl, fun h => he.elim (fun h' => absurd h' h) (·.2)⟩

theorem completed_res {i : Instr} {s : State} {v : Word} (hi : writesRes i = true) : Completed i s (s.setRes v) :=
  ⟨⟨rfl, rfl, rfl, rfl, rfl, rfl, rfl⟩, ⟨rfl, rfl, rfl⟩, fun _ _ => rfl, fun _ _ => rfl, fun _ _ => rfl, fun _ => rfl,
    fun _ => rfl, fun _ _ => rfl, fun h => absurd hi (by simp [h]), fun _ => rfl, fun _ => rfl,
    fun _ => List.prefix_refl _⟩

theorem completed_dec {i : Instr} {s : State} {d : Decoder} (hi : isDecoderCommand i = true) (hp : i ≠ .decPeek)
    (hd : i = .decReset ∨ d.inLen = s.dec.inLen) : Completed i s { s with dec := d } :=
  ⟨⟨rfl, rfl, rfl, rfl, rfl, rfl, rfl⟩, ⟨rfl, rfl, rfl⟩, fun _ _ => rfl, fun _ _ => rfl,
    fun h _ => h.elim (fun h => absurd hi (by simp [h])) (fun h => absurd h hp),
    fun h => hd.elim (fun h' => absurd h' h) id, fun _ => rfl, fun _ _ => rfl, fun _ => rfl, fun _ => rfl, fun _ => rfl,
    fun _ => List.prefix_refl _⟩

theorem completed_read {i : Instr} {s : State} {d : Decoder} {v : Word} (hi : isDecoderCommand i = true) (hp : i ≠ .decPeek)
    (hr : writesRes i = true) (hd : d.inLen = s.dec.inLen) : Completed i s (({ s with dec := d } : State).setRes v) :=
  ⟨⟨rfl, rfl, rfl, rfl, rfl, rfl, rfl⟩, ⟨rfl, rfl, rfl⟩, fun _ _ => rfl, fun _ _ => rfl,
    fun h _ => h.elim (fun h => absurd hi (by simp [h])) (fun h => absurd h hp), fun _ => hd, fun _ => rfl, fun _ _ => rfl,
    fun h => absurd hr (by simp [h]), fun _ => rfl, fun _ => rfl, fun _ => List.prefix_refl _⟩

theorem completed_ft {i : Instr} {s : State} {t : FreqTable} (hi : isTableCommand i = true) (hr : writesRes i = false) :
    Completed i s { s with ft := t } :=
  ⟨⟨rfl, rfl, rfl, rfl, rfl, rfl, rfl⟩, ⟨rfl, rfl, rfl⟩, fun _ _ => rfl, fun _ _ => rfl, fun _ _ => rfl, fun _ => rfl,
    fun h => h.elim (fun h => absurd hi (by simp [h])) (fun h => absurd h (by simp [hr])), fun _ _ => rfl, fun _ => rfl,
    fun _ => rfl, fun _ => rfl, fun _ => List.prefix_refl _⟩

/-- A command that ends in `finish` takes one of its faults or completes. -/
theorem finish_cases {w : Word} {s t : State} {x : Coded State} {P : Raise → Prop} {C : State → Prop} (hx : Raises P x)
    (hok : ∀ u, x = .ok u → C u) (h : s.finish w x = .next t) : (∃ r, t = s.takeFault w r ∧ P r) ∨ C t := by
  rcases (finish_next_iff _ _ _ _).1 h with h | ⟨r, hr, ht⟩
  · exact .inr (hok t h)
  · exact .inl ⟨r, ht, hx r hr⟩

theorem encodeTrace_completed {i : Instr} {s u : State} {t : List Interval} (hi : isEncoderCommand i = true)
    (h : s.encodeTrace t = .ok u) : Completed i s u := by
  unfold State.encodeTrace at h
  obtain ⟨e, he, h⟩ := (coded_bind_eq_ok _ _ _).1 h
  simp only [Except.ok.injEq] at h
  rw [← h]
  exact completed_enc hi (.inr ⟨(Encoder.writeAll_ok t he).2.1, Encoder.writeAll_prefix t he⟩)

theorem deliver_completed {i : Instr} {s u : State} {x : Coded (Nat × Decoder)} (hi : isDecoderCommand i = true)
    (hp : i ≠ .decPeek) (hr : writesRes i = true) (hx : KeepsInLen s.dec x) (h : s.deliver x = .ok u) : Completed i s u := by
  unfold State.deliver at h
  obtain ⟨a, ha, h⟩ := (coded_bind_eq_ok _ _ _).1 h
  simp only [Except.ok.injEq] at h
  rw [← h]
  exact completed_read hi hp hr (hx a ha)

theorem deliver_raises {P : Raise → Prop} {s : State} {x : Coded (Nat × Decoder)} (hx : Raises P x) :
    Raises P (s.deliver x) := raises_bind hx (fun _ _ => raises_ok _)

theorem drawPlan_completed (s : State) (e : Encoder) (n v : Word) (he : e.isSealed = s.enc.isSealed)
    (hb : s.enc.bits <+: e.bits) :
    Completed .lzEncode s (({ ({ s with enc := e } : State).drawPlan with lzN := n } : State).setRes v) := by
  unfold State.drawPlan
  dsimp only
  split <;>
    exact ⟨⟨rfl, rfl, rfl, rfl, rfl, rfl, rfl⟩, ⟨rfl, rfl, rfl⟩, fun _ h => absurd rfl h, fun _ _ => he, fun _ _ => rfl,
      fun _ => rfl, fun _ => rfl, fun h => absurd rfl h, fun h => absurd h (by decide), fun _ => rfl, fun h => absurd rfl h,
      fun _ => hb⟩

/-- What a command can do: take a fault of its class, or complete and leave everything outside its unit as it was. -/
theorem exec_cases {i : Instr} {s t : State} (hi : i ≠ .blkReset) (h : exec i s = .next t) :
    (∃ r, t = s.takeFault (encode i) r ∧ r.Of (faultClass i)) ∨ Completed i s t := by
  cases i with
  | illegal upper =>
    simp only [exec, execIllegal, Host.Outcome.next.injEq] at h
    exact .inl ⟨badOpcode, h.symm, of_precise (by decide)⟩
  | nop =>
    simp only [exec, execNop, Host.Outcome.next.injEq] at h
    rw [← h]; exact .inr (completed_refl _ _)
  | blkReset => exact absurd rfl hi
  | encReset =>
    simp only [exec, execEncReset, Host.Outcome.next.injEq] at h
    rw [← h]; exact .inr (completed_enc rfl (.inl rfl))
  | encWriteEqual =>
    refine finish_cases (raises_bind (checkSealed_raises s) (fun _ _ => raises_bind (uniformTrace_raises _ _) (fun _ _ =>
      encodeTrace_raises s _))) (fun u hu => ?_) h
    obtain ⟨_, _, hu⟩ := (coded_bind_eq_ok _ _ _).1 hu
    obtain ⟨_, _, hu⟩ := (coded_bind_eq_ok _ _ _).1 hu
    exact encodeTrace_completed rfl hu
  | encWritePart =>
    refine finish_cases (raises_bind (checkSealed_raises s) (fun _ _ => encodeTrace_raises s _)) (fun u hu => ?_) h
    obtain ⟨_, _, hu⟩ := (coded_bind_eq_ok _ _ _).1 hu
    exact encodeTrace_completed rfl hu
  | encWritePartFt =>
    refine finish_cases (raises_bind (checkSealed_raises s) (fun _ _ => raises_bind (requireInterval_raises _ _) (fun _ _ =>
      encodeTrace_raises s _))) (fun u hu => ?_) h
    obtain ⟨_, _, hu⟩ := (coded_bind_eq_ok _ _ _).1 hu
    obtain ⟨_, _, hu⟩ := (coded_bind_eq_ok _ _ _).1 hu
    exact encodeTrace_completed rfl hu
  | encWriteFib =>
    refine finish_cases (raises_bind (checkSealed_raises s) (fun _ _ => raises_bind ?_ (fun _ _ =>
      encodeTrace_raises s _))) (fun u hu => ?_) h
    · unfold fibTrace
      split
      · exact raises_error (of_precise (by decide))
      · exact uniformTraces_raises _
    · obtain ⟨_, _, hu⟩ := (coded_bind_eq_ok _ _ _).1 hu
      obtain ⟨_, _, hu⟩ := (coded_bind_eq_ok _ _ _).1 hu
      exact encodeTrace_completed rfl hu
  | encWriteCount W =>
    refine finish_cases (raises_bind (checkSealed_raises s) (fun _ _ => raises_bind (countTrace_raises _ _) (fun _ _ =>
      encodeTrace_raises s _))) (fun u hu => ?_) h
    obtain ⟨_, _, hu⟩ := (coded_bind_eq_ok _ _ _).1 hu
    obtain ⟨_, _, hu⟩ := (coded_bind_eq_ok _ _ _).1 hu
    exact encodeTrace_completed rfl hu
  | encWriteSplit r extra =>
    refine finish_cases (raises_bind (checkSealed_raises s) (fun _ _ => raises_bind (argPolicy_raises s r extra) (fun _ _ =>
      raises_bind (splitTrace_raises _ _ _) (fun _ _ => encodeTrace_raises s _)))) (fun u hu => ?_) h
    obtain ⟨_, _, hu⟩ := (coded_bind_eq_ok _ _ _).1 hu
    obtain ⟨_, _, hu⟩ := (coded_bind_eq_ok _ _ _).1 hu
    obtain ⟨_, _, hu⟩ := (coded_bind_eq_ok _ _ _).1 hu
    exact encodeTrace_completed rfl hu
  | encFinish =>
    refine finish_cases (raises_bind (checkSealed_raises s) (fun _ _ => raises_bind (flush_raises _ _) (fun _ _ =>
      raises_ok _))) (fun u hu => ?_) h
    obtain ⟨_, _, hu⟩ := (coded_bind_eq_ok _ _ _).1 hu
    obtain ⟨e, he, hu⟩ := (coded_bind_eq_ok _ _ _).1 hu
    simp only [Except.ok.injEq] at hu
    rw [← hu]
    exact ⟨⟨rfl, rfl, rfl, rfl, rfl, rfl, rfl⟩, ⟨rfl, rfl, rfl⟩, fun h => absurd h (by decide), fun _ h => absurd rfl h,
      fun _ _ => rfl, fun _ => rfl, fun _ => rfl, fun _ _ => rfl, fun h => absurd h (by decide), fun _ => rfl, fun _ => rfl,
      fun _ => flush_prefix he⟩
  | decReset =>
    refine finish_cases ?_ (fun u hu => ?_) h
    · split
      · exact raises_error (of_precise (by decide))
      · exact raises_ok _
    · split at hu
      · simp at hu
      · simp only [Except.ok.injEq] at hu
        rw [← hu]; exact completed_dec rfl (by decide) (.inl rfl)
  | decReadEqual =>
    exact finish_cases (deliver_raises (uniform_raises _ _ _))
      (fun u hu => deliver_completed rfl (by decide) rfl (uniform_keeps _ _ _) hu) h
  | decPeek =>
    refine finish_cases (raises_bind (peek_raises _ _) (fun _ _ => raises_ok _)) (fun u hu => ?_) h
    obtain ⟨v, _, hu⟩ := (coded_bind_eq_ok _ _ _).1 hu
    simp only [Except.ok.injEq] at hu
    rw [← hu]; exact completed_res rfl
  | decNarrow =>
    refine finish_cases (raises_bind (decNarrow_raises _ _ _) (fun _ _ => raises_ok _)) (fun u hu => ?_) h
    obtain ⟨d, hd, hu⟩ := (coded_bind_eq_ok _ _ _).1 hu
    simp only [Except.ok.injEq] at hu
    rw [← hu]; exact completed_dec rfl (by decide) (.inr (decNarrow_inLen hd))
  | decReadPartFt =>
    refine finish_cases ?_ (fun u hu => ?_) h
    · split
      · exact raises_error (of_precise (by decide))
      · exact raises_bind (symbol_raises _ _ _ _) (fun _ _ => raises_ok _)
    · split at hu
      · simp at hu
      · obtain ⟨a, ha, hu⟩ := (coded_bind_eq_ok _ _ _).1 hu
        simp only [Except.ok.injEq] at hu
        rw [← hu]; exact completed_read rfl (by decide) rfl (symbol_keeps _ _ _ _ a ha)
  | decReadFib =>
    exact finish_cases (deliver_raises (fibLoop_raises _ _ _ _ _ _))
      (fun u hu => deliver_completed rfl (by decide) rfl (fibLoop_keeps _ _ _ _ _ _) hu) h
  | decReadCount W =>
    exact finish_cases (deliver_raises (count_raises _ _ _))
      (fun u hu => deliver_completed rfl (by simp) rfl (count_keeps _ _ _) hu) h
  | decReadSplit r extra =>
    refine finish_cases (raises_bind (argPolicy_raises s r extra) (fun _ _ => deliver_raises (split_raises _ _ _ _)))
      (fun u hu => ?_) h
    obtain ⟨_, _, hu⟩ := (coded_bind_eq_ok _ _ _).1 hu
    exact deliver_completed rfl (by simp) rfl (split_keeps _ _ _ _) hu
  | ftClear =>
    simp only [exec, execFtClear, Host.Outcome.next.injEq] at h
    rw [← h]; exact .inr (completed_ft rfl rfl)
  | ftInsert =>
    refine finish_cases (raises_bind (insertKey_raises _ _ _ _) (fun _ _ => raises_ok _)) (fun u hu => ?_) h
    obtain ⟨_, _, hu⟩ := (coded_bind_eq_ok _ _ _).1 hu
    simp only [Except.ok.injEq] at hu
    rw [← hu]; exact completed_ft rfl rfl
  | ftRemove =>
    refine finish_cases (raises_bind (requireWeight_raises _ _) (fun _ _ => raises_ok _)) (fun u hu => ?_) h
    obtain ⟨_, _, hu⟩ := (coded_bind_eq_ok _ _ _).1 hu
    simp only [Except.ok.injEq] at hu
    rw [← hu]; exact completed_ft rfl rfl
  | ftIncrease =>
    refine finish_cases (raises_bind (requireWeight_raises _ _) (fun _ _ => ?_)) (fun u hu => ?_) h
    · split
      · exact raises_error (of_precise (by decide))
      · exact raises_ok _
    · obtain ⟨_, _, hu⟩ := (coded_bind_eq_ok _ _ _).1 hu
      split at hu
      · simp at hu
      · simp only [Except.ok.injEq] at hu
        rw [← hu]; exact completed_ft rfl rfl
  | ftCum =>
    refine finish_cases (raises_bind (requireWeight_raises _ _) (fun _ _ => raises_ok _)) (fun u hu => ?_) h
    obtain ⟨_, _, hu⟩ := (coded_bind_eq_ok _ _ _).1 hu
    simp only [Except.ok.injEq] at hu
    rw [← hu]; exact completed_res rfl
  | ftFind =>
    refine finish_cases ?_ (fun u hu => ?_) h
    · split
      · exact raises_ok _
      · exact raises_error (of_precise (by decide))
    · split at hu
      · simp only [Except.ok.injEq] at hu
        rw [← hu]; exact completed_res rfl
      · simp at hu
  | ftTotal =>
    simp only [exec, execFtTotal, Host.Outcome.next.injEq] at h
    rw [← h]; exact .inr (completed_res rfl)
  | ftWeight =>
    refine finish_cases (raises_bind (requireWeight_raises _ _) (fun _ _ => raises_ok _)) (fun u hu => ?_) h
    obtain ⟨_, _, hu⟩ := (coded_bind_eq_ok _ _ _).1 hu
    simp only [Except.ok.injEq] at hu
    rw [← hu]; exact completed_res rfl
  | lzEncode =>
    refine finish_cases (raises_bind (lzPrecheck_raises s) (fun _ _ => raises_bind (lzTrace_raises _ _ _) (fun _ _ =>
      raises_bind (encodeTrace_raises s _) (fun _ _ => raises_ok _)))) (fun u hu => ?_) h
    obtain ⟨_, _, hu⟩ := (coded_bind_eq_ok _ _ _).1 hu
    obtain ⟨_, _, hu⟩ := (coded_bind_eq_ok _ _ _).1 hu
    obtain ⟨v, hv, hu⟩ := (coded_bind_eq_ok _ _ _).1 hu
    unfold State.encodeTrace at hv
    obtain ⟨e, he, hv⟩ := (coded_bind_eq_ok _ _ _).1 hv
    simp only [Except.ok.injEq] at hv hu
    rw [← hu, ← hv]
    exact drawPlan_completed s e _ _ (Encoder.writeAll_ok _ he).2.1 (Encoder.writeAll_prefix _ he)
  | lzDecode =>
    refine finish_cases (raises_bind (checkModel_raises _) (fun _ _ => raises_bind (lzStream_raises _ _ _ _) (fun _ _ =>
      raises_ok _))) (fun u hu => ?_) h
    obtain ⟨_, _, hu⟩ := (coded_bind_eq_ok _ _ _).1 hu
    obtain ⟨a, ha, hu⟩ := (coded_bind_eq_ok _ _ _).1 hu
    simp only [Except.ok.injEq] at hu
    rw [← hu]
    exact ⟨⟨rfl, rfl, rfl, rfl, rfl, rfl, rfl⟩, ⟨rfl, rfl, rfl⟩, fun _ _ => rfl, fun _ _ => rfl, fun _ h => absurd rfl h,
      fun _ => (lzStream_spec _ _ _ _).1 a ha, fun _ => rfl, fun _ h => absurd rfl h, fun h => absurd h (by decide),
      fun h => absurd rfl h, fun _ => rfl, fun _ => List.prefix_refl _⟩

end Sys2Proof.Machine
end

