-- ==== Sys2Proof/Laws/PerInstr.lean ====
section
/-!
SUPPORT. Laws/PerInstr.lean: what is stated of every instruction as syntax, one lemma per constructor.
-/
namespace Sys2Proof.Laws

/-- The word of an instruction has the fields R70 gives it: the opcode of R74 in [7:0], and the rest above it. -/
def EncodedFields.Statement (i : Instr) : Prop := opField (encode i) = i.opcode ∧ upperField (encode i) = i.upperBits

theorem encodedFields (i : Instr) : EncodedFields.Statement i := by
  refine ⟨?_, ?_⟩
  · show BitVec.extractLsb' 0 8 (i.upperBits ++ i.opcode : BitVec (24 + 8)) = i.opcode
    ext k hk
    rw [BitVec.getElem_extractLsb', BitVec.getLsbD_append, if_pos (by omega), Nat.zero_add, BitVec.getLsbD_eq_getElem]
  · show BitVec.extractLsb' 8 24 (i.upperBits ++ i.opcode : BitVec (24 + 8)) = i.upperBits
    ext k hk
    rw [BitVec.getElem_extractLsb', BitVec.getLsbD_append, if_neg (by omega), Nat.add_sub_cancel_left,
      BitVec.getLsbD_eq_getElem]

theorem EncodedFields.illegal (upper : BitVec 24) : EncodedFields.Statement (.illegal upper) := encodedFields _
theorem EncodedFields.nop : EncodedFields.Statement .nop := encodedFields _
theorem EncodedFields.blkReset : EncodedFields.Statement .blkReset := encodedFields _
theorem EncodedFields.encReset : EncodedFields.Statement .encReset := encodedFields _
theorem EncodedFields.encWriteEqual : EncodedFields.Statement .encWriteEqual := encodedFields _
theorem EncodedFields.encWritePart : EncodedFields.Statement .encWritePart := encodedFields _
theorem EncodedFields.encWritePartFt : EncodedFields.Statement .encWritePartFt := encodedFields _
theorem EncodedFields.encWriteFib : EncodedFields.Statement .encWriteFib := encodedFields _
theorem EncodedFields.encWriteCount (W : Nat) : EncodedFields.Statement (.encWriteCount W) := encodedFields _
theorem EncodedFields.encWriteSplit (r : Nat) (extra : Bool) : EncodedFields.Statement (.encWriteSplit r extra) := encodedFields _
theorem EncodedFields.encFinish : EncodedFields.Statement .encFinish := encodedFields _
theorem EncodedFields.decReset : EncodedFields.Statement .decReset := encodedFields _
theorem EncodedFields.decReadEqual : EncodedFields.Statement .decReadEqual := encodedFields _
theorem EncodedFields.decPeek : EncodedFields.Statement .decPeek := encodedFields _
theorem EncodedFields.decNarrow : EncodedFields.Statement .decNarrow := encodedFields _
theorem EncodedFields.decReadPartFt : EncodedFields.Statement .decReadPartFt := encodedFields _
theorem EncodedFields.decReadFib : EncodedFields.Statement .decReadFib := encodedFields _
theorem EncodedFields.decReadCount (W : Nat) : EncodedFields.Statement (.decReadCount W) := encodedFields _
theorem EncodedFields.decReadSplit (r : Nat) (extra : Bool) : EncodedFields.Statement (.decReadSplit r extra) := encodedFields _
theorem EncodedFields.ftClear : EncodedFields.Statement .ftClear := encodedFields _
theorem EncodedFields.ftInsert : EncodedFields.Statement .ftInsert := encodedFields _
theorem EncodedFields.ftRemove : EncodedFields.Statement .ftRemove := encodedFields _
theorem EncodedFields.ftIncrease : EncodedFields.Statement .ftIncrease := encodedFields _
theorem EncodedFields.ftCum : EncodedFields.Statement .ftCum := encodedFields _
theorem EncodedFields.ftFind : EncodedFields.Statement .ftFind := encodedFields _
theorem EncodedFields.ftTotal : EncodedFields.Statement .ftTotal := encodedFields _
theorem EncodedFields.ftWeight : EncodedFields.Statement .ftWeight := encodedFields _
theorem EncodedFields.lzEncode : EncodedFields.Statement .lzEncode := encodedFields _
theorem EncodedFields.lzDecode : EncodedFields.Statement .lzDecode := encodedFields _

end Sys2Proof.Laws
end

