-- ==== Sys2Proof/Laws/Reference.lean ====
section
/-!
SUPPORT. Laws/Reference.lean: the reference selection is the one the rules give (R223 to R233): every match is found, each
start keeps its longest candidate, and the tokens are exactly the eligible candidates that pass the cost test and meet no
token processed before (`referencePlan_isReference`).
-/
namespace Sys2Proof.Machine

/-! ### Products -/

theorem foldl_mul (l : List Nat) : l.foldl (· * ·) 1 = l.prod := List.prod_eq_foldl.symm

theorem weightOf_eq (t : FreqTable) (x : Word) : t.weightOf x = t.weightIn x := by
  unfold FreqTable.weightOf FreqTable.weightIn
  rw [weight?_eq_lookup]
  cases List.lookup x t <;> rfl

theorem spanWeight_eq (t : FreqTable) (xs : List Word) (c : Candidate) :
    spanWeight t xs c = spanProduct t xs c.start c.covered := by
  unfold spanWeight spanProduct
  rw [foldl_mul, List.map_congr_left (fun x _ => weightOf_eq t x)]

theorem splitCost_eq (p : Policy) (e v : Nat) : splitCost p e v = splitCodeCost p.mode.number p.max p.threshold e v := by
  unfold splitCost splitCodeCost
  rw [foldl_mul, effective_pairs]

/-! ### Matches (R223) -/

theorem commonPrefix_max (a b : List Word) (h : commonPrefix a b < a.length) (h' : commonPrefix a b < b.length) :
    a[commonPrefix a b]? ≠ b[commonPrefix a b]? := by
  induction a generalizing b with
  | nil => simp at h
  | cons x a ih =>
    cases b with
    | nil => simp at h'
    | cons y b =>
      simp only [commonPrefix] at h h' ⊢
      split
      · rename_i hxy
        rw [if_pos hxy] at h h'
        simpa using ih b (by simpa using h) (by simpa using h')
      · rename_i hxy
        simpa using hxy

/-- The model's match length is the length R223 names, and the only one. -/
theorem isMatch_iff {cfg : Config.Params} {xs : List Word} {i j k : Nat} :
    isMatch cfg xs i j k ↔
      j + 2 ≤ i ∧ i - j < cfg.dictSize ∧ i + cfg.prefixLen ≤ xs.length ∧ cfg.prefixLen ≤ matchLength xs i j ∧
        k = matchLength xs i j := by
  have hmax : j + 2 ≤ i → i ≤ xs.length → matchLength xs i j ≤ min (xs.length - i) 65537 ∧
      (∀ m, m < matchLength xs i j → xs[j + m]? = xs[i + m]?) ∧
      (matchLength xs i j = min (xs.length - i) 65537 ∨
        xs[j + matchLength xs i j]? ≠ xs[i + matchLength xs i j]?) := by
    intro hji hi
    obtain ⟨h1, _, h3⟩ := commonPrefix_spec (xs.drop i) (xs.drop j)
    have h4 := commonPrefix_max (xs.drop i) (xs.drop j)
    rw [List.length_drop] at h1
    rw [List.length_drop, List.length_drop, List.getElem?_drop, List.getElem?_drop] at h4
    have hm : matchLength xs i j = min (commonPrefix (xs.drop i) (xs.drop j)) 65537 := rfl
    refine ⟨by omega, fun m hm' => ((matchLength_spec xs i j).2.2 m hm').symm, ?_⟩
    by_cases hlt : commonPrefix (xs.drop i) (xs.drop j) < min (xs.length - i) 65537
    · right
      rw [hm, show min (commonPrefix (xs.drop i) (xs.drop j)) 65537 = commonPrefix (xs.drop i) (xs.drop j) by omega]
      exact (h4 (by omega) (by omega)).symm
    · left; omega
  constructor
  · rintro ⟨h1, h2, h3, h4, h5, h6, h7⟩
    obtain ⟨m1, m2, m3⟩ := hmax h1 (by omega)
    have hk : k = matchLength xs i j := by
      rcases Nat.lt_trichotomy k (matchLength xs i j) with hlt | heq | hgt
      · rcases h7 with h7 | h7
        · omega
        · exact absurd (m2 k hlt) h7
      · exact heq
      · rcases m3 with m3 | m3
        · omega
        · exact absurd (h6 _ hgt) m3
    exact ⟨h1, h2, h3, by omega, hk⟩
  · rintro ⟨h1, h2, h3, h4, rfl⟩
    obtain ⟨m1, m2, m3⟩ := hmax h1 (by omega)
    exact ⟨h1, h2, h3, h4, m1, m2, m3⟩

theorem takeWhile_eq_filter {p : Nat → Bool} {l : List Nat} (h : l.Pairwise (fun a b => p b = true → p a = true)) :
    l.takeWhile p = l.filter p := by
  induction l with
  | nil => rfl
  | cons x l ih =>
    obtain ⟨h1, h2⟩ := List.pairwise_cons.1 h
    by_cases hx : p x = true
    · rw [List.takeWhile_cons_of_pos hx, List.filter_cons_of_pos hx, ih h2]
    · rw [List.takeWhile_cons_of_neg hx, List.filter_cons_of_neg hx]
      exact (List.filter_eq_nil_iff.2 fun a ha hp => hx (h1 a ha hp)).symm

theorem predecessors_eq (dictSize i : Nat) :
    predecessors dictSize i = (List.range (i - 1)).reverse.filter (fun j => i - j < dictSize) := by
  refine takeWhile_eq_filter ?_
  rw [List.pairwise_reverse]
  exact List.pairwise_lt_range.imp fun {a b} hab h => by simp only [decide_eq_true_eq] at h ⊢; omega

/-- The predecessors a start visits (R223). -/
theorem mem_predecessors_iff {dictSize i j : Nat} : j ∈ predecessors dictSize i ↔ j + 2 ≤ i ∧ i - j < dictSize := by
  rw [predecessors_eq]
  simp only [List.mem_filter, List.mem_reverse, List.mem_range, decide_eq_true_eq]
  omega

/-- The nearest predecessor is visited first (R223). -/
theorem predecessors_sorted (dictSize i : Nat) : (predecessors dictSize i).Pairwise (fun a b => b < a) := by
  rw [predecessors_eq]
  refine List.Pairwise.filter _ ?_
  rw [List.pairwise_reverse]
  exact List.pairwise_lt_range

/-! ### Candidates (R224, R225) -/

theorem formCandidate_formed (spiralEnable : Bool) (i j k : Nat) :
    (formCandidate spiralEnable i j k).formedBy spiralEnable i (i - j) k := by
  unfold formCandidate Candidate.formedBy
  dsimp only
  split
  · exact ⟨rfl, rfl, rfl, rfl⟩
  · split
    · exact ⟨rfl, rfl, rfl, rfl, rfl⟩
    · exact ⟨rfl, rfl, rfl, rfl, rfl⟩

theorem formedBy_covered {spiralEnable : Bool} {i p k : Nat} {c c' : Candidate} (h : c.formedBy spiralEnable i p k)
    (h' : c'.formedBy spiralEnable i p k) : c.covered = c'.covered := by
  unfold Candidate.formedBy at h h'
  obtain ⟨_, h⟩ := h
  obtain ⟨_, h'⟩ := h'
  unfold Candidate.covered
  by_cases h1 : spiralEnable = true ∧ 2 * p ≤ k
  · rw [if_pos h1] at h h'
    rw [h.2.1, h.2.2, h'.2.1, h'.2.2]
  · rw [if_neg h1] at h h'
    by_cases h2 : p < k
    · rw [if_pos h2] at h h'
      rw [h.2.1, h.2.2.1, h'.2.1, h'.2.2.1]
    · rw [if_neg h2] at h h'
      rw [h.2.1, h.2.2.1, h'.2.1, h'.2.2.1]

theorem rawFilter_iff {t : FreqTable} {dictSize : Nat} {xs : List Word} {c : Candidate} :
    rawFilter t dictSize xs c = true ↔
      21 * dictSize * c.covered * spanProduct t xs c.start c.covered < t.total ^ c.covered := by
  unfold rawFilter
  rw [spanWeight_eq, decide_eq_true_eq]
  exact Iff.rfl

/-- A candidate the model forms at `(i, j)` is one the rules find there. -/
theorem found_of_candidateAt {cfg : Config.Params} {t : FreqTable} {xs : List Word} {i j : Nat} {c : Candidate}
    (hj : j ∈ predecessors cfg.dictSize i) (h : candidateAt cfg t xs i j = some c) : isFound cfg t xs i j c ∧ c.start = i := by
  obtain ⟨h1, h2⟩ := mem_predecessors_iff.1 hj
  unfold candidateAt at h
  dsimp only at h
  split at h
  · rename_i hpre
    split at h
    · rename_i hraw
      simp only [Option.some.injEq] at h
      have hf := formCandidate_formed cfg.spiralEnable i j (matchLength xs i j)
      have hs : (formCandidate cfg.spiralEnable i j (matchLength xs i j)).start = i := hf.1
      subst h
      refine ⟨⟨_, isMatch_iff.2 ⟨h1, h2, hpre.1, hpre.2, rfl⟩, hf, ?_⟩, hs⟩
      have := rawFilter_iff.1 hraw
      rwa [hs] at this
    · simp at h
  · simp at h

/-- A candidate the rules find at `(i, j)` is the model's, but for a spiral's `dist`. -/
theorem candidateAt_of_found {cfg : Config.Params} {t : FreqTable} {xs : List Word} {i j : Nat} {c : Candidate}
    (h : isFound cfg t xs i j c) :
    j ∈ predecessors cfg.dictSize i ∧ ∃ c', candidateAt cfg t xs i j = some c' ∧ c'.covered = c.covered := by
  obtain ⟨k, hm, hf, hraw⟩ := h
  obtain ⟨h1, h2, h3, h4, rfl⟩ := isMatch_iff.1 hm
  refine ⟨mem_predecessors_iff.2 ⟨h1, h2⟩, formCandidate cfg.spiralEnable i j (matchLength xs i j), ?_, ?_⟩
  · have hcov := formedBy_covered (formCandidate_formed cfg.spiralEnable i j (matchLength xs i j)) hf
    unfold candidateAt
    dsimp only
    rw [if_pos ⟨h3, h4⟩, if_pos]
    rw [rawFilter_iff, hcov, show (formCandidate cfg.spiralEnable i j (matchLength xs i j)).start = i from
      (formCandidate_formed cfg.spiralEnable i j (matchLength xs i j)).1]
    exact hraw
  · exact formedBy_covered (formCandidate_formed _ _ _ _) hf

/-! ### Kept candidates (R226) -/

/-- The longest candidate is kept, and among equals the one found first. -/
theorem keepLongest_some {f : Nat → Option Candidate} (l : List Nat) {b c : Candidate} {jb : Nat} (hb : f jb = some b)
    (hlt : ∀ j ∈ l, j < jb) (hl : l.Pairwise (fun a b => b < a))
    (h : keepLongest (some b) (l.filterMap f) = some c) :
    ∃ j, (j = jb ∨ j ∈ l) ∧ f j = some c ∧
      ∀ j', (j' = jb ∨ j' ∈ l) → ∀ c', f j' = some c' → c'.covered < c.covered ∨ (c'.covered = c.covered ∧ j' ≤ j) := by
  induction l generalizing b jb with
  | nil =>
    simp only [List.filterMap_nil, keepLongest, Option.some.injEq] at h
    subst h
    refine ⟨jb, .inl rfl, hb, ?_⟩
    intro j' hj' c' hc'
    rcases hj' with rfl | hj'
    · rw [hb] at hc'; simp only [Option.some.injEq] at hc'; subst hc'; exact .inr ⟨rfl, Nat.le_refl _⟩
    · simp at hj'
  | cons x l ih =>
    obtain ⟨hx, hl'⟩ := List.pairwise_cons.1 hl
    have hxb := hlt x (by simp)
    cases hfx : f x with
    | none =>
      rw [List.filterMap_cons_none hfx] at h
      obtain ⟨j, hj, hfj, hmax⟩ := ih hb (fun j hj => hlt j (by simp [hj])) hl' h
      refine ⟨j, hj.imp id (by simp; exact .inr), hfj, ?_⟩
      intro j' hj' c' hc'
      rcases hj' with rfl | hj'
      · exact hmax _ (.inl rfl) c' hc'
      · rcases List.mem_cons.1 hj' with rfl | hj'
        · rw [hfx] at hc'; simp at hc'
        · exact hmax _ (.inr hj') c' hc'
    | some cx =>
      rw [List.filterMap_cons_some hfx] at h
      simp only [keepLongest] at h
      split at h
      · rename_i hgt
        obtain ⟨j, hj, hfj, hmax⟩ := ih hfx hx hl' h
        have hxc := hmax x (.inl rfl) cx hfx
        refine ⟨j, .inr (by simpa using hj), hfj, ?_⟩
        intro j' hj' c' hc'
        rcases hj' with rfl | hj'
        · rw [hb] at hc'; simp only [Option.some.injEq] at hc'; subst hc'; left; omega
        · exact hmax j' (by simpa using hj') c' hc'
      · rename_i hle
        obtain ⟨j, hj, hfj, hmax⟩ := ih hb (fun j hj => hlt j (by simp [hj])) hl' h
        have hbc := hmax jb (.inl rfl) b hb
        refine ⟨j, hj.imp id (by simp; exact .inr), hfj, ?_⟩
        intro j' hj' c' hc'
        rcases hj' with rfl | hj'
        · exact hmax _ (.inl rfl) c' hc'
        · rcases List.mem_cons.1 hj' with rfl | hj'
          · rw [hfx] at hc'; simp only [Option.some.injEq] at hc'; subst hc'; omega
          · exact hmax _ (.inr hj') c' hc'

theorem keepLongest_none_start {f : Nat → Option Candidate} (l : List Nat) {c : Candidate}
    (hl : l.Pairwise (fun a b => b < a)) (h : keepLongest none (l.filterMap f) = some c) :
    ∃ j, j ∈ l ∧ f j = some c ∧
      ∀ j', j' ∈ l → ∀ c', f j' = some c' → c'.covered < c.covered ∨ (c'.covered = c.covered ∧ j' ≤ j) := by
  induction l with
  | nil => simp [keepLongest] at h
  | cons x l ih =>
    obtain ⟨hx, hl'⟩ := List.pairwise_cons.1 hl
    cases hfx : f x with
    | none =>
      rw [List.filterMap_cons_none hfx] at h
      obtain ⟨j, hj, hfj, hmax⟩ := ih hl' h
      refine ⟨j, by simp [hj], hfj, ?_⟩
      intro j' hj' c' hc'
      rcases List.mem_cons.1 hj' with rfl | hj'
      · rw [hfx] at hc'; simp at hc'
      · exact hmax _ hj' c' hc'
    | some cx =>
      rw [List.filterMap_cons_some hfx] at h
      simp only [keepLongest] at h
      obtain ⟨j, hj, hfj, hmax⟩ := keepLongest_some l hfx hx hl' h
      exact ⟨j, by simpa using hj, hfj, fun j' hj' => hmax j' (by simpa using hj')⟩

theorem keepLongest_eq_none {best : Option Candidate} (l : List Candidate) (h : keepLongest best l = none) :
    best = none ∧ l = [] := by
  induction l generalizing best with
  | nil => exact ⟨h, rfl⟩
  | cons x l ih =>
    cases best with
    | none => exact absurd (ih h).1 (by simp)
    | some b => exact absurd (ih h).1 (by simp)

theorem keptAt_spec {cfg : Config.Params} {t : FreqTable} {xs : List Word} {i : Nat} {c : Candidate}
    (h : keptAt cfg t xs i = some c) : isKept cfg t xs i c ∧ c.start = i := by
  obtain ⟨j, hj, hc, hmax⟩ := keepLongest_none_start _ (predecessors_sorted cfg.dictSize i) h
  obtain ⟨hf, hs⟩ := found_of_candidateAt hj hc
  refine ⟨⟨j, hf, fun j' c' hf' => ?_⟩, hs⟩
  obtain ⟨hj', c'', hc'', hcov⟩ := candidateAt_of_found hf'
  rw [← hcov]
  exact hmax j' hj' c'' hc''

theorem keptCandidates_sorted (cfg : Config.Params) (t : FreqTable) (xs : List Word) :
    (keptCandidates cfg t xs).Pairwise (fun c c' => c.start < c'.start) := by
  refine List.Pairwise.filterMap _ ?_ (List.pairwise_lt_range (n := xs.length))
  intro i i' hii c hc c' hc'
  rw [(keptAt_spec hc).2, (keptAt_spec hc').2]
  exact hii

/-! ### The order (R231) -/

theorem before_trans {a b c : Candidate} (h : a.before b) (h' : b.before c) : a.before c := by
  unfold Candidate.before at *; omega

theorem before_asymm {a b : Candidate} (h : a.before b) : ¬b.before a := by unfold Candidate.before at *; omega

theorem insertByCovered_sorted {c : Candidate} {l : List Candidate} (hl : l.Pairwise Candidate.before)
    (hc : ∀ b ∈ l, b.start < c.start) : (insertByCovered c l).Pairwise Candidate.before := by
  induction l with
  | nil => exact List.pairwise_singleton _ _
  | cons b l ih =>
    obtain ⟨h1, h2⟩ := List.pairwise_cons.1 hl
    unfold insertByCovered
    split
    · rename_i hgt
      have hcb : c.before b := .inl hgt
      refine List.pairwise_cons.2 ⟨fun x hx => ?_, hl⟩
      rcases List.mem_cons.1 hx with rfl | hx
      · exact hcb
      · exact before_trans hcb (h1 x hx)
    · rename_i hle
      refine List.pairwise_cons.2 ⟨fun x hx => ?_, ih h2 (fun b hb => hc b (by simp [hb]))⟩
      rcases mem_insertByCovered.1 hx with rfl | hx
      · have := hc b (by simp)
        unfold Candidate.before; omega
      · exact h1 x hx

/-- Candidates given by rising start come out in the order of R231. -/
theorem selectionOrder_sorted {cs : List Candidate} (h : cs.Pairwise (fun c c' => c.start < c'.start)) :
    (selectionOrder cs).Pairwise Candidate.before := by
  have key : ∀ acc : List Candidate, acc.Pairwise Candidate.before → (∀ a ∈ acc, ∀ c ∈ cs, a.start < c.start) →
      (cs.foldl (fun acc c => insertByCovered c acc) acc).Pairwise Candidate.before := by
    induction cs with
    | nil => exact fun acc ha _ => ha
    | cons c cs ih =>
      intro acc ha hac
      obtain ⟨h1, h2⟩ := List.pairwise_cons.1 h
      rw [List.foldl_cons]
      refine ih h2 _ (insertByCovered_sorted ha fun b hb => hac b hb c (by simp)) ?_
      intro a haa x hx
      rcases mem_insertByCovered.1 haa with rfl | haa
      · exact h1 x hx
      · exact hac a haa x (by simp [hx])
  exact key [] List.Pairwise.nil (by simp)

/-! ### The tokens (R231) -/

/-- What the selection adds to the tokens it has: exactly the candidates that are accepted and overlap neither a token it had
nor one added before. -/
theorem selected_iff (t : FreqTable) (xs : List Word) (plan : LzPlan) (l : List Candidate)
    (hl : l.Pairwise Candidate.before) (acc : List Candidate) :
    ∃ new, l.foldl (considerCandidate t xs plan) acc = acc ++ new ∧
      ∀ c, c ∈ new ↔ c ∈ l ∧ accept t xs plan c = true ∧
        ∀ c' ∈ acc ++ new, (c' ∈ acc ∨ c'.before c) → c.overlaps c' = false := by
  induction l generalizing acc with
  | nil => exact ⟨[], by simp, by simp⟩
  | cons x l ih =>
    obtain ⟨h1, h2⟩ := List.pairwise_cons.1 hl
    rw [List.foldl_cons, show considerCandidate t xs plan acc x =
      if acc.any x.overlaps then acc else if accept t xs plan x then acc ++ [x] else acc from rfl]
    by_cases hany : acc.any x.overlaps = true
    · rw [if_pos hany]
      obtain ⟨new, hn, hm⟩ := ih h2 acc
      refine ⟨new, hn, fun c => ?_⟩
      rw [hm]
      refine ⟨fun ⟨a, b⟩ => ⟨by simp [a], b⟩, fun ⟨a, b, d⟩ => ⟨?_, b, d⟩⟩
      rcases List.mem_cons.1 a with rfl | a
      · obtain ⟨y, hy, hov⟩ := List.any_eq_true.1 hany
        rw [d y (by simp [hy]) (.inl hy)] at hov
        exact absurd hov (by decide)
      · exact a
    · rw [if_neg hany]
      by_cases hacc : accept t xs plan x = true
      · rw [if_pos hacc]
        obtain ⟨new, hn, hm⟩ := ih h2 (acc ++ [x])
        refine ⟨x :: new, by rw [hn, List.append_assoc]; rfl, fun c => ?_⟩
        have hno : ∀ y ∈ acc, x.overlaps y = false := by simpa using hany
        have hin : ∀ y ∈ new, y ∈ l := fun y hy => ((hm y).1 hy).1
        simp only [List.mem_cons]
        constructor
        · rintro (rfl | hc)
          · refine ⟨.inl rfl, hacc, fun c' hc' hor => ?_⟩
            rcases hor with hor | hor
            · exact hno c' hor
            · rcases List.mem_append.1 hc' with hc' | hc'
              · exact hno c' hc'
              · rcases List.mem_cons.1 hc' with rfl | hc'
                · exact absurd hor (before_asymm hor)
                · exact absurd hor (before_asymm (h1 c' (hin c' hc')))
          · obtain ⟨a, b, d⟩ := (hm c).1 hc
            refine ⟨.inr a, b, fun c' hc' hor => d c' (by simpa using hc') ?_⟩
            exact hor.imp (fun h => by simp [h]) id
        · rintro ⟨rfl | hc, b, d⟩
          · exact .inl rfl
          · refine .inr ((hm c).2 ⟨hc, b, fun c' hc' hor => ?_⟩)
            refine d c' (by simpa using hc') ?_
            rcases hor with hor | hor
            · rcases List.mem_append.1 hor with hor | hor
              · exact .inl hor
              · simp only [List.mem_singleton] at hor; subst hor; exact .inr (h1 c hc)
            · exact .inr hor
      · rw [if_neg hacc]
        obtain ⟨new, hn, hm⟩ := ih h2 acc
        refine ⟨new, hn, fun c => ?_⟩
        rw [hm]
        refine ⟨fun ⟨a, b⟩ => ⟨by simp [a], b⟩, fun ⟨a, b, d⟩ => ⟨?_, b, d⟩⟩
        rcases List.mem_cons.1 a with rfl | a
        · exact absurd b hacc
        · exact a

theorem eligible_iff {n parts : Nat} {c : Candidate} : eligible n parts c = true ↔ isEligible n parts c := by
  unfold eligible isEligible
  simp only [List.any_eq_true, List.mem_range, Bool.and_eq_true, decide_eq_true_eq]

theorem accept_iff {t : FreqTable} {xs : List Word} {plan : LzPlan} {c : Candidate} :
    accept t xs plan c = true ↔ isAccepted t xs plan c := by
  unfold accept isAccepted
  rw [spanWeight_eq, splitCost_eq, splitCost_eq, splitCost_eq, decide_eq_true_eq]
  exact Iff.rfl

/-- Two candidates that cover something share a position exactly where their spans overlap. -/
theorem meets_iff {a b : Candidate} (ha : 0 < a.covered) (hb : 0 < b.covered) : a.meets b ↔ b.overlaps a = true := by
  unfold Candidate.meets Candidate.overlaps
  simp only [Bool.and_eq_true, decide_eq_true_eq]
  constructor
  · rintro ⟨x, h1, h2, h3, h4⟩; omega
  · rintro ⟨h1, h2⟩
    exact ⟨max a.start b.start, by omega, by omega, by omega, by omega⟩

/-- The reference selection is the one the rules give (R223 to R233). -/
theorem referencePlan_isReference {cfg : Config.Params} (hcfg : cfg.legal = true) (t : FreqTable) (xs : List Word) :
    (referencePlan cfg t xs).IsReference cfg t xs (keptCandidates cfg t xs) := by
  have kept : ∀ c ∈ keptCandidates cfg t xs, keptAt cfg t xs c.start = some c := by
    intro c hc
    obtain ⟨i, _, hi⟩ := List.mem_filterMap.1 hc
    rw [(keptAt_spec hi).2]; exact hi
  have cov : ∀ c ∈ keptCandidates cfg t xs, 0 < c.covered := by
    intro c hc
    have hc2 := (kept_sound hcfg hc).chunk_ge
    exact Nat.lt_of_lt_of_le (by omega : 0 < c.chunk) (Nat.le_mul_of_pos_right _ (Nat.succ_pos _))
  have hin := (referenceTokens_spec cfg t xs).2
  constructor
  · exact fun c hc => (keptAt_spec (kept c hc)).1
  · intro i j c hf
    obtain ⟨hj, c', hc', _⟩ := candidateAt_of_found hf
    have hi : i < xs.length := by
      obtain ⟨k, hm, _⟩ := hf
      have hp : 2 ≤ cfg.prefixLen := by simp [Config.Params.legal] at hcfg; omega
      have := hm.2.2.1
      omega
    cases hk : keptAt cfg t xs i with
    | some b => exact ⟨b, List.mem_filterMap.2 ⟨i, List.mem_range.2 hi, hk⟩, (keptAt_spec hk).2⟩
    | none =>
      have hnil := (keepLongest_eq_none _ hk).2
      have : c' ∈ (predecessors cfg.dictSize i).filterMap (candidateAt cfg t xs i) := List.mem_filterMap.2 ⟨j, hj, hc'⟩
      rw [hnil] at this
      simp at this
  · exact keptCandidates_sorted cfg t xs
  · exact List.any_eq_true
  · rfl
  · rfl
  · rfl
  · intro c
    obtain ⟨new, hn, hm⟩ := selected_iff t xs (planOf (keptCandidates cfg t xs))
      (selectionOrder ((keptCandidates cfg t xs).filter (eligible xs.length cfg.parts)))
      (selectionOrder_sorted ((keptCandidates_sorted cfg t xs).filter _)) []
    have htok : (referencePlan cfg t xs).tokens = new := hn
    rw [htok] at hin ⊢
    rw [hm, mem_selectionOrder, List.mem_filter, eligible_iff, accept_iff]
    constructor
    · rintro ⟨⟨h1, h2⟩, h3, h4⟩
      refine ⟨h1, h2, h3, fun c' hc' hb hmeet => ?_⟩
      have := h4 c' (by simpa using hc') (.inr hb)
      rw [(meets_iff (cov c' (hin c' hc').1) (cov c h1)).1 hmeet] at this
      exact absurd this (by decide)
    · rintro ⟨h1, h2, h3, h4⟩
      refine ⟨⟨h1, h2⟩, h3, fun c' hc' hor => ?_⟩
      have hc'' : c' ∈ new := by simpa using hc'
      have hb : c'.before c := by simpa using hor
      cases hov : c.overlaps c' with
      | false => rfl
      | true => exact absurd ((meets_iff (cov c' (hin c' hc'').1) (cov c h1)).2 hov) (h4 c' hc'' hb)

end Sys2Proof.Machine
end

