-- ==== Sys2Proof/Laws/RoundTrip.lean ====
section
/-!
SUPPORT. Laws/RoundTrip.lean: the code point an emitted bit sequence stands for, and that the decoder follows the encoder
along it (R103, R126, R144, R157).
-/
namespace Sys2Proof.Machine

/-! ### Numbers written in bits -/

/-- The number the `n` bits from position `p` stand for, most significant first; zeros follow the end of the sequence. -/
def bitsAt (B : List Bool) (p : Nat) : Nat → Nat
  | 0 => 0
  | n + 1 => 2 * bitsAt B p n + (B.getD (p + n) false).toNat

theorem bitsAt_succ (B : List Bool) (p n : Nat) :
    bitsAt B p (n + 1) = 2 * bitsAt B p n + (B.getD (p + n) false).toNat := rfl

theorem bitsAt_lt (B : List Bool) (p n : Nat) : bitsAt B p n < 2 ^ n := by
  induction n with
  | zero => simp [bitsAt]
  | succ n ih =>
    have := bool_toNat_le (B.getD (p + n) false)
    rw [Nat.pow_succ]; simp only [bitsAt]; omega

theorem bitsAt_add (B : List Bool) (p m n : Nat) : bitsAt B p (m + n) = bitsAt B p m * 2 ^ n + bitsAt B (p + m) n := by
  induction n with
  | zero => simp [bitsAt]
  | succ n ih =>
    rw [← Nat.add_assoc]
    simp only [bitsAt]
    rw [ih, Nat.pow_succ, Nat.add_assoc p m n, Nat.mul_add, ← Nat.mul_assoc, Nat.mul_comm 2, Nat.mul_assoc,
      Nat.mul_comm 2 (2 ^ n)]
    omega

theorem bitsAt_zeros (B : List Bool) (p n : Nat) (h : ∀ k, k < n → B.getD (p + k) false = false) : bitsAt B p n = 0 := by
  induction n with
  | zero => rfl
  | succ n ih =>
    simp only [bitsAt]
    rw [ih (fun k hk => h k (by omega)), h n (by omega)]; rfl

theorem bitsAt_ones (B : List Bool) (p n : Nat) (h : ∀ k, k < n → B.getD (p + k) false = true) :
    bitsAt B p n = 2 ^ n - 1 := by
  induction n with
  | zero => rfl
  | succ n ih =>
    have : 1 ≤ 2 ^ n := Nat.one_le_two_pow
    simp only [bitsAt]
    rw [ih (fun k hk => h k (by omega)), h n (by omega), Nat.pow_succ]
    simp; omega

/-- An emitted bit and the inverted ones after it, as a number. -/
theorem bitsAt_emitted {B bits : List Bool} {b : Bool} {q : Nat} (h : bits ++ b :: List.replicate q (!b) <+: B) :
    bitsAt B bits.length (1 + q) = if b then 2 ^ q else 2 ^ q - 1 := by
  obtain ⟨tail, rfl⟩ := h
  have h0 : (bits ++ b :: List.replicate q (!b) ++ tail).getD bits.length false = b := by
    simp [List.getD_eq_getElem?_getD]
  have hk : ∀ k, k < q → (bits ++ b :: List.replicate q (!b) ++ tail).getD (bits.length + 1 + k) false = !b := by
    intro k hk
    rw [List.getD_eq_getElem?_getD, List.append_assoc, List.getElem?_append_right (by omega),
      show bits.length + 1 + k - bits.length = k + 1 by omega, List.cons_append, List.getElem?_cons_succ,
      List.getElem?_append_left (by simpa using hk), List.getElem?_replicate, if_pos hk]
    rfl
  rw [bitsAt_add]
  have h1 : bitsAt (bits ++ b :: List.replicate q (!b) ++ tail) bits.length 1 = b.toNat := by
    simp only [bitsAt, Nat.add_zero, h0]; omega
  rw [h1]
  cases b with
  | true => rw [bitsAt_zeros _ _ _ (by simpa using hk)]; simp
  | false => rw [bitsAt_ones _ _ _ (by simpa using hk)]; simp

/-! ### The code point -/

/-- `x` is the code point of the sequence `B` for an encoder that has emitted its first bits: the next 32 bits, after the
subtractions the pending bits stand for (R103, R144). -/
def CodePoint (B : List Bool) (e : Encoder) (x : Nat) : Prop :=
  bitsAt B e.bits.length (e.pending.toNat + 32) = x + 2147483648 * (2 ^ e.pending.toNat - 1)

/-- The sequence continues what the encoder emitted, and its code point lies in the encoder's interval. -/
def Encoder.Holds (B : List Bool) (e : Encoder) : Prop :=
  e.bits <+: B ∧ ∃ x, CodePoint B e x ∧ e.low.toNat ≤ x ∧ x ≤ e.high.toNat

theorem codePoint_unique {B : List Bool} {e : Encoder} {x y : Nat} (hx : CodePoint B e x) (hy : CodePoint B e y) : x = y := by
  unfold CodePoint at hx hy; omega

theorem pending_succ {w : Word} (h : w.toNat ≠ 4294967295) : (w + 1).toNat = w.toNat + 1 := by
  have := word_lt w
  have h1 : (1 : Word).toNat = 1 := rfl
  rw [BitVec.toNat_add, h1]; omega

@[simp] theorem double_pending (st : RenormStep) (e : Encoder) : (e.double st).pending = e.pending := rfl

@[simp] theorem double_bits (st : RenormStep) (e : Encoder) : (e.double st).bits = e.bits := rfl

theorem codePoint_double {B : List Bool} {st : RenormStep} {e : Encoder} {x : Nat} :
    CodePoint B (e.double st) x ↔ CodePoint B e x := Iff.rfl

/-- One step of the encoder's loop moves the code point as the decoder's step moves its value (R103, R144). -/
theorem codePoint_step {cap : Nat} {B : List Bool} {e a : Encoder} {st : RenormStep} (hst : st ≠ .done)
    (ha : e.stepBits cap st = .ok a) (hp : a.bits <+: B) {x' : Nat} (hx : CodePoint B (a.double st) x') :
    e.bits <+: B ∧ (a.double st).bits.length + (a.double st).pending.toNat = e.bits.length + e.pending.toNat + 1 ∧
      ∃ x, CodePoint B e x ∧ st.offset ≤ x ∧
        x' = 2 * (x - st.offset) + (B.getD (e.bits.length + e.pending.toNat + 32) false).toNat := by
  rw [codePoint_double] at hx
  rw [double_pending, double_bits]
  have zero : (0 : Word).toNat = 0 := rfl
  have emit : ∀ b : Bool, e.emitBit cap b = .ok a → CodePoint B a x' →
      e.bits <+: B ∧ a.bits.length + a.pending.toNat = e.bits.length + e.pending.toNat + 1 ∧
        ∃ y, bitsAt B e.bits.length (e.pending.toNat + 32) =
            (if b then 2 ^ e.pending.toNat else 2 ^ e.pending.toNat - 1) * 2147483648 + y ∧
          x' = 2 * y + (B.getD (e.bits.length + e.pending.toNat + 32) false).toNat := by
    intro b hb hx
    obtain ⟨_, rfl⟩ := emitBit_eq_ok.1 hb
    refine ⟨(List.prefix_append _ _).trans hp, by simp; omega, ?_⟩
    have h1 := bitsAt_emitted hp
    have hlen : (e.bits ++ b :: List.replicate e.pending.toNat (!b)).length = e.bits.length + (1 + e.pending.toNat) := by
      simp; omega
    unfold CodePoint at hx
    simp only [hlen, zero, Nat.pow_zero, Nat.sub_self, Nat.mul_zero, Nat.add_zero, Nat.zero_add] at hx
    refine ⟨bitsAt B (e.bits.length + (1 + e.pending.toNat)) 31, ?_, ?_⟩
    · rw [show e.pending.toNat + 32 = (1 + e.pending.toNat) + 31 by omega, bitsAt_add, h1]; rfl
    · rw [← hx]
      show 2 * bitsAt B (e.bits.length + (1 + e.pending.toNat)) 31 + _ = _
      rw [show e.bits.length + (1 + e.pending.toNat) + 31 = e.bits.length + e.pending.toNat + 32 by omega]
  have hP : 1 ≤ 2 ^ e.pending.toNat := Nat.one_le_two_pow
  cases st with
  | lowHalf =>
    obtain ⟨h1, h2, y, h3, h4⟩ := emit false ha hx
    refine ⟨h1, h2, y, ?_, Nat.zero_le _, by simpa [RenormStep.offset] using h4⟩
    unfold CodePoint
    rw [h3]; simp; omega
  | highHalf =>
    obtain ⟨h1, h2, y, h3, h4⟩ := emit true ha hx
    refine ⟨h1, h2, 2147483648 + y, ?_, ?_, ?_⟩
    · unfold CodePoint
      rw [h3]; simp; omega
    · simp only [RenormStep.offset, half_eq]; omega
    · simp only [RenormStep.offset, half_eq]; omega
  | middle =>
    obtain ⟨hne, rfl⟩ := addPending_eq_ok.1 ha
    have hq := pending_succ hne
    unfold CodePoint at hx
    simp only [hq] at hx
    rw [show e.pending.toNat + 1 + 32 = (e.pending.toNat + 32) + 1 by omega, Nat.pow_succ, bitsAt_succ] at hx
    rw [show e.bits.length + (e.pending.toNat + 32) = e.bits.length + e.pending.toNat + 32 by omega] at hx
    have hb := bool_toNat_le (B.getD (e.bits.length + e.pending.toNat + 32) false)
    refine ⟨hp, by simp only [hq]; omega, bitsAt B e.bits.length (e.pending.toNat + 32) - 2147483648 * (2 ^ e.pending.toNat - 1), ?_, ?_, ?_⟩
    · unfold CodePoint; omega
    · simp only [RenormStep.offset, q1_eq]; omega
    · simp only [RenormStep.offset, q1_eq]; omega
  | done => exact absurd rfl hst

/-- The bounds of a step, exactly (R103). -/
theorem double_bounds {e : Encoder} (hst : renormStep e.low e.high ≠ .done) (hle : e.low.toNat ≤ e.high.toNat) :
    (renormStep e.low e.high).offset ≤ e.low.toNat ∧
      (e.double (renormStep e.low e.high)).low.toNat = 2 * (e.low.toNat - (renormStep e.low e.high).offset) ∧
      (e.double (renormStep e.low e.high)).high.toNat = 2 * (e.high.toNat - (renormStep e.low e.high).offset) + 1 := by
  have hh := word_lt e.high
  have key : (renormStep e.low e.high).offset ≤ e.low.toNat ∧
      e.high.toNat - (renormStep e.low e.high).offset < 2147483648 := by
    cases hs : renormStep e.low e.high with
    | lowHalf => have := renormStep_lowHalf.1 hs; simp [RenormStep.offset]; omega
    | highHalf => have := renormStep_highHalf.1 hs; simp [RenormStep.offset]; omega
    | middle => have := renormStep_middle.1 hs; simp [RenormStep.offset]; omega
    | done => exact absurd hs hst
  refine ⟨key.1, ?_, ?_⟩
  · simp only [Encoder.double]; rw [shiftIn_exact (by omega)]; rfl
  · simp only [Encoder.double]; rw [shiftIn_exact (by omega)]; rfl

/-- What holds the code point after a step held it before. -/
theorem holds_of_step {cap : Nat} {B : List Bool} {e a : Encoder} (hst : renormStep e.low e.high ≠ .done)
    (hle : e.low.toNat ≤ e.high.toNat) (ha : e.stepBits cap (renormStep e.low e.high) = .ok a)
    (h : (a.double (renormStep e.low e.high)).Holds B) : e.Holds B := by
  obtain ⟨hp, x', hx', hlo, hhi⟩ := h
  obtain ⟨h1, _, x, hx, hoff, hxx⟩ := codePoint_step hst ha hp hx'
  obtain ⟨hl, hh, _, _⟩ := stepBits_ok ha
  have hb := double_bounds hst hle
  have e1 : (a.double (renormStep e.low e.high)).low = (e.double (renormStep e.low e.high)).low := by
    simp only [Encoder.double, hl]
  have e2 : (a.double (renormStep e.low e.high)).high = (e.double (renormStep e.low e.high)).high := by
    simp only [Encoder.double, hh]
  rw [e1, hb.2.1] at hlo
  rw [e2, hb.2.2] at hhi
  have hbit := bool_toNat_le (B.getD (e.bits.length + e.pending.toNat + 32) false)
  have := hb.1
  refine ⟨h1, x, hx, ?_, ?_⟩ <;> omega

theorem double_le {e a : Encoder} {cap : Nat} (hst : renormStep e.low e.high ≠ .done) (hle : e.low.toNat ≤ e.high.toNat)
    (ha : e.stepBits cap (renormStep e.low e.high) = .ok a) :
    (a.double (renormStep e.low e.high)).low.toNat ≤ (a.double (renormStep e.low e.high)).high.toNat := by
  obtain ⟨hl, hh, _, _⟩ := stepBits_ok ha
  have hb := double_bounds hst hle
  simp only [Encoder.double, hl, hh] at hb ⊢
  omega

theorem holds_of_renorm {cap : Nat} {B : List Bool} (n : Nat) {e e' : Encoder} (hle : e.low.toNat ≤ e.high.toNat)
    (h : Encoder.renorm cap n e = .ok e') (hB : e'.Holds B) : e.Holds B := by
  induction n generalizing e with
  | zero =>
    simp only [Encoder.renorm, Except.ok.injEq] at h
    rw [h]; exact hB
  | succ n ih =>
    rw [renorm_succ] at h
    split at h
    · simp only [Except.ok.injEq] at h; rw [h]; exact hB
    · rename_i hst
      obtain ⟨a, ha, h⟩ := (coded_bind_eq_ok _ _ _).1 h
      exact holds_of_step hst hle ha (ih (double_le hst hle ha) h)

/-! ### The decoder follows the encoder -/

/-- The decoder stands where the encoder stood: the same bounds, the code point as its value, and the rest of the sequence
still to come. -/
structure Mirrors (B : List Bool) (inp : Input) (e : Encoder) (d : Decoder) : Prop where
  low : d.low = e.low
  high : d.high = e.high
  pos : d.pos = e.bits.length + e.pending.toNat + 32
  value : CodePoint B e d.value.toNat
  feed : ∀ p, inp.bit d.inLen.toNat p = B.getD p false

theorem mirrors_step {cap : Nat} {B : List Bool} {inp : Input} {e a : Encoder} {d : Decoder}
    (hst : renormStep e.low e.high ≠ .done) (ha : e.stepBits cap (renormStep e.low e.high) = .ok a)
    (hB : (a.double (renormStep e.low e.high)).Holds B) (h : Mirrors B inp e d) :
    Mirrors B inp (a.double (renormStep e.low e.high)) (d.double inp (renormStep d.low d.high)) := by
  obtain ⟨hp, x', hx', hlo, hhi⟩ := hB
  obtain ⟨h1, hw, x, hx, hoff, hxx⟩ := codePoint_step hst ha hp hx'
  obtain ⟨hl, hh, _, _⟩ := stepBits_ok ha
  have hv : d.value.toNat = x := codePoint_unique h.value hx
  have hlt := word_lt (a.double (renormStep e.low e.high)).high
  rw [h.low, h.high]
  refine ⟨?_, ?_, ?_, ?_, h.feed⟩
  · simp only [Decoder.double, Encoder.double, h.low, hl]
  · simp only [Decoder.double, Encoder.double, h.high, hh]
  · show d.pos + 1 = _
    rw [h.pos, hw]
  · have : (d.double inp (renormStep e.low e.high)).value.toNat = x' := by
      show (shiftIn _ d.value (inp.bit d.inLen.toNat d.pos)).toNat = x'
      rw [h.feed, h.pos, shiftIn_exact (by rw [hv]; omega), hv]
      exact hxx.symm
    rw [this]; exact hx'

theorem mirrors_renorm {cap : Nat} {B : List Bool} {inp : Input} (n : Nat) {e e' : Encoder} {d : Decoder}
    (hle : e.low.toNat ≤ e.high.toNat) (h : Encoder.renorm cap n e = .ok e') (hB : e'.Holds B) (hm : Mirrors B inp e d) :
    Mirrors B inp e' (Decoder.renorm inp n d) := by
  induction n generalizing e d with
  | zero =>
    simp only [Encoder.renorm, Except.ok.injEq] at h
    rw [← h]; exact hm
  | succ n ih =>
    rw [renorm_succ] at h
    rw [decoder_renorm_succ, hm.low, hm.high]
    split at h
    · rename_i hst
      simp only [Except.ok.injEq] at h
      rw [if_pos hst, ← h]; exact hm
    · rename_i hst
      obtain ⟨a, ha, h⟩ := (coded_bind_eq_ok _ _ _).1 h
      rw [if_neg hst]
      have hmid := holds_of_renorm n (double_le hst hle ha) h hB
      have := mirrors_step hst ha hmid hm
      rw [hm.low, hm.high] at this
      exact ih (double_le hst hle ha) h this

theorem mirrors_settled {B : List Bool} {inp : Input} {e : Encoder} {d : Decoder} (he : e.Settled) (hB : e.Holds B)
    (hm : Mirrors B inp e d) : d.Settled := by
  obtain ⟨_, x, hx, hlo, hhi⟩ := hB
  have hv : d.value.toNat = x := codePoint_unique hm.value hx
  exact ⟨by rw [hm.low]; exact he.low_lt, by rw [hm.high]; exact he.high_ge, by rw [hm.low, hm.high]; exact he.width,
    by rw [hm.low, hv]; exact hlo, by rw [hm.high, hv]; exact hhi⟩

/-- One narrowing: what holds the code point afterwards held it before, and the decoder consumes the same Interval (R102,
R143). -/
theorem mirrors_narrow {cap : Nat} {B : List Bool} {inp : Input} {iv : Interval} {e e' : Encoder} (he : e.Settled)
    (h : e.narrow cap iv = .ok e') (hB : e'.Holds B) :
    e.Holds B ∧ ∀ d, Mirrors B inp e d → ∃ d', d.narrow inp iv = .ok d' ∧ Mirrors B inp e' d' := by
  have hw := he.width; simp only [q1_eq] at hw
  unfold Encoder.narrow at h
  obtain ⟨u, hu, h⟩ := (coded_bind_eq_ok _ _ _).1 h
  obtain ⟨c1, c2, c3⟩ := (checkInterval_ok iv).1 hu
  split at h
  · rename_i hz
    simp only [Except.ok.injEq] at h
    subst h
    refine ⟨hB, fun d hm => ⟨d, ?_, hm⟩⟩
    unfold Decoder.narrow
    rw [hu]
    simp only [coded_bind_ok, hz, if_true]
  · rename_i hz
    have hv : iv.Valid := ⟨c1, c2, Nat.pos_of_ne_zero hz, c3⟩
    obtain ⟨_, _, b3, b4, b5⟩ := narrow_bounds (l := e.low) (h := e.high) (by omega) hv
    have hsel : (e.select iv).Holds B := holds_of_renorm 32 b4 h hB
    have hold : e.Holds B := by
      obtain ⟨hp, x, hx, hlo, hhi⟩ := hsel
      exact ⟨hp, x, hx, Nat.le_trans b3 hlo, Nat.le_trans hhi b5⟩
    refine ⟨hold, fun d hm => ?_⟩
    have hd := mirrors_settled he hold hm
    obtain ⟨v, hv1, hv2, _⟩ := Decoder.peek_ok hd c1 c2
    have hin : iv.lower ≤ v ∧ v < iv.lower + iv.length := by
      rw [hv2]
      refine (Decoder.peek_contains hd hv).2 ?_
      obtain ⟨_, x, hx, hlo, hhi⟩ := hsel
      have hxv : d.value.toNat = x := codePoint_unique hm.value hx
      rw [hm.low, hm.high, hxv]
      exact ⟨hlo, hhi⟩
    refine ⟨_, Decoder.narrow_completes hv hv1 hin.1 hin.2, ?_⟩
    refine mirrors_renorm 32 b4 h hB ⟨?_, ?_, hm.pos, hm.value, hm.feed⟩
    · simp only [Decoder.select, Encoder.select, hm.low, hm.high]
    · simp only [Decoder.select, Encoder.select, hm.low, hm.high]

/-- A written trace is consumed by a decoder whose input holds the code point to the end (R126, R157). -/
theorem mirrors_writeAll {cap : Nat} {B : List Bool} {inp : Input} (t : List Interval) {e e' : Encoder} (he : e.Settled)
    (h : e.writeAll cap t = .ok e') (hB : e'.Holds B) :
    e.Holds B ∧ ∀ d, Mirrors B inp e d → ∃ d', Decoder.narrowAll inp t d = .ok d' ∧ Mirrors B inp e' d' := by
  induction t generalizing e with
  | nil =>
    simp only [Encoder.writeAll, Except.ok.injEq] at h
    subst h
    exact ⟨hB, fun d hm => ⟨d, rfl, hm⟩⟩
  | cons iv rest ih =>
    rw [writeAll_cons] at h
    obtain ⟨a, ha, h⟩ := (coded_bind_eq_ok _ _ _).1 h
    have hs : a.Settled := by
      rcases (Encoder.narrow_ok ha).2.1 with ⟨_, rfl⟩ | ⟨_, hs⟩
      · exact he
      · exact hs
    obtain ⟨i1, i2⟩ := ih hs h
    obtain ⟨j1, j2⟩ := mirrors_narrow (inp := inp) he ha i1
    refine ⟨j1, fun d hm => ?_⟩
    obtain ⟨d1, hd1, hm1⟩ := j2 d hm
    obtain ⟨d2, hd2, hm2⟩ := i2 d1 hm1
    exact ⟨d2, by rw [narrowAll_cons, hd1]; exact hd2, hm2⟩

/-! ### The two ends of a stream -/

/-- The bits of the flush pin a code point in the final interval (R109). -/
theorem flush_holds {e : Encoder} (he : e.Settled) (b : Bool) (hb : b = decide (1073741824 ≤ e.low.toNat)) :
    e.Holds (e.bits ++ b :: List.replicate (e.pending.toNat + 1) (!b)) := by
  have h1 := he.low_lt; have h2 := he.high_ge
  simp only [half_eq] at h1 h2
  have hP : 1 ≤ 2 ^ e.pending.toNat := Nat.one_le_two_pow
  refine ⟨List.prefix_append _ _, ?_⟩
  have hem := bitsAt_emitted (List.prefix_rfl (l := e.bits ++ b :: List.replicate (e.pending.toNat + 1) (!b)))
  have htail : bitsAt (e.bits ++ b :: List.replicate (e.pending.toNat + 1) (!b))
      (e.bits.length + (1 + (e.pending.toNat + 1))) 30 = 0 := by
    refine bitsAt_zeros _ _ _ (fun k _ => ?_)
    rw [List.getD_eq_getElem?_getD, List.getElem?_eq_none (by simp; omega)]
    rfl
  have hval : bitsAt (e.bits ++ b :: List.replicate (e.pending.toNat + 1) (!b)) e.bits.length (e.pending.toNat + 32) =
      (if b then 2 ^ (e.pending.toNat + 1) else 2 ^ (e.pending.toNat + 1) - 1) * 1073741824 := by
    rw [show e.pending.toNat + 32 = (1 + (e.pending.toNat + 1)) + 30 by omega, bitsAt_add, hem, htail, Nat.add_zero,
      show (2 : Nat) ^ 30 = 1073741824 by norm_num]
  cases b with
  | true =>
    have hle : 1073741824 ≤ e.low.toNat := of_decide_eq_true hb.symm
    refine ⟨2147483648, ?_, by omega, by omega⟩
    unfold CodePoint
    rw [hval, Nat.pow_succ]; simp; omega
  | false =>
    have hlt : ¬1073741824 ≤ e.low.toNat := of_decide_eq_false hb.symm
    refine ⟨1073741824, ?_, by omega, by omega⟩
    unfold CodePoint
    rw [hval, Nat.pow_succ]; simp; omega

theorem preload_spec {B : List Bool} (inp : Input) (n : Nat) (d : Decoder) (hn : d.pos + n ≤ 32)
    (hv : d.value.toNat = bitsAt B 0 d.pos) (hf : ∀ p, inp.bit d.inLen.toNat p = B.getD p false) :
    (Decoder.preload inp n d).value.toNat = bitsAt B 0 (d.pos + n) ∧ (Decoder.preload inp n d).pos = d.pos + n ∧
      (Decoder.preload inp n d).low = d.low ∧ (Decoder.preload inp n d).high = d.high ∧
      (Decoder.preload inp n d).inLen = d.inLen := by
  induction n generalizing d with
  | zero => exact ⟨hv, rfl, rfl, rfl, rfl⟩
  | succ n ih =>
    have hlt := bitsAt_lt B 0 d.pos
    have hpow : 2 ^ d.pos ≤ 2 ^ 31 := Nat.pow_le_pow_right (by decide) (by omega)
    have hnew : (d.shiftValue inp 0).value.toNat = bitsAt B 0 (d.pos + 1) := by
      show (shiftIn 0 d.value (inp.bit d.inLen.toNat d.pos)).toNat = _
      rw [shiftIn_exact (by omega), hf, hv]
      simp [bitsAt]
    obtain ⟨i1, i2, i3, i4, i5⟩ := ih (d.shiftValue inp 0) (by show d.pos + 1 + n ≤ 32; omega) hnew hf
    have hpos : (d.shiftValue inp 0).pos + n = d.pos + (n + 1) := by show d.pos + 1 + n = _; omega
    exact ⟨by rw [← hpos]; exact i1, by rw [← hpos]; exact i2, i3, i4, i5⟩

/-- A decoder that has just loaded a sequence stands where a new encoder stood (R120, R141). -/
theorem load_mirrors {B : List Bool} (inp : Input) (nbytes : Word) (hf : ∀ p, inp.bit nbytes.toNat p = B.getD p false) :
    Mirrors B inp Encoder.reset (Decoder.load inp nbytes) := by
  obtain ⟨h1, h2, h3, h4, h5⟩ := preload_spec (B := B) inp 32
    { low := 0, high := 0xFFFFFFFF, value := 0, pos := 0, inLen := nbytes } (Nat.le_refl 32) rfl hf
  refine ⟨h3, h4, h2, ?_, ?_⟩
  · unfold CodePoint
    show bitsAt B 0 32 = (Decoder.load inp nbytes).value.toNat + _
    unfold Decoder.load
    rw [h1]; simp [Encoder.reset]
  · intro p
    unfold Decoder.load
    rw [h5]; exact hf p

end Sys2Proof.Machine
end

