-- ==== Sys2Proof/Machine/Assembler.lean ====
section
/-!
DEFINITION. Machine/Assembler.lean: the text of the assembly language, read into statements (R77, R78).
What R77 leaves open of the spelling (blanks, letter case, empty lines) is log entry 9.
-/
namespace Sys2Proof.Machine

/-! ### Characters -/

/-- The pieces of a text between separators. -/
def splitChars (sep : Char) : List Char → List (List Char)
  | [] => [[]]
  | c :: cs =>
    if c = sep then [] :: splitChars sep cs
    else
      match splitChars sep cs with
      | [] => [[c]]
      | w :: ws => (c :: w) :: ws

/-- A blank within a line. -/
def isBlank (c : Char) : Bool := c == ' ' || c == '\t' || c == '\r'

/-- A text without the blanks around it. -/
def trimBlanks (cs : List Char) : List Char := ((cs.dropWhile isBlank).reverse.dropWhile isBlank).reverse

/-- A digit's value in a base. -/
def digitValue (base : Nat) (c : Char) : Option Nat :=
  let n := c.toNat
  let v :=
    if 48 ≤ n ∧ n ≤ 57 then n - 48
    else if 65 ≤ n ∧ n ≤ 70 then n - 55
    else if 97 ≤ n ∧ n ≤ 102 then n - 87
    else base
  if v < base then some v else none

/-- The number some digits spell, after `acc`. -/
def digitsValue (base : Nat) : List Char → Nat → Option Nat
  | [], acc => some acc
  | c :: cs, acc => (digitValue base c).bind (fun v => digitsValue base cs (acc * base + v))

/-- A decimal or `0x` hexadecimal value (R77). -/
def numeral : List Char → Option Nat
  | [] => none
  | '0' :: 'x' :: c :: cs => digitsValue 16 (c :: cs) 0
  | c :: cs => digitsValue 10 (c :: cs) 0

/-- A 32-bit operand (R77). -/
def operandValue (cs : List Char) : Option Word :=
  (numeral cs).bind (fun n => if n ≤ Config.top then some (BitVec.ofNat 32 n) else none)

/-- Every element's value, or none. -/
def allValues : List (List Char) → Option (List Word)
  | [] => some []
  | w :: ws => (operandValue w).bind (fun v => (allValues ws).map (v :: ·))

/-- The operands of a statement, separated by commas. -/
def operandList (cs : List Char) : Option (List Word) :=
  match trimBlanks cs with
  | [] => some []
  | c :: rest => allValues ((splitChars ',' (c :: rest)).map trimBlanks)

/-! ### Mnemonics -/

/-- The commands of the `none` form by name (R74). The illegal opcode has no mnemonic. -/
def plainMnemonics : List (String × Instr) :=
  [("NOP", .nop), ("BLK_RESET", .blkReset)] ++
  [("ENC_RESET", .encReset), ("ENC_WRITE_EQUAL", .encWriteEqual), ("ENC_WRITE_PART", .encWritePart),
   ("ENC_WRITE_PART_FT", .encWritePartFt), ("ENC_WRITE_FIB", .encWriteFib), ("ENC_FINISH", .encFinish)] ++
  [("DEC_RESET", .decReset), ("DEC_READ_EQUAL", .decReadEqual), ("DEC_PEEK", .decPeek), ("DEC_NARROW", .decNarrow),
   ("DEC_READ_PART_FT", .decReadPartFt), ("DEC_READ_FIB", .decReadFib)] ++
  [("FT_CLEAR", .ftClear), ("FT_INSERT", .ftInsert), ("FT_REMOVE", .ftRemove), ("FT_INCREASE", .ftIncrease),
   ("FT_CUM", .ftCum), ("FT_FIND", .ftFind), ("FT_TOTAL", .ftTotal), ("FT_WEIGHT", .ftWeight)] ++
  [("LZ_ENCODE", .lzEncode), ("LZ_DECODE", .lzDecode)]

/-- The entry of a name. -/
def entryOf {α : Type} (table : List (String × α)) (name : List Char) : Option α :=
  (table.find? (fun e => e.1.toList == name)).map (·.2)

/-- The commands of the width form (R72). -/
def widthMnemonics : List (String × (Nat → Instr)) :=
  [("ENC_WRITE_COUNT", .encWriteCount), ("DEC_READ_COUNT", .decReadCount)]

/-- The commands of the policy form (R72), and the pseudo-instruction that is one (R78). -/
def policyMnemonics : List (String × (Nat → Bool → Instr)) :=
  [("ENC_WRITE_SPLIT", .encWriteSplit), ("DEC_READ_SPLIT", .decReadSplit), ("ENC_ENCODE_VALUE", .encWriteSplit)]

/-- The mode of the suffix `r<r>` (R77). -/
def modeSuffix : List Char → Option Nat
  | ['r', c] => (digitValue 10 c).bind (fun r => if modeFits r then some r else none)
  | _ => none

/-- The command a mnemonic names, given the pieces of it between dots (R77). -/
def commandOf : List (List Char) → Option Instr
  | [name] => entryOf plainMnemonics name
  | [name, suffix] =>
    match entryOf widthMnemonics name with
    | some f => (digitsValue 10 suffix 0).bind (fun W => if suffix ≠ [] ∧ widthFits W then some (f W) else none)
    | none => (entryOf policyMnemonics name).bind (fun f => (modeSuffix suffix).map (fun r => f r false))
  | [name, suffix, ['e']] =>
    (entryOf policyMnemonics name).bind (fun f => (modeSuffix suffix).map (fun r => f r true))
  | _ => none

/-- The pseudo-instructions of R78 that are not of the policy form, by name and operands. -/
def pseudoOf (name : List Char) (ops : List Word) : Option Stmt :=
  if name = "ENC_WRITE_BIT".toList then (match ops with | [b] => some (.encWriteBit b) | _ => none)
  else if name = "DEC_READ_BIT".toList then (match ops with | [] => some .decReadBit | _ => none)
  else if name = "ENC_WRITE_COUNT32".toList then (match ops with | [n] => some (.encWriteCount32 n) | _ => none)
  else if name = "DEC_READ_COUNT32".toList then (match ops with | [] => some .decReadCount32 | _ => none)
  else if name = "ENC_WRITE_SENTINEL".toList then (match ops with | [] => some .encWriteSentinel | _ => none)
  else if name = "DEC_READ_SENTINEL".toList then (match ops with | [] => some .decReadSentinel | _ => none)
  else none

/-- The host statements `HW`, `HR` and `.word` (R77). -/
def hostStmtOf (name : List Char) (ops : List Word) : Option Stmt :=
  if name = "HW".toList then (match ops with | [off, v] => some (.hostWrite off.toNat v) | _ => none)
  else if name = "HR".toList then (match ops with | [off] => some (.hostRead off.toNat) | _ => none)
  else if name = ".word".toList then (match ops with | [w] => some (.word w) | _ => none)
  else none

/-- A statement from its first word and its operands: a command takes exactly the operands of R74. -/
def stmtOf (name : List Char) (ops : List Word) : Option Stmt :=
  match commandOf (splitChars '.' name) with
  | some i => if ops.length = (argRegs i).length then some (.command i ops) else none
  | none =>
    match pseudoOf name ops with
    | some st => some st
    | none => hostStmtOf name ops

/-! ### Lines and programs -/

/-- The statement of a line, after its comment is taken off; a line without one gives nothing (R77). -/
def lineStmts (line : List Char) : Option (List Stmt) :=
  match trimBlanks (line.takeWhile (fun c => c != ';')) with
  | [] => some []
  | c :: cs =>
    let name := (c :: cs).takeWhile (fun x => !isBlank x)
    (operandList ((c :: cs).drop name.length)).bind (fun ops => (stmtOf name ops).map (fun st => [st]))

/-- The statements of several lines, or none where one of them is no statement. -/
def linesStmts : List (List Char) → Option (List Stmt)
  | [] => some []
  | l :: ls => (lineStmts l).bind (fun a => (linesStmts ls).map (a ++ ·))

/-- The program a text spells: one statement per line (R77). -/
def assemble (text : String) : Option (List Stmt) := linesStmts (splitChars '\n' text.toList)

end Sys2Proof.Machine
end

