-- ==== Sys2Proof/Tests/Slice0.lean ====
section
/-!
SUPPORT. Tests/Slice0.lean: what the checks of WellFormed refuse; the words of spec/30_encoding.md R74 and R80, decoded; one
step on a small state per command, with the expected values of spec/95_test_vectors.md (named E1, D2, ... there); and, as
witness_<Name>, states and operands that meet the hypotheses of each statement.
-/
namespace Sys2Proof.Tests
open Sys2Proof.Machine

/-! ### Small states -/

/-- Reset, with operands. -/
def args (a b c : Word) : State := { State.reset with arg0 := a, arg1 := b, arg2 := c }

/-- The state a command leaves. -/
def after (i : Instr) (s : State) : State :=
  match exec i s with
  | .next t => t
  | _ => s

/-- The state a step leaves. -/
def afterStep (s : State) : State :=
  match step s with
  | .next t => t
  | _ => s

/-- Bytes at an offset of the window. -/
def bytesAt (base : Nat) (bytes : List Byte) : Memory :=
  ((bytes.zipIdx).map (fun p => (base + p.2, p.1))).filter (fun c => c.2 ≠ 0)

/-- A state whose decoder has loaded `bytes`. -/
def loaded (bytes : List Byte) (s : State) : State :=
  let t : State := { s with mem := bytesAt 0x20000 bytes }
  { t with dec := Decoder.load t.input (BitVec.ofNat 32 bytes.length) }

/-- The sealed empty stream E13. -/
def sealed : State := after .encFinish State.reset

/-- The state after a precise fault. -/
def stuck : State := State.reset.faultedBy .encWriteEqual .eqRange 0

/-- The table of vectors F1. -/
def tableF1 : FreqTable := [(5, 1), (10, 3), (20, 4)]

/-- The table and the symbols of program P3. -/
def stateP3 : State :=
  { args 9 1 0 with
    ft := [(0, 0x100000), (1, 1), (2, 1), (3, 1)]
    mem := (List.range 9).map (fun m => (0x40000 + 4 * m, BitVec.ofNat 8 (m % 3 + 1))) }

/-- The bytes of `ENC_OUT` at the end of program P3. -/
def bytesP3 : List Byte :=
  [0x19, 0x3B, 0x3B, 0x03, 0xA2, 0xF1, 0x90, 0x11, 0x58] ++ [0x5F, 0x16, 0x80, 0x6D, 0x47, 0x1F, 0xB6, 0x64]

/-- The bytes of program P1. -/
def bytesP1 : List Byte := [0xBC, 0x77, 0xF2, 0x7D, 0x42, 0x3C, 0x7E, 0x00]

/-- Program P1 after `DEC_READ_EQUAL 5` (vector D9). -/
def afterD9a : State :=
  { loaded bytesP1 State.reset with dec := ⟨0x33333332, 0x99999997, 0x78EFE4FA, 33, 8⟩ }

/-- Program P1 after `DEC_READ_FIB` (vector D9). -/
def afterD9b : State :=
  { loaded bytesP1 State.reset with dec := ⟨0x7FFFFFA2, 0xE6666607, 0xBBF93EA1, 39, 8⟩ }

/-- Program P1 after `DEC_READ_COUNT.16` (vector D9). -/
def afterD9c : State :=
  { loaded bytesP1 State.reset with dec := ⟨0x3DA62C00, 0xFE66EBFF, 0xCFA8478F, 53, 8⟩, arg0 := 7, arg1 := 2, arg2 := 10 }

/-! ### WellFormed refuses what has no command word (R72) -/

theorem test_wellFormed_refuses_wide_enc_count : (Instr.encWriteCount 256).wellFormed = false := by decide
theorem test_wellFormed_refuses_wide_dec_count : (Instr.decReadCount 256).wellFormed = false := by decide
theorem test_wellFormed_refuses_enc_split_mode : (Instr.encWriteSplit 4 false).wellFormed = false := by decide
theorem test_wellFormed_refuses_dec_split_mode : (Instr.decReadSplit 4 true).wellFormed = false := by decide

/-! ### Words written out from R70, R72 and R74 -/

theorem test_decode_block_control :
    decode 0b00000000000000000000000000000001 = .ok .nop ∧ decode 0b00000000000000000000000000000010 = .ok .blkReset ∧
      decode 0b10101010101010100101010100000000 = .ok (.illegal 0b101010101010101001010101) := ⟨rfl, rfl, rfl⟩

theorem test_decode_encoder :
    decode 0x00000010 = .ok .encReset ∧ decode 0x00000011 = .ok .encWriteEqual ∧
      decode 0x00000012 = .ok .encWritePart ∧ decode 0x00000013 = .ok .encWritePartFt ∧
      decode 0x00000014 = .ok .encWriteFib ∧ decode 0b00000000000000000010000000010101 = .ok (.encWriteCount 32) ∧
      decode 0b00000000000000000000011000010110 = .ok (.encWriteSplit 2 true) ∧
      decode 0b00000000000000000000000000010111 = .ok .encFinish :=
  ⟨rfl, rfl, rfl, rfl, rfl, rfl, rfl, rfl⟩

theorem test_decode_decoder :
    decode 0x00000020 = .ok .decReset ∧ decode 0x00000021 = .ok .decReadEqual ∧ decode 0x00000022 = .ok .decPeek ∧
      decode 0b00000000000000000000000000100011 = .ok .decNarrow ∧ decode 0x00000024 = .ok .decReadPartFt ∧
      decode 0x00000025 = .ok .decReadFib ∧ decode 0b00000000000000000001000000100110 = .ok (.decReadCount 16) ∧
      decode 0b00000000000000000000000100100111 = .ok (.decReadSplit 1 false) :=
  ⟨rfl, rfl, rfl, rfl, rfl, rfl, rfl, rfl⟩

theorem test_decode_table :
    decode 0b00000000000000000000000000110000 = .ok .ftClear ∧ decode 0x00000031 = .ok .ftInsert ∧
      decode 0x00000032 = .ok .ftRemove ∧ decode 0x00000033 = .ok .ftIncrease ∧ decode 0x00000034 = .ok .ftCum ∧
      decode 0x00000035 = .ok .ftFind ∧ decode 0x00000036 = .ok .ftTotal ∧ decode 0x00000037 = .ok .ftWeight :=
  ⟨rfl, rfl, rfl, rfl, rfl, rfl, rfl, rfl⟩

theorem test_decode_lz :
    decode 0b00000000000000000000000001000000 = .ok .lzEncode ∧
      decode 0b00000000000000000000000001000001 = .ok .lzDecode := ⟨rfl, rfl⟩

/-- The rejected words of spec/95_test_vectors.md section 8. -/
theorem test_decode_rejects :
    decode 0x00000003 = .error .unassignedOpcode ∧ decode 0x00000042 = .error .unassignedOpcode ∧
      decode 0x000000FF = .error .unassignedOpcode ∧ decode 0x00000101 = .error .modNotZero ∧
      decode 0x00010011 = .error .reservedBits ∧ decode 0x00000816 = .error .policyBits := ⟨rfl, rfl, rfl, rfl, rfl, rfl⟩

theorem test_decodeTableWord :
    decodeTableWord 32 0x00000516 = some (.encWriteSplit 1 true) ∧ decodeTableWord 32 0x00000816 = none := by decide

theorem test_withFetchWord_runs_the_word :
    (afterStep (State.reset.withFetchWord 32 0x00000017)).enc.isSealed = true ∧
      (afterStep (State.reset.withFetchWord 32 0x00000017)).pc = 1 := by decide

/-! ### Block control -/

theorem test_nop : exec .nop State.reset = .next State.reset := rfl

/-- Section 8: `.word 0` from reset. -/
theorem test_illegal : (after (.illegal 0) State.reset).status = 0x01 ∧ (after (.illegal 0) State.reset).faultInfo = 0 := by
  decide

/-- Section 8: `.word 0; BLK_RESET` leaves the reset state. -/
theorem test_blkReset : after .blkReset (after (.illegal 0) (args 1 2 3)) = State.reset := by decide

/-- Section 8: a malformed BLK_RESET does not clear a fault; a well-formed one does. -/
theorem test_issue_while_faulted :
    (afterStep (stuck.queueCommand 0x00000102)).fault = .eqRange ∧
      (afterStep (stuck.queueCommand 0x00000102)).pc = 1 ∧ (afterStep (stuck.queueCommand 0x00000002)).fault = .noFault := by
  decide

/-! ### Range encoder -/

/-- E14: ENC_RESET on a sealed stream. -/
theorem test_encReset :
    (after .encReset sealed).status = 0 ∧ (after .encReset sealed).enc.bits = [] ∧ (after .encReset sealed).res = 5 := by
  decide

/-- E1 -/
theorem test_encWriteEqual :
    (after .encWriteEqual (args 3 5 0)).enc = ⟨0x33333332, 0x99999997, 0, [true], false⟩ := by decide

/-- E11: a count above `2^16`. -/
theorem test_uniform_two_levels : uniformTrace 70000 70001 = .ok [⟨1, 1, 2⟩, ⟨4464, 1, 4465⟩] := rfl

/-- E2: two pending bits. -/
theorem test_encWritePart : (after .encWritePart (args 3 2 8)).enc = ⟨0, 0xFFFFFFFF, 2, [], false⟩ := by decide

/-- E2, E3: the pending bits follow the next bit, inverted. -/
theorem test_encWritePart_then_equal :
    (after .encWriteEqual { after .encWritePart (args 3 2 8) with arg0 := 0, arg1 := 2 }).enc =
      ⟨0, 0xFFFFFFFF, 0, [false, true, true], false⟩ := by decide

/-- F3: the Interval of key 66, and the key 9 that is absent. -/
theorem test_encWritePartFt :
    FreqTable.requireInterval [(65, 5), (66, 2), (67, 1)] 66 = .ok ⟨5, 2, 8⟩ ∧
      (after .encWritePartFt { args 9 0 0 with ft := [(1, 1)] }).faultAux = 9 := ⟨rfl, by decide⟩

/-- E10: 12 and 100. -/
theorem test_encWriteFib :
    (after .encWriteFib (args 12 0 0)).enc.bits = [true, false, true, false, true, true] ∧
      fibCode 100 = [false, false, true, false, true, false, false, false, false, true, true] := by decide

/-- E12: 1000 over 16 bits, and the two-level remainder of 0xFFFFFFFE over 32. -/
theorem test_encWriteCount :
    countTrace 1000 16 = .ok [⟨9, 1, 17⟩, ⟨489, 1, 512⟩] ∧
      countTrace 0xFFFFFFFE 32 = .ok [⟨31, 1, 33⟩, ⟨32767, 1, 32768⟩, ⟨65535, 1, 65536⟩] := ⟨rfl, rfl⟩

/-- R212: the pairs of 10 under (1, 20, 4), and of 4 under (2, 20, 4). -/
theorem test_encWriteSplit :
    splitIntervals ⟨.escapeLong, 20, 4⟩ 0 10 = .ok [(5, 6), (5, 16)] ∧
      splitIntervals ⟨.escapeShort, 20, 4⟩ 0 4 = .ok [(16, 17), (4, 5)] := ⟨rfl, rfl⟩

/-- E13: the empty stream. -/
theorem test_encFinish :
    (List.range 5).map sealed.encOutByte = [0x49, 0x96, 0x02, 0xD2, 0x40] ∧ sealed.enc.bits.length = 34 ∧
      sealed.res = 5 ∧ sealed.status = 0x100 := by decide

/-! ### Range decoder -/

/-- D7: bytes past `DEC_INLEN` read 0. -/
theorem test_decReset :
    (after .decReset { args 2 0 0 with mem := bytesAt 0x20000 [0x12, 0x34, 0x56, 0x78] }).dec =
      ⟨0, 0xFFFFFFFF, 0x12340000, 32, 2⟩ := by decide +kernel

/-- D2 -/
theorem test_decReadEqual :
    (after .decReadEqual (loaded [0xA8, 0x51, 0x33, 0xC2, 0xF0] (args 5 0 0))).dec =
        ⟨0x33333332, 0x99999997, 0x50A26785, 33, 5⟩ ∧
      (after .decReadEqual (loaded [0xA8, 0x51, 0x33, 0xC2, 0xF0] (args 5 0 0))).res = 3 := by decide +kernel

/-- D9: `DEC_PEEK 10`. -/
theorem test_decPeek :
    (after .decPeek { afterD9c with arg0 := 10 }).res = 7 ∧
      (after .decPeek { afterD9c with arg0 := 10 }).dec = afterD9c.dec := by decide

/-- D9: `DEC_NARROW 7, 2, 10`. -/
theorem test_decNarrow : (after .decNarrow afterD9c).dec = ⟨0x124DFCCC, 0xAC81C997, 0x3EA11E3F, 55, 8⟩ := by decide

/-- D10: `DEC_NARROW 0, 7, 10`. -/
theorem test_decNarrow_mismatch :
    (after .decNarrow { afterD9c with arg0 := 0, arg1 := 7 }).fault = .narrowMismatch ∧
      (after .decNarrow { afterD9c with arg0 := 0, arg1 := 7 }).faultAux = 7 := by decide

/-- P2: the first symbol. -/
theorem test_decReadPartFt :
    (after .decReadPartFt (loaded [0x99, 0xE9, 0x31, 0xD1, 0x00] { args 0 0 0 with ft := [(65, 5), (66, 2), (67, 1)] })).res =
      65 := by decide +kernel

/-- D9: `DEC_READ_FIB`. -/
theorem test_decReadFib : (after .decReadFib afterD9a).res = 12 ∧ (after .decReadFib afterD9a).dec = afterD9b.dec := by
  decide

/-- Section 8: the zero stream has no terminator. -/
theorem test_decReadFib_corrupt :
    (after .decReadFib State.reset).fault = .corruptFib ∧ (after .decReadFib State.reset).faultInfo = 0x25 := by decide

/-- D9: `DEC_READ_COUNT.16`. -/
theorem test_decReadCount :
    (after (.decReadCount 16) afterD9b).res = 1000 ∧ (after (.decReadCount 16) afterD9b).dec = afterD9c.dec := by decide

/-- S1: the second row. -/
theorem test_decReadSplit :
    (after (.decReadSplit 1 false) (loaded [0xE3, 0x6E, 0xE5, 0x5C, 0x76] (args 0 20 4))).res = 10 := by decide +kernel

/-! ### Frequency table -/

theorem test_ftClear : (after .ftClear { State.reset with ft := tableF1 }).ft = [] := by decide

/-- F1: keys are held in order; F2: a second insertion of a key. -/
theorem test_ftInsert :
    (after .ftInsert { args 10 3 0 with ft := [(5, 1), (20, 4)] }).ft = tableF1 ∧
      (after .ftInsert { args 5 2 0 with ft := tableF1 }).faultAux = 5 := by decide

/-- F2: a total above 0xFFFFFFFF, and a full table of two keys. -/
theorem test_ftInsert_bounds :
    (after .ftInsert { args 2 1 0 with ft := [(1, 0xFFFFFFFF)] }).fault = .ftWeight ∧
      (after .ftInsert { args 3 1 0 with ft := [(1, 1), (2, 1)], cfg := { Config.Params.default with ftCap := 2 } }).fault =
        .ftFull := by decide

/-- F1: `FT_REMOVE 10`. -/
theorem test_ftRemove : (after .ftRemove { args 10 0 0 with ft := tableF1 }).ft = [(5, 1), (20, 4)] := by decide

/-- F1: `FT_INCREASE 5`. -/
theorem test_ftIncrease : (after .ftIncrease { args 5 0 0 with ft := tableF1 }).ft = [(5, 2), (10, 3), (20, 4)] := by decide

/-- F1: `FT_CUM 20`. -/
theorem test_ftCum : (after .ftCum { args 20 0 0 with ft := tableF1 }).res = 4 := by decide

/-- F1: `FT_FIND 3`, `FT_FIND 4`; F1: `FT_FIND 8`. -/
theorem test_ftFind :
    (after .ftFind { args 3 0 0 with ft := tableF1 }).res = 10 ∧ (after .ftFind { args 4 0 0 with ft := tableF1 }).res = 20 ∧
      (after .ftFind { args 8 0 0 with ft := tableF1 }).faultAux = 8 := by decide

/-- F1: `FT_TOTAL`. -/
theorem test_ftTotal : (after .ftTotal { State.reset with ft := tableF1 }).res = 8 := by decide

/-- F1: `FT_WEIGHT 10`. -/
theorem test_ftWeight : (after .ftWeight { args 10 0 0 with ft := tableF1 }).res = 3 := by decide

/-! ### LZ engine -/

/-- F4 and R206: buffers and policies of the spec's tables. -/
theorem test_buffer_and_policy :
    [1, 4, 5, 257, 1048579].map buffer = [1, 2, 3, 17, 1025] ∧ choosePolicy [1, 1, 1, 1, 1, 1, 40] = ⟨.escapeLong, 40, 1⟩ ∧
      choosePolicy [30, 30, 30, 30, 30, 30, 0] = ⟨.escapeShort, 30, 0⟩ ∧ choosePolicy [] = ⟨.whole, 0, 0⟩ := by decide

/-- P3: the trace of `LZ_ENCODE 9`. -/
def traceP3 : List Interval :=
  [⟨3, 1, 33⟩, ⟨2, 1, 8⟩, ⟨0, 1, 3⟩, ⟨1, 1, 17⟩, ⟨0, 1, 2⟩, ⟨0, 1, 3⟩, ⟨1, 1, 17⟩, ⟨0, 1, 2⟩, ⟨1, 1, 2⟩] ++
    [⟨0, 1, 3⟩, ⟨1, 1, 17⟩, ⟨0, 1, 2⟩, ⟨1048576, 1, 1049604⟩, ⟨1048577, 1, 1049604⟩, ⟨1048578, 1, 1049604⟩] ++
    [⟨1048579, 1025, 1049604⟩, ⟨1, 1, 2⟩, ⟨1, 1, 2⟩, ⟨1, 1, 2⟩]

def symbolsP3 : List Word := [1, 2, 3, 1, 2, 3, 1, 2, 3]

/-- The plan of program P3. -/
def planP3 : LzPlan := referencePlan Config.Params.default stateP3.ft symbolsP3

theorem test_lzEncode_trace :
    (lzTrace stateP3.ft (stateP3.symbols 9) (stateP3.lzPlan (stateP3.symbols 9))).toOption = some traceP3 := by decide +kernel

/-- P3 and L1: the layout of the statements gives the traces the spec lists. -/
theorem test_lzIntervals :
    lzIntervals stateP3.ft symbolsP3 planP3 = traceP3 ∧
      lzIntervals [(1, 1)] [1] dummyPlan =
        [⟨1, 1, 33⟩, ⟨0, 1, 2⟩, ⟨0, 1, 3⟩, ⟨0, 1, 17⟩, ⟨0, 1, 3⟩, ⟨0, 1, 17⟩, ⟨1, 1, 2⟩, ⟨0, 1, 2⟩, ⟨0, 1, 1⟩] := by
  decide +kernel

/-- R227: a plan with spirals is not allowed where they are disabled; P3's is where they are enabled. -/
theorem test_anyValid_spirals :
    allowedPlan { Config.Params.default with spiralEnable := false } symbolsP3 planP3 = false ∧
      allowedPlan Config.Params.default symbolsP3 planP3 = true := by decide +kernel

/-- R9, R78: the sentinel statements. -/
theorem test_sentinel :
    Stmt.encWriteSentinel = .command .encWriteEqual [1234567890, 4294967295] ∧
      Stmt.decReadSentinel = .command .decReadEqual [4294967295] := by decide

/-- P3: one token. -/
theorem test_lzEncode : (after .lzEncode stateP3).res = 1 ∧ (after .lzEncode stateP3).lzN = 9 := by decide

/-- P3: the symbols come back. -/
theorem test_lzDecode :
    (List.range 9).map (after .lzDecode (loaded bytesP3 stateP3)).symOutWord = [1, 2, 3, 1, 2, 3, 1, 2, 3] ∧
      (after .lzDecode (loaded bytesP3 stateP3)).res = 9 := by decide +kernel

/-- Section 7, stream C: a split mode with `max = 0`. -/
theorem test_lzDecode_corrupt_header :
    (after .lzDecode (loaded [0x10, 0x2C, 0x2C, 0x08, 0xFA, 0xE8] { args 0 0 0 with ft := [(1, 1048576), (2, 1)] })).status =
      0x12 := by decide +kernel

/-- A computation that answers a value, found by evaluation. -/
theorem answers {α : Type} {x : Coded α} (h : x.isOk = true) : ∃ a, x = .ok a := by
  cases x with
  | ok a => exact ⟨a, rfl⟩
  | error r => exact absurd h (by simp [Except.isOk, Except.toBool])

/-- A decoder command answers a next state. -/
theorem decoder_answers {w : Word} {s : State} {r : Coded State} : ∃ t, s.finish w r = .next t := by
  cases r <;> exact ⟨_, rfl⟩

/-- The conditions of a table at once. -/
theorem wf_of {cap : Nat} {t : FreqTable}
    (h : t.Pairwise (fun c c' => c.1.toNat < c'.1.toNat) ∧ t.all (fun c => c.2 != 0) = true ∧ t.length ≤ cap ∧
      t.total ≤ Config.top) : t.Wf cap :=
  ⟨h.1, fun c hc => by simpa using List.all_eq_true.mp h.2.1 c hc, h.2.2.1, h.2.2.2⟩

/-- The conditions of a decoder at once. -/
theorem settled_of {d : Decoder}
    (h : d.low.toNat < Config.half ∧ Config.half ≤ d.high.toNat ∧ d.low.toNat + Config.q1 + 1 ≤ d.high.toNat ∧
      d.low.toNat ≤ d.value.toNat ∧ d.value.toNat ≤ d.high.toNat) : d.Settled := ⟨h.1, h.2.1, h.2.2.1, h.2.2.2.1, h.2.2.2.2⟩

/-- The statements R77 writes out, with a comment, and one with an operand too few. -/
theorem test_assemble :
    assemble "ENC_WRITE_COUNT.16 1000\nENC_WRITE_SPLIT.r1.e 21, 20, 4 ; R77" =
        some [.command (.encWriteCount 16) [1000], .command (.encWriteSplit 1 true) [21, 20, 4]] ∧
      assemble "HR 0x00010\n\n.word 0x111" = some [.hostRead 0x10, .word 0x111] ∧ assemble "FT_INSERT 65" = none := by
  decide +kernel

theorem reset_enc_settled : Encoder.reset.Settled :=
  ⟨by simp [Encoder.reset, Config.half], by simp [Encoder.reset, Config.half], by simp [Encoder.reset, Config.q1]⟩

theorem reset_dec_settled : Decoder.reset.Settled :=
  settled_of (by simp [Decoder.reset, Config.half, Config.q1])

/-! ### Witnesses: states and operands that meet the hypotheses of a statement -/

/-- A state with a table and operands. -/
def live : State := { args 5 5 0 with ft := tableF1 }

theorem live_inv : live.Inv where
  legal := by decide
  memory := by decide
  stored := by simp [live, args, State.reset, State.powerOn]
  table := wf_of (by decide +kernel)
  bits := by decide
  input := by decide
  encoder := fun _ => reset_enc_settled
  decoder := fun _ => reset_dec_settled
  record := by decide

/-- E15 with `ENC_CAP = 8`: a full stream, then one more bit. -/
def full : State :=
  { args 0 2 0 with
    enc := ⟨0, 0xFFFFFFFF, 0, List.replicate 64 false, false⟩
    cfg := { Config.Params.default with encCap := 8, symCap := 1 }
    ft := [(0, 1)] }

theorem full_inv : full.Inv where
  legal := by decide
  memory := by decide
  stored := by simp [full, args, State.reset, State.powerOn]
  table := wf_of (by decide +kernel)
  bits := by decide
  input := by decide
  encoder := fun _ => ⟨by simp [full, Config.half], by simp [full, Config.half], by simp [full, Config.q1]⟩
  decoder := fun _ => reset_dec_settled
  record := by decide

/-- A computation that answers no value, found by evaluation. -/
theorem refuses {α : Type} {x : Coded α} (h : x.isOk = false) : ∃ r, x = .error r := by
  cases x with
  | ok a => exact absurd h (by simp [Except.isOk, Except.toBool])
  | error r => exact ⟨r, rfl⟩

theorem settled_loaded : (loaded bytesP1 (args 5 2 10)).dec.Settled := settled_of (by decide +kernel)

theorem witness_DecodeEncodeRoundTrip :
    (Instr.encWriteCount 255).wellFormed = true ∧ (Instr.decReadSplit 3 true).wellFormed = true := by decide

theorem witness_EncodeDecodeRoundTrip : decode 0x00000727 = .ok (.decReadSplit 3 true) := rfl

/-- Every range of R75 at both of its ends, and the words beside them. -/
theorem witness_IllegalWordsRaiseBadOpcode :
    (∀ w ∈ ([0x00, 0xFFFFFF00, 0x03, 0x0F, 0x18, 0x1F, 0x28, 0x2F, 0x38, 0x3F, 0x42, 0xFF] : List Word), illegalWord w) ∧
      (∀ w ∈ ([0x00010011, 0x80000015, 0x0101, 0xFF17, 0x0816, 0x8027] : List Word), illegalWord w) ∧
      ∀ w ∈ ([0x01, 0x02, 0x10, 0x17, 0x20, 0x27, 0x30, 0x37, 0x40, 0x41, 0xFF15, 0x0026, 0x0716] : List Word),
        ¬illegalWord w := by
  refine ⟨?_, ?_, ?_⟩ <;> intro w hw <;> simp only [List.mem_cons, List.not_mem_nil, or_false] at hw
  · rcases hw with rfl | rfl | rfl | rfl | rfl | rfl | rfl | rfl | rfl | rfl | rfl | rfl <;> (unfold illegalWord; decide)
  · rcases hw with rfl | rfl | rfl | rfl | rfl | rfl <;> (unfold illegalWord; decide)
  · rcases hw with rfl | rfl | rfl | rfl | rfl | rfl | rfl | rfl | rfl | rfl | rfl | rfl | rfl <;> (unfold illegalWord; decide)

theorem witness_StepRunsDecodedCommand :
    (State.reset.queueCommand 0x11).hostQueue = .write State.reset.cfg.blkBase 32 0x11 :: [] ∧ State.reset.fault = .noFault ∧
      decode 0x11 = .ok .encWriteEqual ∧ decode 0x111 = .error .modNotZero ∧ decode 2 = .ok .blkReset ∧
      stuck.fault ≠ .noFault :=
  ⟨rfl, rfl, rfl, rfl, rfl, by decide⟩

theorem witness_StatementRunsItsCommand :
    Instr.encWriteEqual.wellFormed = true ∧ ([3, 5] : List Word).length = (argRegs .encWriteEqual).length ∧
      (State.reset.withProgram [.command .encWriteEqual [3, 5]]).hostQueue =
        Stmt.expand State.reset.cfg (.command .encWriteEqual [3, 5]) ++ [] := by decide

theorem witness_FaultedBlockIgnoresCommands :
    stuck.fault ≠ .noFault ∧ (stuck.queueCommand 0x11).hostQueue = .write stuck.cfg.blkBase 32 0x11 :: [] ∧
      (0x11 : Word) ≠ 2 ∧ (stuck.queueCommand 2).hostQueue = .write stuck.cfg.blkBase 32 2 :: [] := by decide

theorem witness_EachCommandAdvancesTheIndex :
    (∃ t, step (State.reset.queueCommand 0x01) = .next t) ∧
      (∃ t, step ({ State.reset with hostQueue := [.write 0 8 1] } : State) = .next t) ∧
      ∀ w, ({ State.reset with hostQueue := [.write 0 8 1] } : State).hostQueue.head? ≠ some (.write State.reset.cfg.blkBase 32 w) :=
  ⟨⟨_, rfl⟩, ⟨_, rfl⟩, by intro w h; simp at h⟩

/-- No access; the first and the last byte of the window, read and written; the first byte beyond it and, where the window does
not start at 0, the last before it. -/
theorem witness_StepStopsOnlyOutsideTheWindow :
    State.reset.hostQueue = [] ∧
      (∃ t, step ({ State.reset with hostQueue := [.read 0xFFFFF 8] } : State) = .next t) ∧
      (∃ t, step ({ State.reset with hostQueue := [.write 0 32 0x11] } : State) = .next t) ∧
      step ({ State.reset with hostQueue := [.read 0x100000 32] } : State) = .fault (.outsideWindow 0x100000) ∧
      step ({ State.powerOn { Config.Params.default with blkBase := 0x1000 } with hostQueue := [.write 0xFFF 32 1] } : State) =
        .fault (.outsideWindow 0xFFF) :=
  ⟨rfl, ⟨_, rfl⟩, ⟨_, rfl⟩, rfl, rfl⟩

/-- The ends of the window and of the reserved ranges; the position one above the largest word; the last word and byte of each
memory. -/
theorem witness_HostReadsHaveNoSideEffects :
    ({ State.reset with hostQueue := [.read 0xFFFFC 32] } : State).hostQueue = .read 0xFFFFC 32 :: [] ∧
      State.reset.cfg.blkBase ≤ 0xFFFFC ∧ 0xFFFFC < State.reset.cfg.blkBase + 0x100000 ∧
      (∀ off ∈ [0, 0x54, 0xFFFF, 0xC0000], off = 0 ∨ (0x54 ≤ off ∧ off < 0x10000) ∨ 0xC0000 ≤ off) ∧
      (0x48, 8) ∈ live.registerMap ∧ (0x44, 3) ∈ live.registerMap ∧
      (0x3C, 0xFFFFFFFF) ∈
        ({ State.reset with dec := { Decoder.reset with pos := 0x100000000 } } : State).registerMap ∧
      live.Inv ∧ 3 < 4 ∧ 4 * 0x3FFF < 0x10000 ∧ 4 * 0x7FFF < 0x20000 ∧ 4 * 0xFFFF < 0x40000 :=
  ⟨rfl, by decide, by decide, by decide, by decide, by decide, by decide, live_inv, by decide, by decide, by decide, by decide⟩

theorem witness_HostWritesReachOnlyHostState :
    ∀ a ∈ [(0x04, 32), (0x0C, 32), (0x2FFFC, 32), (0x7FFFC, 32), (0, 16)],
      State.reset.cfg.legal = true ∧ State.reset.mem.wf ∧ State.reset.cfg.blkBase ≤ a.1 ∧
        a.1 < State.reset.cfg.blkBase + 0x100000 ∧ ¬(a.1 = State.reset.cfg.blkBase ∧ a.2 = 32) := by decide

/-- A queue with one host write of a word. -/
def writing (off : Nat) (cfg : Config.Params) : State :=
  { State.powerOn cfg with hostQueue := [.write (cfg.blkBase + off) 32 0x12345678] }

/-- The last word below each capacity, the first beyond it, and a word of `DEC_IN` that straddles its capacity. -/
theorem witness_HostWordsReadBack :
    (∀ m ∈ [16383, 16384, 0x7FFF],
        4 * m < 0x20000 ∧ (writing (0x20000 + 4 * m) Config.Params.default).hostQueue =
          .write ((writing (0x20000 + 4 * m) Config.Params.default).cfg.blkBase + (0x20000 + 4 * m)) 32 0x12345678 :: []) ∧
      4 * 16383 + 4 ≤ Config.Params.default.inCap ∧ Config.Params.default.inCap ≤ 4 * 16384 ∧
      { Config.Params.default with inCap := 6 }.legal = true ∧ 4 * 1 + 1 < 6 ∧ ¬4 * 1 + 2 < 6 ∧
      (∀ m ∈ [7, 8, 65535],
        4 * m < 0x40000 ∧ (writing (0x40000 + 4 * m) { Config.Params.default with symCap := 8 }).hostQueue =
          .write ((writing (0x40000 + 4 * m) { Config.Params.default with symCap := 8 }).cfg.blkBase + (0x40000 + 4 * m)) 32
            0x12345678 :: []) ∧
      { Config.Params.default with symCap := 8 }.legal = true ∧
      (writing 0x20000 Config.Params.default).cfg.legal = true ∧ (writing 0x20000 Config.Params.default).mem.wf := by decide

/-- The first and the last code. -/
theorem witness_StatusFields : (FaultCode.noFault, 0) ∈ faultNumbers ∧ (FaultCode.corruptOverrun, 20) ∈ faultNumbers := by
  decide

/-- The last byte of `ENC_OUT`, and the last bit of a two-byte input. -/
theorem witness_StreamBitsAreMsbFirst :
    65535 < State.reset.cfg.encCap ∧ 4 * (65535 / 4) + 0x10000 < 0x20000 ∧ 15 / 8 < State.reset.cfg.inCap ∧
      15 < 8 * (loaded [0x12, 0x34] State.reset).dec.inLen.toNat := by decide

theorem witness_ResetValues :
    (0x4C, 0) ∈ resetRegisters ∧ (0x3C, 32) ∈ resetRegisters ∧ (0x50, 0x41524C01) ∈ resetRegisters := by decide

theorem witness_StepKeepsInvariant : live.Inv ∧ ∃ t, step live = .next t := ⟨live_inv, _, rfl⟩

theorem witness_FaultsAreDocumented :
    live.Inv ∧ live.fault = .noFault ∧ (∃ t, exec .encWriteEqual live = .next t ∧ t.fault ≠ .noFault) ∧
      ∃ t, exec .ftInsert live = .next t ∧ t.fault = .ftKey :=
  ⟨live_inv, rfl, ⟨_, rfl, by decide⟩, ⟨_, rfl, by decide⟩⟩

theorem witness_FaultRecordAndWhatItKeeps :
    live.mem.wf ∧ live.fault = .noFault ∧ (∃ t, exec .ftInsert live = .next t ∧ t.fault ≠ .noFault) ∧
      (∃ t, exec .encWriteEqual live = .next t ∧ t.fault ≠ .noFault) ∧
      ∃ t, exec .lzDecode State.reset = .next t ∧ t.fault ≠ .noFault :=
  ⟨by decide, rfl, ⟨_, rfl, by decide⟩, ⟨_, rfl, by decide⟩, ⟨_, rfl, by decide⟩⟩

theorem witness_PreciseFaultsChangeOnlyTheRecord :
    (∃ t, exec .ftInsert live = .next t ∧ t.fault = .ftKey) ∧
      ∃ t, exec .decReset (args 65537 0 0) = .next t ∧ t.fault = .capacity :=
  ⟨⟨_, rfl, by decide⟩, ⟨_, rfl, by decide⟩⟩

theorem witness_WhoWritesResultAndOperands :
    (∃ t, exec .encWriteEqual live = .next t) ∧ writesRes .encWriteEqual = false ∧ Instr.encWriteEqual ≠ .blkReset :=
  ⟨⟨_, rfl⟩, rfl, by decide⟩

theorem witness_SealedStreamIsRefused : sealed.enc.isSealed = true := by decide

/-- The largest and the smallest count; the values beside the bound; a trace that completes, and one that finds no room. -/
theorem witness_EncWriteEqual :
    State.reset.cfg.legal = true ∧ State.reset.enc.isSealed = false ∧ full.cfg.legal = true ∧ full.enc.isSealed = false ∧
      (args 0xFFFFFFFE 0xFFFFFFFF 0).arg0.toNat < (args 0xFFFFFFFE 0xFFFFFFFF 0).arg1.toNat ∧
      (args 0 1 0).arg0.toNat < (args 0 1 0).arg1.toNat ∧ (args 0 0 0).arg1.toNat ≤ (args 0 0 0).arg0.toNat ∧
      (∃ e, State.reset.enc.writeAll State.reset.cfg.encCap (uniformIntervals 0xFFFFFFFE 0xFFFFFFFF) = .ok e) ∧
      full.arg0.toNat < full.arg1.toNat ∧
      (∃ f, full.enc.writeAll full.cfg.encCap (uniformIntervals full.arg0.toNat full.arg1.toNat) = .error f) ∧
      State.reset.enc.room State.reset.cfg.encCap (32 * (uniformIntervals 0xFFFFFFFE 0xFFFFFFFF).length) :=
  ⟨by decide, by decide, by decide, by decide, by decide, by decide, by decide, answers (by decide +kernel), by decide,
    refuses (by decide +kernel), by unfold Encoder.room; decide⟩

/-- The largest base, the length 0, and each way an Interval is invalid at its bound; no room, and a full pending count. -/
theorem witness_EncWritePart :
    State.reset.cfg.legal = true ∧ State.reset.enc.isSealed = false ∧ State.reset.enc.room State.reset.cfg.encCap (32 * 1) ∧
      (∀ s ∈ [args 0 1 0x40000000, args 4 0 4],
        0 < s.arg2.toNat ∧ s.arg2.toNat ≤ 0x40000000 ∧ s.arg0.toNat + s.arg1.toNat ≤ s.arg2.toNat) ∧
      (∀ s ∈ [args 0 1 0, args 0 1 0x40000001, args 3 2 4],
        s.arg2 = 0 ∨ 0x40000000 < s.arg2.toNat ∨ s.arg2.toNat < s.arg0.toNat + s.arg1.toNat) ∧
      (∃ e, State.reset.enc.writeAll State.reset.cfg.encCap [⟨0, 1, 0x40000000⟩] = .ok e) ∧
      (∃ f, full.enc.writeAll full.cfg.encCap [⟨0, 1, 2⟩] = .error f) ∧
      Encoder.writeAll 65536 [⟨3, 2, 8⟩] ⟨0, 0xFFFFFFFF, 0xFFFFFFFF, [], false⟩ = .error ⟨.pendingOvf, 0, .encoderRun⟩ :=
  ⟨by decide, by decide, by unfold Encoder.room; decide, by decide, by decide, answers (by decide +kernel),
    refuses (by decide +kernel), rfl⟩

/-- An inner part with a neighbour, the last part, and the certain symbol. -/
theorem witness_NarrowingArithmetic :
    Encoder.reset.Settled ∧ 0 < 1 ∧ 0 < 0x40000000 ∧ 0x40000000 ≤ 0x40000000 ∧ 0x3FFFFFFE + 1 + 1 ≤ 0x40000000 ∧
      0x3FFFFFFF + 1 ≤ 0x40000000 ∧ 0 + 0x40000000 ≤ 0x40000000 ∧
      (∃ e, Encoder.renorm 8 32 (Encoder.reset.select ⟨0x3FFFFFFE, 1, 0x40000000⟩) = .ok e) ∧
      (∃ e, Encoder.renorm 8 32 (Encoder.reset.select ⟨0x3FFFFFFF, 1, 0x40000000⟩) = .ok e) ∧
      ∃ e, Encoder.renorm 8 32 (Encoder.reset.select ⟨0, 0x40000000, 0x40000000⟩) = .ok e :=
  ⟨reset_enc_settled, by decide, by decide, by decide, by decide, by decide, by decide, ⟨_, rfl⟩, ⟨_, rfl⟩, ⟨_, rfl⟩⟩

theorem witness_EncWritePartFt :
    State.reset.cfg.legal = true ∧ State.reset.enc.isSealed = false ∧ live.ft.Wf live.cfg.ftCap ∧
      ((5, 1) : Word × Word) ∈ live.ft ∧ live.ft.total ≤ 0x40000000 ∧ live.enc.room live.cfg.encCap (32 * 1) ∧
      (∃ e, live.enc.writeAll live.cfg.encCap [⟨0, 1, 8⟩] = .ok e) ∧
      (∃ f, full.enc.writeAll full.cfg.encCap [⟨0, 1, 8⟩] = .error f) ∧
      (∀ w, ((6, w) : Word × Word) ∉ live.ft) ∧ FreqTable.Wf 65536 [(1, 0x40000001)] ∧
      0x40000000 < FreqTable.total [(1, 0x40000001)] :=
  ⟨by decide, by decide, live_inv.table, by decide, by decide, by unfold Encoder.room; decide, answers (by decide +kernel),
    refuses (by decide +kernel), by intro w h; simp [live, tableF1] at h, wf_of (by decide +kernel), by decide⟩

theorem witness_EncWriteFib :
    State.reset.cfg.legal = true ∧ State.reset.enc.isSealed = false ∧ (args 0xFFFFFFFF 0 0).arg0 ≠ 0 ∧
      State.reset.enc.room State.reset.cfg.encCap (32 * (bitIntervals (fibCode 0xFFFFFFFF)).length) ∧ (args 0 0 0).arg0 = 0 ∧
      (∃ e, State.reset.enc.writeAll State.reset.cfg.encCap (bitIntervals (fibCode 0xFFFFFFFF)) = .ok e) ∧
      ∃ f, full.enc.writeAll full.cfg.encCap (bitIntervals (fibCode 1)) = .error f :=
  ⟨by decide, by decide, by decide, by unfold Encoder.room; decide +kernel, by decide, answers (by decide +kernel),
    refuses (by decide +kernel)⟩

theorem witness_FibonacciCodeIsZeckendorf : 1 ≤ 0xFFFFFFFF ∧ 0xFFFFFFFF ≤ 0xFFFFFFFF := by decide

theorem witness_EncWriteCount :
    State.reset.cfg.legal = true ∧ State.reset.enc.isSealed = false ∧
      State.reset.enc.room State.reset.cfg.encCap (32 * (countIntervals 0xFFFFFFFE 32 31).length) ∧
      (args 1 0 0).arg0.toNat < 2 ^ 1 ∧ (args 0xFFFFFFFF 0 0).arg0.toNat < 2 ^ 32 ∧ 2 ^ 16 ≤ (args 65536 0 0).arg0.toNat ∧
      (∃ e, State.reset.enc.writeAll State.reset.cfg.encCap (countIntervals 0xFFFFFFFE 32 31) = .ok e) ∧
      ∃ f, full.enc.writeAll full.cfg.encCap (countIntervals 0 1 0) = .error f :=
  ⟨by decide, by decide, by unfold Encoder.room; decide +kernel, by decide, by decide, by decide, answers (by decide +kernel),
    refuses (by decide +kernel)⟩

/-- The bounds of the domain without and with the extra bit, and the values beyond. -/
theorem witness_EncWriteSplit :
    State.reset.cfg.legal = true ∧ State.reset.enc.isSealed = false ∧
      State.reset.enc.room State.reset.cfg.encCap (32 * (splitCodeIntervals 1 20 4 1 21).length) ∧
      (args 20 20 4).arg0.toNat ≤ (args 20 20 4).arg1.toNat + false.toNat ∧
      (args 21 20 4).arg0.toNat ≤ (args 21 20 4).arg1.toNat + true.toNat ∧
      (args 21 20 4).arg1.toNat + false.toNat < (args 21 20 4).arg0.toNat ∧
      (args 0 0xFFFFFFFF 0).arg1 = 0xFFFFFFFF ∧
      (∃ e, State.reset.enc.writeAll State.reset.cfg.encCap (splitCodeIntervals 1 20 4 1 21) = .ok e) ∧
      ∃ f, full.enc.writeAll full.cfg.encCap (splitCodeIntervals 0 1 0 0 0) = .error f :=
  ⟨by decide, by decide, by unfold Encoder.room; decide +kernel, by decide, by decide, by decide, by decide,
    answers (by decide +kernel), refuses (by decide +kernel)⟩

/-- An encoder whose two sentinel narrowings count 32 pending bits and emit none. -/
def pinned (pending : Word) : Encoder := ⟨0x4C5D5BF1, 0xFFFFFFFF, pending, [], false⟩

/-- A stream that just fits and one that does not (the sentinel of E13 takes 34 bits), a full stream, and the pending counts
that fill up after and within the sentinel. -/
theorem witness_EncFinish :
    State.reset.cfg.legal = true ∧ State.reset.enc.isSealed = false ∧ State.reset.enc.room State.reset.cfg.encCap 66 ∧
      (∀ n ∈ [30, 31], ∃ e,
        ({ Encoder.reset with bits := List.replicate n true } : Encoder).writeAll 8 [⟨18838, 1, 65536⟩, ⟨722, 1, 65536⟩] = .ok e ∧
          e.pending ≠ 0xFFFFFFFF ∧ e.bits.length + e.pending.toNat + 2 = n + 34) ∧
      30 + 34 ≤ 8 * 8 ∧ 8 * 8 < 31 + 34 ∧
      (∃ f, full.enc.writeAll full.cfg.encCap [⟨18838, 1, 65536⟩, ⟨722, 1, 65536⟩] = .error f) ∧
      (pinned 0xFFFFFFDF).writeAll 65536 [⟨18838, 1, 65536⟩, ⟨722, 1, 65536⟩] =
        .ok ⟨565575680, 3579314175, 0xFFFFFFFF, [], false⟩ ∧
      ∃ f, (pinned 0xFFFFFFE0).writeAll 65536 [⟨18838, 1, 65536⟩, ⟨722, 1, 65536⟩] = .error f := by
  refine ⟨by decide, by decide, by unfold Encoder.room; decide, ?_, by decide, by decide, refuses (by decide +kernel), rfl,
    refuses (by decide +kernel)⟩
  intro n hn
  simp only [List.mem_cons, List.not_mem_nil, or_false] at hn
  rcases hn with rfl | rfl <;> exact ⟨_, rfl, by decide, by decide⟩

/-- The last bit that fits and the first that does not; the last pending count and the full one. -/
theorem witness_EncoderCapacityAux :
    full.Inv ∧ full.fault = .noFault ∧ (∃ t, exec .encWriteEqual full = .next t ∧ t.fault = .capacity) ∧
      (full.arg0.toNat ≤ full.cfg.symCap ∧ ∃ t, exec .lzEncode full = .next t ∧ t.fault = .capacity) ∧
      (∃ t, exec .lzEncode ({ full with arg0 := 2 } : State) = .next t ∧ t.fault = .capacity) ∧
      63 + 1 + (0 : Word).toNat ≤ 8 * 8 ∧ full.enc.bits.length ≤ 8 * 8 ∧
      8 * 8 < full.enc.bits.length + 1 + full.enc.pending.toNat ∧ (0xFFFFFFFE : Word) ≠ 0xFFFFFFFF ∧
      (pinned 0xFFFFFFFF).pending = 0xFFFFFFFF :=
  ⟨full_inv, rfl, ⟨_, rfl, by decide⟩, ⟨by decide, _, rfl, by decide⟩, ⟨_, rfl, by decide⟩, by decide, by decide, by decide,
    by decide, rfl⟩

theorem witness_EncoderFrame :
    isEncoderCommand .encFinish = true ∧ (∃ t, exec .encFinish State.reset = .next t ∧ t.fault = .noFault) ∧
      Instr.encFinish ≠ .encReset ∧ ∃ t, exec .encWriteEqual full = .next t :=
  ⟨rfl, ⟨_, rfl, by decide⟩, by decide, ⟨_, rfl⟩⟩

/-- The largest number of bytes, and one more. -/
theorem witness_DecReset :
    (args 65536 0 0).arg0.toNat ≤ (args 65536 0 0).cfg.inCap ∧ (args 65537 0 0).cfg.inCap < (args 65537 0 0).arg0.toNat := by
  decide

theorem witness_DecPeek :
    State.reset.dec.Settled ∧ 0 < (args 0x40000000 0 0).arg0.toNat ∧ (args 0x40000000 0 0).arg0.toNat ≤ 0x40000000 ∧
      0x40000000 < (args 0x40000001 0 0).arg0.toNat :=
  ⟨reset_dec_settled, by decide, by decide, by decide⟩

/-- D9 and D10: the peek value of 10 parts is 7; the code point lies in `[7, 9)` and not in `[0, 7)`. -/
theorem witness_DecNarrow :
    afterD9c.dec.Settled ∧ 0 < afterD9c.arg2.toNat ∧ afterD9c.arg2.toNat ≤ 0x40000000 ∧
      afterD9c.arg0.toNat + afterD9c.arg1.toNat ≤ afterD9c.arg2.toNat ∧ 0 < afterD9c.arg1.toNat ∧
      (afterD9c.dec.low.toNat + (afterD9c.dec.high.toNat - afterD9c.dec.low.toNat + 1) * 7 / 10 ≤ afterD9c.dec.value.toNat ∧
        afterD9c.dec.value.toNat ≤
          afterD9c.dec.low.toNat + (afterD9c.dec.high.toNat - afterD9c.dec.low.toNat + 1) * (7 + 2) / 10 - 1) ∧
      ¬afterD9c.dec.value.toNat ≤
          afterD9c.dec.low.toNat + (afterD9c.dec.high.toNat - afterD9c.dec.low.toNat + 1) * (0 + 7) / 10 - 1 ∧
      (args 4 0 4).arg1 = 0 ∧ (args 4 0 4).arg0.toNat + (args 4 0 4).arg1.toNat ≤ (args 4 0 4).arg2.toNat ∧
      (args 3 2 4).arg2.toNat < (args 3 2 4).arg0.toNat + (args 3 2 4).arg1.toNat :=
  ⟨settled_of (by decide +kernel), by decide, by decide, by decide, by decide, by decide, by decide,
    by decide, by decide, by decide⟩

theorem witness_DecReadEqual :
    State.reset.dec.Settled ∧ 0 < (args 0xFFFFFFFF 0 0).arg0.toNat ∧ (args 0 0 0).arg0 = 0 :=
  ⟨reset_dec_settled, by decide, by decide⟩

theorem witness_DecReadPartFt :
    live.dec.Settled ∧ live.ft.Wf live.cfg.ftCap ∧ live.ft ≠ [] ∧ live.ft.total ≤ 0x40000000 ∧
      FreqTable.Wf 65536 [] ∧ FreqTable.Wf 65536 [(1, 0x40000001)] ∧ 0x40000000 < FreqTable.total [(1, 0x40000001)] :=
  ⟨live_inv.decoder rfl, live_inv.table, by decide, by decide, wf_of (by decide +kernel),
    wf_of (by decide +kernel), by decide⟩

/-- D9: the code of 12. -/
theorem witness_DecReadFib :
    afterD9a.dec.Settled ∧ (12 : Word) ≠ 0 ∧
      ∃ d, Decoder.narrowAll afterD9a.input (bitIntervals (fibCode (12 : Word).toNat)) afterD9a.dec = .ok d :=
  ⟨settled_of (by decide +kernel), by decide, ⟨_, rfl⟩⟩

/-- The zero stream holds no code: a 0 leaves it as it is, a 1 is not there. -/
theorem zero_stream_reads_no_one (bits : List Bool) (pos : Nat) (d : Decoder) :
    Decoder.narrowAll State.reset.input (bitIntervals (bits ++ [true])) ⟨0, 0xFFFFFFFF, 0, pos, 0⟩ ≠ .ok d := by
  have one : ∀ pos, Decoder.narrow State.reset.input ⟨1, 1, 2⟩ ⟨0, 0xFFFFFFFF, 0, pos, 0⟩ =
      .error (.precise .narrowMismatch 0) := by
    intro pos
    simp [Decoder.narrow, checkInterval, Decoder.peek, rangeWidth, Raise.precise, Word.ofNat]
  have zero : ∀ pos, Decoder.narrow State.reset.input ⟨0, 1, 2⟩ ⟨0, 0xFFFFFFFF, 0, pos, 0⟩ =
      .ok ⟨0, 0xFFFFFFFF, 0, pos + 1, 0⟩ := by
    intro pos
    have hbit : State.reset.input.bit (0 : Word).toNat pos = false := rfl
    have hpeek : Decoder.peek ⟨0, 0xFFFFFFFF, 0, pos, 0⟩ 2 = .ok 0 := by simp [Decoder.peek, rangeWidth]
    have hsel : (Decoder.select ⟨0, 1, 2⟩ ⟨0, 0xFFFFFFFF, 0, pos, 0⟩ : Decoder) = ⟨0, 0x7FFFFFFF, 0, pos, 0⟩ := by
      simp [Decoder.select, narrowLow, narrowHigh, rangeWidth, Word.ofNat]
    rw [Decoder.narrow_completes ⟨by decide, by decide, by decide, by decide⟩ hpeek (Nat.le_refl 0) (by decide), hsel]
    have hst : renormStep 0 0x7FFFFFFF = .lowHalf := by decide
    have hdone : renormStep 0 0xFFFFFFFF = .done := by decide
    have hdbl : (Decoder.double State.reset.input .lowHalf ⟨0, 0x7FFFFFFF, 0, pos, 0⟩ : Decoder) =
        ⟨0, 0xFFFFFFFF, 0, pos + 1, 0⟩ := by
      simp only [Decoder.double, Decoder.shiftValue, hbit]; rfl
    show Except.ok (Decoder.renorm State.reset.input (31 + 1) _) = _
    rw [decoder_renorm_succ, hst, if_neg (by decide), hdbl, show (31 : Nat) = 30 + 1 from rfl, decoder_renorm_succ, hdone,
      if_pos rfl]
  induction bits generalizing pos with
  | nil =>
    intro h
    simp only [bitIntervals, List.nil_append, List.map_cons, List.map_nil, Bool.toNat_true, Decoder.narrowAll, one] at h
    exact absurd h (by simp [Except.bind])
  | cons b rest ih =>
    intro h
    simp only [bitIntervals, List.cons_append, List.map_cons, Decoder.narrowAll] at h
    cases b with
    | true =>
      simp only [Bool.toNat_true, one] at h
      exact absurd h (by simp [Except.bind])
    | false =>
      simp only [Bool.toNat_false, zero] at h
      exact ih (pos + 1) h

theorem witness_DecReadFib_corrupt :
    State.reset.dec.Settled ∧ ∀ (n : Word) (d : Decoder), n ≠ 0 →
      Decoder.narrowAll State.reset.input (bitIntervals (fibCode n.toNat)) State.reset.dec ≠ .ok d :=
  ⟨reset_dec_settled, fun _ d _ => zero_stream_reads_no_one _ 32 d⟩

theorem witness_DecReadCount : State.reset.dec.Settled ∧ (1 ≤ 1 ∧ 1 ≤ 32) ∧ (1 ≤ 32 ∧ 32 ≤ 32) ∧ (0 < 1 ∨ 32 < 0) ∧ 32 < 33 :=
  ⟨reset_dec_settled, by decide, by decide, by decide, by decide⟩

theorem witness_DecReadSplit :
    (args 0 0xFFFFFFFF 0).dec.Settled ∧ ¬(false = true ∧ (args 0 0xFFFFFFFF 0).arg1 = 0xFFFFFFFF) ∧
      ¬(true = true ∧ (args 0 0xFFFFFFFE 0).arg1 = 0xFFFFFFFF) ∧ (args 0 0xFFFFFFFF 0).arg1 = 0xFFFFFFFF ∧ 2 < 3 ∧ 3 ≤ 3 :=
  ⟨reset_dec_settled, by decide, by decide, by decide, by decide, by decide⟩

/-- D2, D9, S1 and P2: streams that continue with the code of a known value. -/
theorem witness_ReadsMirrorWrites :
    (loaded bytesP1 (args 5 2 10)).dec.Settled ∧
      (∃ d, Decoder.narrowAll (loaded bytesP1 (args 5 2 10)).input (uniformIntervals 3 5) (loaded bytesP1 (args 5 2 10)).dec = .ok d) ∧
      (∃ d, Decoder.narrowAll afterD9b.input (countIntervals 1000 16 9) afterD9b.dec = .ok d) ∧
      (∃ d, Decoder.narrowAll (loaded [0xE3, 0x6E, 0xE5, 0x5C, 0x76] (args 0 20 4)).input (splitCodeIntervals 1 20 4 0 10)
          (loaded [0xE3, 0x6E, 0xE5, 0x5C, 0x76] (args 0 20 4)).dec = .ok d) ∧
      ∃ d, (loaded [0x99, 0xE9, 0x31, 0xD1, 0x00] State.reset).dec.narrow
          (loaded [0x99, 0xE9, 0x31, 0xD1, 0x00] State.reset).input ⟨FreqTable.cum [(65, 5), (66, 2), (67, 1)] 65, 5, 8⟩ = .ok d :=
  ⟨settled_loaded, answers (by decide +kernel), answers (by decide +kernel), answers (by decide +kernel),
    answers (by decide +kernel)⟩

/-- E13: the empty trace, its finished stream, and that stream as the input. -/
theorem witness_PrimitiveRoundTrip :
    Encoder.writeAll 65536 [] Encoder.reset = .ok Encoder.reset ∧ Encoder.reset.flush 65536 = .ok sealed.enc ∧
      ∀ p, (⟨bytesAt 0x20000 [0x49, 0x96, 0x02, 0xD2, 0x40], 65536⟩ : Input).bit (5 : Word).toNat p =
        sealed.enc.bits.getD p false := by
  refine ⟨rfl, rfl, fun p => ?_⟩
  rcases Nat.lt_or_ge p 40 with h | h
  · have all : ∀ q : Fin 40, (⟨bytesAt 0x20000 [0x49, 0x96, 0x02, 0xD2, 0x40], 65536⟩ : Input).bit (5 : Word).toNat q =
        sealed.enc.bits.getD q false := by decide +kernel
    exact all ⟨p, h⟩
  · have h5 : ¬p < 8 * (5 : Word).toNat := Nat.not_lt.2 h
    have hlen : sealed.enc.bits.length ≤ p := Nat.le_trans (by decide : sealed.enc.bits.length ≤ 40) h
    unfold Input.bit
    rw [if_neg h5, List.getD_eq_getElem?_getD, List.getElem?_eq_none hlen]
    rfl

/-- The decoder of P1 has consumed the first four bytes; the fifth of them, at 0x20003, may change. -/
theorem witness_ConsumedInputHasNoEffect :
    isDecoderCommand .decReadEqual = true ∧ Instr.decReadEqual ≠ .decReset ∧
      (∃ t, exec .decReadEqual (loaded bytesP1 (args 5 2 10)) = .next t) ∧
      ∀ j, 0x20003 = 0x20000 + j → (loaded bytesP1 (args 5 2 10)).dec.pos < 8 * (j + 1) →
        (loaded bytesP1 (args 5 2 10)).dec.inLen.toNat ≤ j := by
  refine ⟨rfl, by decide, by simp only [exec, execDecReadEqual]; exact decoder_answers, ?_⟩
  intro j hj hp
  have : j = 3 := by omega
  subst this
  exact absurd hp (by decide +kernel)

theorem witness_DecoderFrame :
    isDecoderCommand .decPeek = true ∧ (∃ t, exec .decPeek afterD9c = .next t ∧ t.fault = .noFault) ∧
      isDecoderCommand .decReadFib = true ∧ Instr.decReadFib ≠ .decReset ∧
      ∃ t, exec .decReadFib State.reset = .next t ∧ t.fault = .corruptFib :=
  ⟨rfl, ⟨_, rfl, by decide⟩, rfl, by decide, ⟨_, rfl, by decide⟩⟩

/-- A present key; the weight 0; a full table; the largest total and one above it. -/
theorem witness_FtInsert :
    live.ft.Wf live.cfg.ftCap ∧ ((live.arg0, 1) : Word × Word) ∈ live.ft ∧ (∀ w, ((6, w) : Word × Word) ∉ live.ft) ∧
      FreqTable.Wf 3 tableF1 ∧ tableF1.length = 3 ∧ FreqTable.total tableF1 + (0xFFFFFFF7 : Word).toNat ≤ 0xFFFFFFFF ∧
      0xFFFFFFFF < FreqTable.total tableF1 + (0xFFFFFFF8 : Word).toNat :=
  ⟨live_inv.table, by decide, by intro w h; simp [live, tableF1] at h, wf_of (by decide +kernel), by decide,
    by decide, by decide⟩

theorem witness_FtRemoveIncreaseClear :
    live.ft.Wf live.cfg.ftCap ∧ ((live.arg0, 1) : Word × Word) ∈ live.ft ∧ (∀ w, ((6, w) : Word × Word) ∉ live.ft) ∧
      live.ft.total ≠ 0xFFFFFFFF ∧ FreqTable.Wf 65536 [(5, 0xFFFFFFFF)] ∧ FreqTable.total [(5, 0xFFFFFFFF)] = 0xFFFFFFFF :=
  ⟨live_inv.table, by decide, by intro w h; simp [live, tableF1] at h, by decide, wf_of (by decide +kernel),
    by decide⟩

theorem witness_FtQueries :
    live.ft.Wf live.cfg.ftCap ∧ ((live.arg0, 1) : Word × Word) ∈ live.ft ∧ ∀ w, ((6, w) : Word × Word) ∉ live.ft :=
  ⟨live_inv.table, by decide, by intro w h; simp [live, tableF1] at h⟩

/-- The last position of the table, and the first beyond it. -/
theorem witness_FtFind :
    live.ft.Wf live.cfg.ftCap ∧ (args 7 0 0).arg0.toNat < live.ft.total ∧ live.ft.total ≤ (args 8 0 0).arg0.toNat :=
  ⟨live_inv.table, by decide, by decide⟩

theorem witness_TableFrame : isTableCommand .ftTotal = true ∧ ∃ t, exec .ftTotal live = .next t := ⟨rfl, _, rfl⟩

/-- R206: one list of each mode, and the empty one. -/
theorem witness_ChosenPolicyCoversItsValues :
    (choosePolicy [5, 5]).mode = .whole ∧ (choosePolicy [1, 1, 1, 1, 1, 1, 40]).mode = .escapeLong ∧
      (choosePolicy [30, 30, 30, 30, 30, 30, 0]).mode = .escapeShort ∧ (choosePolicy []).mode = .whole ∧
      5 ∈ [5, 5] ∧ 1 < [1, 1, 1, 1, 1, 1, 40].sum / [1, 1, 1, 1, 1, 1, 40].length := by decide

theorem witness_BufferIsCeilingSquareRoot : 1 ≤ 1024 ∧ 1048576 ≤ 1024 * 1024 := by decide

/-- An empty table, a base one above what fits, `N` one above the capacity, and a symbol that is absent. -/
theorem witness_LzFaultConditions :
    ¬FreqTable.usable [] ∧ ¬FreqTable.usable [(1, 0x40000000)] ∧ State.reset.enc.isSealed = false ∧
      State.reset.cfg.symCap < (args 65537 0 0).arg0.toNat ∧ (args 65536 0 0).arg0.toNat ≤ State.reset.cfg.symCap ∧
      stateP3.ft.usable ∧ stateP3.symInWord 9 = 0 ∧ (∀ w, ((stateP3.symInWord 0, w) : Word × Word) ∉ tableF1) ∧
      tableF1.usable := by
  refine ⟨fun h => h.1 rfl, fun h => absurd h.2 (by decide), by decide, by decide, by decide,
    ⟨by decide, by decide⟩, by decide, ?_, ⟨by decide, by decide⟩⟩
  have : stateP3.symInWord 0 = 1 := by decide
  intro w h
  rw [this] at h
  simp [tableF1] at h

/-- The table of the corrupt streams of section 7. -/
def tableC : FreqTable := [(1, 1048576), (2, 1)]

/-- A block with that table, whose decoder has loaded `bytes`. -/
def reading (bytes : List Byte) : State := loaded bytes { args 0 0 0 with ft := tableC }

theorem tableC_usable : tableC.Wf 65536 ∧ tableC.usable := ⟨wf_of (by decide +kernel), by decide, by decide⟩

/-- A policy of R237 with `max = 3`, and the empty one. -/
def policy3 : Policy := ⟨.whole, 3, 0⟩
def policy0 : Policy := ⟨.whole, 0, 0⟩

/-- The plan of streams A and B of section 7: `max = 3` for both policies, no spirals, no token yet. -/
def planAB : LzPlan := ⟨policy3, policy3, policy0, false, []⟩

/-- The bytes of stream C of section 7, whose distance policy is corrupt; and, made the same way, streams with a corrupt length
policy, a corrupt spiral length policy, and a dummy stream with spirals. -/
def bytesC : List Byte := [0x10, 0x2C, 0x2C, 0x08, 0xFA, 0xE8]
def bytesLen : List Byte := [0x0F, 0x8A, 0x6C, 0x74, 0x59, 0xBE, 0x60]
def bytesSpiral : List Byte := [0x0F, 0x83, 0xF1, 0x53, 0x83, 0x96, 0x1A, 0xC0]
def bytesDummy : List Byte := [0x0F, 0x84, 0x09, 0x21, 0x35, 0x09, 0x98]

/-- The input of a state continues with a trace. -/
def continuesWith (s : State) (trace : List Interval) : Bool := (Decoder.narrowAll s.input trace s.dec).isOk

/-- Stream C, where 3 is the count and above a symbol capacity of 2, and each way a header is corrupt. -/
theorem witness_LzFaultConditions_header :
    (reading bytesC).dec.Settled ∧ tableC.Wf 65536 ∧ tableC.usable ∧ 2 < 3 ∧ 3 ≤ State.reset.cfg.symCap ∧ policy0.carried ∧
      (continuesWith (reading bytesC) (countIntervals 3 32 2) &&
        continuesWith (reading bytesC) (countIntervals 3 32 2 ++ (uniformIntervals 1 3 ++ countIntervals 0 16 0)) &&
        continuesWith (reading bytesLen)
          (countIntervals 3 32 2 ++ policyIntervals policy0 ++ (uniformIntervals 2 3 ++ countIntervals 0 16 0)) &&
        continuesWith (reading bytesSpiral)
          (headerStart 3 false policy0 policy0 ++ uniformIntervals 1 2 ++ (uniformIntervals 1 3 ++ countIntervals 0 16 0)) &&
        continuesWith (reading bytesDummy) (headerStart 3 true policy0 policy0 ++ uniformIntervals 1 2)) = true ∧
      Nat.log2 (3 + 1) = 2 :=
  ⟨settled_of (by decide +kernel), tableC_usable.1, tableC_usable.2, by decide, by decide, ⟨by decide, .inl rfl⟩,
    by decide +kernel, by decide +kernel⟩

/-- Stream A, a token of length 2 where no symbol stands, and stream B, one that passes `N = 3` from the index 2. -/
theorem witness_LzFaultConditions_token :
    planAB.Valid [] ∧ planAB.Valid [1, 2] ∧ (∀ x ∈ ([1, 2] : List Word), ∃ w, ((x, w) : Word × Word) ∈ tableC) ∧
      2 - 2 ≤ planAB.len.max ∧ ([] : List Word).length < 2 ∧ 2 ≤ ([1, 2] : List Word).length ∧
      3 < 2 + 2 * ((none : Option Nat).getD 0 + 1) ∧ 0 ≤ planAB.distBound 2 2 ∧
      (continuesWith (reading [0x13, 0x78, 0x6B, 0x7C, 0xED, 0x54, 0x63, 0x15, 0xF0])
          (headerIntervals 5 false planAB ++ bodyIntervals tableC false planAB [] ++ tokenStart tableC.total planAB 2) &&
        continuesWith (reading [0x0F, 0x97, 0x73, 0x3E, 0x85, 0x93, 0x36, 0x57, 0x2D, 0x9F, 0xFD])
          (headerIntervals 3 false planAB ++ bodyIntervals tableC false planAB [1, 2] ++ tokenStart tableC.total planAB 2 ++
            distanceIntervals planAB 2 2 0 none)) = true := by
  refine ⟨valid_of_validPlan (by decide), valid_of_validPlan (by decide), ?_, by decide, by decide, by decide, by decide,
    by decide, by decide +kernel⟩
  intro x hx
  simp only [List.mem_cons, List.not_mem_nil, or_false] at hx
  rcases hx with rfl | rfl
  · exact ⟨1048576, by decide⟩
  · exact ⟨1, by decide⟩

/-- P3 with the nine symbols of source scenario 1, whose 19 Intervals have room, and the empty input on a full stream. -/
theorem witness_LzEncodeCompletes :
    stateP3.cfg.legal = true ∧ stateP3.enc.isSealed = false ∧ stateP3.ft.Wf stateP3.cfg.ftCap ∧ stateP3.ft.usable ∧
      stateP3.arg0.toNat ≤ stateP3.cfg.symCap ∧ stateP3.cfg.lzSelect = .reference ∧
      (∀ m, m < stateP3.arg0.toNat → ∃ w, ((stateP3.symInWord m, w) : Word × Word) ∈ stateP3.ft) ∧
      (∃ e, stateP3.enc.writeAll stateP3.cfg.encCap traceP3 = .ok e) ∧
      stateP3.enc.room stateP3.cfg.encCap (32 * traceP3.length) ∧
      full.ft.Wf full.cfg.ftCap ∧ full.ft.usable ∧ full.arg0.toNat ≤ full.cfg.symCap ∧
      ∃ f, full.enc.writeAll full.cfg.encCap (lzIntervals full.ft [] dummyPlan) = .error f := by
  refine ⟨by decide, by decide, wf_of (by decide +kernel), ⟨by decide, by decide⟩, by decide, rfl, ?_,
    answers (by decide +kernel), by unfold Encoder.room; decide, full_inv.table, ⟨by decide, by decide⟩, by decide,
    refuses (by decide +kernel)⟩
  intro m hm
  have all : ∀ q : Fin 9, (stateP3.symInWord q, 1) ∈ stateP3.ft := by decide
  exact ⟨1, all ⟨m, hm⟩⟩

/-- P3: the reference selection has a token. -/
theorem witness_ReferenceSelectionIsValid :
    State.reset.cfg.legal = true ∧ { Config.Params.default with spiralEnable := false }.legal = true ∧
      planP3.tokens.length = 1 := by decide

theorem witness_LzEncodeFrame :
    (∃ t, exec .lzEncode stateP3 = .next t ∧ t.fault = .noFault) ∧ ∃ t, exec .lzEncode full = .next t ∧ t.fault = .capacity :=
  ⟨⟨_, rfl, by decide⟩, ⟨_, rfl, by decide⟩⟩

/-- P3: a plan with a spiral token, and a stream that continues with its trace. -/
theorem witness_LzDecodeMirrorsLzEncode :
    (loaded bytesP3 stateP3).cfg.legal = true ∧ (loaded bytesP3 stateP3).dec.Settled ∧ stateP3.ft.Wf stateP3.cfg.ftCap ∧
      stateP3.ft.usable ∧ symbolsP3.length ≤ stateP3.cfg.symCap ∧ planP3.Valid symbolsP3 ∧
      (∀ x ∈ symbolsP3, ∃ w, ((x, w) : Word × Word) ∈ stateP3.ft) ∧ (loaded bytesP3 stateP3).mem.wf ∧ 8 < symbolsP3.length ∧
      ∃ d, Decoder.narrowAll (loaded bytesP3 stateP3).input (lzIntervals stateP3.ft symbolsP3 planP3)
        (loaded bytesP3 stateP3).dec = .ok d := by
  refine ⟨by decide, settled_of (by decide +kernel), wf_of (by decide +kernel), ⟨by decide, by decide +kernel⟩, by decide,
    valid_of_validPlan (by decide +kernel), ?_, by decide, by decide, answers (by decide +kernel)⟩
  have all : symbolsP3.all (fun x => (x, 1) ∈ stateP3.ft) = true := by decide
  exact fun x hx => ⟨1, by simpa using List.all_eq_true.1 all x hx⟩

theorem witness_LzDecodeFrame :
    (loaded bytesP3 stateP3).mem.wf ∧ (loaded bytesP3 stateP3).fault = .noFault ∧
      (∃ t, exec .lzDecode (loaded bytesP3 stateP3) = .next t) ∧ ∃ t, exec .lzDecode State.reset = .next t ∧ t.fault = .lzModel :=
  ⟨by decide, rfl, by simp only [exec, execLzDecode]; exact decoder_answers, ⟨_, rfl, by decide⟩⟩

end Sys2Proof.Tests
end

section
/-!
PROOFS. What a read does to the decoder: it narrows it by a trace of Intervals, whatever else it computes (R126, R143). Whatever
a narrowing keeps, each read keeps; the decoder's bounds (R38) are one such thing.
-/
namespace Sys2Proof.Machine

/-- Where `x` answers, its decoder is `d` after the narrowings of some trace. -/
structure Narrows {α : Type} (inp : Input) (d : Decoder) (x : Coded (α × Decoder)) : Prop where
  trace : ∀ a, x = .ok a → ∃ trace, Decoder.narrowAll inp trace d = .ok a.2

section
variable {α β : Type} {inp : Input} {d : Decoder}

theorem narrows_ok (a : α) : Narrows inp d (.ok (a, d)) := by
  refine ⟨fun b hb => ⟨[], ?_⟩⟩
  rw [← Except.ok.inj hb]
  rfl

theorem narrows_error (r : Raise) : Narrows inp d (.error r : Coded (α × Decoder)) := ⟨nofun⟩

theorem narrows_bind {x : Coded (α × Decoder)} {f : α × Decoder → Coded (β × Decoder)} (hx : Narrows inp d x)
    (hf : ∀ a d', Narrows inp d' (f (a, d'))) : Narrows inp d (x >>= f) := by
  refine ⟨fun b hb => ?_⟩
  obtain ⟨⟨a, d'⟩, ha, hb⟩ := (coded_bind_eq_ok _ _ _).1 hb
  obtain ⟨t, ht⟩ := hx.trace _ ha
  obtain ⟨u, hu⟩ := (hf a d').trace b hb
  exact ⟨t ++ u, by rw [narrowAll_append, ht, coded_bind_ok, hu]⟩

/-- An optional part before a common continuation. -/
theorem narrows_ite_bind {c : Prop} [Decidable c] {x y : Coded (α × Decoder)} {f : α × Decoder → Coded (β × Decoder)}
    (hx : Narrows inp d x) (hy : Narrows inp d y) (hf : ∀ a d', Narrows inp d' (f (a, d'))) :
    Narrows inp d (if c then x >>= f else y >>= f) := by
  split
  · exact narrows_bind hx hf
  · exact narrows_bind hy hf

/-- A part that answers no decoder leaves the decoder as it is. -/
theorem narrows_bind_value {x : Coded α} {f : α → Coded (β × Decoder)} (hf : ∀ a, Narrows inp d (f a)) :
    Narrows inp d (x >>= f) := by
  refine ⟨fun b hb => ?_⟩
  obtain ⟨a, -, hb⟩ := (coded_bind_eq_ok _ _ _).1 hb
  exact (hf a).trace b hb

theorem narrows_bind_narrow {iv : Interval} {f : Decoder → Coded (β × Decoder)} (hf : ∀ d', Narrows inp d' (f d')) :
    Narrows inp d (d.narrow inp iv >>= f) := by
  refine ⟨fun b hb => ?_⟩
  obtain ⟨d', hd', hb⟩ := (coded_bind_eq_ok _ _ _).1 hb
  obtain ⟨t, ht⟩ := (hf d').trace b hb
  exact ⟨iv :: t, by rw [narrowAll_cons, hd', coded_bind_ok, ht]⟩

/-- A read keeps settled bounds (R38). -/
theorem Narrows.settled {x : Coded (α × Decoder)} {a : α × Decoder} (hx : Narrows inp d x) (ha : x = .ok a)
    (hd : d.Settled) : a.2.Settled := by
  obtain ⟨t, ht⟩ := hx.trace a ha
  exact (narrowAll_settled t hd ht).1

end

/-! ### The reads of unit 0x2 (R145 to R147, R203, R264) -/

theorem direct_narrows (inp : Input) (n : Nat) (d : Decoder) : Narrows inp d (d.direct inp n) :=
  narrows_bind_value (fun v => narrows_bind_narrow (fun _ => narrows_ok v))

theorem uniform_narrows (inp : Input) (count : Nat) (d : Decoder) : Narrows inp d (d.uniform inp count) := by
  unfold Decoder.uniform
  split
  · exact narrows_error _
  · split
    · exact direct_narrows inp _ d
    · exact narrows_bind (direct_narrows inp _ d) (fun _ d1 => narrows_bind (direct_narrows inp _ d1) (fun _ _ => narrows_ok _))

theorem fibLoop_narrows (inp : Input) (left k n : Nat) (prev : Bool) (d : Decoder) :
    Narrows inp d (Decoder.fibLoop inp left k n prev d) := by
  induction left generalizing k n prev d with
  | zero => exact narrows_error _
  | succ left ih =>
    unfold Decoder.fibLoop
    refine narrows_bind (uniform_narrows inp 2 d) (fun v d1 => ?_)
    dsimp only
    split
    · exact narrows_ok _
    · split
      · exact narrows_error _
      · split
        · split
          · exact narrows_error _
          · exact ih _ _ _ _
        · exact ih _ _ _ _

theorem count_narrows (inp : Input) (W : Nat) (d : Decoder) : Narrows inp d (d.count inp W) := by
  unfold Decoder.count
  split
  · exact narrows_error _
  · refine narrows_bind (uniform_narrows inp _ d) (fun k d1 => ?_)
    dsimp only
    split
    · exact narrows_ok _
    · split
      · exact narrows_ok _
      · exact narrows_bind (uniform_narrows inp _ d1) (fun _ _ => narrows_ok _)

theorem split_narrows (inp : Input) (p : Policy) (e : Nat) (d : Decoder) : Narrows inp d (d.split inp p e) := by
  unfold Decoder.split Decoder.splitEffective
  split
  · exact uniform_narrows inp _ d
  · refine narrows_bind (uniform_narrows inp _ d) (fun v d1 => ?_)
    dsimp only
    split
    · exact narrows_ok _
    · exact narrows_bind (uniform_narrows inp _ d1) (fun _ _ => narrows_ok _)
  · refine narrows_bind (uniform_narrows inp _ d) (fun v d1 => ?_)
    dsimp only
    split
    · exact narrows_ok _
    · exact uniform_narrows inp _ d1

theorem symbol_narrows (inp : Input) (t : FreqTable) (base : Nat) (d : Decoder) : Narrows inp d (d.symbol inp t base) :=
  narrows_bind_value (fun _ => narrows_bind_value (fun key => narrows_bind_value (fun _ =>
    narrows_bind_narrow (fun _ => narrows_ok key))))

/-! ### The reads of LZ_DECODE (R261 to R270) -/

theorem flag_narrows (inp : Input) (d : Decoder) : Narrows inp d (d.flag inp) :=
  narrows_bind (uniform_narrows inp 2 d) (fun _ _ => narrows_ok _)

theorem triple_narrows (inp : Input) (d : Decoder) : Narrows inp d (d.triple inp) := by
  unfold Decoder.triple
  refine narrows_bind (uniform_narrows inp 3 d) (fun r d1 => narrows_bind (count_narrows inp _ d1) (fun max d2 => ?_))
  dsimp only
  split
  · exact narrows_ok _
  · exact narrows_ok _
  · split
    · exact narrows_error _
    · exact narrows_bind (uniform_narrows inp _ d2) (fun _ _ => narrows_ok _)

theorem header_narrows (inp : Input) (cap : Nat) (d : Decoder) : Narrows inp d (d.header inp cap) := by
  unfold Decoder.header
  refine narrows_bind (count_narrows inp 32 d) (fun n d1 => ?_)
  dsimp only
  split
  · exact narrows_error _
  · refine narrows_bind (triple_narrows inp d1) (fun dist d2 => narrows_bind (triple_narrows inp d2) (fun len d3 => ?_))
    refine narrows_ite_bind (flag_narrows inp d3) (narrows_ok _) (fun dummy d4 => ?_)
    refine narrows_bind (flag_narrows inp d4) (fun useSpiral d5 => ?_)
    dsimp only
    split
    · split
      · exact narrows_error _
      · exact narrows_bind (triple_narrows inp d5) (fun _ _ => narrows_ok _)
    · exact narrows_ok _

theorem tokenDistance_narrows (inp : Input) (plan : LzPlan) (i chunk : Nat) (d : Decoder) :
    Narrows inp d (d.tokenDistance inp plan i chunk) := by
  unfold Decoder.tokenDistance
  refine narrows_bind (split_narrows inp _ _ d) (fun v d1 => ?_)
  dsimp only
  split
  · exact narrows_bind (split_narrows inp _ _ d1) (fun _ _ => narrows_ok _)
  · exact narrows_ok _

theorem token_narrows (inp : Input) (base : Nat) (hd : LzHeader) (out : List Word) (d : Decoder) :
    Narrows inp d (d.token inp base hd out) := by
  unfold Decoder.token
  refine narrows_bind_narrow (fun d1 => narrows_bind (split_narrows inp _ _ d1) (fun v d2 => ?_))
  dsimp only
  split
  · exact narrows_error _
  · refine narrows_bind (tokenDistance_narrows inp _ _ _ d2) (fun _ d3 => ?_)
    dsimp only
    split
    · exact narrows_error _
    · exact narrows_ok _

theorem literal_narrows (inp : Input) (t : FreqTable) (base : Nat) (out : List Word) (d : Decoder) :
    Narrows inp d (d.literal inp t base out) :=
  narrows_bind (symbol_narrows inp t base d) (fun _ _ => narrows_ok _)

theorem bodyItem_narrows (inp : Input) (t : FreqTable) (hd : LzHeader) (out : List Word) (d : Decoder) :
    Narrows inp d (d.bodyItem inp t hd out) := by
  unfold Decoder.bodyItem
  split
  · exact literal_narrows inp t _ out d
  · refine narrows_bind_value (fun v => ?_)
    split
    · exact token_narrows inp _ hd out d
    · exact literal_narrows inp t _ out d

theorem body_narrows (inp : Input) (t : FreqTable) (hd : LzHeader) (fuel : Nat) (out : List Word) (d : Decoder) :
    Narrows inp d (Decoder.body inp t hd fuel out d) := by
  induction fuel generalizing out d with
  | zero => exact narrows_ok _
  | succ fuel ih =>
    unfold Decoder.body
    split
    · exact narrows_bind (bodyItem_narrows inp t hd out d) (fun out' d1 => ih out' d1)
    · exact narrows_ok _

theorem lzStream_narrows (inp : Input) (t : FreqTable) (cap : Nat) (d : Decoder) : Narrows inp d (d.lzStream inp t cap) :=
  narrows_bind (header_narrows inp cap d) (fun _ d1 => narrows_bind (body_narrows inp t _ _ _ d1) (fun _ _ => narrows_ok _))

end Sys2Proof.Machine
end

section
/-!
PROOFS. The frame of a command, field by field, read off `exec_cases`: what `RES`, the operand registers, the coders, the table
and the memory are after it, whether it completed or took a fault of its class.
-/
namespace Sys2Proof.Machine

/-! ### What a fault keeps, by its kind (R303, R305) -/

/-- A property of the precise kind and of a command's class holds of the kind of each fault the command may raise. -/
theorem Raise.Of.kind_elim {k : FaultKind} {r : Raise} {P : FaultKind → Prop} (h : r.Of k) (hp : P .precise) (hk : P k) :
    P r.kind := by
  rcases h.2 with e | ⟨e, -⟩
  · rwa [e]
  · rwa [e]

theorem takeFault_enc {s : State} {w : Word} {r : Raise} (h : r.kind ≠ .encoderRun) : (s.takeFault w r).enc = s.enc := by
  rcases r with ⟨_, _, k⟩
  cases k with
  | encoderRun => exact absurd rfl h
  | _ => rfl

theorem takeFault_dec {s : State} {w : Word} {r : Raise} (h : r.kind = .precise ∨ r.kind = .encoderRun) :
    (s.takeFault w r).dec = s.dec := by
  rcases r with ⟨_, _, k⟩
  rcases h with rfl | rfl <;> rfl

theorem takeFault_mem {s : State} {w : Word} {r : Raise} (h : r.kind ≠ .lzDecodeRun) : (s.takeFault w r).mem = s.mem := by
  rcases r with ⟨_, _, k⟩
  cases k with
  | lzDecodeRun => exact absurd rfl h
  | _ => rfl

theorem takeFault_freeCount {s : State} {w : Word} {r : Raise} (h : r.kind = .precise) :
    (s.takeFault w r).freeCount = s.freeCount := by
  rcases r with ⟨_, _, k⟩
  subst h; rfl

theorem takeFault_sameHostSide (s : State) (w : Word) (r : Raise) : s.sameHostSide (s.takeFault w r) := by
  simp [State.sameHostSide]

/-! ### The class of a command's faults, by its unit (R305) -/

theorem faultClass_ne_encoderRun {i : Instr} (h : isEncoderCommand i = false) (hl : i ≠ .lzEncode) :
    faultClass i ≠ .encoderRun := by
  cases i <;> simp_all [isEncoderCommand, faultClass]

theorem faultClass_keepsDecoder {i : Instr} (hf : i ≠ .decReadFib) (hl : i ≠ .lzDecode) :
    faultClass i = .precise ∨ faultClass i = .encoderRun := by
  cases i <;> simp_all [faultClass]

theorem faultClass_ne_lzDecodeRun {i : Instr} (hl : i ≠ .lzDecode) : faultClass i ≠ .lzDecodeRun := by
  cases i <;> simp_all [faultClass]

theorem faultClass_table {i : Instr} (h : isTableCommand i = true) : faultClass i = .precise := by
  cases i <;> simp_all [isTableCommand, faultClass]

/-! ### The fields after a command -/

section
variable {i : Instr} {s t : State} (hi : i ≠ .blkReset) (h : exec i s = .next t)
include hi h

theorem exec_sameHostSide : s.sameHostSide t := by
  rcases exec_cases hi h with ⟨r, rfl, -⟩ | hc
  · exact takeFault_sameHostSide s _ r
  · exact hc.host

theorem exec_recordOf : s.recordOf i t := by
  rcases exec_cases hi h with ⟨r, rfl, hr⟩ | hc
  · exact .inr ⟨hr.1, rfl⟩
  · exact .inl hc.record

theorem exec_res (hr : writesRes i = false) : t.res = s.res := by
  rcases exec_cases hi h with ⟨r, rfl, -⟩ | hc
  · exact takeFault_res s _ r
  · exact hc.res hr

theorem exec_enc (he : isEncoderCommand i = false) (hl : i ≠ .lzEncode) : t.enc = s.enc := by
  rcases exec_cases hi h with ⟨r, rfl, hr⟩ | hc
  · exact takeFault_enc (hr.kind_elim (P := (· ≠ .encoderRun)) (by decide) (faultClass_ne_encoderRun he hl))
  · exact hc.enc he hl

theorem exec_dec (hd : isDecoderCommand i = false ∨ i = .decPeek) (hl : i ≠ .lzDecode) : t.dec = s.dec := by
  have hf : i ≠ .decReadFib := by rintro rfl; simp [isDecoderCommand] at hd
  rcases exec_cases hi h with ⟨r, rfl, hr⟩ | hc
  · exact takeFault_dec
      (hr.kind_elim (P := fun k => k = .precise ∨ k = .encoderRun) (.inl rfl) (faultClass_keepsDecoder hf hl))
  · exact hc.dec hd hl

theorem exec_inLen (hd : i ≠ .decReset) : t.dec.inLen = s.dec.inLen := by
  rcases exec_cases hi h with ⟨r, rfl, -⟩ | hc
  · exact takeFault_inLen s _ r
  · exact hc.inLen hd

theorem exec_ft (hf : isTableCommand i = false ∨ writesRes i = true) : t.ft = s.ft := by
  rcases exec_cases hi h with ⟨r, rfl, -⟩ | hc
  · exact takeFault_ft s _ r
  · exact hc.ft hf

theorem exec_lzN (he : i ≠ .lzEncode) (hd : i ≠ .lzDecode) : t.lzN = s.lzN := by
  rcases exec_cases hi h with ⟨r, rfl, -⟩ | hc
  · exact takeFault_lzN s _ r
  · exact hc.lzN he hd

theorem exec_mem (hl : i ≠ .lzDecode) : t.mem = s.mem := by
  rcases exec_cases hi h with ⟨r, rfl, hr⟩ | hc
  · exact takeFault_mem (hr.kind_elim (P := (· ≠ .lzDecodeRun)) (by decide) (faultClass_ne_lzDecodeRun hl))
  · exact hc.mem hl

theorem exec_sameBytes (hl : i ≠ .lzDecode) : s.sameBytes t := fun x => by
  rw [exec_mem hi h hl]

/-- A command other than BLK_RESET that records no fault completed (R302). -/
theorem completed_of_noFault (ht : t.fault = .noFault) : Completed i s t := by
  rcases exec_cases hi h with ⟨r, rfl, hr⟩ | hc
  · exact absurd ht hr.1
  · exact hc

end

/-! ### The frames of the units -/

theorem encoderCommand_other_units {i : Instr} (h : isEncoderCommand i = true) :
    i ≠ .blkReset ∧ i ≠ .lzEncode ∧ i ≠ .lzDecode ∧ isDecoderCommand i = false ∧ isTableCommand i = false := by
  cases i <;> simp_all [isEncoderCommand, isDecoderCommand, isTableCommand]

theorem decoderCommand_other_units {i : Instr} (h : isDecoderCommand i = true) :
    i ≠ .blkReset ∧ i ≠ .lzEncode ∧ i ≠ .lzDecode ∧ isEncoderCommand i = false ∧ isTableCommand i = false := by
  cases i <;> simp_all [isEncoderCommand, isDecoderCommand, isTableCommand]

theorem tableCommand_other_units {i : Instr} (h : isTableCommand i = true) :
    i ≠ .blkReset ∧ i ≠ .lzEncode ∧ i ≠ .lzDecode ∧ isEncoderCommand i = false ∧ isDecoderCommand i = false := by
  cases i <;> simp_all [isEncoderCommand, isDecoderCommand, isTableCommand]

/-- Of the encoder's commands only ENC_FINISH writes `RES` (R22). -/
theorem encoderCommand_writesRes {i : Instr} (h : isEncoderCommand i = true) (hn : i ≠ .encFinish) : writesRes i = false := by
  cases i <;> simp_all [isEncoderCommand, writesRes]

/-- Settles O21: `exec_cases` gives both halves, a fault keeping all four registers. -/
theorem whoWritesResultAndOperands : Obligations.WhoWritesResultAndOperands := by
  intro i s t h hi
  obtain ⟨h0, h1, h2, -⟩ := exec_sameHostSide hi h
  exact ⟨exec_res hi h, h0, h1, h2⟩

/-- Settles O35: an encoder command's faults are precise or of the encoder's class, and a completed one changes the encoder
and `RES` only. -/
theorem encoderFrame : Obligations.EncoderFrame := by
  intro i s t he h
  obtain ⟨hi, hle, hld, hd, hf⟩ := encoderCommand_other_units he
  refine ⟨exec_sameHostSide hi h, exec_dec hi h (.inl hd) hld, exec_ft hi h (.inl hf), exec_lzN hi h hle hld,
    exec_sameBytes hi h hld, fun hn => exec_res hi h (encoderCommand_writesRes he hn), exec_recordOf hi h,
    fun ht => (completed_of_noFault hi h ht).freeCount hle, fun ht => (completed_of_noFault hi h ht).bits⟩

/-- Settles O47: a decoder command's faults are precise or those of DEC_READ_FIB, and a completed one changes the decoder and
`RES` only. -/
theorem decoderFrame : Obligations.DecoderFrame := by
  intro i s t hd h
  obtain ⟨hi, hle, hld, he, hf⟩ := decoderCommand_other_units hd
  have hr : i = .decReset ∨ i = .decNarrow → writesRes i = false := by rintro (rfl | rfl) <;> rfl
  exact ⟨exec_sameHostSide hi h, exec_enc hi h he hle, exec_ft hi h (.inl hf), exec_lzN hi h hle hld,
    exec_sameBytes hi h hld, fun hn => exec_res hi h (hr hn), fun hp => exec_dec hi h (.inr hp) hld, exec_inLen hi h,
    exec_recordOf hi h, fun ht => (completed_of_noFault hi h ht).freeCount hle⟩

/-- Settles O52: a table command's faults are all precise, so no free value is drawn, and a completed one changes the table or
`RES` only. -/
theorem tableFrame : Obligations.TableFrame := by
  intro i s t hf h
  obtain ⟨hi, hle, hld, he, hd⟩ := tableCommand_other_units hf
  have hfree : t.freeCount = s.freeCount := by
    rcases exec_cases hi h with ⟨r, rfl, hr⟩ | hc
    · exact takeFault_freeCount (hr.kind_elim (P := (· = .precise)) rfl (faultClass_table hf))
    · exact hc.freeCount hle
  exact ⟨exec_sameHostSide hi h, exec_enc hi h he hle, exec_dec hi h (.inl hd) hld, exec_lzN hi h hle hld,
    exec_sameBytes hi h hld, hfree, exec_recordOf hi h, fun hr => exec_ft hi h (.inr hr), exec_res hi h⟩

end Sys2Proof.Machine
end

section
/-!
PROOFS. One host access: the equation of a step per access, what a step can do (`step_cases`), and what the index, a read and a
write that is not a command do (R35, R39, R51, R55).
-/
namespace Sys2Proof.Machine

/-! ### The window and the accesses the block takes (R51, R55) -/

theorem windowOffset_eq_some {cfg : Config.Params} {addr off : Nat} :
    windowOffset cfg addr = some off ↔
      cfg.blkBase ≤ addr ∧ addr < cfg.blkBase + 0x100000 ∧ addr - cfg.blkBase = off := by
  unfold windowOffset windowSize
  split <;> simp <;> omega

theorem takesAccess_iff {off bits : Nat} : takesAccess off bits = true ↔ bits = 32 ∧ off % 4 = 0 := by
  simp [takesAccess]

/-! ### A step, by its access (R56, R58) -/

theorem step_read {s : State} {rest : List HostAccess} {addr bits off : Nat} (hq : s.hostQueue = .read addr bits :: rest)
    (hw : windowOffset s.cfg addr = some off) : step s = .next (hostRead off bits { s with hostQueue := rest }) := by
  simp only [step, hostStep, hq, access, hw]

theorem step_write {s : State} {rest : List HostAccess} {addr bits off : Nat} {v : Word}
    (hq : s.hostQueue = .write addr bits v :: rest) (hw : windowOffset s.cfg addr = some off) :
    step s = hostWrite off bits v { s with hostQueue := rest } := by
  simp only [step, hostStep, hq, access, hw]

/-- A host write that is not a command, as one equation (R55, R56). -/
theorem hostWrite_of_not_command {off bits : Nat} (v : Word) (s : State) (h : ¬(off = 0 ∧ bits = 32)) :
    hostWrite off bits v s = .next (if takesAccess off bits then s.writeWindow off v else s) := by
  unfold hostWrite
  split
  · rename_i ht
    rw [if_neg (fun h0 => h ⟨h0, (takesAccess_iff.1 ht).1⟩)]
  · rfl

/-- A write to `CMD` issues its word (R56). -/
theorem step_command {s : State} {rest : List HostAccess} {w : Word} (hq : s.hostQueue = .write s.cfg.blkBase 32 w :: rest) :
    step s = issue w { s with hostQueue := rest } :=
  step_write hq (windowOffset_eq_some.2 ⟨Nat.le_refl _, by omega, Nat.sub_self _⟩)

/-- What a step that answers a next state can do: nothing, a read, a write that is not a command, or a command. -/
theorem step_cases {s t : State} (h : step s = .next t) :
    (s.hostQueue = [] ∧ t = s) ∨
      ∃ a rest, s.hostQueue = a :: rest ∧
        ((∃ off bits, t = hostRead off bits { s with hostQueue := rest }) ∨
          (∃ off bits v, t = if takesAccess off bits then ({ s with hostQueue := rest } : State).writeWindow off v
            else { s with hostQueue := rest }) ∨
          ∃ w, a = .write s.cfg.blkBase 32 w ∧ issue w { s with hostQueue := rest } = .next t) := by
  cases hq : s.hostQueue with
  | nil =>
    simp only [step, hostStep, hq, Host.Outcome.next.injEq] at h
    exact .inl ⟨rfl, h.symm⟩
  | cons a rest =>
    refine .inr ⟨a, rest, rfl, ?_⟩
    cases a with
    | read addr bits =>
      cases hw : windowOffset s.cfg addr with
      | none => simp [step, hostStep, hq, access, hw] at h
      | some off =>
        rw [step_read hq hw, Host.Outcome.next.injEq] at h
        exact .inl ⟨off, bits, h.symm⟩
    | write addr bits v =>
      cases hw : windowOffset s.cfg addr with
      | none => simp [step, hostStep, hq, access, hw] at h
      | some off =>
        by_cases hc : off = 0 ∧ bits = 32
        · obtain ⟨rfl, rfl⟩ := hc
          obtain ⟨hge, -, hsub⟩ := windowOffset_eq_some.1 hw
          obtain rfl : addr = s.cfg.blkBase := by omega
          rw [step_command hq] at h
          exact .inr (.inr ⟨v, rfl, h⟩)
        · rw [step_write hq hw, hostWrite_of_not_command v _ hc, Host.Outcome.next.injEq] at h
          exact .inr (.inl ⟨off, bits, v, h.symm⟩)

/-- What issuing a word can do: nothing while faulted, unless it is BLK_RESET's; else the word runs (R306). -/
theorem issue_cases {w : Word} {s t : State} (h : issue w s = .next t) :
    t = s.advance ∨ ((s.fault = .noFault ∨ w = resetWord) ∧ runWord w s.advance = .next t) := by
  unfold issue at h
  split at h
  · rw [Host.Outcome.next.injEq] at h
    exact .inl h.symm
  · rename_i hrun
    refine .inr ⟨?_, h⟩
    by_contra hno
    rw [not_or] at hno
    exact hrun ⟨by simpa [State.faulted] using hno.1, hno.2⟩

/-- What running a word can do: its command, or BAD_OPCODE (R73). -/
theorem runWord_cases {w : Word} {s t : State} (h : runWord w s = .next t) :
    (∃ i, decode w = .ok i ∧ exec i s = .next t) ∨ t = s.takeFault w badOpcode := by
  unfold runWord at h
  split at h
  · rename_i i hi
    exact .inl ⟨i, hi, h⟩
  · rw [Host.Outcome.next.injEq] at h
    exact .inr h.symm

/-! ### Writes that are not commands (R35, R50, R51) -/

theorem writeReg_eq (s : State) (v : Word) (off : Nat) :
    s.writeReg v off =
      { s with
        arg0 := if off = 0x04 then v else s.arg0
        arg1 := if off = 0x08 then v else s.arg1
        arg2 := if off = 0x0C then v else s.arg2 } := by
  unfold State.writeReg
  split
  · rfl
  · rfl
  · rfl
  · rename_i h0 h1 h2
    rw [if_neg h0, if_neg h1, if_neg h2]

theorem setDecInByte_eq (s : State) (j : Nat) (b : Byte) :
    s.setDecInByte j b = { s with mem := if j < s.cfg.inCap then s.mem.writeByte (decInBase + j) b else s.mem } := by
  unfold State.setDecInByte
  split <;> rfl

theorem setDecInWord_eq (s : State) (j : Nat) (v : Word) : s.setDecInWord j v = { s with mem := (s.setDecInWord j v).mem } := by
  simp only [State.setDecInWord, setDecInByte_eq]

theorem setSymInWord_eq (s : State) (m : Nat) (v : Word) :
    s.setSymInWord m v = { s with mem := if m < s.cfg.symCap then s.mem.writeWord (symInBase + 4 * m) v else s.mem } := by
  unfold State.setSymInWord
  split <;> rfl

theorem setDecInByte_wf {s : State} (h : s.mem.wf) (j : Nat) (b : Byte) : (s.setDecInByte j b).mem.wf := by
  rw [setDecInByte_eq]
  dsimp only
  split
  · exact Memory.wf_writeByte _ _ _ h
  · exact h

/-- A byte written to `DEC_IN` reaches its own offset, and only below the capacity (R51). -/
theorem setDecInByte_readByte {s : State} (h : s.mem.wf) (j x : Nat) (b : Byte) :
    (s.setDecInByte j b).mem.readByte x = if x = decInBase + j ∧ j < s.cfg.inCap then b else s.mem.readByte x := by
  rw [setDecInByte_eq]
  dsimp only
  split
  · rename_i hj
    simp only [Memory.readByte_writeByte _ _ _ _ h, hj, and_true]
  · rename_i hj
    rw [if_neg (fun hx => hj hx.2)]

/-- A word written to `DEC_IN` reaches only its four bytes, and only those below the capacity (R51, R53). -/
theorem setDecInWord_readByte_ne {s : State} (h : s.mem.wf) {j x : Nat} {v : Word}
    (hx : (s.setDecInWord j v).mem.readByte x ≠ s.mem.readByte x) :
    decInBase + j ≤ x ∧ x < decInBase + j + 4 ∧ x < decInBase + s.cfg.inCap := by
  have h0 := setDecInByte_wf h j (wordByte v 0)
  have h1 := setDecInByte_wf h0 (j + 1) (wordByte v 1)
  have h2 := setDecInByte_wf h1 (j + 2) (wordByte v 2)
  have hcfg : ∀ (u : State) (k : Nat) (b : Byte), (u.setDecInByte k b).cfg = u.cfg := fun u k b => by rw [setDecInByte_eq]
  by_contra hout
  refine hx ?_
  unfold State.setDecInWord
  rw [setDecInByte_readByte h2, setDecInByte_readByte h1, setDecInByte_readByte h0, setDecInByte_readByte h]
  simp only [hcfg]
  rw [if_neg (by omega), if_neg (by omega), if_neg (by omega), if_neg (by omega)]

/-- A word written to `SYM_IN` reaches only its four bytes, and only below the capacity (R51, R53). -/
theorem setSymInWord_readByte_ne {s : State} (h : s.mem.wf) {m x : Nat} {v : Word}
    (hx : (s.setSymInWord m v).mem.readByte x ≠ s.mem.readByte x) :
    symInBase + 4 * m ≤ x ∧ x < symInBase + 4 * m + 4 ∧ x < symInBase + 4 * s.cfg.symCap := by
  by_contra hout
  refine hx ?_
  rw [setSymInWord_eq]
  dsimp only
  split
  · rw [Memory.readByte_writeWord _ _ _ _ h, if_neg (by omega), if_neg (by omega), if_neg (by omega), if_neg (by omega)]
  · rfl

/-- A write that is not a command changes at most the operand registers and the memory (R35, R50). -/
theorem writeWindow_eq (s : State) (off : Nat) (v : Word) :
    s.writeWindow off v =
      { s with
        arg0 := if off = 0x04 then v else s.arg0
        arg1 := if off = 0x08 then v else s.arg1
        arg2 := if off = 0x0C then v else s.arg2
        mem := (s.writeWindow off v).mem } := by
  by_cases hreg : off < encOutBase
  · have hmem : (s.writeWindow off v).mem = s.mem := by
      unfold State.writeWindow
      rw [if_pos hreg, writeReg_eq]
    rw [hmem]
    unfold State.writeWindow
    rw [if_pos hreg, writeReg_eq]
  · have hoff : 0x10000 ≤ off := Nat.le_of_not_lt hreg
    rw [if_neg (by omega), if_neg (by omega), if_neg (by omega)]
    unfold State.writeWindow
    rw [if_neg hreg]
    split
    · rfl
    · split
      · exact setDecInWord_eq s _ v
      · split
        · rw [setSymInWord_eq]
        · rfl

/-- The bytes a write at an aligned offset reaches (R50, R51, R53). -/
theorem writeWindow_readByte_ne {s : State} (h : s.mem.wf) {off x : Nat} {v : Word} (ha : off % 4 = 0)
    (hx : (s.writeWindow off v).mem.readByte x ≠ s.mem.readByte x) :
    off ≤ x ∧ x < off + 4 ∧
      ((0x20000 ≤ x ∧ x < 0x20000 + s.cfg.inCap) ∨ (0x40000 ≤ x ∧ x < 0x40000 + 4 * s.cfg.symCap)) := by
  unfold State.writeWindow at hx
  split at hx
  · rw [writeReg_eq] at hx
    exact absurd rfl hx
  · split at hx
    · exact absurd rfl hx
    · rename_i hlo
      have hdec : 0x20000 ≤ off := Nat.le_of_not_lt hlo
      split at hx
      · obtain ⟨h1, h2, h3⟩ := setDecInWord_readByte_ne h hx
        simp only [show decInBase = 0x20000 from rfl] at h1 h2 h3
        omega
      · rename_i hlo'
        have hsym : 0x40000 ≤ off := Nat.le_of_not_lt hlo'
        split at hx
        · obtain ⟨h1, h2, h3⟩ := setSymInWord_readByte_ne h hx
          simp only [show symInBase = 0x40000 from rfl] at h1 h2 h3
          omega
        · exact absurd rfl hx

/-- Settles O11: `writeWindow_eq` is the frame, `writeWindow_readByte_ne` the bytes. -/
theorem hostWritesReachOnlyHostState : Obligations.HostWritesReachOnlyHostState := by
  intro s rest addr bits v hq _ hwf hge hlt hcmd
  have hw := windowOffset_eq_some.2 ⟨hge, hlt, rfl⟩
  rw [step_write hq hw, hostWrite_of_not_command v _ (by omega)]
  refine ⟨_, rfl, ?_⟩
  by_cases ht : takesAccess (addr - s.cfg.blkBase) bits = true
  · obtain ⟨hbits, hal⟩ := takesAccess_iff.1 ht
    rw [if_pos ht, writeWindow_eq]
    refine ⟨rfl, ?_, ?_, ?_, fun x hx => ?_⟩
    · exact if_congr (by omega) rfl rfl
    · exact if_congr (by omega) rfl rfl
    · exact if_congr (by omega) rfl rfl
    · obtain ⟨h1, h2, h3⟩ := writeWindow_readByte_ne (s := { s with hostQueue := rest }) hwf hal hx
      exact ⟨hbits, hal, h1, h2, h3⟩
  · rw [takesAccess_iff] at ht
    rw [if_neg (by rwa [takesAccess_iff])]
    refine ⟨rfl, ?_, ?_, ?_, fun x hx => absurd rfl hx⟩
    · rw [if_neg (by omega)]
    · rw [if_neg (by omega)]
    · rw [if_neg (by omega)]

/-! ### The command index (R39) -/

theorem exec_blkReset_eq {s t : State} (h : exec .blkReset s = .next t) : t = s.blockReset := by
  simp only [exec, execBlkReset, Host.Outcome.next.injEq] at h
  exact h.symm

theorem exec_pc {i : Instr} {s t : State} (h : exec i s = .next t) : t.pc = s.pc := by
  by_cases hi : i = .blkReset
  · subst hi
    rw [exec_blkReset_eq h, blockReset_pc]
  · obtain ⟨-, -, -, hpc, -⟩ := exec_sameHostSide hi h
    exact hpc

theorem issue_pc {w : Word} {s t : State} (h : issue w s = .next t) : t.pc = s.pc + 1 := by
  rcases issue_cases h with rfl | ⟨-, hrun⟩
  · rfl
  · rcases runWord_cases hrun with ⟨i, -, hi⟩ | rfl
    · exact exec_pc hi
    · simp

/-- Settles O8: the index moves in `issue` alone, by the step of `advance`. -/
theorem eachCommandAdvancesTheIndex : Obligations.EachCommandAdvancesTheIndex := by
  intro s t h
  refine ⟨fun rest w hq => ?_, fun hno => ?_⟩
  · rw [step_command hq] at h
    exact issue_pc (s := { s with hostQueue := rest }) h
  · rcases step_cases h with ⟨-, rfl⟩ | ⟨a, rest, hq, ⟨off, bits, rfl⟩ | ⟨off, bits, v, rfl⟩ | ⟨w, rfl, -⟩⟩
    · rfl
    · rfl
    · split
      · rw [writeWindow_eq]
      · rfl
    · exact absurd (by rw [hq]; rfl) (hno w)

end Sys2Proof.Machine
end

section
/-!
PROOFS. What a read of the window returns (R21, R35, R51 to R53), the reset values (R64, R331), and the fields of `STATUS` with
the numbers of the fault codes (R23, R301).
-/
namespace Sys2Proof.Machine

/-! ### A read, by the region of its offset (R51) -/

theorem readWindow_register {off : Nat} (s : State) (h : off < 0x10000) : s.readWindow off = s.readReg off := if_pos h

/-- `CMD` and the offsets past the register map read 0 (R21, R35). -/
theorem readReg_eq_zero {off : Nat} (s : State) (h : off = 0 ∨ 0x54 ≤ off) : s.readReg off = 0 := by
  unfold State.readReg
  split
  iterate 20 next => omega
  rfl

theorem readWindow_encOut {j : Nat} (s : State) (h : j < 0x10000) :
    s.readWindow (0x10000 + j) = wordOf s.encOutByte j := by
  unfold State.readWindow encOutBase decInBase
  rw [if_neg (by omega), if_pos (by omega), Nat.add_sub_cancel_left]

theorem readWindow_decIn {j : Nat} (s : State) (h : j < 0x20000) :
    s.readWindow (0x20000 + j) = wordOf s.input.byte j := by
  unfold State.readWindow encOutBase decInBase symInBase
  rw [if_neg (by omega), if_neg (by omega), if_pos (by omega), Nat.add_sub_cancel_left]

theorem readWindow_symIn {m : Nat} (s : State) (h : 4 * m < 0x40000) :
    s.readWindow (0x40000 + 4 * m) = s.symInWord m := by
  unfold State.readWindow encOutBase decInBase symInBase symOutBase
  rw [if_neg (by omega), if_neg (by omega), if_neg (by omega), if_pos (by omega), Nat.add_sub_cancel_left,
    Nat.mul_div_cancel_left m (by decide)]

theorem readWindow_symOut {m : Nat} (s : State) (h : 4 * m < 0x40000) :
    s.readWindow (0x80000 + 4 * m) = s.symOutWord m := by
  unfold State.readWindow encOutBase decInBase symInBase symOutBase reservedBase
  rw [if_neg (by omega), if_neg (by omega), if_neg (by omega), if_neg (by omega), if_pos (by omega), Nat.add_sub_cancel_left,
    Nat.mul_div_cancel_left m (by decide)]

theorem readWindow_reserved {off : Nat} (s : State) (h : 0xC0000 ≤ off) : s.readWindow off = 0 := by
  unfold State.readWindow encOutBase decInBase symInBase symOutBase reservedBase
  rw [if_neg (by omega), if_neg (by omega), if_neg (by omega), if_neg (by omega), if_neg (by omega)]

/-! ### The bytes of a word read (R53) -/

/-- Byte `b` of a word of a byte space (R53). -/
theorem wordByte_wordOf (byteAt : Nat → Byte) (j : Nat) {b : Nat} (hb : b < 4) :
    wordByte (wordOf byteAt j) b = byteAt (j + b) := by
  unfold wordOf
  rw [wordByte_wordOfBytes _ _ _ _ hb]
  have : b = 0 ∨ b = 1 ∨ b = 2 ∨ b = 3 := by omega
  rcases this with rfl | rfl | rfl | rfl <;> rfl

/-- Byte `b` of a symbol word, which reads 0 as a whole at or beyond the capacity (R51, R53). -/
theorem wordByte_ite_readWord (p : Prop) [Decidable p] (m : Memory) (x : Nat) {b : Nat} (hb : b < 4) :
    wordByte (if p then m.readWord x else 0) b = if p then m.readByte (x + b) else 0 := by
  split
  · exact Memory.wordByte_readWord m x hb
  · simp [wordByte]

/-! ### The register map -/

/-- Every register but `STATUS` reads what the map gives it (R21, R22, R24 to R34). -/
theorem readWindow_registerMap (s : State) : ∀ p ∈ s.registerMap, s.readWindow p.1 = p.2 := by
  have hpos : Word.ofNat (Nat.min s.dec.pos Config.top) =
      if s.dec.pos ≤ 0xFFFFFFFF then BitVec.ofNat 32 s.dec.pos else 0xFFFFFFFF := by
    split
    · rename_i hle
      exact congrArg Word.ofNat (Nat.min_eq_left hle)
    · rename_i hgt
      exact congrArg Word.ofNat (Nat.min_eq_right (Nat.le_of_not_le hgt))
  simp only [State.registerMap, List.cons_append, List.nil_append, List.forall_mem_cons, List.not_mem_nil, false_imp_iff,
    implies_true, and_true]
  exact ⟨rfl, rfl, rfl, rfl, rfl, rfl, rfl, rfl, rfl, rfl, rfl, rfl, rfl, rfl, rfl, hpos, rfl, rfl, rfl, rfl⟩

/-- Every key has a weight of at least 1, so the count is at most the total (R32, R180). -/
theorem FreqTable.length_le_total {t : FreqTable} (h : ∀ c ∈ t, c.2 ≠ 0) : t.length ≤ t.total := by
  induction t with
  | nil => simp
  | cons c t ih =>
    have hc := word_ne_zero_pos (h c (by simp))
    have ht := ih (fun c' hc' => h c' (by simp [hc']))
    rw [FreqTable.total_cons, List.length_cons]
    omega

/-- The parameters' bound that `ENC_NBITS` and the window need (R10). -/
theorem encCap_le_of_legal {p : Config.Params} (h : p.legal = true) : p.encCap ≤ 65536 := by
  simp only [Config.Params.legal, Bool.and_eq_true, decide_eq_true_eq] at h
  omega

/-- Settles O10: the step is `hostRead`, and each offset's value is its region's. -/
theorem hostReadsHaveNoSideEffects : Obligations.HostReadsHaveNoSideEffects := by
  refine ⟨fun s rest addr bits hq hge hlt => ?_, fun s => ⟨fun off hoff => ?_, readWindow_registerMap s, fun hs => ?_,
    fun m b hb => ⟨fun hm => ?_, fun hm => ?_, fun hm => ⟨?_, ?_⟩⟩⟩⟩
  · rw [step_read hq (windowOffset_eq_some.2 ⟨hge, hlt, rfl⟩)]
    simp only [hostRead, takesAccess_iff]
    rfl
  · by_cases h : off < 0x10000
    · rw [readWindow_register s h, readReg_eq_zero s (by omega)]
    · exact readWindow_reserved s (by omega)
  · have hcap := encCap_le_of_legal hs.legal
    have hbits := hs.bits
    have hlen := FreqTable.length_le_total hs.table.positive
    have htot := hs.table.total_le
    rw [top_eq] at htot
    exact ⟨ofNat_toNat_of_lt (by omega), ofNat_toNat_of_lt (by omega), ofNat_toNat_of_lt (show s.ft.total < _ by omega)⟩
  · rw [readWindow_encOut s hm]
    exact wordByte_wordOf _ _ hb
  · rw [readWindow_decIn s hm]
    exact wordByte_wordOf _ _ hb
  · rw [readWindow_symIn s hm, ← Nat.add_assoc]
    exact wordByte_ite_readWord _ _ _ hb
  · rw [readWindow_symOut s hm, ← Nat.add_assoc]
    exact wordByte_ite_readWord _ _ _ hb

/-! ### Reset values (R64, R331) -/

theorem status_blockReset (s : State) : s.blockReset.status = 0 := by
  simp [State.status, Encoder.reset, FaultCode.toByte]

/-- The registers of a reset block. -/
theorem readWindow_blockReset_register (s : State) : ∀ p ∈ resetRegisters, s.blockReset.readWindow p.1 = p.2 := by
  simp only [resetRegisters, List.cons_append, List.nil_append, List.forall_mem_cons, List.not_mem_nil, false_imp_iff,
    implies_true, and_true]
  exact ⟨rfl, rfl, rfl, rfl, rfl, status_blockReset s, rfl, rfl, rfl, rfl, rfl, rfl, rfl, rfl, rfl, rfl, rfl, rfl, rfl, rfl,
    rfl⟩

theorem encOutByte_blockReset (s : State) (j : Nat) : s.blockReset.encOutByte j = 0 := by
  simp [State.encOutByte, Encoder.outByte, Encoder.bitAt, Encoder.reset]

theorem readWindow_blockReset_encOut (s : State) {off : Nat} (h0 : 0x10000 ≤ off) (h1 : off < 0x20000) :
    s.blockReset.readWindow off = 0 := by
  obtain ⟨j, rfl⟩ := Nat.exists_eq_add_of_le h0
  rw [readWindow_encOut _ (by omega)]
  simp only [wordOf, encOutByte_blockReset]
  rfl

/-- BLK_RESET keeps what the other spaces hold (R281). -/
theorem readWindow_blockReset_spaces (s : State) {off : Nat} (h : 0x20000 ≤ off) :
    s.blockReset.readWindow off = s.readWindow off := by
  have hreg : ¬off < encOutBase := by unfold encOutBase; omega
  have hout : ¬off < decInBase := Nat.not_lt.2 h
  simp only [State.readWindow, if_neg hreg, if_neg hout]
  rfl

/-- The memories read 0 at power-on (R64). -/
theorem readWindow_powerOn_spaces (cfg : Config.Params) {off : Nat} (h : 0x20000 ≤ off) :
    (State.powerOn cfg).readWindow off = 0 := by
  have hbyte : ∀ j, (State.powerOn cfg).input.byte j = 0 := fun j => ite_self _
  have hword : ∀ x, Memory.readWord [] x = 0 := fun x => by simp [Memory.readWord, Memory.readByte, wordOfBytes]
  have hsym : ∀ m x : Nat, (if m < cfg.symCap then Memory.readWord [] x else 0) = 0 := fun m x => by
    rw [hword, ite_self]
  unfold State.readWindow encOutBase decInBase
  rw [if_neg (by omega), if_neg (by omega)]
  split
  · simp only [wordOf, hbyte]
    rfl
  · split
    · exact hsym _ _
    · split
      · exact hsym _ _
      · rfl

/-- Settles O15: the block after power-on is its own BLK_RESET. -/
theorem resetValues : Obligations.ResetValues := by
  refine ⟨fun cfg => ⟨readWindow_blockReset_register (State.powerOn cfg), fun off h => ?_, rfl⟩, fun s =>
    ⟨s.blockReset, rfl, readWindow_blockReset_register s, fun off => readWindow_blockReset_encOut s,
      fun off => readWindow_blockReset_spaces s, rfl⟩⟩
  by_cases h1 : off < 0x20000
  · exact readWindow_blockReset_encOut (State.powerOn cfg) h h1
  · exact readWindow_powerOn_spaces cfg (Nat.le_of_not_lt h1)

/-! ### `STATUS` (R23, R301) -/

/-- R301 lists every code, with the number `STATUS.FAULT` shows. -/
theorem mem_faultNumbers (c : FaultCode) : (c, c.toByte.toNat) ∈ faultNumbers := by
  cases c <;> decide

/-- No two rows of R301 have one number. -/
theorem faultNumbers_nodup : (faultNumbers.map Prod.snd).Nodup := by decide

theorem FaultCode.toByte_injective {c c' : FaultCode} (h : c.toByte = c'.toByte) : c = c' :=
  congrArg Prod.fst
    (List.inj_on_of_nodup_map faultNumbers_nodup (mem_faultNumbers c) (mem_faultNumbers c') (congrArg BitVec.toNat h))

/-- Bit `k` of `STATUS` (R23). -/
theorem getLsbD_status (s : State) (k : Nat) :
    s.status.getLsbD k = if k < 8 then s.fault.toByte.getLsbD k else (decide (k = 8) && s.enc.isSealed) := by
  have hseal : ∀ j, (if s.enc.isSealed then 1 else 0 : BitVec 1).getLsbD j = (decide (j = 0) && s.enc.isSealed) := by
    intro j
    cases s.enc.isSealed <;> simp
  unfold State.status
  simp only [BitVec.getLsbD_append, hseal]
  by_cases h8 : k < 8
  · rw [if_pos (by omega), if_pos h8, if_pos h8]
  · by_cases h9 : k = 8
    · subst h9
      rfl
    · rw [if_neg (by omega), if_neg h8]
      simp [h9]

/-- Settles O13: `STATUS` is the fault's number below the sealed flag below zeros, and R301's list is complete without
repetition. -/
theorem statusFields : Obligations.StatusFields := by
  refine ⟨fun s => ⟨?_, ?_, ?_⟩, by decide, fun c =>
    ⟨?_, ⟨fun h => FaultCode.toByte_injective h, ?_⟩, ⟨_, mem_faultNumbers c⟩⟩,
    fun c c' => FaultCode.toByte_injective⟩
  · ext k hk
    rw [BitVec.getElem_extractLsb']
    refine (getLsbD_status s _).trans ?_
    rw [if_pos (by omega), Nat.zero_add, BitVec.getLsbD_eq_getElem]
  · ext k hk
    rw [BitVec.getElem_extractLsb']
    refine (getLsbD_status s _).trans ?_
    obtain rfl : k = 0 := by omega
    rw [if_neg (by decide)]
    cases s.enc.isSealed <;> simp
  · ext k hk
    rw [BitVec.getElem_extractLsb']
    refine (getLsbD_status s _).trans ?_
    rw [if_neg (by omega), decide_eq_false (by omega)]
    simp
  · cases c <;> decide
  · rintro rfl
    rfl

end Sys2Proof.Machine
end

section
/-!
PROOFS. Every step keeps the invariant (R24, R27, R32, R37, R38, R180). First what each update of the state needs in order to keep
it, then what a completed command leaves in each unit, then the host's accesses.
-/
namespace Sys2Proof.Machine

/-! ### Where a memory operation stores (R50, R51) -/

theorem Memory.mem_foldl_writeByte {cells : List Host.Cell} {m : Memory} {c : Host.Cell}
    (h : c ∈ cells.foldl (fun acc d => Memory.writeByte acc d.1 d.2) m) : (∃ d ∈ cells, c.1 = d.1) ∨ c ∈ m := by
  induction cells generalizing m with
  | nil => exact .inr h
  | cons d rest ih =>
    rcases ih h with ⟨d', hd', e⟩ | h
    · exact .inl ⟨d', List.mem_cons_of_mem _ hd', e⟩
    · exact (Memory.mem_writeByte _ _ _ _ h).imp_left (fun e => ⟨d, List.mem_cons_self, e⟩)

/-- Refilling a region stores within it only. -/
theorem Memory.mem_refill {m : Memory} {base len : Nat} {cells : List Host.Cell} {c : Host.Cell}
    (h : c ∈ m.refill base len cells) : (base ≤ c.1 ∧ c.1 < base + len) ∨ c ∈ m := by
  rcases Memory.mem_foldl_writeByte h with ⟨d, hd, e⟩ | h
  · rw [e]
    exact .inl (by simpa using (List.mem_filter.1 hd).2)
  · exact .inr (List.mem_filter.1 h).1

/-- Writing symbols stores within their words only (R57). -/
theorem Memory.mem_writeSymOut {xs : List Word} {mem : Memory} {m : Nat} {c : Host.Cell} (h : c ∈ mem.writeSymOut m xs) :
    (symOutBase ≤ c.1 ∧ c.1 < symOutBase + 4 * (m + xs.length)) ∨ c ∈ mem := by
  induction xs generalizing mem m with
  | nil => exact .inr h
  | cons v rest ih =>
    rw [List.length_cons]
    rcases ih h with h | h
    · exact .inl (by omega)
    · rcases Memory.mem_writeWord _ _ _ _ h with h | h
      · exact .inl (by omega)
      · exact .inr h

/-! ### The updates that keep the invariant -/

theorem encoder_reset_settled : Encoder.reset.Settled := ⟨by decide, by decide, by decide⟩

theorem decoder_reset_settled : Decoder.reset.Settled := ⟨by decide, by decide, by decide, by decide, by decide⟩

theorem FreqTable.wf_nil (cap : Nat) : FreqTable.Wf cap [] := ⟨List.Pairwise.nil, by simp, Nat.zero_le _, Nat.zero_le _⟩

section
variable {s t : State} (hs : s.Inv)
include hs

/-- The invariant says nothing of the operand registers, `RES`, `LZ_N` and the host's side. -/
theorem State.Inv.of_eq (hcfg : t.cfg = s.cfg) (hmem : t.mem = s.mem) (hft : t.ft = s.ft) (henc : t.enc = s.enc)
    (hdec : t.dec = s.dec) (hfault : t.fault = s.fault) (hinfo : t.faultInfo = s.faultInfo)
    (haux : t.faultAux = s.faultAux) : t.Inv where
  legal := by rw [hcfg]; exact hs.legal
  memory := by rw [hmem]; exact hs.memory
  stored := by rw [hmem, hcfg]; exact hs.stored
  table := by rw [hft, hcfg]; exact hs.table
  bits := by rw [henc, hcfg]; exact hs.bits
  input := by rw [hdec, hcfg]; exact hs.input
  encoder := by rw [hfault, henc]; exact hs.encoder
  decoder := by rw [hfault, hdec]; exact hs.decoder
  record := by rw [hfault, hinfo, haux]; exact hs.record

theorem State.Inv.with_mem {m : Memory} (hwf : m.wf) (hstored : ∀ c ∈ m, inSpaces s.cfg c.1) :
    ({ s with mem := m } : State).Inv :=
  ⟨hs.legal, hwf, hstored, hs.table, hs.bits, hs.input, hs.encoder, hs.decoder, hs.record⟩

theorem State.Inv.advance : s.advance.Inv := hs.of_eq rfl rfl rfl rfl rfl rfl rfl rfl

theorem State.Inv.blockReset : s.blockReset.Inv where
  legal := hs.legal
  memory := hs.memory
  stored := hs.stored
  table := FreqTable.wf_nil _
  bits := Nat.zero_le _
  input := Nat.zero_le _
  encoder _ := encoder_reset_settled
  decoder _ := decoder_reset_settled
  record _ := ⟨rfl, rfl⟩

/-- After a fault the coders are free, and what is left of the invariant is what `disturb` respects (R27, R65, R305). -/
theorem State.Inv.takeFault (w : Word) {r : Raise} (hr : r.code ≠ .noFault) : (s.takeFault w r).Inv := by
  have hmem : (s.takeFault w r).mem.wf ∧ ∀ c ∈ (s.takeFault w r).mem, inSpaces s.cfg c.1 := by
    by_cases hk : r.kind = .lzDecodeRun
    · have hrefill : (s.takeFault w r).mem =
          s.mem.refill symOutBase (4 * s.cfg.symCap) (Config.freeCells (s.freeCount + 4)) := by
        rcases r with ⟨_, _, k⟩
        subst hk
        rfl
      rw [hrefill]
      refine ⟨Memory.wf_refill _ _ _ _ hs.memory, fun c hc => ?_⟩
      rcases Memory.mem_refill hc with hc | hc
      · exact .inr (.inr hc)
      · exact hs.stored c hc
    · rw [takeFault_mem hk]
      exact ⟨hs.memory, hs.stored⟩
  exact
    { legal := by rw [takeFault_cfg]; exact hs.legal
      memory := hmem.1
      stored := by rw [takeFault_cfg]; exact hmem.2
      table := by rw [takeFault_ft, takeFault_cfg]; exact hs.table
      bits := by rw [takeFault_cfg]; exact takeFault_bits_le s w r hs.bits
      input := by rw [takeFault_inLen, takeFault_cfg]; exact hs.input
      encoder := fun h => absurd h hr
      decoder := fun h => absurd h hr
      record := fun h => absurd h hr }

end

/-! ### Which computation a completed command made -/

theorem encode_ne_zero {i : Instr} (hi : ∀ u, i ≠ .illegal u) : encode i ≠ 0 := by
  intro h
  have hop : i.opcode = 0 := by rw [← (Laws.encodedFields i).1, h]; rfl
  cases i with
  | illegal u => exact hi u rfl
  | _ => simp [Instr.opcode] at hop

/-- A completed command kept a record of zeros, so it answered what its computation did: a fault would have left its word
there, and no command's word is 0 (R302). -/
theorem Completed.eq_ok {i : Instr} {s t : State} {x : Coded State} (hc : Completed i s t) (hinfo : s.faultInfo = 0)
    (hi : ∀ u, i ≠ .illegal u) (h : s.finish (encode i) x = .next t) : x = .ok t := by
  rcases (finish_next_iff _ _ _ _).1 h with hx | ⟨f, -, rfl⟩
  · exact hx
  · exact absurd (hc.record.2.1.trans hinfo) (encode_ne_zero hi)

/-! ### The encoder after a completed command (R37, R27) -/

theorem encodeTrace_eq_ok {s u : State} {trace : List Interval} :
    s.encodeTrace trace = .ok u ↔ ∃ e, s.enc.writeAll s.cfg.encCap trace = .ok e ∧ { s with enc := e } = u := by
  simp only [State.encodeTrace, coded_bind_eq_ok, Except.ok.injEq]

/-- The flush keeps settled bounds: it emits bits without narrowing further, and they fit `ENC_OUT` (R109). -/
theorem flush_ok {cap : Nat} {e e' : Encoder} (h : e.flush cap = .ok e') :
    (e.Settled → e'.Settled) ∧ e'.bits.length ≤ 8 * cap := by
  unfold Encoder.flush at h
  simp only [coded_bind_eq_ok, Except.ok.injEq] at h
  obtain ⟨trace, -, e1, h1, e2, h2, e3, h3, rfl⟩ := h
  obtain ⟨-, rfl⟩ := addPending_eq_ok.1 h2
  obtain ⟨hfit, rfl⟩ := emitBit_eq_ok.1 h3
  refine ⟨fun he => ?_, ?_⟩
  · obtain ⟨hlo, hhi, hw⟩ := (Encoder.writeAll_ok trace h1).1 he
    exact ⟨hlo, hhi, hw⟩
  · simp only [List.length_append, List.length_cons, List.length_replicate] at hfit ⊢
    omega

/-- What the encoder's commands and LZ_ENCODE leave in the encoder. -/
theorem completed_encoder {i : Instr} {s t : State} (hs : s.Inv) (h0 : s.fault = .noFault) (h : exec i s = .next t)
    (hc : Completed i s t) : t.enc.Settled ∧ t.enc.bits.length ≤ 8 * s.cfg.encCap := by
  have hinfo := (hs.record h0).1
  have written : ∀ {trace : List Interval} {u : State}, s.encodeTrace trace = .ok u →
      u.enc.Settled ∧ u.enc.bits.length ≤ 8 * s.cfg.encCap := by
    intro trace u hu
    obtain ⟨e, he, rfl⟩ := encodeTrace_eq_ok.1 hu
    obtain ⟨hset, -, hbits⟩ := Encoder.writeAll_ok trace he
    exact ⟨hset (hs.encoder h0), hbits hs.bits⟩
  have kept : t.enc = s.enc → t.enc.Settled ∧ t.enc.bits.length ≤ 8 * s.cfg.encCap := fun e => by
    rw [e]; exact ⟨hs.encoder h0, hs.bits⟩
  cases i with
  | encReset =>
    simp only [exec, execEncReset, Host.Outcome.next.injEq] at h
    rw [← h]
    exact ⟨encoder_reset_settled, Nat.zero_le _⟩
  | encWriteEqual =>
    obtain ⟨_, _, hx⟩ := (coded_bind_eq_ok _ _ _).1 (hc.eq_ok hinfo nofun h)
    obtain ⟨_, _, hx⟩ := (coded_bind_eq_ok _ _ _).1 hx
    exact written hx
  | encWritePart =>
    obtain ⟨_, _, hx⟩ := (coded_bind_eq_ok _ _ _).1 (hc.eq_ok hinfo nofun h)
    exact written hx
  | encWritePartFt =>
    obtain ⟨_, _, hx⟩ := (coded_bind_eq_ok _ _ _).1 (hc.eq_ok hinfo nofun h)
    obtain ⟨_, _, hx⟩ := (coded_bind_eq_ok _ _ _).1 hx
    exact written hx
  | encWriteFib =>
    obtain ⟨_, _, hx⟩ := (coded_bind_eq_ok _ _ _).1 (hc.eq_ok hinfo nofun h)
    obtain ⟨_, _, hx⟩ := (coded_bind_eq_ok _ _ _).1 hx
    exact written hx
  | encWriteCount W =>
    obtain ⟨_, _, hx⟩ := (coded_bind_eq_ok _ _ _).1 (hc.eq_ok hinfo nofun h)
    obtain ⟨_, _, hx⟩ := (coded_bind_eq_ok _ _ _).1 hx
    exact written hx
  | encWriteSplit r extra =>
    obtain ⟨_, _, hx⟩ := (coded_bind_eq_ok _ _ _).1 (hc.eq_ok hinfo nofun h)
    obtain ⟨_, _, hx⟩ := (coded_bind_eq_ok _ _ _).1 hx
    obtain ⟨_, _, hx⟩ := (coded_bind_eq_ok _ _ _).1 hx
    exact written hx
  | encFinish =>
    obtain ⟨_, _, hx⟩ := (coded_bind_eq_ok _ _ _).1 (hc.eq_ok hinfo nofun h)
    obtain ⟨e, he, hx⟩ := (coded_bind_eq_ok _ _ _).1 hx
    obtain ⟨hset, hbits⟩ := flush_ok he
    rw [← Except.ok.inj hx]
    exact ⟨hset (hs.encoder h0), hbits⟩
  | lzEncode =>
    obtain ⟨_, _, hx⟩ := (coded_bind_eq_ok _ _ _).1 (hc.eq_ok hinfo nofun h)
    obtain ⟨_, _, hx⟩ := (coded_bind_eq_ok _ _ _).1 hx
    obtain ⟨u, hu, hx⟩ := (coded_bind_eq_ok _ _ _).1 hx
    have henc : t.enc = u.enc := by
      rw [← Except.ok.inj hx, setRes_enc]
      unfold State.drawPlan
      split <;> rfl
    rw [henc]
    exact written hu
  | _ => exact kept (hc.enc rfl nofun)

/-! ### The decoder after a completed command (R38, R24) -/

theorem preload_bounds (inp : Input) (n : Nat) (d : Decoder) :
    (Decoder.preload inp n d).low = d.low ∧ (Decoder.preload inp n d).high = d.high ∧
      (Decoder.preload inp n d).inLen = d.inLen := by
  induction n generalizing d with
  | zero => exact ⟨rfl, rfl, rfl⟩
  | succ n ih => exact ih (d.shiftValue inp 0)

/-- `DecLoad` leaves the whole range, which holds any value (R141). -/
theorem load_settled (inp : Input) (n : Word) : (Decoder.load inp n).Settled ∧ (Decoder.load inp n).inLen = n := by
  have hload := preload_bounds inp 32 { low := 0, high := 0xFFFFFFFF, value := 0, pos := 0, inLen := n }
  obtain ⟨hlo, hhi, hlen⟩ : (Decoder.load inp n).low = 0 ∧ (Decoder.load inp n).high = 0xFFFFFFFF ∧
    (Decoder.load inp n).inLen = n := hload
  refine ⟨⟨?_, ?_, ?_, ?_, ?_⟩, hlen⟩
  · rw [hlo]; decide
  · rw [hhi]; decide
  · rw [hlo, hhi]; decide
  · rw [hlo]; exact Nat.zero_le _
  · rw [hhi]; exact Nat.le_of_lt_succ (word_lt _)

/-- What the decoder's commands and LZ_DECODE leave in the decoder. -/
theorem completed_decoder {i : Instr} {s t : State} (hs : s.Inv) (h0 : s.fault = .noFault) (h : exec i s = .next t)
    (hc : Completed i s t) : t.dec.Settled ∧ t.dec.inLen.toNat ≤ s.cfg.inCap := by
  have hinfo := (hs.record h0).1
  have hset := hs.decoder h0
  have hin : i ≠ .decReset → t.dec.inLen.toNat ≤ s.cfg.inCap := fun hi => by rw [hc.inLen hi]; exact hs.input
  have delivered : ∀ {x : Coded (Nat × Decoder)}, Narrows s.input s.dec x → s.deliver x = .ok t → t.dec.Settled := by
    intro x hx hd
    obtain ⟨a, ha, hd⟩ := (coded_bind_eq_ok _ _ _).1 hd
    rw [← Except.ok.inj hd]
    exact hx.settled ha hset
  have kept : t.dec = s.dec → t.dec.Settled := fun e => e ▸ hset
  cases i with
  | decReset =>
    have hx := hc.eq_ok hinfo nofun h
    split at hx
    · simp at hx
    · rename_i hle
      obtain ⟨hload, hlen⟩ := load_settled s.input s.arg0
      rw [← Except.ok.inj hx]
      exact ⟨hload, by rw [hlen]; exact Nat.le_of_not_lt hle⟩
  | decReadEqual => exact ⟨delivered (uniform_narrows _ _ _) (hc.eq_ok hinfo nofun h), hin nofun⟩
  | decPeek => exact ⟨kept (hc.dec (.inr rfl) nofun), hin nofun⟩
  | decNarrow =>
    obtain ⟨d, hd, hx⟩ := (coded_bind_eq_ok _ _ _).1 (hc.eq_ok hinfo nofun h)
    refine ⟨?_, hin nofun⟩
    rw [← Except.ok.inj hx]
    exact (Decoder.narrow_ok hset hd).2.1
  | decReadPartFt =>
    have hx := hc.eq_ok hinfo nofun h
    refine ⟨?_, hin nofun⟩
    split at hx
    · simp at hx
    · obtain ⟨a, ha, hx⟩ := (coded_bind_eq_ok _ _ _).1 hx
      rw [← Except.ok.inj hx]
      exact (symbol_narrows _ _ _ _).settled ha hset
  | decReadFib => exact ⟨delivered (fibLoop_narrows _ _ _ _ _ _) (hc.eq_ok hinfo nofun h), hin nofun⟩
  | decReadCount W => exact ⟨delivered (count_narrows _ _ _) (hc.eq_ok hinfo nofun h), hin nofun⟩
  | decReadSplit r extra =>
    obtain ⟨_, _, hx⟩ := (coded_bind_eq_ok _ _ _).1 (hc.eq_ok hinfo nofun h)
    exact ⟨delivered (split_narrows _ _ _ _) hx, hin nofun⟩
  | lzDecode =>
    obtain ⟨_, _, hx⟩ := (coded_bind_eq_ok _ _ _).1 (hc.eq_ok hinfo nofun h)
    obtain ⟨a, ha, hx⟩ := (coded_bind_eq_ok _ _ _).1 hx
    refine ⟨?_, hin nofun⟩
    rw [← Except.ok.inj hx]
    exact (lzStream_narrows _ _ _ _).settled ha hset
  | _ => exact ⟨kept (hc.dec (.inl rfl) nofun), hin nofun⟩

/-! ### The table and the memory after a completed command (R32, R180, R57) -/

theorem requireWeight_mem {t : FreqTable} {key w : Word} (h : t.requireWeight key = .ok w) : (key, w) ∈ t := by
  rw [FreqTable.requireWeight_eq] at h
  split at h
  · rename_i w' hw
    rw [← Except.ok.inj h]
    exact FreqTable.weight?_mem hw
  · simp at h

theorem completed_table {i : Instr} {s t : State} (hs : s.Inv) (h0 : s.fault = .noFault) (h : exec i s = .next t)
    (hc : Completed i s t) : t.ft.Wf s.cfg.ftCap := by
  have hinfo := (hs.record h0).1
  have kept : t.ft = s.ft → t.ft.Wf s.cfg.ftCap := fun e => e ▸ hs.table
  cases i with
  | ftClear =>
    simp only [exec, execFtClear, Host.Outcome.next.injEq] at h
    rw [← h]
    exact FreqTable.wf_nil _
  | ftInsert =>
    obtain ⟨u, hu, hx⟩ := (coded_bind_eq_ok _ _ _).1 (hc.eq_ok hinfo nofun h)
    rw [← Except.ok.inj hx]
    exact FreqTable.wf_insertKey hs.table hu
  | ftRemove =>
    obtain ⟨w, hw, hx⟩ := (coded_bind_eq_ok _ _ _).1 (hc.eq_ok hinfo nofun h)
    rw [← Except.ok.inj hx]
    exact FreqTable.wf_delete hs.table (requireWeight_mem hw)
  | ftIncrease =>
    obtain ⟨w, hw, hx⟩ := (coded_bind_eq_ok _ _ _).1 (hc.eq_ok hinfo nofun h)
    split at hx
    · simp at hx
    · rename_i htot
      rw [← Except.ok.inj hx]
      exact (FreqTable.wf_increase hs.table (requireWeight_mem hw) htot).1
  | ftCum | ftFind | ftTotal | ftWeight => exact kept (hc.ft (.inr rfl))
  | _ => exact kept (hc.ft (.inl rfl))

theorem completed_memory {i : Instr} {s t : State} (hs : s.Inv) (h0 : s.fault = .noFault) (h : exec i s = .next t)
    (hc : Completed i s t) : t.mem.wf ∧ ∀ c ∈ t.mem, inSpaces s.cfg c.1 := by
  by_cases hi : i = .lzDecode
  · subst hi
    obtain ⟨_, _, hx⟩ := (coded_bind_eq_ok _ _ _).1 (hc.eq_ok (hs.record h0).1 nofun h)
    obtain ⟨⟨⟨n, out⟩, d⟩, ha, hx⟩ := (coded_bind_eq_ok _ _ _).1 hx
    obtain ⟨hcount, hlen⟩ := (lzStream_spec _ _ _ _).2 _ ha
    have hout : out.length ≤ s.cfg.symCap := Nat.le_trans hlen hcount
    rw [← Except.ok.inj hx]
    refine ⟨Memory.wf_writeSymOut _ _ _ hs.memory, fun c hcell => ?_⟩
    rcases Memory.mem_writeSymOut hcell with hsym | hcell
    · exact .inr (.inr ⟨hsym.1, by rw [Nat.zero_add] at hsym; omega⟩)
    · exact hs.stored c hcell
  · rw [hc.mem hi]
    exact ⟨hs.memory, hs.stored⟩

/-! ### Commands and accesses -/

theorem exec_keeps_inv {i : Instr} {s t : State} (hs : s.Inv) (h0 : s.fault = .noFault) (h : exec i s = .next t) : t.Inv := by
  by_cases hi : i = .blkReset
  · subst hi
    rw [exec_blkReset_eq h]
    exact hs.blockReset
  rcases exec_cases hi h with ⟨r, rfl, hr⟩ | hc
  · exact hs.takeFault _ hr.1
  · obtain ⟨-, -, -, -, -, -, hcfg⟩ := hc.host
    obtain ⟨-, hinfo, haux⟩ := hc.record
    obtain ⟨henc, hbits⟩ := completed_encoder hs h0 h hc
    obtain ⟨hdec, hin⟩ := completed_decoder hs h0 h hc
    obtain ⟨hwf, hstored⟩ := completed_memory hs h0 h hc
    exact
      { legal := by rw [hcfg]; exact hs.legal
        memory := hwf
        stored := by rw [hcfg]; exact hstored
        table := by rw [hcfg]; exact completed_table hs h0 h hc
        bits := by rw [hcfg]; exact hbits
        input := by rw [hcfg]; exact hin
        encoder := fun _ => henc
        decoder := fun _ => hdec
        record := fun _ => by rw [hinfo, haux]; exact hs.record h0 }

/-- While a fault is recorded only BLK_RESET runs, and it restores the bounds (R306, R309). -/
theorem issue_keeps_inv {w : Word} {s t : State} (hs : s.Inv) (h : issue w s = .next t) : t.Inv := by
  have ha := hs.advance
  rcases issue_cases h with rfl | ⟨hrun, h⟩
  · exact ha
  · rcases runWord_cases h with ⟨i, hi, h⟩ | rfl
    · rcases hrun with h0 | rfl
      · exact exec_keeps_inv ha h0 h
      · have hreset : i = .blkReset := (Except.ok.inj hi).symm
        subst hreset
        rw [exec_blkReset_eq h]
        exact ha.blockReset
    · exact ha.takeFault _ (by decide)

theorem setDecInByte_keeps_inv {s : State} (hs : s.Inv) (j : Nat) (b : Byte) : (s.setDecInByte j b).Inv := by
  unfold State.setDecInByte
  split
  · rename_i hj
    refine hs.with_mem (Memory.wf_writeByte _ _ _ hs.memory) (fun c hc => ?_)
    rcases Memory.mem_writeByte _ _ _ _ hc with e | hc
    · exact .inl (by omega)
    · exact hs.stored c hc
  · exact hs

theorem setSymInWord_keeps_inv {s : State} (hs : s.Inv) (m : Nat) (v : Word) : (s.setSymInWord m v).Inv := by
  unfold State.setSymInWord
  split
  · rename_i hm
    refine hs.with_mem (Memory.wf_writeWord _ _ _ hs.memory) (fun c hc => ?_)
    rcases Memory.mem_writeWord _ _ _ _ hc with e | hc
    · exact .inr (.inl (by omega))
    · exact hs.stored c hc
  · exact hs

theorem writeWindow_keeps_inv {s : State} (hs : s.Inv) (off : Nat) (v : Word) : (s.writeWindow off v).Inv := by
  unfold State.writeWindow
  split
  · rw [writeReg_eq]
    exact hs.of_eq rfl rfl rfl rfl rfl rfl rfl rfl
  · split
    · exact hs
    · split
      · have h0 := setDecInByte_keeps_inv hs (off - decInBase) (wordByte v 0)
        have h1 := setDecInByte_keeps_inv h0 (off - decInBase + 1) (wordByte v 1)
        have h2 := setDecInByte_keeps_inv h1 (off - decInBase + 2) (wordByte v 2)
        exact setDecInByte_keeps_inv h2 (off - decInBase + 3) (wordByte v 3)
      · split
        · exact setSymInWord_keeps_inv hs _ v
        · exact hs

/-- Settles O17: an access of any kind keeps the invariant. -/
theorem stepKeepsInvariant : Obligations.StepKeepsInvariant := by
  intro s t hs h
  rcases step_cases h with ⟨-, rfl⟩ | ⟨a, rest, -, hcase⟩
  · exact hs
  · have hq : ({ s with hostQueue := rest } : State).Inv := hs.of_eq rfl rfl rfl rfl rfl rfl rfl rfl
    rcases hcase with ⟨off, bits, rfl⟩ | ⟨off, bits, v, rfl⟩ | ⟨w, -, h⟩
    · exact hq.of_eq rfl rfl rfl rfl rfl rfl rfl rfl
    · split
      · exact writeWindow_keeps_inv hq off v
      · exact hq
    · exact issue_keeps_inv hq h

end Sys2Proof.Machine
end

section
/-!
PROOFS. A step always completes within the window (R63, R300); a write to `CMD` runs the command its word decodes to (R58, R73);
words written to `DEC_IN` and `SYM_IN` read back (R51, R53); the order of the stream's bits (R52).
-/
namespace Sys2Proof.Machine

/-! ### A write to `CMD` (R56, R73, R306) -/

/-- A word that the fault record does not hold back runs (R306). -/
theorem issue_of_not_ignored {w : Word} {s : State} (h : s.fault = .noFault ∨ w = resetWord) : issue w s = runWord w s.advance := by
  unfold issue
  rw [if_neg]
  rintro ⟨hf, hw⟩
  rcases h with h | h
  · simp [State.faulted, h] at hf
  · exact hw h

theorem runWord_of_decode_ok {w : Word} {s : State} {i : Instr} (h : decode w = .ok i) : runWord w s = exec i s := by
  simp only [runWord, h]

theorem runWord_of_decode_error {w : Word} {s : State} {x : DecodeError} (h : decode w = .error x) :
    runWord w s = .next (s.takeFault w badOpcode) := by
  simp only [runWord, h]

/-- Settles O5: the access issues its word, nothing holds it back, and it runs on the advanced state. -/
theorem stepRunsDecodedCommand : Obligations.StepRunsDecodedCommand := by
  intro s rest w hq hrun
  rw [step_command hq, issue_of_not_ignored (s := { s with hostQueue := rest }) hrun]
  exact ⟨fun i hi => runWord_of_decode_ok hi, fun x hx => runWord_of_decode_error hx⟩

/-! ### Which steps stop (R51, R63, R300) -/

/-- Every command answers a next state: a fault of the block is state (R300). -/
theorem exec_completes (i : Instr) (s : State) : ∃ t, exec i s = .next t := by
  cases i with
  | illegal | nop | blkReset | encReset | ftClear | ftTotal => exact ⟨_, rfl⟩
  | _ => exact finish_completes _ _ _

theorem issue_completes (w : Word) (s : State) : ∃ t, issue w s = .next t := by
  by_cases h : s.faulted ∧ w ≠ resetWord
  · exact ⟨_, if_pos h⟩
  · unfold issue
    rw [if_neg h]
    cases hw : decode w with
    | ok i =>
      rw [runWord_of_decode_ok hw]
      exact exec_completes i _
    | error x => exact ⟨_, runWord_of_decode_error hw⟩

theorem hostWrite_completes (off bits : Nat) (v : Word) (s : State) : ∃ t, hostWrite off bits v s = .next t := by
  by_cases hc : off = 0 ∧ bits = 32
  · obtain ⟨rfl, rfl⟩ := hc
    exact issue_completes v s
  · exact ⟨_, hostWrite_of_not_command v s hc⟩

theorem windowOffset_eq_none {cfg : Config.Params} {addr : Nat} (h : ¬(cfg.blkBase ≤ addr ∧ addr < cfg.blkBase + 0x100000)) :
    windowOffset cfg addr = none := if_neg h

/-- Settles O9: the window has an offset for the address, or has none; a read and a write in the window both complete. -/
theorem stepStopsOnlyOutsideTheWindow : Obligations.StepStopsOnlyOutsideTheWindow := by
  refine fun s => ⟨fun hq => by simp only [step, hostStep, hq], fun a rest addr hq ha => ⟨fun hin => ?_, fun hout => ?_⟩⟩
  · have hw := windowOffset_eq_some.2 ⟨hin.1, hin.2, rfl⟩
    rcases ha with ⟨bits, rfl⟩ | ⟨bits, v, rfl⟩
    · exact ⟨_, step_read hq hw⟩
    · rw [step_write hq hw]
      exact hostWrite_completes _ _ _ _
  · have hw := windowOffset_eq_none hout
    rcases ha with ⟨bits, rfl⟩ | ⟨bits, v, rfl⟩ <;> simp only [step, hostStep, hq, access, hw]

/-! ### Words stored by the host (R50, R51, R53) -/

/-- The bytes of a word of a byte space make the word. -/
theorem wordOf_eq_of_bytes {byteAt : Nat → Byte} {j : Nat} {v : Word} (h : ∀ b, b < 4 → byteAt (j + b) = wordByte v b) :
    wordOf byteAt j = v := by
  unfold wordOf
  rw [h 1 (by decide), h 2 (by decide), h 3 (by decide), show byteAt j = wordByte v 0 from h 0 (by decide)]
  exact wordOfBytes_wordByte v

/-- Byte `b` of a word written to `DEC_IN`: the word's byte below the capacity, the old byte at or beyond it (R51, R53). -/
theorem setDecInWord_readByte {s : State} (h : s.mem.wf) (j : Nat) (v : Word) {b : Nat} (hb : b < 4) :
    (s.setDecInWord j v).mem.readByte (decInBase + (j + b)) =
      if j + b < s.cfg.inCap then wordByte v b else s.mem.readByte (decInBase + (j + b)) := by
  have h0 := setDecInByte_wf h j (wordByte v 0)
  have h1 := setDecInByte_wf h0 (j + 1) (wordByte v 1)
  have h2 := setDecInByte_wf h1 (j + 2) (wordByte v 2)
  have hcfg : ∀ (u : State) (k : Nat) (b : Byte), (u.setDecInByte k b).cfg = u.cfg := fun u k b => by rw [setDecInByte_eq]
  unfold State.setDecInWord
  rw [setDecInByte_readByte h2, setDecInByte_readByte h1, setDecInByte_readByte h0, setDecInByte_readByte h]
  have : b = 0 ∨ b = 1 ∨ b = 2 ∨ b = 3 := by omega
  rcases this with rfl | rfl | rfl | rfl <;> simp [hcfg]

/-- A word at or beyond the capacity of `DEC_IN` is ignored (R51). -/
theorem setDecInWord_beyond {s : State} {j : Nat} (v : Word) (h : s.cfg.inCap ≤ j) : s.setDecInWord j v = s := by
  have hb : ∀ k b, j ≤ k → s.setDecInByte k b = s := fun k b hk => if_neg (by omega)
  unfold State.setDecInWord
  rw [hb j _ (Nat.le_refl _), hb (j + 1) _ (by omega), hb (j + 2) _ (by omega), hb (j + 3) _ (by omega)]

theorem readWindow_decIn_beyond {s : State} {j : Nat} (hj : j < 0x20000) (h : s.cfg.inCap ≤ j) :
    s.readWindow (0x20000 + j) = 0 := by
  rw [readWindow_decIn s hj]
  exact wordOf_eq_of_bytes (fun b _ => (if_neg (Nat.not_lt.2 (Nat.le_add_right_of_le h))).trans (by simp [wordByte]))

theorem readWindow_decIn_setDecInWord {s : State} (h : s.mem.wf) {j : Nat} (v : Word) (hj : j < 0x20000)
    (hcap : j + 4 ≤ s.cfg.inCap) : (s.setDecInWord j v).readWindow (0x20000 + j) = v := by
  rw [readWindow_decIn _ hj]
  refine wordOf_eq_of_bytes (fun b hb => ?_)
  have hc : (s.setDecInWord j v).cfg = s.cfg := by rw [setDecInWord_eq]
  have hlt : j + b < s.cfg.inCap := by omega
  simp only [Input.byte, State.input, hc, hlt, if_true, setDecInWord_readByte h j v hb]

/-- A step that writes a word at an aligned offset other than `CMD`'s. -/
theorem step_writeWindow {s : State} {rest : List HostAccess} {off : Nat} {v : Word}
    (hq : s.hostQueue = .write (s.cfg.blkBase + off) 32 v :: rest) (h0 : off ≠ 0) (h1 : off < 0x100000) (ha : off % 4 = 0) :
    step s = .next (({ s with hostQueue := rest } : State).writeWindow off v) := by
  rw [step_write hq (windowOffset_eq_some.2 ⟨Nat.le_add_right _ _, by omega, Nat.add_sub_cancel_left _ _⟩),
    hostWrite_of_not_command v _ (fun h => h0 h.1), if_pos (takesAccess_iff.2 ⟨rfl, ha⟩)]

theorem writeWindow_decIn {j : Nat} (s : State) (v : Word) (h : j < 0x20000) :
    s.writeWindow (0x20000 + j) v = s.setDecInWord j v := by
  unfold State.writeWindow encOutBase decInBase symInBase
  rw [if_neg (by omega), if_neg (by omega), if_pos (by omega), Nat.add_sub_cancel_left]

theorem writeWindow_symIn {m : Nat} (s : State) (v : Word) (h : 4 * m < 0x40000) :
    s.writeWindow (0x40000 + 4 * m) v = s.setSymInWord m v := by
  unfold State.writeWindow encOutBase decInBase symInBase symOutBase
  rw [if_neg (by omega), if_neg (by omega), if_neg (by omega), if_pos (by omega), Nat.add_sub_cancel_left,
    Nat.mul_div_cancel_left m (by decide)]

/-- A symbol below the capacity reads back (R53). -/
theorem symInWord_setSymInWord {s : State} (h : s.mem.wf) {m : Nat} (v : Word) (hm : m < s.cfg.symCap) :
    (s.setSymInWord m v).symInWord m = v := by
  rw [setSymInWord_eq]
  simp only [State.symInWord, hm, if_true]
  exact Memory.readWord_writeWord s.mem _ v h

/-- Settles O12: `setDecInWord` and `setSymInWord` store the bytes below the capacity, and the reads see them there. -/
theorem hostWordsReadBack : Obligations.HostWordsReadBack := by
  intro s rest m v _ hwf
  replace hwf : ({ s with hostQueue := rest } : State).mem.wf := hwf
  refine ⟨fun hm hq => ?_, fun hm hq => ?_⟩
  · rw [step_writeWindow hq (by omega) (by omega) (by omega), writeWindow_decIn _ v hm]
    refine ⟨_, rfl, setDecInWord_eq _ _ v, fun b hb => setDecInWord_readByte hwf _ v hb,
      fun x hx => ?_, readWindow_decIn_setDecInWord hwf v hm, fun hcap => ?_⟩
    · by_contra hne
      obtain ⟨hlo, hhi, -⟩ := setDecInWord_readByte_ne hwf hne
      unfold decInBase at hlo hhi
      omega
    · rw [setDecInWord_beyond (s := { s with hostQueue := rest }) v hcap]
      exact ⟨rfl, readWindow_decIn_beyond hm hcap⟩
  · rw [step_writeWindow hq (by omega) (by omega) (by omega), writeWindow_symIn _ v hm]
    refine ⟨_, rfl, by rw [setSymInWord_eq], fun hcap => ?_, fun x hx => ?_, fun hcap => ?_⟩
    · have hback := symInWord_setSymInWord hwf v hcap
      refine ⟨(readWindow_symIn _ hm).trans hback, hback, fun b hb => ?_⟩
      rw [State.symInWord, if_pos (by rw [setSymInWord_eq]; exact hcap)] at hback
      rw [← Nat.add_assoc, ← Memory.wordByte_readWord _ _ hb]
      exact congrArg (wordByte · b) hback
    · by_contra hne
      obtain ⟨hlo, hhi, -⟩ := setSymInWord_readByte_ne hwf hne
      unfold symInBase at hlo hhi
      omega
    · have hsame : ({ s with hostQueue := rest } : State).setSymInWord m v = { s with hostQueue := rest } :=
        if_neg (Nat.not_lt.2 hcap)
      rw [hsame, readWindow_symIn _ hm]
      exact ⟨rfl, if_neg (Nat.not_lt.2 hcap)⟩

/-! ### The order of the stream's bits (R52) -/

/-- The most significant bit of a number written in bits is its first. -/
theorem testBit_bitsAt (B : List Bool) (p : Nat) {n i : Nat} (h : i < n) :
    (bitsAt B p n).testBit (n - 1 - i) = B.getD (p + i) false := by
  induction n with
  | zero => exact absurd h (Nat.not_lt_zero i)
  | succ n ih =>
    rw [bitsAt_succ]
    have hbit := bool_toNat_le (B.getD (p + n) false)
    by_cases hi : i = n
    · subst hi
      rw [Nat.add_sub_cancel, Nat.sub_self, Nat.testBit_zero]
      cases B.getD (p + i) false <;> simp
    · rw [show n + 1 - 1 - i = (n - 1 - i) + 1 by omega, Nat.testBit_succ,
        show (2 * bitsAt B p n + (B.getD (p + n) false).toNat) / 2 = bitsAt B p n by omega]
      exact ih (by omega)

/-- A byte of `ENC_OUT` is the number its eight bits are written as. -/
theorem outByte_eq (e : Encoder) (j : Nat) : e.outByte j = BitVec.ofNat 8 (bitsAt e.bits (8 * j) 8) := by
  unfold Encoder.outByte Encoder.bitAt
  congr 1
  simp only [List.getD_eq_getElem?_getD, List.range_succ, List.range_zero, List.nil_append, List.cons_append, List.map_cons,
    List.map_nil, List.sum_cons, List.sum_nil, bitsAt, mul_zero, zero_add, add_zero]
  omega

/-- Settles O14: byte `k / 8` is `bitsAt` of its eight bits, most significant first. -/
theorem streamBitsAreMsbFirst : Obligations.StreamBitsAreMsbFirst := by
  refine ⟨fun e k => ?_, fun s j hj hwin => ?_, fun s p hcap hlen => ?_⟩
  · rw [outByte_eq, BitVec.getLsbD_ofNat, decide_eq_true (by omega), Bool.true_and,
      testBit_bitsAt e.bits _ (Nat.mod_lt k (by decide)), Nat.div_add_mod]
  · rw [readWindow_encOut s (by omega)]
    refine (wordByte_wordOf _ _ (Nat.mod_lt j (by decide))).trans ?_
    rw [Nat.div_add_mod]
    exact if_pos hj
  · simp only [Input.bit, Input.byte, State.input, hlen, hcap, if_true]
    rfl

end Sys2Proof.Machine
end

section
/-!
PROOFS. A read of the decoder depends on its input only through the bits not yet consumed (R61, R140): two inputs that agree from
`DEC_POS` on give the same narrowings and so the same reads. Hence what a decoder command does (R335).
-/
namespace Sys2Proof.Machine

/-- Two inputs have the same bits from the decoder's position on. -/
def Input.AgreesFrom (inp inp' : Input) (d : Decoder) : Prop :=
  ∀ p, d.pos ≤ p → inp.bit d.inLen.toNat p = inp'.bit d.inLen.toNat p

section
variable {inp inp' : Input} {d d' : Decoder}

/-- Consuming bits leaves fewer to agree on. -/
theorem Input.AgreesFrom.of_le (h : inp.AgreesFrom inp' d) (hpos : d.pos ≤ d'.pos) (hlen : d'.inLen = d.inLen) :
    inp.AgreesFrom inp' d' := fun p hp => by
  rw [hlen]
  exact h p (hpos.trans hp)

/-! ### A narrowing (R143, R144) -/

theorem double_pos (inp : Input) (st : RenormStep) (d : Decoder) : (d.double inp st).pos = d.pos + 1 := rfl

theorem Input.AgreesFrom.double (h : inp.AgreesFrom inp' d) (st : RenormStep) : inp.AgreesFrom inp' (d.double inp st) :=
  h.of_le (Nat.le_succ d.pos) rfl

theorem double_congr (h : inp.AgreesFrom inp' d) (st : RenormStep) : d.double inp st = d.double inp' st := by
  simp only [Decoder.double, Decoder.shiftValue, h d.pos (Nat.le_refl _)]

theorem decoder_renorm_congr (n : Nat) (h : inp.AgreesFrom inp' d) : Decoder.renorm inp n d = Decoder.renorm inp' n d := by
  induction n generalizing d with
  | zero => rfl
  | succ n ih => rw [decoder_renorm_succ, decoder_renorm_succ, ← double_congr h, ih (h.double _)]

theorem decoder_renorm_pos (inp : Input) (n : Nat) (d : Decoder) : d.pos ≤ (Decoder.renorm inp n d).pos := by
  induction n generalizing d with
  | zero => exact Nat.le_refl _
  | succ n ih =>
    rw [decoder_renorm_succ]
    split
    · exact Nat.le_refl _
    · exact (Nat.le_succ _).trans (ih (d.double inp (renormStep d.low d.high)))

theorem narrow_congr (h : inp.AgreesFrom inp' d) (iv : Interval) : d.narrow inp iv = d.narrow inp' iv := by
  unfold Decoder.narrow
  rw [decoder_renorm_congr renormFuel (d := d.select iv) h]

theorem narrow_pos {iv : Interval} (h : d.narrow inp iv = .ok d') : d.pos ≤ d'.pos := by
  unfold Decoder.narrow at h
  obtain ⟨_, _, h⟩ := (coded_bind_eq_ok _ _ _).1 h
  split at h
  · rw [Except.ok.inj h]
  · obtain ⟨v, _, h⟩ := (coded_bind_eq_ok _ _ _).1 h
    split at h
    · simp at h
    · rw [← Except.ok.inj h]
      exact decoder_renorm_pos inp renormFuel (d.select iv)

theorem Input.AgreesFrom.narrowAll {trace : List Interval} (h : inp.AgreesFrom inp' d)
    (ht : Decoder.narrowAll inp trace d = .ok d') : inp.AgreesFrom inp' d' := by
  induction trace generalizing d with
  | nil => rwa [← Except.ok.inj ht]
  | cons iv rest ih =>
    rw [narrowAll_cons] at ht
    obtain ⟨d1, h1, ht⟩ := (coded_bind_eq_ok _ _ _).1 ht
    exact ih (h.of_le (narrow_pos h1) (decNarrow_inLen h1)) ht

/-! ### The reads of unit 0x2 (R145 to R147, R203, R264) -/

/-- A read in two parts: the second starts where the first left the decoder. -/
theorem read_bind_congr {α β : Type} {x x' : Coded (α × Decoder)} {f f' : α × Decoder → Coded (β × Decoder)}
    (h : inp.AgreesFrom inp' d) (hn : Narrows inp d x) (hx : x = x')
    (hf : ∀ a d1, inp.AgreesFrom inp' d1 → f (a, d1) = f' (a, d1)) : x >>= f = x' >>= f' := by
  subst hx
  cases hx : x with
  | error r => rfl
  | ok a =>
    obtain ⟨trace, ht⟩ := hn.trace a hx
    exact hf a.1 a.2 (h.narrowAll ht)

theorem direct_congr (h : inp.AgreesFrom inp' d) (n : Nat) : d.direct inp n = d.direct inp' n := by
  simp only [Decoder.direct, narrow_congr h]

theorem uniform_congr (h : inp.AgreesFrom inp' d) (count : Nat) : d.uniform inp count = d.uniform inp' count := by
  unfold Decoder.uniform
  refine if_congr Iff.rfl rfl (if_congr Iff.rfl (direct_congr h _) ?_)
  exact read_bind_congr h (direct_narrows inp _ d) (direct_congr h _) (fun hi d1 h1 =>
    read_bind_congr h1 (direct_narrows inp _ d1) (direct_congr h1 _) (fun _ _ _ => rfl))

theorem fibLoop_congr (left k n : Nat) (prev : Bool) (h : inp.AgreesFrom inp' d) :
    Decoder.fibLoop inp left k n prev d = Decoder.fibLoop inp' left k n prev d := by
  induction left generalizing k n prev d with
  | zero => rfl
  | succ left ih =>
    unfold Decoder.fibLoop
    refine read_bind_congr h (uniform_narrows inp 2 d) (uniform_congr h 2) (fun v d1 h1 => ?_)
    dsimp only
    rw [ih (k + 1) (n + fib k) true h1, ih (k + 1) n false h1]

theorem count_congr (h : inp.AgreesFrom inp' d) (W : Nat) : d.count inp W = d.count inp' W := by
  unfold Decoder.count
  refine if_congr Iff.rfl rfl (read_bind_congr h (uniform_narrows inp _ d) (uniform_congr h _) (fun k d1 h1 => ?_))
  dsimp only
  rw [uniform_congr h1]

theorem split_congr (h : inp.AgreesFrom inp' d) (p : Policy) (e : Nat) : d.split inp p e = d.split inp' p e := by
  unfold Decoder.split Decoder.splitEffective
  cases p.effective.mode with
  | whole => exact uniform_congr h _
  | escapeLong =>
    refine read_bind_congr h (uniform_narrows inp _ d) (uniform_congr h _) (fun v d1 h1 => ?_)
    dsimp only
    rw [uniform_congr h1]
  | escapeShort =>
    refine read_bind_congr h (uniform_narrows inp _ d) (uniform_congr h _) (fun v d1 h1 => ?_)
    dsimp only
    rw [uniform_congr h1]

theorem symbol_congr (h : inp.AgreesFrom inp' d) (t : FreqTable) (base : Nat) : d.symbol inp t base = d.symbol inp' t base := by
  simp only [Decoder.symbol, narrow_congr h]

end

/-! ### A command on another memory -/

/-- The two memories of R61 and R335: outside the bytes consumed wholly and those beyond `DEC_INLEN` they are the same, so they
agree on every bit still to be read. -/
theorem agreesFrom_of_same_bytes {s : State} {m : Memory}
    (h : ∀ x, (∀ j, x = 0x20000 + j → s.dec.pos < 8 * (j + 1) → s.dec.inLen.toNat ≤ j) ∨ m.readByte x = s.mem.readByte x) :
    s.input.AgreesFrom ({ s with mem := m } : State).input s.dec := by
  intro p hp
  unfold Input.bit
  split
  · rename_i hlen
    have hbyte : m.readByte (0x20000 + p / 8) = s.mem.readByte (0x20000 + p / 8) := by
      refine (h (0x20000 + p / 8)).resolve_left (fun hno => ?_)
      have := hno (p / 8) rfl (by omega)
      omega
    simp only [Input.byte, State.input, show decInBase = 0x20000 from rfl, hbyte]
  · rfl

theorem takeFault_withMem {s : State} {w : Word} {r : Raise} (m : Memory) (h : r.kind ≠ .lzDecodeRun) :
    ({ s with mem := m } : State).takeFault w r = { s.takeFault w r with mem := m } := by
  rcases r with ⟨_, _, k⟩
  cases k with
  | lzDecodeRun => exact absurd rfl h
  | _ => rfl

/-- A sequence stores nothing and does the same on another memory, if its parts do. -/
theorem bind_withMem {α : Type} {y y' : Coded α} {f f' : α → Coded State} {m : Memory} (hy : y = y')
    (hf : ∀ a, f' a = f a >>= fun u => .ok { u with mem := m }) : y' >>= f' = (y >>= f) >>= fun u => .ok { u with mem := m } := by
  subst hy
  cases y with
  | error r => rfl
  | ok a => exact hf a

theorem deliver_withMem {s : State} {y y' : Coded (Nat × Decoder)} {m : Memory} (hy : y = y') :
    ({ s with mem := m } : State).deliver y' = s.deliver y >>= fun u => .ok { u with mem := m } :=
  bind_withMem hy (fun _ => rfl)

/-- A command that does the same on another memory answers the same state over that memory, if its faults leave `SYM_OUT`
alone (R305). -/
theorem finish_withMem {w : Word} {s t : State} {x x' : Coded State} {m : Memory} {k : FaultKind} (hk : k ≠ .lzDecodeRun)
    (hx : Raises (Raise.Of k) x) (hx' : x' = x >>= fun u => .ok { u with mem := m }) (h : s.finish w x = .next t) :
    ({ s with mem := m } : State).finish w x' = .next { t with mem := m } := by
  subst hx'
  rcases (finish_next_iff _ _ _ _).1 h with rfl | ⟨f, rfl, rfl⟩
  · rfl
  · exact congrArg Host.Outcome.next
      (takeFault_withMem m ((hx f rfl).kind_elim (P := (· ≠ .lzDecodeRun)) (by decide) hk))

/-- Settles O46: the two memories agree on the bits still to be read, and each command's read is the same on both. -/
theorem consumedInputHasNoEffect : Obligations.ConsumedInputHasNoEffect := by
  intro i s t m hd hreset h hbytes
  have hag := agreesFrom_of_same_bytes hbytes
  have precise : FaultKind.precise ≠ .lzDecodeRun := by decide
  cases i with
  | decReset => exact absurd rfl hreset
  | decReadEqual =>
    exact finish_withMem precise (deliver_raises (uniform_raises _ _ _)) (deliver_withMem (uniform_congr hag _)) h
  | decPeek =>
    exact finish_withMem precise (raises_bind (peek_raises _ _) (fun _ _ => raises_ok _))
      (bind_withMem rfl (fun _ => rfl)) h
  | decNarrow =>
    exact finish_withMem precise (raises_bind (decNarrow_raises _ _ _) (fun _ _ => raises_ok _))
      (bind_withMem (narrow_congr hag _) (fun _ => rfl)) h
  | decReadPartFt =>
    refine finish_withMem precise ?_ ?_ h
    · split
      · exact raises_error (of_precise (by decide))
      · exact raises_bind (symbol_raises _ _ _ _) (fun _ _ => raises_ok _)
    · dsimp only
      split
      · rfl
      · exact bind_withMem (symbol_congr hag _ _) (fun _ => rfl)
  | decReadFib =>
    exact finish_withMem (k := .fibRun) (by decide) (deliver_raises (fibLoop_raises _ _ _ _ _ _))
      (deliver_withMem (fibLoop_congr _ _ _ _ hag)) h
  | decReadCount W =>
    exact finish_withMem precise (deliver_raises (count_raises _ _ _)) (deliver_withMem (count_congr hag _)) h
  | decReadSplit r extra =>
    exact finish_withMem precise
      (raises_bind (argPolicy_raises s r extra) (fun _ _ => deliver_raises (split_raises _ _ _ _)))
      (bind_withMem rfl (fun p => deliver_withMem (split_congr hag p _))) h
  | _ => simp [isDecoderCommand] at hd

end Sys2Proof.Machine
end

section
/-!
PROOFS. The frames of LZ_ENCODE and LZ_DECODE (R57, R220, R241, R272, R336). What LZ_DECODE stores is bounded by the count it
reads, which fits a word whatever the decoder's bounds are (R145, R147).
-/
namespace Sys2Proof.Machine

/-- Settles O58: LZ_ENCODE faults precisely or as an encoder command, and completed it changes the encoder, `RES` and `LZ_N`
only. -/
theorem lzEncodeFrame : Obligations.LzEncodeFrame := by
  intro s t h
  have hi : Instr.lzEncode ≠ .blkReset := by decide
  have hsealed : t.enc.isSealed = s.enc.isSealed := by
    rcases exec_cases hi h with ⟨r, rfl, -⟩ | hc
    · exact takeFault_isSealed s _ r
    · exact hc.isSealed (by decide) (by decide)
  exact ⟨exec_sameHostSide hi h, exec_dec hi h (.inl rfl) (by decide), exec_ft hi h (.inl rfl),
    exec_sameBytes hi h (by decide), hsealed, exec_recordOf hi h, fun ht => (completed_of_noFault hi h ht).bits (by decide)⟩

/-! ### A read's value lies in its domain, whatever the decoder's bounds (R142, R145, R147) -/

/-- A direct read narrows to the one part it answers, so `CheckInterval` places that part below `n` (R101, R145). -/
theorem direct_lt {inp : Input} {n : Nat} {d : Decoder} {a : Nat × Decoder} (h : d.direct inp n = .ok a) : a.1 < n := by
  obtain ⟨v, -, h⟩ := (coded_bind_eq_ok _ _ _).1 h
  obtain ⟨d', hd', h⟩ := (coded_bind_eq_ok _ _ _).1 h
  obtain ⟨_, hcheck, -⟩ := (coded_bind_eq_ok _ _ _).1 hd'
  obtain ⟨-, -, hlt⟩ := (checkInterval_ok _).1 hcheck
  rw [← Except.ok.inj h]
  exact hlt

theorem uniform_lt {inp : Input} {count : Nat} {d : Decoder} {a : Nat × Decoder} (h : d.uniform inp count = .ok a) :
    a.1 < count := by
  unfold Decoder.uniform at h
  split at h
  · simp at h
  · split at h
    · exact direct_lt h
    · obtain ⟨hi, hhi, h⟩ := (coded_bind_eq_ok _ _ _).1 h
      obtain ⟨lo, hlo, h⟩ := (coded_bind_eq_ok _ _ _).1 h
      have h1 := direct_lt hhi
      have h2 := direct_lt hlo
      rw [← Except.ok.inj h]
      unfold uniformReadLow at h2
      dsimp only at h2 ⊢
      split at h2 <;> omega

/-- A count read with field width `W` is below `2^W` (R147). -/
theorem count_lt {inp : Input} {W : Nat} {d : Decoder} {a : Nat × Decoder} (h : d.count inp W = .ok a) : a.1 < 2 ^ W := by
  unfold Decoder.count at h
  split at h
  · simp at h
  · obtain ⟨k, hk, h⟩ := (coded_bind_eq_ok _ _ _).1 h
    have hkW := uniform_lt hk
    dsimp only at h
    split at h
    · rw [← Except.ok.inj h]
      exact Nat.two_pow_pos W
    · split at h
      · rw [← Except.ok.inj h]
        exact Nat.sub_lt (Nat.two_pow_pos W) Nat.one_pos
      · obtain ⟨rem, hrem, h⟩ := (coded_bind_eq_ok _ _ _).1 h
        have hlt := uniform_lt hrem
        have hpow : 2 ^ (k.1 + 1) ≤ 2 ^ W := Nat.pow_le_pow_right (by decide) (by omega)
        rw [Nat.pow_succ] at hpow
        rw [← Except.ok.inj h]
        dsimp only
        omega

/-- Every value a computation answers satisfies `P`. -/
def Yields {α : Type} (P : α → Prop) (x : Coded α) : Prop := ∀ a, x = .ok a → P a

theorem yields_ok {α : Type} {P : α → Prop} {a : α} (h : P a) : Yields P (.ok a) := fun _ hb => Except.ok.inj hb ▸ h

theorem yields_error {α : Type} {P : α → Prop} (r : Raise) : Yields P (.error r) := nofun

theorem yields_bind {α β : Type} {P : β → Prop} {x : Coded α} {f : α → Coded β} (hf : ∀ a, x = .ok a → Yields P (f a)) :
    Yields P (x >>= f) := by
  intro b hb
  obtain ⟨a, ha, hb⟩ := (coded_bind_eq_ok _ _ _).1 hb
  exact hf a ha b hb

/-- An optional part before a common continuation. -/
theorem yields_ite_bind {α β : Type} {P : β → Prop} {c : Prop} [Decidable c] {x y : Coded α} {f : α → Coded β}
    (hf : ∀ a, Yields P (f a)) : Yields P (if c then x >>= f else y >>= f) := by
  split <;> exact yields_bind (fun a _ => hf a)

/-- The header's `N` is the count read first, so it fits a word (R261). -/
theorem header_count_lt (inp : Input) (cap : Nat) (d : Decoder) :
    Yields (fun a => a.1.count < 4294967296) (d.header inp cap) := by
  unfold Decoder.header
  refine yields_bind (fun n hn => ?_)
  have hlt : n.1 < 4294967296 := count_lt hn
  dsimp only
  split
  · exact yields_error _
  · refine yields_bind (fun dist _ => yields_bind (fun len _ => yields_ite_bind (fun dummy => yields_bind (fun flag _ => ?_))))
    split
    · split
      · exact yields_error _
      · exact yields_bind (fun _ _ => yields_ok hlt)
    · exact yields_ok hlt

/-- The stream answers its header's `N` (R272). -/
theorem lzStream_count_lt (inp : Input) (t : FreqTable) (cap : Nat) (d : Decoder) :
    Yields (fun a => a.1.1 < 4294967296) (d.lzStream inp t cap) :=
  yields_bind (fun hd hhd => yields_bind (fun _ _ => yields_ok (header_count_lt inp cap d hd hhd)))

/-! ### What LZ_DECODE stores -/

/-- A command that records no fault answered what its computation did. -/
theorem finish_eq_ok {w : Word} {s t : State} {x : Coded State} {k : FaultKind} (hx : Raises (Raise.Of k) x)
    (h : s.finish w x = .next t) (ht : t.fault = .noFault) : x = .ok t := by
  rcases (finish_next_iff _ _ _ _).1 h with hok | ⟨f, hf, rfl⟩
  · exact hok
  · exact absurd ht (hx f hf).1

/-- A completed LZ_DECODE: the count in `RES` and `LZ_N`, and at most that many symbols in `SYM_OUT` (R272). -/
theorem lzDecode_completed {s t : State} (h : exec .lzDecode s = .next t) (ht : t.fault = .noFault) :
    ∃ (n : Nat) (out : List Word), n ≤ s.cfg.symCap ∧ n < 4294967296 ∧ out.length ≤ n ∧ t.mem = s.mem.writeSymOut 0 out ∧
      t.res = Word.ofNat n ∧ t.lzN = Word.ofNat n := by
  have hx := finish_eq_ok (raises_bind (checkModel_raises _) (fun _ _ => raises_bind (lzStream_raises _ _ _ _) (fun _ _ =>
    raises_ok _))) h ht
  obtain ⟨_, _, hx⟩ := (coded_bind_eq_ok _ _ _).1 hx
  obtain ⟨⟨⟨n, out⟩, d⟩, ha, hx⟩ := (coded_bind_eq_ok _ _ _).1 hx
  obtain ⟨hcap, hlen⟩ := (lzStream_spec _ _ _ _).2 _ ha
  rw [← Except.ok.inj hx]
  exact ⟨n, out, hcap, lzStream_count_lt _ _ _ _ _ ha, hlen, rfl, rfl, rfl⟩

/-- A faulted LZ_DECODE disturbs `SYM_OUT` at most (R305). -/
theorem takeFault_readByte_outside {s : State} (hwf : s.mem.wf) (w : Word) (r : Raise) {x : Nat}
    (hx : ¬(0x80000 ≤ x ∧ x < 0x80000 + 4 * s.cfg.symCap)) : (s.takeFault w r).mem.readByte x = s.mem.readByte x := by
  rcases r with ⟨_, _, k⟩
  cases k with
  | lzDecodeRun => exact Memory.readByte_refill_outside s.mem _ _ _ hwf x hx
  | _ => rfl

/-- Settles O60: a fault leaves all but `SYM_OUT`, and a completed run stores at most `RES` symbols there. -/
theorem lzDecodeFrame : Obligations.LzDecodeFrame := by
  intro s t hwf h0 h
  have hi : Instr.lzDecode ≠ .blkReset := by decide
  refine ⟨exec_sameHostSide hi h, exec_enc hi h rfl (by decide), exec_ft hi h (.inl rfl), exec_inLen hi h (by decide),
    exec_recordOf hi h, fun ht => ?_, fun ht x hx => ?_⟩
  · obtain ⟨n, out, hcap, hn, hlen, hmem, hres, hlzN⟩ := lzDecode_completed h ht
    have hnat : t.res.toNat = n := by rw [hres, ofNat_toNat_of_lt hn]
    refine ⟨by rw [hres, hlzN], by omega, (completed_of_noFault hi h ht).freeCount (by decide), fun x hx => ?_⟩
    rw [hmem]
    refine Memory.readByte_writeSymOut_outside out s.mem 0 x hwf ?_
    unfold symOutBase
    omega
  · rcases exec_cases hi h with ⟨r, rfl, -⟩ | hc
    · exact takeFault_readByte_outside hwf _ r hx
    · exact absurd (hc.record.1.trans h0) ht

end Sys2Proof.Machine
end

section
/-!
PROOFS. The command word (R70 to R75): its fields and what `upperField` says of them per form of `mod`, the opcode map row by
row, and from these the two round trips of `encode` and `decode` and the illegal words.
-/
namespace Sys2Proof

/-! ### The fields of a word (R70, R72) -/

theorem bitVec_append_eq_append_iff {n m : Nat} {a a' : BitVec n} {b b' : BitVec m} : a ++ b = a' ++ b' ↔ a = a' ∧ b = b' := by
  refine ⟨fun h => ⟨?_, ?_⟩, fun ⟨ha, hb⟩ => by rw [ha, hb]⟩
  · simpa only [BitVec.extractLsb'_append_eq_left] using congrArg (BitVec.extractLsb' m n) h
  · simpa only [BitVec.extractLsb'_append_eq_right] using congrArg (BitVec.extractLsb' 0 m) h

theorem upperField_append_opField (w : Word) : upperField w ++ opField w = w :=
  BitVec.extractLsb'_append_extractLsb' (w := 24)

theorem rsvField_append_modField (w : Word) : rsvField w ++ modField w = upperField w :=
  BitVec.extractLsb'_append_extractLsb'_eq_extractLsb' rfl

theorem policyReserved_append (w : Word) : policyReserved w ++ (extraField w ++ modeField w) = modField w := by
  have hlow : extraField w ++ modeField w = w.extractLsb' 8 3 := BitVec.extractLsb'_append_extractLsb'_eq_extractLsb' rfl
  rw [hlow]
  exact BitVec.extractLsb'_append_extractLsb'_eq_extractLsb' rfl

theorem policyReserved_toNat (w : Word) : (policyReserved w).toNat = (modField w).toNat / 8 := by
  simp only [policyReserved, modField, BitVec.extractLsb'_toNat, Nat.shiftRight_eq_div_pow]
  omega

/-- A word is an instruction's exactly when its fields are (R70). -/
theorem encode_eq_iff {i : Instr} {w : Word} : encode i = w ↔ i.upperBits = upperField w ∧ i.opcode = opField w := by
  conv_lhs => rw [← upperField_append_opField w]
  exact bitVec_append_eq_append_iff

/-- The form width: `rsv` is 0 over a `mod` that holds the width (R72). -/
theorem upperField_eq_width {w : Word} {m : BitVec 8} :
    upperField w = (0 : BitVec 16) ++ m ↔ rsvField w = 0 ∧ modField w = m := by
  rw [← rsvField_append_modField, bitVec_append_eq_append_iff]

/-- The form none: `rsv` and `mod` are 0 (R72). -/
theorem upperField_eq_zero {w : Word} : upperField w = 0 ↔ rsvField w = 0 ∧ modField w = 0 :=
  upperField_eq_width (m := 0)

/-- The form policy: `rsv` and `mod[7:3]` are 0 over `extra` and `r` (R72). -/
theorem upperField_eq_policyMod {w : Word} {r : Nat} {extra : Bool} :
    upperField w = policyMod r extra ↔
      rsvField w = 0 ∧ policyReserved w = 0 ∧ extraField w = (if extra then 1 else 0) ∧ modeField w = BitVec.ofNat 2 r := by
  have hzeros : policyMod r extra =
      (0 : BitVec 16) ++ ((0 : BitVec 5) ++ ((if extra then 1 else 0 : BitVec 1) ++ BitVec.ofNat 2 r)) := by
    rw [BitVec.append_assoc']
    rfl
  rw [hzeros, upperField_eq_width, ← policyReserved_append, bitVec_append_eq_append_iff, bitVec_append_eq_append_iff]

/-! ### Decoding an encoded instruction -/

/-- A word with no reserved bit and an opcode other than 0 is read by its opcode's row (R73). -/
theorem decode_eq_decodeOp {w : Word} {op : BitVec 8} (hop : opField w = op) (h0 : op ≠ 0) (hrsv : rsvField w = 0) :
    decode w = decodeOp w op.toNat := by
  unfold decode
  rw [hop, if_neg h0, if_neg (not_not_intro hrsv)]

/-- A row of the form width reads the width back from `mod` (R72). -/
theorem decode_width {w : Word} {op : BitVec 8} {W : Nat} {f : Nat → Instr} (hop : opField w = op) (h0 : op ≠ 0)
    (hrow : decodeOp w op.toNat = .ok (f (modField w).toNat)) (hup : upperField w = (0 : BitVec 16) ++ BitVec.ofNat 8 W)
    (hW : widthFits W = true) : decode w = .ok (f W) := by
  obtain ⟨hrsv, hmod⟩ := upperField_eq_width.1 hup
  rw [decode_eq_decodeOp hop h0 hrsv, hrow, hmod, BitVec.toNat_ofNat, Nat.mod_eq_of_lt (of_decide_eq_true hW)]

/-- A row of the form policy reads `r` and `extra` back from `mod` (R72). -/
theorem decode_policy {w : Word} {op : BitVec 8} {r : Nat} {extra : Bool} {f : Nat → Bool → Instr} (hop : opField w = op)
    (h0 : op ≠ 0) (hrow : decodeOp w op.toNat = decodePolicy w f) (hup : upperField w = policyMod r extra)
    (hr : modeFits r = true) : decode w = .ok (f r extra) := by
  obtain ⟨hrsv, hres, hextra, hmode⟩ := upperField_eq_policyMod.1 hup
  have hbit : (extraField w == 1) = extra := by rw [hextra]; cases extra <;> rfl
  rw [decode_eq_decodeOp hop h0 hrsv, hrow, decodePolicy, if_pos hres, hbit, hmode, BitVec.toNat_ofNat,
    Nat.mod_eq_of_lt (of_decide_eq_true hr)]

theorem decode_of_opField_zero {w : Word} (h : opField w = 0) : decode w = .ok (.illegal (upperField w)) := if_pos h

/-- Settles O1: the fields of the word are the instruction's, and each form's operand is read back from them; an instruction
of the form none has one fixed word, which decodes by computation. -/
theorem decodeEncodeRoundTrip : Obligations.DecodeEncodeRoundTrip := by
  intro i hwf
  obtain ⟨hop, hup⟩ := Laws.encodedFields i
  cases i with
  | illegal upper => rw [decode_of_opField_zero hop, hup, Instr.upperBits]
  | encWriteCount W | decReadCount W => exact decode_width hop (by simp [Instr.opcode]) rfl hup hwf
  | encWriteSplit r extra | decReadSplit r extra => exact decode_policy hop (by simp [Instr.opcode]) rfl hup hwf
  | _ => rfl

/-! ### The opcode map, row by row (R74, R75) -/

/-- What the opcode map answers for opcode `n` of word `w`: a row of R74 by its form, or no row. -/
inductive OpcodeRow (w : Word) (n : Nat) : Except DecodeError Instr → Prop where
  | none (i : Instr) (hop : i.opcode.toNat = n) (hup : i.upperBits = 0) (hwf : i.wellFormed = true)
      (hn : n = 1 ∨ n = 2 ∨ (0x10 ≤ n ∧ n ≤ 0x14) ∨ n = 0x17 ∨ (0x20 ≤ n ∧ n ≤ 0x25) ∨ (0x30 ≤ n ∧ n ≤ 0x37) ∨ n = 0x40 ∨
        n = 0x41) : OpcodeRow w n (decodeNone w i)
  | width (i : Nat → Instr) (hop : ∀ W, (i W).opcode.toNat = n)
      (hup : ∀ W, (i W).upperBits = (0 : BitVec 16) ++ BitVec.ofNat 8 W) (hwf : ∀ W, (i W).wellFormed = widthFits W)
      (hn : n = 0x15 ∨ n = 0x26) : OpcodeRow w n (.ok (i (modField w).toNat))
  | policy (i : Nat → Bool → Instr) (hop : ∀ r extra, (i r extra).opcode.toNat = n)
      (hup : ∀ r extra, (i r extra).upperBits = policyMod r extra) (hwf : ∀ r extra, (i r extra).wellFormed = modeFits r)
      (hn : n = 0x16 ∨ n = 0x27) : OpcodeRow w n (decodePolicy w i)
  | unassigned
      (hn : n = 0 ∨ (0x03 ≤ n ∧ n ≤ 0x0F) ∨ (0x18 ≤ n ∧ n ≤ 0x1F) ∨ (0x28 ≤ n ∧ n ≤ 0x2F) ∨ (0x38 ≤ n ∧ n ≤ 0x3F) ∨ 0x42 ≤ n) :
      OpcodeRow w n (.error .unassignedOpcode)

theorem decodeOp_row (w : Word) (n : Nat) : OpcodeRow w n (decodeOp w n) := by
  unfold decodeOp
  split
  case h_8 => exact .width .encWriteCount (fun _ => rfl) (fun _ => rfl) (fun _ => rfl) (by decide)
  case h_17 => exact .width .decReadCount (fun _ => rfl) (fun _ => rfl) (fun _ => rfl) (by decide)
  case h_9 => exact .policy .encWriteSplit (fun _ _ => rfl) (fun _ _ => rfl) (fun _ _ => rfl) (by decide)
  case h_18 => exact .policy .decReadSplit (fun _ _ => rfl) (fun _ _ => rfl) (fun _ _ => rfl) (by decide)
  case h_29 =>
    refine .unassigned ?_
    simp only [imp_false] at *
    omega
  all_goals exact .none _ rfl rfl rfl (by decide)

/-! ### Encoding a decoded word -/

theorem decodeNone_eq_ok {w : Word} {i j : Instr} : decodeNone w i = .ok j ↔ modField w = 0 ∧ i = j := by
  unfold decodeNone
  split <;> simp_all

theorem decodePolicy_eq_ok {w : Word} {i : Nat → Bool → Instr} {j : Instr} :
    decodePolicy w i = .ok j ↔ policyReserved w = 0 ∧ i (modeField w).toNat (extraField w == 1) = j := by
  unfold decodePolicy
  split <;> simp_all

/-- What `decode` accepts: the row of opcode 0 whatever the other bits, or a row of the map with no reserved bit (R73, R282). -/
theorem decode_eq_ok {w : Word} {i : Instr} :
    decode w = .ok i ↔
      (opField w = 0 ∧ .illegal (upperField w) = i) ∨
        (opField w ≠ 0 ∧ rsvField w = 0 ∧ decodeOp w (opField w).toNat = .ok i) := by
  unfold decode
  split
  · simp [*]
  · split <;> simp_all

/-- Settles O2: each row fixes the opcode of the instruction it answers, and its form the bits above. -/
theorem encodeDecodeRoundTrip : Obligations.EncodeDecodeRoundTrip := by
  intro w i h
  rcases decode_eq_ok.1 h with ⟨hop, rfl⟩ | ⟨-, hrsv, h⟩
  · exact ⟨rfl, encode_eq_iff.2 ⟨rfl, hop.symm⟩⟩
  · have hrow := decodeOp_row w (opField w).toNat
    generalize decodeOp w (opField w).toNat = x at h hrow
    cases hrow with
    | none j hop hup hwf =>
      obtain ⟨hmod, rfl⟩ := decodeNone_eq_ok.1 h
      exact ⟨hwf, encode_eq_iff.2 ⟨hup.trans (upperField_eq_zero.2 ⟨hrsv, hmod⟩).symm, BitVec.eq_of_toNat_eq hop⟩⟩
    | width f hop hup hwf =>
      obtain rfl := Except.ok.inj h
      refine ⟨(hwf _).trans (decide_eq_true (modField w).isLt),
        encode_eq_iff.2 ⟨(hup _).trans (upperField_eq_width.2 ⟨hrsv, ?_⟩).symm, BitVec.eq_of_toNat_eq (hop _)⟩⟩
      rw [BitVec.ofNat_toNat, BitVec.setWidth_eq]
    | policy f hop hup hwf =>
      obtain ⟨hres, rfl⟩ := decodePolicy_eq_ok.1 h
      have hbit : ∀ b : BitVec 1, b = if (b == 1) = true then 1 else 0 := by decide
      refine ⟨(hwf _ _).trans (decide_eq_true (modeField w).isLt),
        encode_eq_iff.2 ⟨(hup _ _).trans (upperField_eq_policyMod.2 ⟨hrsv, hres, hbit _, ?_⟩).symm,
          BitVec.eq_of_toNat_eq (hop _ _)⟩⟩
      rw [BitVec.ofNat_toNat, BitVec.setWidth_eq]
    | unassigned => simp at h

/-! ### The illegal words (R73, R75) -/

theorem decodeNone_eq_error {w : Word} {i : Instr} : (∃ x, decodeNone w i = .error x) ↔ (modField w).toNat ≠ 0 := by
  unfold decodeNone
  split <;> simp_all [← BitVec.toNat_inj]

theorem decodePolicy_eq_error {w : Word} {i : Nat → Bool → Instr} :
    (∃ x, decodePolicy w i = .error x) ↔ (modField w).toNat / 8 ≠ 0 := by
  rw [← policyReserved_toNat]
  unfold decodePolicy
  split <;> simp_all [← BitVec.toNat_inj]

theorem decode_eq_error {w : Word} (hop : opField w ≠ 0) :
    (∃ x, decode w = .error x) ↔ (rsvField w).toNat ≠ 0 ∨ ∃ x, decodeOp w (opField w).toNat = .error x := by
  unfold decode
  rw [if_neg hop]
  split <;> simp_all [← BitVec.toNat_inj]

/-- The words of R75's list are those of the illegal opcode and those the check of R73 refuses. -/
theorem illegalWord_iff_decode {w : Word} : Machine.illegalWord w ↔ opField w = 0 ∨ ∃ x, decode w = .error x := by
  by_cases hop : opField w = 0
  · exact iff_of_true (.inl (congrArg BitVec.toNat hop)) (.inl hop)
  · have hpos : (opField w).toNat ≠ 0 := fun h => hop (BitVec.eq_of_toNat_eq h)
    rw [or_iff_right hop, decode_eq_error hop]
    have hrow := decodeOp_row w (opField w).toNat
    unfold Machine.illegalWord
    dsimp only
    rw [← opField, ← modField, ← rsvField]
    generalize decodeOp w (opField w).toNat = x at hrow
    cases hrow with
    | none i _ _ _ hn =>
      rw [decodeNone_eq_error]
      omega
    | width i _ _ _ hn =>
      simp only [reduceCtorEq, exists_false, or_false]
      omega
    | policy i _ _ _ hn =>
      rw [decodePolicy_eq_error]
      omega
    | unassigned hn =>
      simp only [Except.error.injEq, exists_eq', or_true, iff_true]
      omega

end Sys2Proof
end

section
/-!
PROOFS. What the illegal words raise (R75), and the accesses of a command statement run one after another (R77).
-/
namespace Sys2Proof.Machine

/-- Settles O3: a listed word is refused by the decode or runs the illegal opcode under its own word, and any other decodes to
a command whose opcode is not 0. -/
theorem illegalWordsRaiseBadOpcode : Obligations.IllegalWordsRaiseBadOpcode := by
  intro w
  refine ⟨fun hill s => ?_, fun hlegal => ?_⟩
  · rcases illegalWord_iff_decode.1 hill with hop | ⟨x, hx⟩
    · have hdec := decode_of_opField_zero hop
      rw [runWord_of_decode_ok hdec]
      exact congrArg (fun u => Host.Outcome.next (s.takeFault u badOpcode)) (encodeDecodeRoundTrip w _ hdec).2
    · rw [runWord_of_decode_error hx]
      rfl
  · rw [illegalWord_iff_decode, not_or] at hlegal
    obtain ⟨hop, herror⟩ := hlegal
    cases hdec : decode w with
    | error x => exact absurd ⟨x, hdec⟩ herror
    | ok i =>
      refine ⟨i, rfl, fun u hi => hop ?_⟩
      rw [← (encodeDecodeRoundTrip w i hdec).2, (Laws.encodedFields i).1, hi, Instr.opcode]

/-! ### A command statement (R71, R77) -/

theorem setArg_withQueue (s : State) (r : ArgReg) (v : Word) (q : List HostAccess) (n : Nat) :
    ({ s with hostQueue := q, pc := n } : State).setArg r v = { s.setArg r v with hostQueue := q, pc := n } := by
  cases r <;> rfl

@[simp] theorem setArg_hostQueue (s : State) (r : ArgReg) (v : Word) : (s.setArg r v).hostQueue = s.hostQueue := by
  cases r <;> rfl

@[simp] theorem setArg_pc (s : State) (r : ArgReg) (v : Word) : (s.setArg r v).pc = s.pc := by cases r <;> rfl

@[simp] theorem setArg_cfg (s : State) (r : ArgReg) (v : Word) : (s.setArg r v).cfg = s.cfg := by cases r <;> rfl

@[simp] theorem setArg_fault (s : State) (r : ArgReg) (v : Word) : (s.setArg r v).fault = s.fault := by cases r <;> rfl

theorem writeWindow_argOffset (s : State) (r : ArgReg) (v : Word) : s.writeWindow r.offset v = s.setArg r v := by
  cases r <;> rfl

/-- A host write at the offset of an operand register sets that register (R21, R71). -/
theorem step_writeArg {s : State} {rest : List HostAccess} {r : ArgReg} {v : Word}
    (hq : s.hostQueue = writeAt s.cfg r.offset v :: rest) :
    step s = .next (({ s with hostQueue := rest } : State).setArg r v) := by
  rw [← writeWindow_argOffset]
  exact step_writeWindow hq (by cases r <;> decide) (by cases r <;> decide) (by cases r <;> decide)

theorem runSteps_succ {s t : State} (n : Nat) (h : step s = .next t) : runSteps (n + 1) s = runSteps n t := by
  simp only [runSteps, h]

theorem runSteps_one (s : State) : runSteps 1 s = step s := by
  unfold runSteps
  cases step s <;> rfl

/-- Writes to operand registers and then one to `CMD` run the word on the operands written. -/
theorem runSteps_writeArgs (writes : List (ArgReg × Word)) {s : State} {w : Word} {rest : List HostAccess}
    (hfault : s.fault = .noFault)
    (hq : s.hostQueue = writes.map (fun p => writeAt s.cfg p.1.offset p.2) ++ cmdWrite s.cfg w :: rest) :
    runSteps (writes.length + 1) s =
      runWord w (writes.foldl (fun st p => st.setArg p.1 p.2) { s with hostQueue := rest, pc := s.pc + 1 }) := by
  induction writes generalizing s with
  | nil =>
    rw [List.length_nil, runSteps_one, step_command hq,
      issue_of_not_ignored (s := { s with hostQueue := rest }) (.inl hfault)]
    rfl
  | cons p writes ih =>
    rw [List.length_cons, runSteps_succ _ (step_writeArg hq), ih (by simpa using hfault) (by simp)]
    simp [setArg_withQueue]

/-- Settles O6: the writes set the operand registers one by one, and the last access issues the command's own word. -/
theorem statementRunsItsCommand : Obligations.StatementRunsItsCommand := by
  intro i operands s rest hwf hlen hfault hq
  have hrun := runSteps_writeArgs ((argRegs i).zip operands) (w := encode i) hfault (by simpa [Stmt.expand] using hq)
  rw [List.length_zip, ← hlen, Nat.min_self] at hrun
  rw [hrun, runWord_of_decode_ok (decodeEncodeRoundTrip i hwf)]

/-- Settles O4: each word is closed, so the decoder computes its answer. -/
theorem specWordsDecode : Obligations.SpecWordsDecode := ⟨rfl, rfl, rfl, rfl, rfl, rfl, rfl, rfl, rfl⟩

end Sys2Proof.Machine
end

section
/-!
PROOFS. The commands that narrow the encoder by the trace of a code (R121 to R125, R210): the sealed check first (R110), then the
trace or the precise fault of the code, then the narrowings.
-/
namespace Sys2Proof.Machine

/-! ### The sealed check (R110) -/

theorem checkSealed_ok {s : State} (h : s.enc.isSealed = false) : s.checkSealed = .ok () := by
  unfold State.checkSealed
  rw [h]
  rfl

theorem checkSealed_error {s : State} (h : s.enc.isSealed = true) : s.checkSealed = .error (.precise .isSealed 0) := by
  unfold State.checkSealed
  rw [h]
  rfl

/-- A command that makes the sealed check first refuses a sealed stream. -/
theorem finish_checkSealed_of_sealed {s : State} (h : s.enc.isSealed = true) (i : Instr) (f : Unit → Coded State) :
    s.finish (encode i) (s.checkSealed >>= f) = .next (s.faultedBy i .isSealed 0) := by
  rw [checkSealed_error h]
  rfl

theorem finish_checkSealed_of_open {s : State} (h : s.enc.isSealed = false) (w : Word) (f : Unit → Coded State) :
    s.finish w (s.checkSealed >>= f) = s.finish w (f ()) := by
  rw [checkSealed_ok h, coded_bind_ok]

theorem exec_lzEncode_of_error {s : State} {code : FaultCode} {aux : Word} (h : s.lzPrecheck = .error (.precise code aux)) :
    exec .lzEncode s = .next (s.faultedBy .lzEncode code aux) := by
  simp only [exec, execLzEncode, h]
  rfl

/-- The pre-checks of LZ_ENCODE start with the sealed check (R221). -/
theorem lzEncode_of_sealed {s : State} (h : s.enc.isSealed = true) :
    exec .lzEncode s = .next (s.faultedBy .lzEncode .isSealed 0) := by
  refine exec_lzEncode_of_error ?_
  unfold State.lzPrecheck
  rw [checkSealed_error h, coded_bind_error]

/-- Settles O23: seven of the commands start with the sealed check itself, and the pre-checks of LZ_ENCODE do. -/
theorem sealedStreamIsRefused : Obligations.SealedStreamIsRefused := by
  intro s W r extra h
  have refused := finish_checkSealed_of_sealed h
  simp only [List.mem_cons, List.not_mem_nil, or_false, forall_eq_or_imp, forall_eq]
  exact ⟨refused _ _, refused _ _, refused _ _, refused _ _, refused _ _, refused _ _, refused _ _, lzEncode_of_sealed h⟩

/-! ### Commands that encode one trace -/

/-- Command `i` makes the sealed check and then narrows the encoder by the trace that `x` answers. -/
def State.Encodes (i : Instr) (x : Coded (List Interval)) (s : State) : Prop :=
  exec i s = s.finish (encode i) (s.checkSealed >>= fun _ => x >>= s.encodeTrace)

section
variable (s : State)

theorem encWriteEqual_encodes : s.Encodes .encWriteEqual (uniformTrace (s.argNat .arg0) (s.argNat .arg1)) := rfl

theorem encWritePart_encodes : s.Encodes .encWritePart (.ok [s.argInterval]) := rfl

theorem encWritePartFt_encodes : s.Encodes .encWritePartFt (s.ft.requireInterval s.arg0 >>= fun iv => .ok [iv]) := by
  unfold State.Encodes
  rw [bind_assoc]
  rfl

theorem encWriteFib_encodes : s.Encodes .encWriteFib (fibTrace (s.argNat .arg0)) := rfl

theorem encWriteCount_encodes (W : Nat) : s.Encodes (.encWriteCount W) (countTrace (s.argNat .arg0) W) := rfl

theorem encWriteSplit_encodes (r : Nat) (extra : Bool) :
    s.Encodes (.encWriteSplit r extra)
      (s.argPolicy r extra >>= fun p => splitTrace p extra.toNat (s.argNat .arg0)) := by
  unfold State.Encodes
  rw [bind_assoc]
  rfl

end

section
variable {i : Instr} {x : Coded (List Interval)} {s : State}

theorem State.Encodes.writesTrace (h : s.Encodes i x) (hlegal : s.cfg.legal = true) (hopen : s.enc.isSealed = false)
    {trace : List Interval} (hx : x = .ok trace) (hv : ∀ iv ∈ trace, iv.Valid) :
    s.writesTrace i trace (fun e => { s with enc := e }) := by
  refine writesTrace_of hlegal hv ?_
  rw [h, finish_checkSealed_of_open hopen, hx]
  rfl

theorem State.Encodes.faultedBy (h : s.Encodes i x) (hopen : s.enc.isSealed = false) {code : FaultCode} {aux : Word}
    (hx : x = .error (.precise code aux)) : exec i s = .next (s.faultedBy i code aux) := by
  rw [h, finish_checkSealed_of_open hopen, hx]
  rfl

/-- A trace of one Interval that `CheckInterval` refuses ends in BAD_INTERVAL (R101). -/
theorem State.Encodes.badInterval (h : s.Encodes i x) (hopen : s.enc.isSealed = false) {iv : Interval} (hx : x = .ok [iv])
    (hc : checkInterval iv = .error (.precise .badInterval 0)) : exec i s = .next (s.faultedBy i .badInterval 0) := by
  rw [h, finish_checkSealed_of_open hopen, hx, coded_bind_ok, State.encodeTrace, writeAll_cons, Encoder.narrow, hc]
  rfl

end

theorem checkInterval_error {iv : Interval} (h : iv.base = 0 ∨ 1073741824 < iv.base ∨ iv.base < iv.lower + iv.length) :
    checkInterval iv = .error (.precise .badInterval 0) := by
  unfold checkInterval
  exact if_pos h

/-- The Interval of length 0 is the defined no-op (R102). -/
theorem Encoder.narrow_of_length_zero {iv : Interval} (cap : Nat) (e : Encoder) (hc : checkInterval iv = .ok ())
    (h : iv.length = 0) : e.narrow cap iv = .ok e := by
  unfold Encoder.narrow
  rw [hc, coded_bind_ok, if_pos h]

/-- A trace whose narrowings complete from the command's own state. -/
theorem State.writesTrace_of_ok {i : Instr} {s : State} {trace : List Interval} {done : Encoder → State} {e : Encoder}
    (hw : s.enc.writeAll s.cfg.encCap trace = .ok e) (h : exec i s = .next (done e)) : s.writesTrace i trace done := by
  refine ⟨fun e' he' => ?_, fun f hf => ?_, fun _ => ⟨e, hw, h⟩⟩
  · rw [hw, Except.ok.injEq] at he'
    rw [← he', h]
  · rw [hw] at hf
    exact absurd hf nofun

/-- Settles O25: the uniform code is its Intervals where the value is below the count, and EQ_RANGE elsewhere. -/
theorem encWriteEqual : Obligations.EncWriteEqual := by
  intro s hlegal hopen
  have henc := encWriteEqual_encodes s
  refine ⟨fun hlt => ?_, fun hge => henc.faultedBy hopen (uniformTrace_error hge)⟩
  have hmax := word_lt s.arg1
  exact henc.writesTrace hlegal hopen (uniformTrace_ok hlt) (uniformIntervals_valid hlt (by omega))

/-- Settles O26: a checked Interval narrows, or is the no-op where its length is 0, and any other is refused. -/
theorem encWritePart : Obligations.EncWritePart := by
  intro s hlegal hopen
  have henc := encWritePart_encodes s
  refine ⟨fun hpos hmax hfits => ?_, fun hbad => henc.badInterval hopen rfl (checkInterval_error ?_)⟩
  · have hc : checkInterval s.argInterval = .ok () := (checkInterval_ok _).2 ⟨hpos, hmax, hfits⟩
    have hnoop : s.arg1 = 0 → exec .encWritePart s = .next s ∧ s.enc.writeAll s.cfg.encCap [s.argInterval] = .ok s.enc := by
      intro hzero
      have hw : s.enc.writeAll s.cfg.encCap [s.argInterval] = .ok s.enc := by
        rw [writeAll_cons, Encoder.narrow_of_length_zero _ _ hc (congrArg BitVec.toNat hzero)]
        rfl
      refine ⟨?_, hw⟩
      rw [henc, finish_checkSealed_of_open hopen, coded_bind_ok, State.encodeTrace, hw]
      rfl
    refine ⟨?_, fun hzero => (hnoop hzero).1⟩
    by_cases hzero : s.arg1 = 0
    · exact State.writesTrace_of_ok (hnoop hzero).2 (hnoop hzero).1
    · refine henc.writesTrace hlegal hopen rfl (fun iv hiv => ?_)
      rw [List.mem_singleton.1 hiv]
      exact ⟨hpos, hmax, word_ne_zero_pos hzero, hfits⟩
  · exact hbad.imp_left (congrArg BitVec.toNat)

/-- The Interval a table gives a key it holds (R181, R182). -/
theorem FreqTable.requireInterval_ok {t : FreqTable} (ht : t.Ordered) {key w : Word} (h : (key, w) ∈ t) :
    t.requireInterval key = .ok (t.interval key w) := by
  unfold FreqTable.requireInterval
  rw [(FreqTable.weight?_eq_some ht).2 h]

theorem FreqTable.requireInterval_error {t : FreqTable} {key : Word} (h : ∀ w, (key, w) ∉ t) :
    t.requireInterval key = .error (.precise .ftKey key) := by
  unfold FreqTable.requireInterval
  rw [FreqTable.weight?_eq_none.2 h]

/-- Settles O28: a held key has its Interval, valid unless the total is too large, and an absent one none. -/
theorem encWritePartFt : Obligations.EncWritePartFt := by
  intro s hlegal hopen hwf
  have henc := encWritePartFt_encodes s
  have held : ∀ {w}, (s.arg0, w) ∈ s.ft →
      (s.ft.requireInterval s.arg0 >>= fun iv => .ok [iv]) = (.ok [s.ft.interval s.arg0 w] : Coded (List Interval)) := by
    intro w hw
    rw [FreqTable.requireInterval_ok hwf.ordered hw]
    rfl
  refine ⟨fun w hw htotal => henc.writesTrace hlegal hopen (held hw) (fun iv hiv => ?_), fun habsent =>
    henc.faultedBy hopen ?_, fun w hw htotal => henc.badInterval hopen (held hw) (checkInterval_error (.inr (.inl htotal)))⟩
  · rw [List.mem_singleton.1 hiv]
    exact FreqTable.interval_valid hwf.ordered hw (Nat.le_refl _) htotal
  · rw [FreqTable.requireInterval_error habsent]
    rfl

/-- Settles O29: the trace is the bits of the code, each one value over 2, and 0 has no code. -/
theorem encWriteFib : Obligations.EncWriteFib := by
  intro s hlegal hopen
  have henc := encWriteFib_encodes s
  refine ⟨fun hne => ?_, fun hzero => henc.faultedBy hopen (if_pos (congrArg BitVec.toNat hzero))⟩
  exact henc.writesTrace hlegal hopen (fibTrace_ok (word_ne_zero_pos hne)) (bitIntervals_valid _)

/-- Settles O31: `k` is the logarithm the model computes, and every other operand or width is COUNT_RANGE. -/
theorem encWriteCount : Obligations.EncWriteCount := by
  intro s W hlegal hopen
  have henc := encWriteCount_encodes s W
  refine ⟨fun h0 h1 hn => ?_, fun hbad => henc.faultedBy hopen (countTrace_error hbad)⟩
  have hk := countLog_spec s.arg0.toNat
  exact ⟨countLog s.arg0.toNat, hk.1, hk.2,
    henc.writesTrace hlegal hopen (countTrace_ok h0 h1 hn) (countIntervals_valid h1 hn hk).1⟩

/-! ### The policy operand (R200, R210) -/

theorem argPolicy_ok {s : State} {r : Nat} {extra : Bool} (hr : r < 3) (h : ¬(extra = true ∧ s.arg1 = 0xFFFFFFFF)) :
    ∃ mode : SplitMode, mode.number = r ∧ s.argPolicy r extra = .ok ⟨mode, s.arg1.toNat, s.arg2.toNat⟩ := by
  obtain ⟨mode, hmode, hnumber⟩ := ofNumber_lt hr
  refine ⟨mode, hnumber, ?_⟩
  unfold State.argPolicy policyOf
  rw [hmode, coded_bind_ok]
  exact if_neg (fun hc => h ⟨hc.1, BitVec.eq_of_toNat_eq hc.2⟩)

theorem argPolicy_reserved {s : State} {r : Nat} {extra : Bool} (hr : 3 ≤ r) :
    s.argPolicy r extra = .error (.precise .splitPolicy 0) := by
  unfold State.argPolicy policyOf
  rw [ofNumber_ge hr]
  rfl

theorem argPolicy_extra {s : State} {r : Nat} {extra : Bool} (hr : r < 3) (h : extra = true ∧ s.arg1 = 0xFFFFFFFF) :
    s.argPolicy r extra = .error (.precise .splitDomain 0) := by
  obtain ⟨mode, hmode, -⟩ := ofNumber_lt hr
  unfold State.argPolicy policyOf
  rw [hmode, coded_bind_ok]
  exact if_pos ⟨h.1, congrArg BitVec.toNat h.2⟩

/-- Settles O32: the policy operand is checked first, then the value against its domain. -/
theorem encWriteSplit : Obligations.EncWriteSplit := by
  intro s r extra hlegal hopen
  have henc := encWriteSplit_encodes s r extra
  have he := bool_toNat_le extra
  refine ⟨fun hr hextra hv => ?_, fun hr => henc.faultedBy hopen ?_, fun hr hbad => henc.faultedBy hopen ?_⟩
  · obtain ⟨mode, rfl, hp⟩ := argPolicy_ok hr hextra
    have hmax := word_lt s.arg1
    refine henc.writesTrace hlegal hopen ?_ (splitCodeIntervals_valid hv he (by omega)).1
    rw [hp, coded_bind_ok]
    exact splitTrace_ok hv he
  · rw [argPolicy_reserved hr]
    rfl
  · by_cases hextra : extra = true ∧ s.arg1 = 0xFFFFFFFF
    · rw [argPolicy_extra hr hextra]
      rfl
    · obtain ⟨mode, -, hp⟩ := argPolicy_ok hr hextra
      rw [hp, coded_bind_ok]
      exact splitTrace_error (hbad.resolve_left hextra)

end Sys2Proof.Machine
end

section
/-!
PROOFS. One narrowing (R102, R103): its bounds, and the renormalization step by step; and the digits of the Fibonacci code (R106).
-/
namespace Sys2Proof.Machine

/-! ### The bounds of one narrowing (R102) -/

section
variable {e : Encoder} {iv : Interval}

theorem select_low (he : e.Settled) (hv : iv.Valid) :
    (e.select iv).low.toNat = e.low.toNat + (e.high.toNat - e.low.toNat + 1) * iv.lower / iv.base :=
  (narrow_bounds he.width hv).1

theorem select_low_le_high (he : e.Settled) (hv : iv.Valid) : (e.select iv).low.toNat ≤ (e.select iv).high.toNat := by
  obtain ⟨-, -, -, hle, -⟩ := narrow_bounds he.width hv
  exact hle

/-- The range of a settled encoder is wider than any base, so every part of it has a code point. -/
theorem select_high (he : e.Settled) (hv : iv.Valid) :
    (e.select iv).high.toNat + 1 = e.low.toNat + (e.high.toNat - e.low.toNat + 1) * (iv.lower + iv.length) / iv.base := by
  have hhigh : (e.select iv).high.toNat =
      e.low.toNat + (e.high.toNat - e.low.toNat + 1) * (iv.lower + iv.length) / iv.base - 1 :=
    (narrow_bounds he.width hv).2.1
  have hwidth := he.width
  have hbase := hv.base_le
  have hlength := hv.length_pos
  have hR : iv.base ≤ (e.high.toNat - e.low.toNat + 1) * (iv.lower + iv.length) := by
    refine Nat.le_trans ?_ (Nat.le_mul_of_pos_right _ (by omega))
    simp only [q1_eq] at hwidth
    omega
  have hpos := Nat.div_pos hR hv.base_pos
  omega

end

/-- The certain symbol keeps the bounds. -/
theorem select_whole {e : Encoder} {base : Nat} (he : e.Settled) (h0 : 0 < base) (hmax : base ≤ 1073741824) :
    e.select ⟨0, base, base⟩ = e := by
  have hv : Interval.Valid ⟨0, base, base⟩ := ⟨h0, hmax, h0, Nat.le_of_eq (Nat.zero_add base)⟩
  have hlow : (e.select ⟨0, base, base⟩).low = e.low := by
    refine BitVec.eq_of_toNat_eq ?_
    rw [select_low he hv, Nat.mul_zero, Nat.zero_div, Nat.add_zero]
  have hhigh : (e.select ⟨0, base, base⟩).high = e.high := by
    refine BitVec.eq_of_toNat_eq ?_
    have hsel := select_high he hv
    have hwidth := he.width
    rw [Nat.zero_add, Nat.mul_div_cancel _ h0] at hsel
    omega
  calc e.select ⟨0, base, base⟩
      = { e with low := (e.select ⟨0, base, base⟩).low, high := (e.select ⟨0, base, base⟩).high } := rfl
    _ = e := by rw [hlow, hhigh]

theorem narrow_of_valid {iv : Interval} (cap : Nat) (e : Encoder) (hv : iv.Valid) :
    e.narrow cap iv = Encoder.renorm cap 32 (e.select iv) := by
  unfold Encoder.narrow
  rw [hv.checked, coded_bind_ok]
  exact if_neg (Nat.pos_iff_ne_zero.1 hv.length_pos)

/-- One step of the loop, with the conditions of R103 in their order. -/
theorem renorm_succ_ite (cap k : Nat) (e : Encoder) :
    Encoder.renorm cap (k + 1) e =
      if e.high.toNat < 0x80000000 then
        e.emitBit cap false >>= fun e' => Encoder.renorm cap k (e'.double .lowHalf)
      else if 0x80000000 ≤ e.low.toNat then
        e.emitBit cap true >>= fun e' => Encoder.renorm cap k (e'.double .highHalf)
      else if 0x40000000 ≤ e.low.toNat ∧ e.high.toNat < 0xC0000000 then
        e.addPending >>= fun e' => Encoder.renorm cap k (e'.double .middle)
      else .ok e := by
  rw [renorm_succ]
  by_cases h1 : e.high.toNat < 0x80000000
  · have hstep : renormStep e.low e.high = .lowHalf := renormStep_lowHalf.2 h1
    rw [hstep, if_pos h1]
    rfl
  · rw [if_neg h1]
    by_cases h2 : 0x80000000 ≤ e.low.toNat
    · have hstep : renormStep e.low e.high = .highHalf := renormStep_highHalf.2 ⟨by omega, h2⟩
      rw [hstep, if_pos h2]
      rfl
    · rw [if_neg h2]
      by_cases h3 : 0x40000000 ≤ e.low.toNat ∧ e.high.toNat < 0xC0000000
      · have hstep : renormStep e.low e.high = .middle := renormStep_middle.2 ⟨by omega, by omega, h3.1, h3.2⟩
        rw [hstep, if_pos h3]
        rfl
      · have hstep : renormStep e.low e.high = .done := renormStep_done.2 ⟨by omega, by omega, by omega⟩
        rw [hstep, if_neg h3]
        rfl

/-- Settles O27: the bounds from `narrow_bounds`, the end of the loop from `renorm_ok`, and each branch of a step by
`renorm_succ_ite`. -/
theorem narrowingArithmetic : Obligations.NarrowingArithmetic := by
  constructor
  · intro e cap a n base he hn hbase hmax hfits R part
    have hv : Interval.Valid ⟨a, n, base⟩ := ⟨hbase, hmax, hn, hfits⟩
    have hhigh : part.high.toNat + 1 = e.low.toNat + R * (a + n) / base := select_high he hv
    refine ⟨select_low he hv, hhigh, select_low_le_high he hv, ?_, fun m hm hfits' => ?_, narrow_of_valid cap e hv,
      fun e' h => ?_⟩
    · rintro ha rfl
      simp only [part, ha]
      exact select_whole he hbase hmax
    · rw [hhigh]
      exact select_low he ⟨hbase, hmax, hm, hfits'⟩
    · obtain ⟨hhalf, hlow, hwide⟩ := renormStep_done.1 (renorm_ok 32 (shifted_zero _ _) (Nat.le_refl _) h).1
      exact ⟨hlow, hhalf, by omega⟩
  · intro e cap k again
    have hagain : ∀ st : RenormStep, (fun e' => Encoder.renorm cap k (e'.double st)) = again st.offset := fun _ => rfl
    rw [renorm_succ_ite, hagain, hagain, hagain]
    rfl

/-! ### Digits of the Fibonacci code (R106) -/

theorem noAdjacent_getD {prev : Bool} {ds : List Bool} (h : noAdjacent prev ds) (k : Nat) :
    ¬((prev :: ds).getD k false = true ∧ ds.getD k false = true) := by
  induction ds generalizing prev k with
  | nil => simp
  | cons b ds ih =>
    obtain ⟨hb, hds⟩ := h
    cases k with
    | zero => exact hb
    | succ k => exact ih hds k

theorem fibSum_eq_sum (k : Nat) (ds : List Bool) :
    fibSum k ds = ((List.range ds.length).map (fun j => if ds.getD j false then Nat.fib (j + k) else 0)).sum := by
  induction ds generalizing k with
  | nil => rfl
  | cons b ds ih =>
    rw [fibSum, ih, List.length_cons, List.range_succ_eq_map, List.map_cons, List.map_map, List.sum_cons, Nat.zero_add]
    simp only [Function.comp_def, List.getD_cons_zero, List.getD_cons_succ, Nat.succ_eq_add_one, Nat.add_assoc,
      Nat.add_comm 1 k]

/-- Settles O30: the greedy digits of `fibCode_spec`, read by their index. -/
theorem fibonacciCodeIsZeckendorf : Obligations.FibonacciCodeIsZeckendorf := by
  intro n h1 hmax
  obtain ⟨ds, hcode, hlast, hadj, hsum, -⟩ := fibCode_spec h1 hmax
  refine ⟨ds, hcode, hlast, fibCode_length h1 hmax, fun k => ?_, ?_⟩
  · exact noAdjacent_getD hadj (k + 1)
  · rw [← fibSum_eq_sum, hsum]

end Sys2Proof.Machine
end

section
/-!
PROOFS. ENC_FINISH (R109, R127): the sentinel's narrowings, then the bits that pin the final interval; and LZ_ENCODE: its
pre-checks and its stream (R220, R221, R235 to R241).
-/
namespace Sys2Proof.Machine

/-! ### The flush (R109) -/

/-- The sentinel's two Intervals: `SENT_C` as a uniform value below `SENT_COUNT` (R105, R109). -/
def sentinelIntervals : List Interval := [⟨18838, 1, 65536⟩, ⟨722, 1, 65536⟩]

theorem sentinelIntervals_eq : sentinelIntervals = uniformIntervals Config.sentC Config.sentCount := by decide

theorem sentinelIntervals_valid : ∀ iv ∈ sentinelIntervals, iv.Valid := by
  rw [sentinelIntervals_eq]
  exact uniformIntervals_valid (by decide) (by decide)

/-- The bit that pins the final interval (R109). -/
def Encoder.lastBit (e : Encoder) : Bool := decide (0x40000000 ≤ e.low.toNat)

theorem ite_low_eq_lastBit (e : Encoder) : (if e.low.toNat < Config.q1 then false else true) = e.lastBit := by
  unfold Encoder.lastBit
  by_cases hlow : e.low.toNat < Config.q1
  · rw [if_pos hlow]
    exact (decide_eq_false (Nat.not_le.2 hlow)).symm
  · rw [if_neg hlow]
    exact (decide_eq_true (Nat.not_lt.1 hlow)).symm

/-- The stream after the flush: the last bit, then the pending bits and one more, inverted (R109). -/
def Encoder.flushed (e : Encoder) : List Bool :=
  e.bits ++ e.lastBit :: List.replicate (e.pending.toNat + 1) (!e.lastBit)

theorem flushed_length (e : Encoder) : e.flushed.length = e.bits.length + e.pending.toNat + 2 := by
  simp only [Encoder.flushed, List.length_append, List.length_cons, List.length_replicate]
  omega

/-- What `EncFlush` does after the sentinel. -/
def Encoder.pin (cap : Nat) (e : Encoder) : Coded Encoder := do
  let e' ← e.addPending
  let e' ← e'.emitBit cap e.lastBit
  .ok { e' with isSealed := true }

theorem flush_eq (cap : Nat) (e : Encoder) : e.flush cap = e.writeAll cap sentinelIntervals >>= Encoder.pin cap := by
  unfold Encoder.flush
  rw [uniformTrace_ok (by decide), ← sentinelIntervals_eq, coded_bind_ok]
  refine bind_congr fun e' => ?_
  unfold Encoder.pin
  cases h : e'.addPending with
  | error f => rfl
  | ok e1 =>
    obtain ⟨-, rfl⟩ := addPending_eq_ok.1 h
    simp only [coded_bind_ok, ite_low_eq_lastBit]
    rfl

section
variable {cap : Nat} {e : Encoder}

theorem toNat_pending_add_one (h : e.pending ≠ 0xFFFFFFFF) : (e.pending + 1).toNat = e.pending.toNat + 1 := by
  have hne : e.pending.toNat ≠ 4294967295 := fun hc => h (BitVec.eq_of_toNat_eq hc)
  have hlt := word_lt e.pending
  have hone : (1 : Word).toNat = 1 := rfl
  rw [BitVec.toNat_add, hone]
  omega

theorem addPending_ok (h : e.pending ≠ 0xFFFFFFFF) : e.addPending = .ok { e with pending := e.pending + 1 } := if_neg h

theorem pin_pendingOvf (h : e.pending = 0xFFFFFFFF) : e.pin cap = .error ⟨.pendingOvf, 0, .encoderRun⟩ := by
  unfold Encoder.pin
  rw [addPending_eq_error h]
  rfl

theorem pin_ok (h : e.pending ≠ 0xFFFFFFFF) (hfit : e.flushed.length ≤ 8 * cap) :
    e.pin cap = .ok { e with bits := e.flushed, pending := 0, isSealed := true } := by
  rw [flushed_length] at hfit
  have hp := toNat_pending_add_one h
  unfold Encoder.pin
  rw [addPending_ok h, coded_bind_ok, emitBit_eq_ok.2 ⟨by dsimp only; omega, rfl⟩, coded_bind_ok, hp]
  rfl

theorem pin_capacity (h : e.pending ≠ 0xFFFFFFFF) (hbits : e.bits.length ≤ 8 * cap) (hfull : 8 * cap < e.flushed.length) :
    e.pin cap = .error ⟨.capacity, Word.ofNat (8 * cap), .encoderRun⟩ := by
  rw [flushed_length] at hfull
  have hp := toNat_pending_add_one h
  unfold Encoder.pin
  rw [addPending_ok h, coded_bind_ok,
    emitBit_eq_error (e := { e with pending := e.pending + 1 }) hbits (by dsimp only; omega)]
  rfl

end

/-- A command whose computation raises `f` records it (R302). -/
theorem records_of_error {i : Instr} {s : State} {x : Coded State} {f : Raise} (h : exec i s = s.finish (encode i) x)
    (hx : x = .error f) : s.records i f.code f.aux := by
  refine ⟨s.takeFault (encode i) f, ?_, by simp⟩
  rw [h, hx, finish_error]

theorem exec_encFinish {s : State} (hopen : s.enc.isSealed = false) :
    exec .encFinish s =
      s.finish (encode .encFinish) (s.enc.writeAll s.cfg.encCap sentinelIntervals >>= fun e => e.pin s.cfg.encCap >>= fun e' =>
        .ok { s with enc := e', res := Word.ofNat e'.byteCount }) := by
  simp only [exec, execEncFinish, finish_checkSealed_of_open hopen, flush_eq, bind_assoc]
  rfl

/-- Settles O33: the sentinel's narrowings, then the one emission that pins the interval. -/
theorem encFinish : Obligations.EncFinish := by
  intro s hlegal hopen sentinel
  have hexec := exec_encFinish hopen
  have after : ∀ {e}, sentinel = .ok e → exec .encFinish s =
      s.finish (encode .encFinish) (e.pin s.cfg.encCap >>= fun e' =>
        .ok { s with enc := e', res := Word.ofNat e'.byteCount }) := by
    intro e he
    have hw : s.enc.writeAll s.cfg.encCap sentinelIntervals = .ok e := he
    rw [hexec, hw, coded_bind_ok]
  have completes : ∀ {e}, sentinel = .ok e → e.pending ≠ 0xFFFFFFFF → e.flushed.length ≤ 8 * s.cfg.encCap →
      exec .encFinish s =
        .next { s with
          enc := { e with bits := e.flushed, pending := 0, isSealed := true }
          res := Word.ofNat ((e.flushed.length + 7) / 8) } := by
    intro e he hp hfit
    rw [after he, pin_ok hp hfit]
    rfl
  refine ⟨fun f hf => ⟨?_, records_of_error hexec ?_⟩,
    fun e he => ⟨fun hp => ?_, completes he, fun hp hfull hbits => ?_⟩, fun hroom => ?_⟩
  · exact writeAll_runs _ _ (fun iv hiv => (sentinelIntervals_valid iv hiv).checked) s.enc f hf
  · have hw : s.enc.writeAll s.cfg.encCap sentinelIntervals = .error f := hf
    rw [hw, coded_bind_error]
  · exact records_of_error (after he) (by rw [pin_pendingOvf hp, coded_bind_error])
  · obtain ⟨-, -, hkeeps⟩ := Encoder.writeAll_ok _ he
    refine records_of_error (after he) (f := ⟨.capacity, Word.ofNat (8 * s.cfg.encCap), .encoderRun⟩) ?_
    rw [pin_capacity hp (hkeeps hbits) hfull, coded_bind_error]
  · have hcap := encCap_le_of_legal hlegal
    have hlength : sentinelIntervals.length = 2 := rfl
    unfold Encoder.room at hroom
    obtain ⟨e, he, hweight⟩ := Encoder.writeAll_completes sentinelIntervals s.enc sentinelIntervals_valid
      (cap := s.cfg.encCap) (by unfold Encoder.weight; omega) (by omega)
    unfold Encoder.weight at hweight
    have hp : e.pending ≠ 0xFFFFFFFF := by
      intro hp
      have hnat : e.pending.toNat = 4294967295 := congrArg BitVec.toNat hp
      omega
    have hfit : e.bits.length + e.pending.toNat + 2 ≤ 8 * s.cfg.encCap := by omega
    exact ⟨e, he, hp, hfit, _, completes he hp (by rwa [flushed_length]), rfl, rfl⟩

/-! ### The pre-checks of LZ_ENCODE (R221) -/

theorem checkModel_ok {t : FreqTable} (h : t.usable) : t.checkModel = .ok () := by
  obtain ⟨hne, hbase⟩ := h
  unfold FreqTable.checkModel
  rw [if_neg (by simpa using hne)]
  exact if_neg (Nat.not_lt.2 hbase)

theorem checkModel_error {t : FreqTable} (h : ¬t.usable) : t.checkModel = .error (.precise .lzModel 0) := by
  unfold FreqTable.checkModel
  split
  · rfl
  · rename_i hne
    exact if_pos (Nat.lt_of_not_le fun hbase => h ⟨by simpa using hne, hbase⟩)

theorem checkSymbols_ok {t : FreqTable} {xs : List Word} (m : Nat) (h : ∀ x ∈ xs, ∃ w, (x, w) ∈ t) :
    checkSymbols t m xs = .ok () := by
  induction xs generalizing m with
  | nil => rfl
  | cons x rest ih =>
    unfold checkSymbols
    rw [if_pos (FreqTable.has_iff.2 (h x List.mem_cons_self))]
    exact ih (m + 1) fun y hy => h y (List.mem_cons_of_mem x hy)

theorem checkSymbols_error {t : FreqTable} {xs : List Word} (m : Nat) (h : ∃ x ∈ xs, ∀ w, (x, w) ∉ t) :
    ∃ k, checkSymbols t m xs = .error (.precise .lzSymbol (Word.ofNat k)) := by
  induction xs generalizing m with
  | nil => simp at h
  | cons x rest ih =>
    unfold checkSymbols
    by_cases hx : t.has x = true
    · rw [if_pos hx]
      obtain ⟨y, hy, habsent⟩ := h
      obtain ⟨w, hw⟩ := FreqTable.has_iff.1 hx
      rcases List.mem_cons.1 hy with rfl | hy
      · exact absurd hw (habsent w)
      · exact ih (m + 1) ⟨y, hy, habsent⟩
    · exact ⟨m, if_neg hx⟩

/-- The symbols LZ_ENCODE reads are the table's keys (R221). -/
def State.symbolsHeld (s : State) : Prop := ∀ m, m < s.arg0.toNat → ∃ w, (s.symInWord m, w) ∈ s.ft

theorem State.symbolsHeld_iff (s : State) : s.symbolsHeld ↔ ∀ x ∈ s.symbols s.arg0.toNat, ∃ w, (x, w) ∈ s.ft := by
  simp only [State.symbolsHeld, State.symbols, List.mem_map, List.mem_range, forall_exists_index, and_imp,
    forall_apply_eq_imp_iff₂]

section
variable {s : State}

/-- The pre-checks where the stream is not sealed: the count, the table, the symbols. -/
theorem lzPrecheck_of_open (hopen : s.enc.isSealed = false) (hcap : s.arg0.toNat ≤ s.cfg.symCap) :
    s.lzPrecheck = s.ft.checkModel >>= fun _ => checkSymbols s.ft 0 (s.symbols s.arg0.toNat) := by
  unfold State.lzPrecheck
  rw [checkSealed_ok hopen, coded_bind_ok]
  exact if_neg (Nat.not_lt.2 hcap)

theorem lzPrecheck_capacity (hopen : s.enc.isSealed = false) (hcap : s.cfg.symCap < s.arg0.toNat) :
    s.lzPrecheck = .error (.precise .capacity s.arg0) := by
  unfold State.lzPrecheck
  rw [checkSealed_ok hopen, coded_bind_ok]
  exact if_pos hcap

theorem lzPrecheck_ok (hopen : s.enc.isSealed = false) (hcap : s.arg0.toNat ≤ s.cfg.symCap) (hft : s.ft.usable)
    (hheld : s.symbolsHeld) : s.lzPrecheck = .ok () := by
  rw [lzPrecheck_of_open hopen hcap, checkModel_ok hft, coded_bind_ok]
  exact checkSymbols_ok 0 (s.symbolsHeld_iff.1 hheld)

/-- Where the table or a symbol is refused, the fault is not CAPACITY. -/
theorem lzPrecheck_error (hopen : s.enc.isSealed = false) (hcap : s.arg0.toNat ≤ s.cfg.symCap)
    (h : ¬(s.ft.usable ∧ s.symbolsHeld)) :
    ∃ code aux, s.lzPrecheck = .error (.precise code aux) ∧ code ≠ .capacity := by
  rw [lzPrecheck_of_open hopen hcap]
  by_cases hft : s.ft.usable
  · have hmissing : ∃ x ∈ s.symbols s.arg0.toNat, ∀ w, (x, w) ∉ s.ft := by
      by_contra hc
      push Not at hc
      exact h ⟨hft, s.symbolsHeld_iff.2 hc⟩
    obtain ⟨k, hk⟩ := checkSymbols_error 0 hmissing
    rw [checkModel_ok hft, coded_bind_ok, hk]
    exact ⟨_, _, rfl, by decide⟩
  · rw [checkModel_error hft]
    exact ⟨_, _, rfl, by decide⟩

end

/-! ### The stream of LZ_ENCODE (R235 to R241) -/

/-- The state LZ_ENCODE leaves where it completes with encoder `e`: one free value is drawn under ANY_VALID (R234). -/
def State.lzDone (s : State) (plan : LzPlan) (e : Encoder) : State :=
  { s with
    enc := e, lzN := s.arg0, res := Word.ofNat plan.tokens.length,
    freeCount := if s.cfg.lzSelect = .reference then s.freeCount else s.freeCount + 1 }

theorem lzDone_eq (s : State) (plan : LzPlan) (e : Encoder) :
    (({ ({ s with enc := e } : State).drawPlan with lzN := s.arg0 } : State).setRes (Word.ofNat plan.tokens.length)) =
      s.lzDone plan e := by
  unfold State.drawPlan State.lzDone State.setRes
  dsimp only
  cases s.cfg.lzSelect <;> rfl

/-- Settles O56: past its pre-checks LZ_ENCODE writes the trace of a plan that is valid whatever was drawn. -/
theorem lzEncodeCompletes : Obligations.LzEncodeCompletes := by
  intro s hlegal hopen hwf hft hcap hheld xs plan
  obtain ⟨hvalid, hspiral, hdummy⟩ := choosePlan_spec hlegal (Config.freePlan s.freeCount) s.ft xs
  have hlength : xs.length = s.arg0.toNat := by simp [xs]
  have hsymbols : ∀ x ∈ xs, ∃ w, (x, w) ∈ s.ft := s.symbolsHeld_iff.1 hheld
  obtain ⟨htrace, hintervals, hcount⟩ := lzTrace_ok hwf.ordered hft.2 hvalid hdummy (hlength ▸ word_lt s.arg0) hsymbols
  have hexec : exec .lzEncode s =
      s.finish (encode .lzEncode)
        (s.enc.writeAll s.cfg.encCap (lzIntervals s.ft xs plan) >>= fun e => .ok (s.lzDone plan e)) := by
    have htrace' : lzTrace s.ft (s.symbols (s.argNat .arg0)) (s.lzPlan (s.symbols (s.argNat .arg0))) =
        .ok (lzIntervals s.ft xs plan) := htrace
    simp only [exec, execLzEncode, lzPrecheck_ok hopen hcap hft hheld, coded_bind_ok, htrace', State.encodeTrace, bind_assoc,
      lzDone_eq]
    rfl
  refine ⟨fun href => ?_, hvalid, hspiral, hlength ▸ hcount, writesTrace_of hlegal hintervals hexec⟩
  simp only [plan, State.lzPlan, choosePlan, href]
  exact orDummy_eq _

end Sys2Proof.Machine
end

section
/-!
PROOFS. The aux value of CAPACITY (R104, R112): every narrowing that runs out of room names the bits of a full stream, and what
each command that narrows the encoder does leaves it no other CAPACITY but the pre-check of LZ_ENCODE (R221).
-/
namespace Sys2Proof.Machine

/-! ### The aux value of a full stream -/

/-- A CAPACITY fault names the number of bits a full stream has (R112). -/
def Raise.NamesFull (cap : Nat) (r : Raise) : Prop := r.code = .capacity → r.aux = Word.ofNat (8 * cap)

section
variable {cap : Nat}

theorem emitBit_namesFull {e : Encoder} (b : Bool) (hbits : e.bits.length ≤ 8 * cap) :
    Raises (Raise.NamesFull cap) (e.emitBit cap b) := by
  by_cases hfit : e.bits.length + 1 + e.pending.toNat ≤ 8 * cap
  · rw [emitBit_eq_ok.2 ⟨hfit, rfl⟩]
    exact raises_ok _
  · rw [emitBit_eq_error hbits (Nat.lt_of_not_le hfit)]
    exact raises_error fun _ => rfl

theorem addPending_namesFull (e : Encoder) : Raises (Raise.NamesFull cap) e.addPending := by
  unfold Encoder.addPending
  split
  · exact raises_error nofun
  · exact raises_ok _

theorem stepBits_namesFull {e : Encoder} (st : RenormStep) (hbits : e.bits.length ≤ 8 * cap) :
    Raises (Raise.NamesFull cap) (e.stepBits cap st) := by
  cases st with
  | lowHalf => exact emitBit_namesFull _ hbits
  | highHalf => exact emitBit_namesFull _ hbits
  | middle => exact addPending_namesFull e
  | done => exact raises_ok _

theorem renorm_namesFull (n : Nat) {e : Encoder} (hbits : e.bits.length ≤ 8 * cap) :
    Raises (Raise.NamesFull cap) (Encoder.renorm cap n e) := by
  induction n generalizing e with
  | zero => exact raises_ok _
  | succ n ih =>
    rw [renorm_succ]
    split
    · exact raises_ok _
    · refine raises_bind (stepBits_namesFull _ hbits) fun e' he' => ?_
      obtain ⟨-, -, -, hkeeps⟩ := stepBits_ok he'
      exact ih (hkeeps hbits)

theorem narrow_namesFull (iv : Interval) {e : Encoder} (hbits : e.bits.length ≤ 8 * cap) :
    Raises (Raise.NamesFull cap) (e.narrow cap iv) := by
  unfold Encoder.narrow
  refine raises_bind ?_ fun _ _ => ?_
  · unfold checkInterval
    split
    · exact raises_error nofun
    · exact raises_ok _
  · split
    · exact raises_ok _
    · exact renorm_namesFull _ hbits

theorem writeAll_namesFull (trace : List Interval) {e : Encoder} (hbits : e.bits.length ≤ 8 * cap) :
    Raises (Raise.NamesFull cap) (e.writeAll cap trace) := by
  induction trace generalizing e with
  | nil => exact raises_ok _
  | cons iv rest ih =>
    rw [writeAll_cons]
    refine raises_bind (narrow_namesFull iv hbits) fun e' he' => ?_
    obtain ⟨-, -, -, hkeeps⟩ := Encoder.narrow_ok he'
    exact ih (hkeeps hbits)

end

/-! ### What a command's CAPACITY names -/

/-- Where command `i` records CAPACITY, its aux value is the number of bits a full stream has. -/
def State.NamesFull (i : Instr) (s : State) : Prop :=
  ∀ t, exec i s = .next t → t.fault = .capacity → t.faultAux.toNat = 8 * s.cfg.encCap

section
variable {i : Instr} {s : State}

theorem toNat_full (hlegal : s.cfg.legal = true) : (Word.ofNat (8 * s.cfg.encCap)).toNat = 8 * s.cfg.encCap := by
  have hcap := encCap_le_of_legal hlegal
  exact ofNat_toNat_of_lt (by omega)

theorem namesFull_of_next {u : State} (h : exec i s = .next u) (hu : u.fault ≠ .capacity) : s.NamesFull i := by
  intro t ht hcap
  rw [h, Host.Outcome.next.injEq] at ht
  exact absurd (ht ▸ hcap) hu

theorem namesFull_of_faultedBy {code : FaultCode} {aux : Word} (hcode : code ≠ .capacity)
    (h : exec i s = .next (s.faultedBy i code aux)) : s.NamesFull i := namesFull_of_next h hcode

theorem namesFull_of_records {code : FaultCode} {aux : Word} (h : s.records i code aux)
    (hfull : code = .capacity → aux.toNat = 8 * s.cfg.encCap) : s.NamesFull i := by
  obtain ⟨u, hu, hcode, -, haux⟩ := h
  intro t ht hcap
  rw [hu, Host.Outcome.next.injEq] at ht
  rw [← ht, haux]
  exact hfull (by rw [← hcode, ht, hcap])

theorem namesFull_of_writesTrace {trace : List Interval} {done : Encoder → State} (hs : s.Inv)
    (h : s.writesTrace i trace done) (hdone : ∀ e, (done e).fault ≠ .capacity) : s.NamesFull i := by
  obtain ⟨hok, herror, -⟩ := h
  cases hw : s.enc.writeAll s.cfg.encCap trace with
  | ok e => exact namesFull_of_next (hok e hw) (hdone e)
  | error f =>
    refine namesFull_of_records (herror f hw).2 fun hcode => ?_
    rw [writeAll_namesFull trace hs.bits f hw hcode, toNat_full hs.legal]

end

/-- Every encoder command but ENC_RESET refuses a sealed stream (R110). -/
theorem encoderCommand_of_sealed {i : Instr} {s : State} (hi : isEncoderCommand i = true) (hreset : i ≠ .encReset)
    (h : s.enc.isSealed = true) : exec i s = .next (s.faultedBy i .isSealed 0) := by
  cases i with
  | encReset => exact absurd rfl hreset
  | encWriteEqual | encWritePart | encWritePartFt | encWriteFib | encFinish =>
    exact sealedStreamIsRefused s 0 0 false h _ (by simp)
  | encWriteCount W => exact sealedStreamIsRefused s W 0 false h _ (by simp)
  | encWriteSplit r extra => exact sealedStreamIsRefused s 0 r extra h _ (by simp)
  | _ => exact absurd hi Bool.false_ne_true

/-- Each encoder command, by its own statement: it completes, narrows by a trace, or records another fault. -/
theorem encoderCommand_namesFull {i : Instr} {s : State} (hs : s.Inv) (h0 : s.fault = .noFault)
    (hi : isEncoderCommand i = true) : s.NamesFull i := by
  have hl := hs.legal
  have hdone : ∀ e : Encoder, ({ s with enc := e } : State).fault ≠ .capacity := fun _ => by simp [h0]
  have written : ∀ {trace : List Interval}, s.writesTrace i trace (fun e => { s with enc := e }) → s.NamesFull i :=
    fun h => namesFull_of_writesTrace hs h hdone
  by_cases hreset : i = .encReset
  · rw [hreset]
    exact namesFull_of_next rfl (by simp [h0])
  by_cases hsealed : s.enc.isSealed = true
  · exact namesFull_of_faultedBy (by decide) (encoderCommand_of_sealed hi hreset hsealed)
  have hopen : s.enc.isSealed = false := Bool.eq_false_of_not_eq_true hsealed
  cases i with
  | encReset => exact absurd rfl hreset
  | encWriteEqual =>
    obtain ⟨hwrite, hrange⟩ := encWriteEqual s hl hopen
    rcases Nat.lt_or_ge s.arg0.toNat s.arg1.toNat with hlt | hge
    · exact written (hwrite hlt)
    · exact namesFull_of_faultedBy (by decide) (hrange hge)
  | encWritePart =>
    obtain ⟨hwrite, hbad⟩ := encWritePart s hl hopen
    by_cases hinvalid : s.arg2 = 0 ∨ 0x40000000 < s.arg2.toNat ∨ s.arg2.toNat < s.arg0.toNat + s.arg1.toNat
    · exact namesFull_of_faultedBy (by decide) (hbad hinvalid)
    · exact written (hwrite (word_ne_zero_pos fun h => hinvalid (.inl h)) (Nat.le_of_not_lt fun h => hinvalid (.inr (.inl h)))
        (Nat.le_of_not_lt fun h => hinvalid (.inr (.inr h)))).1
  | encWritePartFt =>
    obtain ⟨hwrite, habsent, hlarge⟩ := encWritePartFt s hl hopen hs.table
    by_cases hheld : ∃ w, (s.arg0, w) ∈ s.ft
    · obtain ⟨w, hw⟩ := hheld
      rcases Nat.lt_or_ge 0x40000000 s.ft.total with hlt | hge
      · exact namesFull_of_faultedBy (by decide) (hlarge w hw hlt)
      · exact written (hwrite w hw hge)
    · exact namesFull_of_faultedBy (by decide) (habsent (not_exists.1 hheld))
  | encWriteFib =>
    obtain ⟨hwrite, hzero⟩ := encWriteFib s hl hopen
    by_cases hz : s.arg0 = 0
    · exact namesFull_of_faultedBy (by decide) (hzero hz)
    · exact written (hwrite hz)
  | encWriteCount W =>
    obtain ⟨hwrite, hbad⟩ := encWriteCount s W hl hopen
    by_cases hrange : W < 1 ∨ 32 < W ∨ 2 ^ W ≤ s.arg0.toNat
    · exact namesFull_of_faultedBy (by decide) (hbad hrange)
    · obtain ⟨k, -, -, hk⟩ := hwrite (by omega) (by omega) (by omega)
      exact written hk
  | encWriteSplit r extra =>
    obtain ⟨hwrite, hmode, hdomain⟩ := encWriteSplit s r extra hl hopen
    rcases Nat.lt_or_ge r 3 with hr | hr
    · by_cases hbad : (extra = true ∧ s.arg1 = 0xFFFFFFFF) ∨ s.arg1.toNat + extra.toNat < s.arg0.toNat
      · exact namesFull_of_faultedBy (by decide) (hdomain hr hbad)
      · exact written (hwrite hr (fun h => hbad (.inl h)) (Nat.le_of_not_lt fun h => hbad (.inr h)))
    · exact namesFull_of_faultedBy (by decide) (hmode hr)
  | encFinish =>
    obtain ⟨herror, hok, -⟩ := encFinish s hl hopen
    cases hw : s.enc.writeAll s.cfg.encCap sentinelIntervals with
    | error f =>
      refine namesFull_of_records (herror f hw).2 fun hcode => ?_
      rw [writeAll_namesFull _ hs.bits f hw hcode, toNat_full hl]
    | ok e =>
      obtain ⟨hovf, hfits, hfull⟩ := hok e hw
      by_cases hp : e.pending = 0xFFFFFFFF
      · exact namesFull_of_records (hovf hp) nofun
      · rcases Nat.lt_or_ge (8 * s.cfg.encCap) e.flushed.length with hlt | hge
        · exact namesFull_of_records (hfull hp hlt hs.bits) fun _ => toNat_full hl
        · exact namesFull_of_next (hfits hp hge) (by simp [h0])
  | _ => exact absurd hi Bool.false_ne_true

/-- LZ_ENCODE within the symbol capacity: its other pre-checks raise no CAPACITY (R221). -/
theorem lzEncode_namesFull {s : State} (hs : s.Inv) (h0 : s.fault = .noFault) (hcap : s.arg0.toNat ≤ s.cfg.symCap) :
    s.NamesFull .lzEncode := by
  cases hopen : s.enc.isSealed with
  | true => exact namesFull_of_faultedBy (by decide) (lzEncode_of_sealed hopen)
  | false =>
    by_cases hmodel : s.ft.usable ∧ s.symbolsHeld
    · obtain ⟨-, -, -, -, hwrite⟩ := lzEncodeCompletes s hs.legal hopen hs.table hmodel.1 hcap hmodel.2
      exact namesFull_of_writesTrace hs hwrite fun e => by simp [h0]
    · obtain ⟨code, aux, hpre, hcode⟩ := lzPrecheck_error hopen hcap hmodel
      exact namesFull_of_faultedBy hcode (exec_lzEncode_of_error hpre)

/-- LZ_ENCODE beyond the symbol capacity records the count, precisely, or that the stream is sealed (R221). -/
theorem lzEncode_beyond {s t : State} (hcap : s.cfg.symCap < s.arg0.toNat) (h : exec .lzEncode s = .next t) :
    t = s.faultedBy .lzEncode .isSealed 0 ∨ t = s.faultedBy .lzEncode .capacity s.arg0 := by
  cases hopen : s.enc.isSealed with
  | true =>
    rw [lzEncode_of_sealed hopen, Host.Outcome.next.injEq] at h
    exact .inl h.symm
  | false =>
    rw [exec_lzEncode_of_error (lzPrecheck_capacity hopen hcap), Host.Outcome.next.injEq] at h
    exact .inr h.symm

/-- Settles O34: the emission rules, and the aux value of CAPACITY from what each command does. -/
theorem encoderCapacityAux : Obligations.EncoderCapacityAux := by
  refine ⟨fun e cap b => ⟨fun hfit => emitBit_eq_ok.2 ⟨hfit, rfl⟩, fun hbits hfull => emitBit_eq_error hbits hfull,
    addPending_ok, addPending_eq_error⟩, fun i s t hs h0 h hcap => ⟨fun hi => ?_, ?_, ?_⟩⟩
  · exact encoderCommand_namesFull hs h0 hi t h hcap
  · rintro rfl hle
    exact lzEncode_namesFull hs h0 hle t h hcap
  · rintro rfl hlt
    rcases lzEncode_beyond hlt h with rfl | ht
    · exact absurd (show FaultCode.isSealed = .capacity from hcap) (by decide)
    · exact ht

end Sys2Proof.Machine
end

section
/-!
PROOFS. A finished stream and the decoder that is loaded with it: the flush ends in bits that hold the final code point (R109), and
along them the decoder consumes what the encoder wrote (R126, R157).
-/
namespace Sys2Proof.Machine

/-- Where the end of the flush succeeds: the last bits are emitted and the bounds stay (R109). -/
theorem pin_eq_ok {cap : Nat} {e f : Encoder} (h : e.pin cap = .ok f) :
    f = { e with bits := e.flushed, pending := 0, isSealed := true } := by
  unfold Encoder.pin at h
  obtain ⟨e1, h1, h⟩ := (coded_bind_eq_ok _ _ _).1 h
  obtain ⟨e2, h2, h⟩ := (coded_bind_eq_ok _ _ _).1 h
  obtain ⟨hne, rfl⟩ := addPending_eq_ok.1 h1
  obtain ⟨-, rfl⟩ := emitBit_eq_ok.1 h2
  rw [← Except.ok.inj h]
  simp only [pending_succ hne, Encoder.flushed]

/-- A finished stream is the encoder's after the sentinel, with the bits that pin its interval. -/
theorem flush_eq_ok {cap : Nat} {e f : Encoder} (h : e.flush cap = .ok f) :
    ∃ g, e.writeAll cap sentinelIntervals = .ok g ∧ f = { g with bits := g.flushed, pending := 0, isSealed := true } := by
  rw [flush_eq] at h
  obtain ⟨g, hg, h⟩ := (coded_bind_eq_ok _ _ _).1 h
  exact ⟨g, hg, pin_eq_ok h⟩

/-- Settles O45: the flushed bits hold the code point of every encoder on the way (`mirrors_writeAll`), so the loaded decoder
mirrors them all. -/
theorem primitiveRoundTrip : Obligations.PrimitiveRoundTrip := by
  intro cap trace e f inp nbytes hwrite hflush hfeed
  obtain ⟨g, hsentinel, rfl⟩ := flush_eq_ok hflush
  have he : e.Settled := (Encoder.writeAll_ok trace hwrite).1 encoder_reset_settled
  have hg : g.Settled := (Encoder.writeAll_ok sentinelIntervals hsentinel).1 he
  obtain ⟨heB, hlast⟩ := mirrors_writeAll (inp := inp) sentinelIntervals he hsentinel (flush_holds hg g.lastBit rfl)
  obtain ⟨-, hfirst⟩ := mirrors_writeAll (inp := inp) trace encoder_reset_settled hwrite heB
  obtain ⟨d, hd, hmd⟩ := hfirst _ (load_mirrors inp nbytes hfeed)
  obtain ⟨d', hd', hmd'⟩ := hlast d hmd
  exact ⟨d, d', hd, hmd.low, hmd.high, sentinelIntervals_eq ▸ hd', hmd'.low, hmd'.high⟩

end Sys2Proof.Machine
end

section
/-!
PROOFS. The commands of the range decoder (R150 to R157, R211): what each answers between settled bounds, and its precise faults.
-/
namespace Sys2Proof.Machine

/-- A command whose computation raises a precise fault leaves the record and nothing else (R303). -/
theorem finish_precise (i : Instr) (s : State) (code : FaultCode) (aux : Word) :
    s.finish (encode i) (.error (.precise code aux)) = .next (s.faultedBy i code aux) := rfl

/-- A number below 2^32 is the value of a word (R12). -/
theorem exists_word {n : Nat} (h : n < 4294967296) : ∃ w : Word, w.toNat = n := ⟨Word.ofNat n, ofNat_toNat_of_lt h⟩

/-! ### DEC_RESET (R141, R150) -/

/-- The bits of the input as a sequence. -/
def Input.bits (inp : Input) (inLen : Nat) : List Bool := (List.range (8 * inLen)).map (inp.bit inLen)

theorem getD_bits (inp : Input) (inLen p : Nat) : (inp.bits inLen).getD p false = inp.bit inLen p := by
  unfold Input.bits
  by_cases hp : p < 8 * inLen
  · simp [List.getD_eq_getElem?_getD, hp]
  · have hbit : inp.bit inLen p = false := if_neg hp
    simp [List.getD_eq_getElem?_getD, hp, hbit]

/-- The loaded decoder: the whole range, and the first 32 bits of the input as its value, the first of them on top. -/
theorem load_spec (inp : Input) (n : Word) :
    ∃ v : Word, Decoder.load inp n = ⟨0, 0xFFFFFFFF, v, 32, n⟩ ∧ ∀ k, k < 32 → v.getLsbD (31 - k) = inp.bit n.toNat k := by
  obtain ⟨hvalue, hpos, hlow, hhigh, hlen⟩ := preload_spec (B := inp.bits n.toNat) inp 32
    { low := 0, high := 0xFFFFFFFF, value := 0, pos := 0, inLen := n } (Nat.le_refl 32) rfl
    (fun p => (getD_bits inp n.toNat p).symm)
  unfold Decoder.load
  generalize Decoder.preload inp 32 _ = d at hvalue hpos hlow hhigh hlen
  refine ⟨d.value, ?_, fun k hk => ?_⟩
  · calc d = ⟨d.low, d.high, d.value, d.pos, d.inLen⟩ := rfl
      _ = ⟨0, 0xFFFFFFFF, d.value, 32, n⟩ := by rw [hlow, hhigh, hpos, hlen]
  · have hk' := testBit_bitsAt (inp.bits n.toNat) 0 hk
    rw [Nat.zero_add, getD_bits] at hk'
    rw [BitVec.getLsbD, hvalue]
    exact hk'

/-- Every bit within `DEC_INLEN` lies in a byte below the capacity (R31, R52). -/
theorem input_bit_of_le {s : State} {n : Nat} (h : n ≤ s.cfg.inCap) (k : Nat) :
    s.input.bit n k = if k < 8 * n then (s.mem.readByte (0x20000 + k / 8)).getLsbD (7 - k % 8) else false := by
  refine ite_congr rfl (fun hk => ?_) (fun _ => rfl)
  have hbyte : s.input.byte (k / 8) = s.mem.readByte (0x20000 + k / 8) :=
    if_pos (show k / 8 < s.cfg.inCap by omega)
  rw [hbyte]

/-- Settles O36: the loaded value is the number its 32 bits are written as. -/
theorem decReset : Obligations.DecReset := by
  intro s
  refine ⟨fun hle => ?_, fun hlt => congrArg (s.finish _) (if_pos hlt)⟩
  obtain ⟨v, hload, hbits⟩ := load_spec s.input s.arg0
  refine ⟨v, ?_, fun k hk => (hbits k hk).trans (input_bit_of_le hle k)⟩
  rw [← hload]
  exact congrArg (s.finish _) (if_neg (Nat.not_lt.2 hle))

/-! ### DEC_PEEK and DEC_NARROW (R142, R143) -/

theorem peek_error {base : Nat} (d : Decoder) (h : base = 0 ∨ 1073741824 < base) :
    d.peek base = .error (.precise .badInterval 0) := if_pos h

/-- Settles O37: the formula is `Decoder.peek_ok`'s. -/
theorem decPeek : Obligations.DecPeek := by
  intro s hd
  refine ⟨fun hpos hmax => ?_, fun hbad => ?_⟩
  · obtain ⟨n, hpeek, hform, hlt⟩ := Decoder.peek_ok hd hpos hmax
    obtain ⟨v, rfl⟩ := exists_word (hlt.trans (word_lt s.arg0))
    refine ⟨v, ?_, hlt, hform⟩
    have hpeek' : s.dec.peek (s.argNat .arg0) = .ok v.toNat := hpeek
    simp only [exec, execDecPeek, hpeek', coded_bind_ok, finish_ok, State.setRes, Word.ofNat, BitVec.ofNat_toNat,
      BitVec.setWidth_eq]
  · have hpeek : s.dec.peek (s.argNat .arg0) = .error (.precise .badInterval 0) :=
      peek_error s.dec (hbad.imp_left (congrArg BitVec.toNat))
    simp only [exec, execDecPeek, hpeek, coded_bind_error, finish_precise]

/-- The Interval of length 0 is the defined no-op (R143). -/
theorem Decoder.narrow_of_length_zero {iv : Interval} (inp : Input) (d : Decoder) (hc : checkInterval iv = .ok ())
    (h : iv.length = 0) : d.narrow inp iv = .ok d := by
  unfold Decoder.narrow
  rw [hc, coded_bind_ok, if_pos h]

/-- A valid Interval is consumed exactly where the value lies between the bounds it selects (R142, R143). -/
theorem Decoder.narrow_eq_ite {d : Decoder} (inp : Input) {iv : Interval} (hd : d.Settled) (hv : iv.Valid) :
    d.narrow inp iv =
      if (narrowLow d.low d.high iv).toNat ≤ d.value.toNat ∧ d.value.toNat ≤ (narrowHigh d.low d.high iv).toNat then
        .ok (Decoder.renorm inp renormFuel (d.select iv))
      else
        .error (.precise .narrowMismatch
          (Word.ofNat (((d.value.toNat - d.low.toNat + 1) * iv.base - 1) / rangeWidth d.low d.high))) := by
  obtain ⟨v, hpeek, hform, -⟩ := Decoder.peek_ok hd hv.base_pos hv.base_le
  have hiff := Decoder.peek_contains hd hv
  rw [← hform] at hiff ⊢
  by_cases hin : iv.lower ≤ v ∧ v < iv.lower + iv.length
  · rw [if_pos (hiff.1 hin)]
    exact Decoder.narrow_completes hv hpeek hin.1 hin.2
  · rw [if_neg (fun h => hin (hiff.2 h))]
    unfold Decoder.narrow
    rw [hv.checked, coded_bind_ok, if_neg (Nat.pos_iff_ne_zero.1 hv.length_pos), hpeek, coded_bind_ok]
    exact if_pos (by omega)

/-- DEC_NARROW is `DecNarrow` of its operand (R153). -/
theorem exec_decNarrow (s : State) :
    exec .decNarrow s =
      s.finish (encode .decNarrow) (s.dec.narrow s.input s.argInterval >>= fun d => .ok { s with dec := d }) := rfl

/-- Settles O38: the check of R101, the no-op, and `Decoder.narrow_eq_ite` with the bounds written out. -/
theorem decNarrow : Obligations.DecNarrow := by
  intro s hd
  refine ⟨fun hbad => ?_, fun hpos hmax hfits => ⟨fun hzero => ?_, fun hlen => ?_⟩⟩
  · have hc : checkInterval s.argInterval = .error (.precise .badInterval 0) :=
      checkInterval_error (hbad.imp_left (congrArg BitVec.toNat))
    rw [exec_decNarrow, Decoder.narrow, hc]
    rfl
  · have hc : checkInterval s.argInterval = .ok () := (checkInterval_ok _).2 ⟨hpos, hmax, hfits⟩
    rw [exec_decNarrow, Decoder.narrow_of_length_zero s.input s.dec hc (congrArg BitVec.toNat hzero)]
    rfl
  · have hv : s.argInterval.Valid := ⟨hpos, hmax, hlen, hfits⟩
    obtain ⟨hlo, hhi, -⟩ := narrow_bounds hd.width hv
    have hnarrow := Decoder.narrow_eq_ite s.input hd hv
    rw [hlo, hhi] at hnarrow
    intro R lo hi
    refine ⟨fun hin => ?_, fun hout => ?_⟩
    · rw [exec_decNarrow, hnarrow.trans (if_pos hin)]
      rfl
    · rw [exec_decNarrow, hnarrow.trans (if_neg hout)]
      rfl

/-! ### Commands that deliver a number (R22, R151, R155, R156, R211) -/

/-- Command `i` delivers what the read `x` answers. -/
def State.Delivers (i : Instr) (x : Coded (Nat × Decoder)) (s : State) : Prop :=
  exec i s = s.finish (encode i) (s.deliver x)

section
variable (s : State)

theorem decReadEqual_delivers : s.Delivers .decReadEqual (s.dec.uniform s.input (s.argNat .arg0)) := rfl

theorem decReadFib_delivers : s.Delivers .decReadFib (s.dec.fib s.input) := rfl

theorem decReadCount_delivers (W : Nat) : s.Delivers (.decReadCount W) (s.dec.count s.input W) := rfl

theorem decReadSplit_delivers (r : Nat) (extra : Bool) :
    s.Delivers (.decReadSplit r extra) (s.argPolicy r extra >>= fun p => s.dec.split s.input p extra.toNat) := by
  unfold State.Delivers State.deliver
  rw [bind_assoc]
  rfl

end

section
variable {i : Instr} {x : Coded (Nat × Decoder)} {s : State}

theorem State.Delivers.completes (h : s.Delivers i x) {v : Word} {d : Decoder} (hx : x = .ok (v.toNat, d)) :
    exec i s = .next { s with dec := d, res := v } := by
  rw [h, hx]
  simp only [State.deliver, coded_bind_ok, finish_ok, State.setRes, Word.ofNat, BitVec.ofNat_toNat, BitVec.setWidth_eq]

theorem State.Delivers.faultedBy (h : s.Delivers i x) {code : FaultCode} {aux : Word}
    (hx : x = .error (.precise code aux)) : exec i s = .next (s.faultedBy i code aux) := by
  rw [h, hx]
  rfl

end

theorem Decoder.count_error {W : Nat} (inp : Input) (d : Decoder) (h : W < 1 ∨ 32 < W) :
    d.count inp W = .error (.precise .countRange 0) := if_pos h

/-- Settles O39: `Decoder.uniform_spec`, and the check of the count before it. -/
theorem decReadEqual : Obligations.DecReadEqual := by
  intro s hd
  have hread := decReadEqual_delivers s
  refine ⟨fun hpos => ?_, fun hzero => hread.faultedBy (if_pos (congrArg BitVec.toNat hzero))⟩
  have hmax := word_lt s.arg0
  obtain ⟨n, d, hx, hlt, htrace, -, -⟩ := Decoder.uniform_spec (inp := s.input) hd hpos (by omega)
  obtain ⟨v, rfl⟩ := exists_word (hlt.trans hmax)
  exact ⟨v, d, hlt, htrace, hread.completes hx⟩

/-- Settles O42: `Decoder.count_spec`, and the check of the width before it. -/
theorem decReadCount : Obligations.DecReadCount := by
  intro s W hd
  have hread := decReadCount_delivers s W
  refine ⟨fun h0 h1 => ?_, fun hbad => hread.faultedBy (Decoder.count_error s.input s.dec hbad)⟩
  obtain ⟨n, k, d, hx, hlt, hk, htrace, -, -⟩ := Decoder.count_spec (inp := s.input) hd h0 h1
  obtain ⟨v, rfl⟩ := exists_word (hlt.trans_le (pow_le_pow32 h1))
  exact ⟨v, k, d, hlt, hk.1, hk.2, htrace, hread.completes hx⟩

/-- Settles O41: a code the input continues with is read (`Decoder.fib_of_narrowAll`), and a read that answers has consumed one
(`Decoder.fib_cases`). -/
theorem decReadFib : Obligations.DecReadFib := by
  intro s hd
  have hread := decReadFib_delivers s
  refine ⟨fun n d hn htrace => ?_, fun hno => ?_⟩
  · exact hread.completes (Decoder.fib_of_narrowAll hd (word_ne_zero_pos hn) (Nat.le_of_lt_succ (word_lt n)) htrace)
  · rcases Decoder.fib_cases (inp := s.input) hd with hx | ⟨n, d, -, hpos, hmax, htrace⟩
    · refine ⟨s.takeFault (encode .decReadFib) corruptFib, ?_, rfl, rfl, rfl⟩
      rw [hread, hx]
      rfl
    · obtain ⟨v, rfl⟩ := exists_word (Nat.lt_succ_of_le hmax)
      exact absurd htrace (hno v d (fun hv => by simp [hv] at hpos))

/-! ### DEC_READ_PART_FT (R154) -/

/-- A symbol read over the table's total: the key that owns the peek value, whose Interval is consumed (R154, R183). -/
theorem Decoder.symbol_spec {inp : Input} {d : Decoder} (hd : d.Settled) {t : FreqTable} (ht : t.Ordered) (hne : t ≠ [])
    (hmax : t.total ≤ 1073741824) :
    ∃ key w d', (key, w) ∈ t ∧ d.narrow inp ⟨t.cum key, w.toNat, t.total⟩ = .ok d' ∧
      d.symbol inp t t.total = .ok (key, d') := by
  obtain ⟨v, hpeek, -, hlt⟩ := Decoder.peek_ok hd (FreqTable.total_pos ht hne) hmax
  obtain ⟨key, w, -, hmem, hlo, hhi⟩ := FreqTable.find?_spec ht hlt
  have hnarrow := Decoder.narrow_completes (inp := inp) (FreqTable.interval_valid ht hmem (Nat.le_refl _) hmax) hpeek hlo hhi
  exact ⟨key, w, _, hmem, hnarrow, Decoder.symbol_of_narrow hd ht hmem hnarrow⟩

section
variable {s : State}

/-- Past the check of the table DEC_READ_PART_FT is the symbol read over the total. -/
theorem exec_decReadPartFt (hne : s.ft ≠ []) :
    exec .decReadPartFt s = s.finish (encode .decReadPartFt)
      (s.dec.symbol s.input s.ft s.ft.total >>= fun a => .ok { s with dec := a.2, res := a.1 }) := by
  have hempty : ¬s.ft.isEmpty = true := by simpa using hne
  exact congrArg (s.finish _) (if_neg hempty)

theorem decReadPartFt_completes (hne : s.ft ≠ []) {key : Word} {d : Decoder}
    (h : s.dec.symbol s.input s.ft s.ft.total = .ok (key, d)) :
    exec .decReadPartFt s = .next { s with dec := d, res := key } := by
  rw [exec_decReadPartFt hne, h]
  rfl

end

/-- Settles O40: `Decoder.symbol_spec`; the empty table is checked first, and the peek refuses a large total. -/
theorem decReadPartFt : Obligations.DecReadPartFt := by
  intro s hd hwf
  refine ⟨fun hne hmax => ?_, fun hempty => ?_, fun hlarge => ?_⟩
  · obtain ⟨key, w, d, hmem, hnarrow, hx⟩ := Decoder.symbol_spec (inp := s.input) hd hwf.ordered hne hmax
    exact ⟨key, w, d, hmem, hnarrow, decReadPartFt_completes hne hx⟩
  · exact congrArg (s.finish _) (if_pos (List.isEmpty_iff.2 hempty))
  · have hne : s.ft ≠ [] := fun h => by simp [h] at hlarge
    rw [exec_decReadPartFt hne, Decoder.symbol, peek_error s.dec (.inr hlarge)]
    rfl

/-! ### Reads and writes (R157) -/

/-- Settles O44: each read's own `_of_narrowAll` lemma, delivered by its command. -/
theorem readsMirrorWrites : Obligations.ReadsMirrorWrites := by
  intro s d hd
  refine ⟨fun c hc htrace => ?_, fun n W k h0 h1 hn hlo hhi htrace => ?_, fun v r extra hr hextra hv htrace => ?_,
    fun key w hwf hmem _ hnarrow => ?_⟩
  · exact (decReadEqual_delivers s).completes (Decoder.uniform_of_narrowAll hd hc htrace)
  · exact (decReadCount_delivers s W).completes (Decoder.count_of_narrowAll hd h0 h1 hn ⟨hlo, hhi⟩ htrace)
  · obtain ⟨mode, rfl, hp⟩ := argPolicy_ok hr hextra
    refine (decReadSplit_delivers s mode.number extra).completes ?_
    rw [hp, coded_bind_ok]
    exact Decoder.split_of_narrowAll hd _ (bool_toNat_le extra) hv htrace
  · exact decReadPartFt_completes (List.ne_nil_of_mem hmem) (Decoder.symbol_of_narrow hd hwf.ordered hmem hnarrow)

end Sys2Proof.Machine
end

section
/-!
PROOFS. The commands of the frequency table (R185 to R192): the check of the key first, then the table left or the value answered.
-/
namespace Sys2Proof.Machine

/-! ### The key a command names -/

theorem FreqTable.requireWeight_ok {t : FreqTable} (ht : t.Ordered) {key w : Word} (h : (key, w) ∈ t) :
    t.requireWeight key = .ok w := by
  rw [FreqTable.requireWeight, (FreqTable.weight?_eq_some ht).2 h]

theorem FreqTable.requireWeight_error {t : FreqTable} {key : Word} (h : ∀ w, (key, w) ∉ t) :
    t.requireWeight key = .error (.precise .ftKey key) := by
  rw [FreqTable.requireWeight, FreqTable.weight?_eq_none.2 h]

/-- A command that needs the weight of its key goes on with the one the table holds. -/
theorem finish_requireWeight_of_mem {s : State} (ht : s.ft.Ordered) {key w : Word} (h : (key, w) ∈ s.ft) (i : Instr)
    (f : Word → Coded State) :
    s.finish (encode i) (s.ft.requireWeight key >>= f) = s.finish (encode i) (f w) := by
  rw [FreqTable.requireWeight_ok ht h, coded_bind_ok]

/-- A command that needs the weight of its key refuses an absent one. -/
theorem finish_requireWeight_of_absent {s : State} {key : Word} (h : ∀ w, (key, w) ∉ s.ft) (i : Instr)
    (f : Word → Coded State) :
    s.finish (encode i) (s.ft.requireWeight key >>= f) = .next (s.faultedBy i .ftKey key) := by
  rw [FreqTable.requireWeight_error h, coded_bind_error, finish_precise]

/-! ### FT_INSERT (R186) -/

theorem ftInsert_faults {s : State} {code : FaultCode} {aux : Word}
    (h : s.ft.insertKey s.cfg.ftCap s.arg0 s.arg1 = .error (.precise code aux)) :
    exec .ftInsert s = .next (s.faultedBy .ftInsert code aux) := by
  rw [exec, execFtInsert, h, coded_bind_error, finish_precise]

theorem ftInsert_completes {s : State} {t : FreqTable} (h : s.ft.insertKey s.cfg.ftCap s.arg0 s.arg1 = .ok t) :
    exec .ftInsert s = .next { s with ft := t } := by
  rw [exec, execFtInsert, h, coded_bind_ok, finish_ok]

/-- A new key joins the entries, which all stay. -/
theorem FreqTable.mem_set_fresh {t : FreqTable} (ht : t.Ordered) {key weight : Word} (h : ∀ w, (key, w) ∉ t)
    (c : Word × Word) : c ∈ t.set key weight ↔ c = (key, weight) ∨ c ∈ t := by
  have hne : c ∈ t → c.1 ≠ key := by
    rintro hc rfl
    exact h c.2 hc
  rw [FreqTable.mem_set ht, and_iff_left_of_imp hne]

/-- Settles O48: each check of `FreqTable.insertKey` is reached past those before it, and past all four the key is set afresh. -/
theorem ftInsert : Obligations.FtInsert := by
  intro s hwf
  refine ⟨fun hheld => ftInsert_faults (if_pos (FreqTable.has_iff.2 hheld)), fun habsent => ?_⟩
  have hkey : ¬s.ft.has s.arg0 = true := fun h => not_exists.2 habsent (FreqTable.has_iff.1 h)
  refine ⟨fun hzero => ?_, fun hw hfull => ?_, fun hw hroom hlarge => ?_, fun hw hroom hfits => ?_⟩
  · exact ftInsert_faults ((if_neg hkey).trans (if_pos hzero))
  · exact ftInsert_faults ((if_neg hkey).trans ((if_neg hw).trans (if_pos hfull)))
  · exact ftInsert_faults ((if_neg hkey).trans ((if_neg hw).trans ((if_neg hroom).trans (if_pos hlarge))))
  · have hset : s.ft.insertKey s.cfg.ftCap s.arg0 s.arg1 = .ok (s.ft.set s.arg0 s.arg1) :=
      (if_neg hkey).trans ((if_neg hw).trans ((if_neg hroom).trans (if_neg (Nat.not_lt.2 hfits))))
    obtain ⟨htotal, hlength⟩ := FreqTable.set_fresh (weight := s.arg1) habsent
    exact ⟨_, ftInsert_completes hset, FreqTable.wf_insertKey hwf hset, FreqTable.mem_set_fresh hwf.ordered habsent, hlength,
      htotal⟩

/-! ### FT_REMOVE, FT_INCREASE and FT_CLEAR (R185, R187, R188) -/

/-- Settles O49: past the check of the key the table loses its entry (`FreqTable.delete_present`) or gains 1 in its weight
(`FreqTable.wf_increase`). -/
theorem ftRemoveIncreaseClear : Obligations.FtRemoveIncreaseClear := by
  intro s hwf
  refine ⟨fun habsent => ⟨?_, ?_⟩, fun w hw => ⟨?_, fun hfull => ?_, fun hroom => ?_⟩, rfl⟩
  · exact finish_requireWeight_of_absent habsent .ftRemove _
  · exact finish_requireWeight_of_absent habsent .ftIncrease _
  · obtain ⟨htotal, -⟩ := FreqTable.delete_present hwf.ordered hw
    exact ⟨_, finish_requireWeight_of_mem hwf.ordered hw .ftRemove _, FreqTable.wf_delete hwf hw,
      fun c => FreqTable.mem_delete, Nat.eq_sub_of_add_eq htotal⟩
  · exact (finish_requireWeight_of_mem hwf.ordered hw .ftIncrease _).trans (congrArg (s.finish _) (if_pos hfull))
  · obtain ⟨hkept, htotal⟩ := FreqTable.wf_increase hwf hw hroom
    exact ⟨_, (finish_requireWeight_of_mem hwf.ordered hw .ftIncrease _).trans (congrArg (s.finish _) (if_neg hroom)), hkept,
      fun c => FreqTable.mem_set hwf.ordered, htotal⟩

/-! ### FT_CUM, FT_WEIGHT and FT_TOTAL (R189, R191, R192) -/

/-- Settles O50: the sums are at most the total, so that `RES` holds them whole. -/
theorem ftQueries : Obligations.FtQueries := by
  intro s hwf
  have htotal : s.ft.total < 4294967296 := Nat.lt_succ_of_le hwf.total_le
  have hcum : s.ft.cum s.arg0 < 4294967296 := Nat.lt_of_le_of_lt (FreqTable.cum_le_total s.ft s.arg0) htotal
  refine ⟨fun w hw => ⟨⟨Word.ofNat (s.ft.cum s.arg0), ?_, ofNat_toNat_of_lt hcum⟩, ?_⟩, fun habsent => ⟨?_, ?_⟩,
    ⟨Word.ofNat s.ft.total, rfl, ofNat_toNat_of_lt htotal⟩⟩
  · exact finish_requireWeight_of_mem hwf.ordered hw .ftCum _
  · exact finish_requireWeight_of_mem hwf.ordered hw .ftWeight _
  · exact finish_requireWeight_of_absent habsent .ftCum _
  · exact finish_requireWeight_of_absent habsent .ftWeight _

/-! ### FT_FIND (R183, R190) -/

theorem ftFind_completes {s : State} {key : Word} (h : s.ft.find? s.arg0.toNat = some key) :
    exec .ftFind s = .next { s with res := key } := by
  rw [exec, execFtFind, State.argNat, State.arg, h]
  rfl

theorem ftFind_faults {s : State} (h : s.ft.find? s.arg0.toNat = none) :
    exec .ftFind s = .next (s.faultedBy .ftFind .ftKey s.arg0) := by
  rw [exec, execFtFind, State.argNat, State.arg, h, finish_precise]

/-- Settles O51: a position below the total has an owner (`FreqTable.find?_spec`), the only one (`FreqTable.owner_unique`). -/
theorem ftFind : Obligations.FtFind := by
  intro s hwf
  refine ⟨fun hlt => ?_, fun hge => ftFind_faults (FreqTable.find?_eq_none.2 hge)⟩
  obtain ⟨key, w, hfind, hmem, hlo, hhi⟩ := FreqTable.find?_spec hwf.ordered hlt
  exact ⟨key, w, ftFind_completes hfind, hmem, hlo, hhi, fun key' w' hmem' hlo' hhi' =>
    FreqTable.owner_unique hwf.ordered hmem' hmem hlo' hhi' hlo hhi⟩

end Sys2Proof.Machine
end

section
/-!
PROOFS. Split integers: DEC_READ_SPLIT (R203, R211) and the policy chosen for a list of values (R205).
-/
namespace Sys2Proof.Machine

/-! ### DEC_READ_SPLIT (R203, R211) -/

/-- The domain of an accepted policy operand holds only words: this is what the refusal of R211 is for. -/
theorem argPolicy_domain_lt {s : State} {extra : Bool} (h : ¬(extra = true ∧ s.arg1 = 0xFFFFFFFF)) :
    s.arg1.toNat + extra.toNat < 4294967296 := by
  have hmax := word_lt s.arg1
  cases extra with
  | false => simpa using hmax
  | true =>
    have htop : s.arg1.toNat ≠ 4294967295 := fun hc => h ⟨rfl, BitVec.eq_of_toNat_eq hc⟩
    simp only [Bool.toNat_true]
    omega

/-- Settles O43: the policy operand is checked first, and an accepted policy is read by `Decoder.split_spec`. -/
theorem decReadSplit : Obligations.DecReadSplit := by
  intro s r extra hd
  have hread := decReadSplit_delivers s r extra
  refine ⟨fun hr hextra => ?_, fun hr => hread.faultedBy ?_, fun hr hextra htop => hread.faultedBy ?_⟩
  · obtain ⟨mode, rfl, hp⟩ := argPolicy_ok hr hextra
    obtain ⟨n, d, hx, hle, htrace, -, -⟩ := Decoder.split_spec (inp := s.input) hd ⟨mode, s.arg1.toNat, s.arg2.toNat⟩
      (bool_toNat_le extra) (Nat.le_of_lt (word_lt s.arg1))
    obtain ⟨v, rfl⟩ := exists_word (hle.trans_lt (argPolicy_domain_lt hextra))
    refine ⟨v, d, hle, htrace, hread.completes ?_⟩
    rw [hp, coded_bind_ok, hx]
  · rw [argPolicy_reserved hr, coded_bind_error]
  · rw [argPolicy_extra hr ⟨hextra, htop⟩, coded_bind_error]

/-! ### The policy chosen for a list of values (R205) -/

/-- The bound between the short and the long values, which the source calls their median (R205). -/
def floorMean (V : List Nat) : Nat := V.sum / V.length

/-- The number `nge` of the values at or above their floor mean (R205). -/
def longCount (V : List Nat) : Nat := (V.filter (fun v => floorMean V ≤ v)).length

theorem length_eq_short_add_longCount (V : List Nat) :
    V.length = (V.filter (· < floorMean V)).length + longCount V := by
  unfold longCount
  simpa [← decide_not] using List.length_eq_length_filter_add (l := V) (fun v => decide (v < floorMean V))

theorem filter_below_ne_nil {V : List Nat} {bound : Nat} : V.filter (· < bound) ≠ [] ↔ ∃ v ∈ V, v < bound := by
  simp [List.filter_eq_nil_iff]

/-- `ChoosePolicy` by the number of long values. -/
theorem choosePolicy_cases {V : List Nat} (hne : V ≠ []) :
    (3 * longCount V < V.length ∧ choosePolicy V = ⟨.escapeLong, V.foldl Nat.max 0, maxBelow V (floorMean V)⟩) ∨
      (¬3 * longCount V < V.length ∧ (2 * V.length < 3 * longCount V ∧ ∃ v ∈ V, v < floorMean V) ∧
        choosePolicy V = ⟨.escapeShort, V.foldl Nat.max 0, maxBelow V (floorMean V)⟩) ∨
      (¬3 * longCount V < V.length ∧ ¬(2 * V.length < 3 * longCount V ∧ ∃ v ∈ V, v < floorMean V) ∧
        choosePolicy V = ⟨.whole, V.foldl Nat.max 0, 0⟩) := by
  have hlong : V.length - (V.filter (· < floorMean V)).length = longCount V :=
    Nat.sub_eq_of_eq_add' (length_eq_short_add_longCount V)
  have hpick : choosePolicy V = _ := if_neg (by simpa using hne)
  simp only [← floorMean.eq_def, hlong] at hpick
  rw [hpick, ← filter_below_ne_nil]
  by_cases hfew : 3 * longCount V < V.length
  · exact .inl ⟨hfew, if_pos hfew⟩
  · by_cases hmany : 2 * V.length < 3 * longCount V ∧ V.filter (· < floorMean V) ≠ []
    · exact .inr (.inl ⟨hfew, hmany, (if_neg hfew).trans (if_pos hmany)⟩)
    · exact .inr (.inr ⟨hfew, hmany, (if_neg hfew).trans (if_neg hmany)⟩)

/-- Where fewer than a third of the values are long, some are short. -/
theorem exists_short_of_longCount_lt {V : List Nat} (h : 3 * longCount V < V.length) : ∃ v ∈ V, v < floorMean V := by
  have hlen := length_eq_short_add_longCount V
  refine filter_below_ne_nil.1 (List.ne_nil_of_length_pos ?_)
  omega

section
variable {V : List Nat} (hne : V ≠ [])
include hne

/-- The largest value of a list that is not empty is one of its values. -/
theorem choosePolicy_max_mem : (choosePolicy V).max ∈ V := by
  obtain ⟨hle, hzero | hmem, -⟩ := choosePolicy_spec V
  · obtain ⟨v, hv⟩ := List.exists_mem_of_ne_nil V hne
    have hv0 := hle v hv
    rw [hzero] at hv0 ⊢
    rwa [← Nat.le_zero.1 hv0]
  · exact hmem

theorem choosePolicy_escapeLong_iff : (choosePolicy V).mode = .escapeLong ↔ 3 * longCount V < V.length := by
  rcases choosePolicy_cases hne with ⟨hfew, hp⟩ | ⟨hfew, -, hp⟩ | ⟨hfew, -, hp⟩ <;> simp [hp, hfew]

theorem choosePolicy_escapeShort_iff :
    (choosePolicy V).mode = .escapeShort ↔
      ¬3 * longCount V < V.length ∧ 2 * V.length < 3 * longCount V ∧ ∃ v ∈ V, v < floorMean V := by
  rcases choosePolicy_cases hne with ⟨hfew, hp⟩ | ⟨hfew, hmany, hp⟩ | ⟨hfew, hmany, hp⟩
  · exact iff_of_false (by simp [hp]) (fun h => h.1 hfew)
  · exact iff_of_true (by rw [hp]) ⟨hfew, hmany⟩
  · exact iff_of_false (by simp [hp]) (fun h => hmany h.2)

theorem choosePolicy_threshold_whole (h : (choosePolicy V).mode = .whole) : (choosePolicy V).threshold = 0 := by
  rcases choosePolicy_cases hne with ⟨-, hp⟩ | ⟨-, -, hp⟩ | ⟨-, -, hp⟩
  · simp [hp] at h
  · simp [hp] at h
  · rw [hp]

/-- Both splits have a short value, and the largest of those for threshold. -/
theorem choosePolicy_threshold_split (h : (choosePolicy V).mode ≠ .whole) :
    (∃ v ∈ V, v < floorMean V) ∧ (choosePolicy V).threshold = maxBelow V (floorMean V) := by
  rcases choosePolicy_cases hne with ⟨hfew, hp⟩ | ⟨-, ⟨-, hshort⟩, hp⟩ | ⟨-, -, hp⟩
  · exact ⟨exists_short_of_longCount_lt hfew, by rw [hp]⟩
  · exact ⟨hshort, by rw [hp]⟩
  · simp [hp] at h

end

/-- Settles O53: the empty list by evaluation, any other by `choosePolicy_cases`; a split's threshold by `maxBelow_spec`. -/
theorem chosenPolicyCoversItsValues : Obligations.ChosenPolicyCoversItsValues := by
  intro V p avg nge
  obtain ⟨hle, -, hthr⟩ := choosePolicy_spec V
  by_cases hne : V = []
  · subst hne
    simp [p, choosePolicy]
  · refine ⟨hle, .inl (choosePolicy_max_mem hne), ?_, ?_, choosePolicy_threshold_whole hne, fun hsplit => ?_⟩
    · exact (choosePolicy_escapeLong_iff hne).trans (and_iff_right hne).symm
    · exact (choosePolicy_escapeShort_iff hne).trans (and_iff_right hne).symm
    · obtain ⟨hshort, heq⟩ := choosePolicy_threshold_split hne hsplit
      obtain ⟨hmem, hlt, hlargest⟩ := maxBelow_spec (filter_below_ne_nil.2 hshort)
      rw [← heq] at hmem hlt hlargest
      exact ⟨hmem, hthr.resolve_left hsplit, hlt, hlargest⟩

end Sys2Proof.Machine
end

section
/-!
PROOFS. LZ_DECODE on the stream of a plan (R234 to R240, R272, R274): past its pre-checks the command is `Decoder.lzStream` with
its symbols stored, and the stream of any valid plan is read back whole.
-/
namespace Sys2Proof.Machine

/-- The state LZ_DECODE leaves where it completes with the count `n`, the symbols `out` and decoder `d` (R272). -/
def State.lzDecoded (s : State) (n : Nat) (out : List Word) (d : Decoder) : State :=
  { s with dec := d, mem := s.mem.writeSymOut 0 out, lzN := Word.ofNat n, res := Word.ofNat n }

section
variable {s : State}

/-- Past the check of the table LZ_DECODE reads a stream and delivers it. -/
theorem exec_lzDecode (hft : s.ft.usable) :
    exec .lzDecode s = s.finish (encode .lzDecode)
      (s.dec.lzStream s.input s.ft s.cfg.symCap >>= fun a => .ok (s.lzDecoded a.1.1 a.1.2 a.2)) := by
  simp only [exec, execLzDecode, checkModel_ok hft, coded_bind_ok]
  rfl

theorem lzDecode_completes (hft : s.ft.usable) {n : Nat} {out : List Word} {d : Decoder}
    (h : s.dec.lzStream s.input s.ft s.cfg.symCap = .ok ((n, out), d)) :
    exec .lzDecode s = .next (s.lzDecoded n out d) := by
  rw [exec_lzDecode hft, h]
  rfl

/-- Where the stream read ends in a fault LZ_DECODE records it (R302). -/
theorem lzDecode_records (hft : s.ft.usable) {code : FaultCode} {aux : Nat}
    (h : s.dec.lzStream s.input s.ft s.cfg.symCap = .error (lzFault code aux)) :
    s.records .lzDecode code (Word.ofNat aux) :=
  records_of_error (f := lzFault code aux) (exec_lzDecode hft) (by rw [h, coded_bind_error])

/-- `SYM_OUT` holds the decoded symbols below its capacity (R51, R272). -/
theorem symOutWord_lzDecoded (hwf : s.mem.wf) (n : Nat) {out : List Word} (d : Decoder) (hcap : out.length ≤ s.cfg.symCap)
    {m : Nat} (h : m < out.length) : (s.lzDecoded n out d).symOutWord m = out[m] := by
  have hread := Memory.readWord_writeSymOut out s.mem 0 m hwf h
  rw [Nat.zero_add] at hread
  exact (if_pos (Nat.lt_of_lt_of_le h hcap)).trans hread

end

/-- The parameters' bound that keeps `SYM_OUT` within its region of the window (R10, R51). -/
theorem symCap_le_of_legal {cfg : Config.Params} (h : cfg.legal = true) : cfg.symCap ≤ 65536 := by
  simp only [Config.Params.legal, Bool.and_eq_true, decide_eq_true_eq] at h
  omega

/-- Settles O59: `Decoder.lzStream_of_narrowAll` reads the stream back, and the host sees the words stored. -/
theorem lzDecodeMirrorsLzEncode : Obligations.LzDecodeMirrorsLzEncode := by
  intro s xs plan d hlegal hd hwf hft hcap hheld hvalid htrace
  have hsmall := symCap_le_of_legal hlegal
  have hstream := Decoder.lzStream_of_narrowAll hwf.ordered hvalid hheld hcap (by omega) hd htrace
  refine ⟨s.lzDecoded xs.length xs d, lzDecode_completes hft hstream, rfl, fun hmem m h => ?_⟩
  have hword := symOutWord_lzDecoded hmem xs.length d hcap h
  exact ⟨hword, (readWindow_symOut _ (by omega)).trans hword⟩

end Sys2Proof.Machine
end

section
/-!
PROOFS. The square root of R222 and the reference selection (R223 to R234): `isqrtCeil_spec` and the lemmas of Laws/Selection.lean
and Laws/Reference.lean, put together.
-/
namespace Sys2Proof.Machine

/-- Settles O54: `isqrtCeil_spec`, with 1 in place of the root of 0. -/
theorem bufferIsCeilingSquareRoot : Obligations.BufferIsCeilingSquareRoot := by
  intro base
  obtain ⟨hsquare, hleast⟩ := isqrtCeil_spec base
  have hroot : isqrtCeil base ≤ buffer base := Nat.le_max_left _ _
  exact ⟨buffer_pos base, hsquare.trans (Nat.mul_le_mul hroot hroot), fun n hn hbase => Nat.max_le.2 ⟨hleast n hbase, hn⟩⟩

/-- Settles O57: the search is the rules' (`referencePlan_isReference`), its plan passes the test of R234, and each token is a
kept candidate, whose copy is sound. -/
theorem referenceSelectionIsValid : Obligations.ReferenceSelectionIsValid := by
  intro cfg t xs hlegal
  refine ⟨referencePlan_isReference hlegal t xs, valid_of_validPlan (referencePlan_valid hlegal t xs),
    fun hoff => referencePlan_no_spiral hoff t xs, fun c hc => ?_⟩
  have hsound := kept_sound hlegal ((referenceTokens_spec cfg t xs).2 c hc).1
  have hdist : (if c.spiral then 0 else c.dist) ≤ c.dist := by split <;> omega
  exact ⟨hsound.chunk_ge, (Nat.add_le_add_right hdist _).trans hsound.chunk_le, hsound.within⟩

end Sys2Proof.Machine
end

section
/-!
PROOFS. The faults of LZ_ENCODE and LZ_DECODE and their aux values (R221, R260 to R262, R266, R269, R301): the first refused symbol,
each corrupt header, and a token that starts its copy before the output or passes the count.
-/
namespace Sys2Proof.Machine

/-! ### The pre-checks (R221, R260) -/

/-- LZ_SYMBOL names the first symbol the table does not hold (R221). -/
theorem checkSymbols_first {t : FreqTable} {xs : List Word} (m : Nat) {k : Nat} (hk : k < xs.length)
    (habsent : ∀ w, (xs[k], w) ∉ t) (hheld : ∀ q (hq : q < k), ∃ w, (xs[q], w) ∈ t) :
    checkSymbols t m xs = .error (.precise .lzSymbol (Word.ofNat (m + k))) := by
  induction xs generalizing m k with
  | nil => exact absurd hk (Nat.not_lt_zero k)
  | cons x rest ih =>
    unfold checkSymbols
    cases k with
    | zero => exact if_neg fun hx => not_exists.2 habsent (FreqTable.has_iff.1 hx)
    | succ k =>
      have hx : t.has x = true := FreqTable.has_iff.2 (hheld 0 (Nat.succ_pos k))
      rw [if_pos hx, Nat.add_comm k 1, ← Nat.add_assoc]
      exact ih (m + 1) (Nat.lt_of_succ_lt_succ hk) habsent fun q hq => hheld (q + 1) (Nat.succ_lt_succ hq)

theorem lzPrecheck_symbol {s : State} (hopen : s.enc.isSealed = false) (hcap : s.arg0.toNat ≤ s.cfg.symCap)
    (hft : s.ft.usable) {m : Nat} (hm : m < s.arg0.toNat) (habsent : ∀ w, (s.symInWord m, w) ∉ s.ft)
    (hheld : ∀ q, q < m → ∃ w, (s.symInWord q, w) ∈ s.ft) :
    s.lzPrecheck = .error (.precise .lzSymbol (Word.ofNat m)) := by
  rw [lzPrecheck_of_open hopen hcap, checkModel_ok hft, coded_bind_ok]
  have hfirst := checkSymbols_first (t := s.ft) (xs := s.symbols s.arg0.toNat) 0 (k := m) (by simpa [State.symbols] using hm)
    (by simpa [State.symbols] using habsent) (by simpa [State.symbols] using hheld)
  rwa [Nat.zero_add] at hfirst

theorem lzDecode_of_unusable {s : State} (h : ¬s.ft.usable) : exec .lzDecode s = .next (s.faultedBy .lzDecode .lzModel 0) := by
  simp only [exec, execLzDecode, checkModel_error h]
  rfl

/-! ### Corrupt headers (R261, R262) -/

/-- A split policy of mode `r` with `max = 0` (R262). -/
def badPolicyIntervals (r : Nat) : List Interval := uniformIntervals r 3 ++ countIntervals 0 16 0

section
variable {inp : Input} {d d' : Decoder} (hd : d.Settled)
include hd

theorem Decoder.triple_of_badPolicy {r : Nat} (hr : r = 1 ∨ r = 2)
    (h : Decoder.narrowAll inp (badPolicyIntervals r) d = .ok d') : d.triple inp = .error (lzFault .corruptHeader 0) := by
  obtain ⟨m, hmode, hmax⟩ := narrowAll_append_ok h
  have hs := (narrowAll_settled _ hd hmode).1
  unfold Decoder.triple
  rw [Decoder.uniform_of_narrowAll hd (by omega) hmode, coded_bind_ok]
  dsimp only
  rw [show Config.hdrMaxW = 16 from rfl, Decoder.count_of_narrowAll hs (by decide) (by decide) (by decide) (by decide) hmax]
  rcases hr with rfl | rfl <;> rfl

variable {n cap : Nat} (hn : n < 4294967296)
include hn

theorem Decoder.header_of_capacity (hcap : cap < n)
    (h : Decoder.narrowAll inp (countIntervals n 32 (Nat.log2 (n + 1))) d = .ok d') :
    d.header inp cap = .error (lzFault .capacity n) := by
  rw [Decoder.header_of_count hd hn h, if_pos hcap]

variable (hcap : n ≤ cap)
include hcap

theorem Decoder.header_of_badDist {r : Nat} (hr : r = 1 ∨ r = 2)
    (h : Decoder.narrowAll inp (countIntervals n 32 (Nat.log2 (n + 1)) ++ badPolicyIntervals r) d = .ok d') :
    d.header inp cap = .error (lzFault .corruptHeader 0) := by
  obtain ⟨m, hcount, hbad⟩ := narrowAll_append_ok h
  have hs := (narrowAll_settled _ hd hcount).1
  rw [Decoder.header_of_count hd hn hcount, if_neg (Nat.not_lt.2 hcap), Decoder.triple_of_badPolicy hs hr hbad,
    coded_bind_error]

theorem Decoder.header_of_badLen {dist : Policy} (hdist : dist.writable = true) {r : Nat} (hr : r = 1 ∨ r = 2)
    (h : Decoder.narrowAll inp
      (countIntervals n 32 (Nat.log2 (n + 1)) ++ policyIntervals dist ++ badPolicyIntervals r) d = .ok d') :
    d.header inp cap = .error (lzFault .corruptHeader 0) := by
  obtain ⟨m', h, hbad⟩ := narrowAll_append_ok h
  obtain ⟨m, hcount, hpolicy⟩ := narrowAll_append_ok h
  have hs := (narrowAll_settled _ hd hcount).1
  have hs' := (narrowAll_settled _ hs hpolicy).1
  rw [Decoder.header_of_count hd hn hcount, if_neg (Nat.not_lt.2 hcap), Decoder.triple_of_narrowAll hs hdist hpolicy,
    coded_bind_ok, Decoder.headerMiddle, Decoder.triple_of_badPolicy hs' hr hbad, coded_bind_error]

variable {dist len : Policy} (hdist : dist.writable = true) (hlen : len.writable = true)
include hdist hlen

theorem Decoder.header_of_badSpiral {r : Nat} (hr : r = 1 ∨ r = 2)
    (h : Decoder.narrowAll inp (headerStart n false dist len ++ uniformIntervals 1 2 ++ badPolicyIntervals r) d = .ok d') :
    d.header inp cap = .error (lzFault .corruptHeader 0) := by
  obtain ⟨m', h, hbad⟩ := narrowAll_append_ok h
  obtain ⟨m, hstart, hflag⟩ := narrowAll_append_ok h
  have hs := (narrowAll_settled _ hd hstart).1
  have hs' := (narrowAll_settled _ hs hflag).1
  rw [Decoder.header_of_start hd hn hcap hdist hlen (fun h => absurd h Bool.false_ne_true) hstart, Decoder.headerEnd,
    Decoder.flag_of_narrowAll (b := true) hs hflag, coded_bind_ok]
  simp only [if_true, Bool.false_eq_true, if_false, Decoder.triple_of_badPolicy hs' hr hbad, coded_bind_error]

theorem Decoder.header_of_dummySpiral (hzero : dist.max = 0 ∧ len.max = 0)
    (h : Decoder.narrowAll inp (headerStart n true dist len ++ uniformIntervals 1 2) d = .ok d') :
    d.header inp cap = .error (lzFault .corruptHeader 0) := by
  obtain ⟨m, hstart, hflag⟩ := narrowAll_append_ok h
  have hs := (narrowAll_settled _ hd hstart).1
  rw [Decoder.header_of_start hd hn hcap hdist hlen (fun _ => hzero) hstart, Decoder.headerEnd,
    Decoder.flag_of_narrowAll (b := true) hs hflag, coded_bind_ok]
  rfl

end

theorem Decoder.lzStream_of_header_error {inp : Input} {d : Decoder} {t : FreqTable} {cap : Nat} {f : Raise}
    (h : d.header inp cap = .error f) : d.lzStream inp t cap = .error f := by
  rw [Decoder.lzStream, h, coded_bind_error]

/-! ### Corrupt tokens (R266, R269) -/

section
variable {inp : Input} {plan : LzPlan} {n chunk : Nat} {out : List Word} {d d' : Decoder}

/-- A token longer than the output so far (R266). -/
theorem Decoder.token_corruptRef {base : Nat} (hd : d.Settled) (h2 : 2 ≤ chunk) (hdom : chunk - 2 ≤ plan.len.max)
    (hlong : out.length < chunk) (h : Decoder.narrowAll inp (tokenStart base plan chunk) d = .ok d') :
    d.token inp base (LzHeader.ofPlan n false plan) out = .error (lzFault .corruptRef out.length) := by
  rw [Decoder.token_of_start hd out h2 hdom h, if_pos hlong]

/-- A token that passes `N` (R269). -/
theorem Decoder.token_corruptOverrun {base dist : Nat} {sl : Option Nat} (hd : d.Settled) (h2 : 2 ≤ chunk)
    (hdom : chunk - 2 ≤ plan.len.max) (hle : chunk ≤ out.length)
    (hplain : sl = none → dist ≤ plan.distBound out.length chunk)
    (hspiral : ∀ k, sl = some k → plan.useSpiral = true ∧ k ≤ plan.spiral.max)
    (hover : n < out.length + chunk * (sl.getD 0 + 1))
    (h : Decoder.narrowAll inp (tokenStart base plan chunk ++ distanceIntervals plan out.length chunk dist sl) d = .ok d') :
    d.token inp base (LzHeader.ofPlan n false plan) out = .error (lzFault .corruptOverrun out.length) := by
  obtain ⟨m, hstart, hdistance⟩ := narrowAll_append_ok h
  have hs := (narrowAll_settled _ hd hstart).1
  rw [Decoder.token_of_start hd out h2 hdom hstart, if_neg (Nat.not_lt.2 hle),
    Decoder.tokenDistance_of_narrowAll hs hplain hspiral hdistance, coded_bind_ok]
  exact if_pos hover

/-- The body loop ends in the fault of the token it stands at (R263). -/
theorem Decoder.body_of_token_error {t : FreqTable} {f : Raise} (hd : d.Settled) (hlt : out.length < n)
    (hescape : Decoder.narrowAll inp (tokenStart t.total plan chunk) d = .ok d')
    (h : d.token inp t.total (LzHeader.ofPlan n false plan) out = .error f) (fuel : Nat) :
    Decoder.body inp t (LzHeader.ofPlan n false plan) (fuel + 1) out d = .error f := by
  obtain ⟨v, hpeek, hge⟩ := Decoder.peek_escape hd hescape
  have hitem : d.bodyItem inp t (LzHeader.ofPlan n false plan) out = .error f := by
    rw [Decoder.bodyItem, if_neg (show ¬(LzHeader.ofPlan n false plan).dummy = true from Bool.false_ne_true), hpeek,
      coded_bind_ok, if_pos hge, h]
  rw [Decoder.body, if_pos (show out.length < (LzHeader.ofPlan n false plan).count from hlt), hitem, coded_bind_error]

/-- The stream ends in the fault of the token that follows the header and the symbols `out`. -/
theorem Decoder.lzStream_of_token_error {t : FreqTable} (ht : t.Ordered) (hvalid : plan.Valid out)
    (hheld : ∀ x ∈ out, ∃ w, (x, w) ∈ t) {cap : Nat} (hn : n < 4294967296) (hcap : n ≤ cap) (hlt : out.length < n)
    {d0 : Decoder} (hd0 : d0.Settled)
    (hprefix : Decoder.narrowAll inp (headerIntervals n false plan ++ bodyIntervals t false plan out) d0 = .ok d)
    (hescape : Decoder.narrowAll inp (tokenStart t.total plan chunk) d = .ok d') {f : Raise}
    (h : d.token inp t.total (LzHeader.ofPlan n false plan) out = .error f) : d0.lzStream inp t cap = .error f := by
  have hd := (narrowAll_settled _ hd0 hprefix).1
  obtain ⟨fuel, hfuel, hstream⟩ :=
    Decoder.lzStream_of_prefix ht hvalid.good hheld hn hcap (Nat.le_of_lt hlt) hd0 hprefix
  obtain ⟨k, rfl⟩ : ∃ k, fuel = k + 1 := ⟨fuel - 1, by omega⟩
  rw [hstream, Decoder.body_of_token_error hd hlt hescape h, coded_bind_error]

end

/-- Settles O55: the pre-checks in their order, then each corrupt part of the stream where LZ_DECODE meets it. -/
theorem lzFaultConditions : Obligations.LzFaultConditions := by
  refine ⟨fun s => lzDecode_of_unusable, ?_, ?_⟩
  · intro s hopen
    refine ⟨fun hcap => exec_lzEncode_of_error (lzPrecheck_capacity hopen hcap), fun hcap hft => exec_lzEncode_of_error ?_,
      fun hcap hft m hm habsent hheld => exec_lzEncode_of_error (lzPrecheck_symbol hopen hcap hft hm habsent hheld)⟩
    rw [lzPrecheck_of_open hopen hcap, checkModel_error hft, coded_bind_error]
  · intro s n d hd hwf hft hn reads badPolicy
    refine ⟨fun hcap hread => ?_, fun hcap dist len r hdist hlen hr hread => ?_,
      fun hcap plan out L hvalid hlt hheld h2 hdom => ?_⟩
    · exact lzDecode_records hft (Decoder.lzStream_of_header_error (Decoder.header_of_capacity hd hn hcap hread))
    · rw [Policy.carried_iff] at hdist hlen
      refine lzDecode_records hft (Decoder.lzStream_of_header_error ?_)
      rcases hread with hread | hread | hread | ⟨hdist0, hlen0, hread⟩
      · exact Decoder.header_of_badDist hd hn hcap hr hread
      · exact Decoder.header_of_badLen hd hn hcap hdist hr hread
      · exact Decoder.header_of_badSpiral hd hn hcap hdist hlen hr hread
      · exact Decoder.header_of_dummySpiral hd hn hcap hdist hlen ⟨hdist0, hlen0⟩ hread
    · intro start
      refine ⟨fun hlong hread => ?_, fun dist sl hle hplain hspiral hover hread => ?_⟩
      · obtain ⟨m, hprefix, hescape⟩ := narrowAll_append_ok hread
        have hm := (narrowAll_settled _ hd hprefix).1
        have htoken := Decoder.token_corruptRef (n := n) hm h2 hdom hlong hescape
        exact lzDecode_records hft
          (Decoder.lzStream_of_token_error hwf.ordered hvalid hheld hn hcap hlt hd hprefix hescape htoken)
      · rw [List.append_assoc] at hread
        obtain ⟨m, hprefix, hfields⟩ := narrowAll_append_ok hread
        obtain ⟨m', hescape, -⟩ := narrowAll_append_ok hfields
        have hm := (narrowAll_settled _ hd hprefix).1
        have htoken := Decoder.token_corruptOverrun hm h2 hdom hle hplain hspiral hover hfields
        exact lzDecode_records hft
          (Decoder.lzStream_of_token_error hwf.ordered hvalid hheld hn hcap hlt hd hprefix hescape htoken)

end Sys2Proof.Machine
end

section
/-!
PROOFS. The three encodings of block control: NOP, BLK_RESET and the illegal opcode.
-/
namespace Sys2Proof.Machine

theorem exec_nop (s : State) : exec .nop s = .next s := rfl

theorem exec_blkReset (s : State) : exec .blkReset s = .next s.blockReset := rfl

/-- The reset values of R281, the coders' among them, and every field it does not name unchanged. -/
theorem blockReset_eq (s : State) :
    s.blockReset =
      { s with
        arg0 := 0, arg1 := 0, arg2 := 0, res := 0, fault := .noFault, faultInfo := 0, faultAux := 0,
        enc := ⟨0, 0xFFFFFFFF, 0, [], false⟩, dec := ⟨0, 0xFFFFFFFF, 0, 32, 0⟩, ft := [], lzN := 0 } := rfl

/-- The illegal opcode raises its fault under its own word (R282), and the fault is precise (R303). -/
theorem exec_illegal (upper : BitVec 24) (s : State) :
    exec (.illegal upper) s = .next (s.faultedBy (.illegal upper) .badOpcode 0) :=
  congrArg Host.Outcome.next (takeFault_precise s (encode (.illegal upper)) .badOpcode 0)

/-- Settles O22: the arm of each encoding, with BLK_RESET's values written out by `blockReset_eq`. -/
theorem blockControlCommands : Obligations.BlockControlCommands := by
  intro s
  refine ⟨exec_nop s, ?_, fun upper => exec_illegal upper s⟩
  rw [exec_blkReset, blockReset_eq]

end Sys2Proof.Machine
end

section
/-!
PROOFS. What a fault does to the block (R302 to R306): which fields of a faulted command's state are as before, and what a block
that holds a fault does with the accesses that follow.
-/
namespace Sys2Proof.Machine

/-! ### The state a fault leaves (R302, R303, R305) -/

/-- A command that ends with a fault recorded has taken one of its class: a completed one keeps the empty record, and BLK_RESET
clears it. -/
theorem exec_faulted {i : Instr} {s t : State} (h0 : s.fault = .noFault) (h : exec i s = .next t) (ht : t.fault ≠ .noFault) :
    i ≠ .blkReset ∧ ∃ r, t = s.takeFault (encode i) r ∧ r.Of (faultClass i) := by
  have hi : i ≠ .blkReset := by
    rintro rfl
    rw [exec_blkReset_eq h] at ht
    exact ht rfl
  rcases exec_cases hi h with hfault | hc
  · exact ⟨hi, hfault⟩
  · exact absurd (hc.record.1.trans h0) ht

/-- Settles O19: what `takeFault` keeps of every field, and for the coders and the memory the class of the command's faults. -/
theorem faultRecordAndWhatItKeeps : Obligations.FaultRecordAndWhatItKeeps := by
  intro i s t hwf h0 h ht
  obtain ⟨hi, r, rfl, hr⟩ := exec_faulted h0 h ht
  refine ⟨takeFault_faultInfo s _ r, exec_sameHostSide hi h, takeFault_res s _ r, takeFault_lzN s _ r, takeFault_ft s _ r,
    takeFault_isSealed s _ r, takeFault_inLen s _ r, exec_enc hi h, fun hf hl => takeFault_dec ?_, exec_sameBytes hi h,
    fun x hx => takeFault_readByte_outside hwf _ r hx⟩
  exact hr.kind_elim (P := fun k => k = .precise ∨ k = .encoderRun) (.inl rfl) (faultClass_keepsDecoder hf hl)

/-- A precise fault leaves the record and nothing else (R303). -/
theorem takeFault_of_precise {i : Instr} {s : State} {r : Raise} (h : r.kind = .precise) :
    s.takeFault (encode i) r = s.faultedBy i r.code r.aux := by
  obtain ⟨code, aux, kind⟩ := r
  subst h
  exact takeFault_precise s _ code aux

/-- The codes of the execution-time faults, over all classes (R305). -/
theorem mem_runCodes {k : FaultKind} {c : FaultCode} (h : c ∈ runCodes k) :
    c = .capacity ∨ c = .pendingOvf ∨ c = .corruptFib ∨ c = .corruptHeader ∨ c = .corruptRef ∨ c = .corruptOverrun := by
  cases k <;> simp [runCodes] at h <;> tauto

/-- Settles O20: a fault is precise or has one of the codes of `runCodes`, and DEC_RESET has no fault of the second sort. -/
theorem preciseFaultsChangeOnlyTheRecord : Obligations.PreciseFaultsChangeOnlyTheRecord := by
  intro i s t h0 h ht hcap hovf hfib hheader href hover
  obtain ⟨-, r, rfl, -, hkind | ⟨-, hrun⟩⟩ := exec_faulted h0 h ht
  · exact takeFault_of_precise hkind
  · rcases mem_runCodes hrun with hc | hc | hc | hc | hc | hc
    · have hi : i = .decReset := hcap hc
      subst hi
      exact absurd hrun List.not_mem_nil
    · exact absurd hc hovf
    · exact absurd hc hfib
    · exact absurd hc hheader
    · exact absurd hc href
    · exact absurd hc hover

/-! ### A block that holds a fault (R306) -/

/-- A fault holds back every word but BLK_RESET's; the index advances (R39, R306). -/
theorem issue_of_faulted {w : Word} {s : State} (hf : s.fault ≠ .noFault) (hw : w ≠ resetWord) : issue w s = .next s.advance :=
  if_pos ⟨by simpa [State.faulted] using hf, hw⟩

/-- The word of BLK_RESET resets the block, whatever fault it holds (R281, R306). -/
theorem issue_resetWord (s : State) : issue resetWord s = .next s.advance.blockReset := by
  rw [issue_of_not_ignored (.inr rfl), runWord_of_decode_ok (i := .blkReset) rfl, exec_blkReset]

/-- A write that is not a command neither reads nor changes the fault code (R35, R306). -/
theorem writeWindow_with_fault (s : State) (c : FaultCode) (off : Nat) (v : Word) :
    ({ s with fault := c } : State).writeWindow off v = { s.writeWindow off v with fault := c } := by
  unfold State.writeWindow
  split
  · simp only [writeReg_eq]
  · split
    · rfl
    · split
      · simp only [State.setDecInWord, setDecInByte_eq]
      · split
        · simp only [setSymInWord_eq]
        · rfl

/-- Of the registers only `STATUS` shows the fault code (R21, R23). -/
theorem readReg_with_fault (s : State) (c : FaultCode) {off : Nat} (h : off ≠ 0x14) :
    ({ s with fault := c } : State).readReg off = s.readReg off := by
  unfold State.readReg
  split
  case h_5 => exact absurd rfl h
  all_goals rfl

theorem readWindow_with_fault (s : State) (c : FaultCode) {off : Nat} (h : off ≠ 0x14) :
    ({ s with fault := c } : State).readWindow off = s.readWindow off :=
  ite_congr rfl (fun _ => readReg_with_fault s c h) (fun _ => rfl)

/-- Settles O7: an ignored word only advances the index, other writes and reads do not depend on the fault code, and BLK_RESET
clears it. -/
theorem faultedBlockIgnoresCommands : Obligations.FaultedBlockIgnoresCommands := by
  intro s hf
  refine ⟨fun rest w hq hw => ?_, fun off bits v hoff => ?_, fun off bits hoff => ?_, fun rest hq => ?_⟩
  · rw [step_command hq, issue_of_faulted (s := { s with hostQueue := rest }) hf hw]
    rfl
  · refine ⟨_, hostWrite_of_not_command v s fun hc => hoff hc.1, ?_⟩
    rw [hostWrite_of_not_command v _ fun hc => hoff hc.1, writeWindow_with_fault]
    split <;> rfl
  · exact congrArg some (ite_congr rfl (fun _ => (readWindow_with_fault s .noFault hoff).symm) (fun _ => rfl))
  · exact ⟨_, (step_command hq).trans (issue_resetWord _), rfl⟩

end Sys2Proof.Machine
end

section
/-!
PROOFS. Which faults a command raises (R301): a contract for each computation, that names the faults it ends in and what it
answers otherwise, and from the contracts one case per command.
-/
namespace Sys2Proof.Machine

/-! ### Contracts -/

/-- Where `x` raises a fault the fault satisfies `P`, and where it answers a value the value satisfies `Q`. -/
structure Ends {α : Type} (P : Raise → Prop) (Q : α → Prop) (x : Coded α) : Prop where
  raises : Raises P x
  yields : Yields Q x

section
variable {α β : Type} {P : Raise → Prop} {Q : α → Prop} {R : β → Prop}

theorem ends_ok {a : α} (h : Q a) : Ends P Q (.ok a) := ⟨raises_ok a, yields_ok h⟩

theorem ends_of_eq_ok {x : Coded α} {a : α} (hx : x = .ok a) (h : Q a) : Ends P Q x := hx ▸ ends_ok h

theorem ends_error {r : Raise} (h : P r) : Ends P Q (.error r) := ⟨raises_error h, yields_error r⟩

theorem ends_of_eq_error {x : Coded α} {r : Raise} (hx : x = .error r) (h : P r) : Ends P Q x := hx ▸ ends_error h

theorem ends_of_raises {x : Coded α} (hx : Raises P x) : Ends P (fun _ => True) x := ⟨hx, fun _ _ => trivial⟩

theorem ends_bind {x : Coded α} {f : α → Coded β} (hx : Ends P Q x) (hf : ∀ a, Q a → Ends P R (f a)) :
    Ends P R (x >>= f) :=
  ⟨raises_bind hx.raises fun a ha => (hf a (hx.yields a ha)).raises, yields_bind fun a ha => (hf a (hx.yields a ha)).yields⟩

end

/-! ### What R301 says of a command -/

/-- R301 names the fault for command `i`, and its aux value is 0 where R301 lists none. -/
def Raise.Listed (i : Instr) (r : Raise) : Prop := r.code ∈ documentedFaults i ∧ (carriesAux r.code = false → r.aux = 0)

theorem listed_of_aux_zero {i : Instr} {c : FaultCode} {k : FaultKind} (h : c ∈ documentedFaults i) :
    Raise.Listed i ⟨c, 0, k⟩ := ⟨h, fun _ => rfl⟩

theorem listed_of_carriesAux {i : Instr} {c : FaultCode} {a : Word} {k : FaultKind} (h : c ∈ documentedFaults i)
    (hc : carriesAux c = true) : Raise.Listed i ⟨c, a, k⟩ := ⟨h, fun hno => absurd (hc.symm.trans hno) (by decide)⟩

/-- Where command `i` ends with a fault recorded, R301 names that fault and its aux value. -/
def State.Documented (i : Instr) (s : State) : Prop :=
  ∀ t, exec i s = .next t → t.fault ≠ .noFault →
    t.fault ∈ documentedFaults i ∧ (carriesAux t.fault = false → t.faultAux = 0)

section
variable {i : Instr} {s : State}

theorem documented_of_finish {x : Coded State} (h : exec i s = s.finish (encode i) x)
    (hx : Ends (Raise.Listed i) (fun u => u.fault = .noFault) x) : s.Documented i := by
  intro t ht hf
  rw [h] at ht
  rcases (finish_next_iff _ _ _ _).1 ht with hok | ⟨r, hr, rfl⟩
  · exact absurd (hx.yields t hok) hf
  · exact hx.raises r hr

/-- A command that first makes a computation whose faults R301 names for it. -/
theorem documented_of_bind {α : Type} {x : Coded α} {f : α → Coded State} (h : exec i s = s.finish (encode i) (x >>= f))
    (hx : Raises (Raise.Listed i) x) (hf : ∀ a, Ends (Raise.Listed i) (fun u => u.fault = .noFault) (f a)) :
    s.Documented i :=
  documented_of_finish h (ends_bind (ends_of_raises hx) fun a _ => hf a)

theorem documented_of_next {u : State} (h : exec i s = .next u) (hu : u.fault = .noFault) : s.Documented i := by
  intro t ht hf
  rw [h, Host.Outcome.next.injEq] at ht
  exact absurd (ht ▸ hu) hf

theorem documented_of_faultedBy {code : FaultCode} {aux : Word} (h : exec i s = .next (s.faultedBy i code aux))
    (hr : Raise.Listed i (.precise code aux)) : s.Documented i :=
  documented_of_finish (h.trans (finish_precise i s code aux).symm) (ends_error hr)

end

/-! ### The faults of the encoder (R104, R109 to R112) -/

theorem Interval.Valid.check_raises {P : Raise → Prop} {iv : Interval} (h : iv.Valid) : Raises P (checkInterval iv) :=
  h.checked ▸ raises_ok ()

section
variable {P : Raise → Prop} (hcap : ∀ n, P ⟨.capacity, n, .encoderRun⟩) (hovf : P ⟨.pendingOvf, 0, .encoderRun⟩)

theorem addPending_raises_of (hovf : P ⟨.pendingOvf, 0, .encoderRun⟩) (e : Encoder) : Raises P e.addPending := by
  unfold Encoder.addPending
  split
  · exact raises_error hovf
  · exact raises_ok _

include hcap

theorem append_raises_of (cap : Nat) (b : Bool) (e : Encoder) : Raises P (e.append cap b) := by
  unfold Encoder.append
  split
  · exact raises_error (hcap _)
  · exact raises_ok _

theorem appendRun_raises_of (cap : Nat) (b : Bool) (n : Nat) (e : Encoder) : Raises P (Encoder.appendRun cap b n e) := by
  induction n generalizing e with
  | zero => exact raises_ok _
  | succ n ih => exact raises_bind (append_raises_of hcap cap b e) fun a _ => ih a

theorem emitBit_raises_of (cap : Nat) (b : Bool) (e : Encoder) : Raises P (e.emitBit cap b) :=
  raises_bind (append_raises_of hcap cap b e) fun _ _ =>
    raises_bind (appendRun_raises_of hcap cap _ _ _) fun _ _ => raises_ok _

include hovf

theorem stepBits_raises_of (cap : Nat) (st : RenormStep) (e : Encoder) : Raises P (e.stepBits cap st) := by
  cases st with
  | lowHalf => exact emitBit_raises_of hcap cap _ e
  | highHalf => exact emitBit_raises_of hcap cap _ e
  | middle => exact addPending_raises_of hovf e
  | done => exact raises_ok _

theorem renorm_raises_of (cap n : Nat) (e : Encoder) : Raises P (Encoder.renorm cap n e) := by
  induction n generalizing e with
  | zero => exact raises_ok _
  | succ n ih =>
    rw [renorm_succ]
    split
    · exact raises_ok _
    · exact raises_bind (stepBits_raises_of hcap hovf cap _ e) fun a _ => ih _

theorem narrow_raises_of (cap : Nat) {iv : Interval} (hiv : Raises P (checkInterval iv)) (e : Encoder) :
    Raises P (e.narrow cap iv) := by
  refine raises_bind hiv fun _ _ => ?_
  split
  · exact raises_ok _
  · exact renorm_raises_of hcap hovf cap _ _

/-- Narrowings end in a full stream, in a full pending count, or in what the check of one of their Intervals raises. -/
theorem writeAll_raises_of (cap : Nat) {trace : List Interval} (ht : ∀ iv ∈ trace, Raises P (checkInterval iv))
    (e : Encoder) : Raises P (e.writeAll cap trace) := by
  induction trace generalizing e with
  | nil => exact raises_ok _
  | cons iv rest ih =>
    obtain ⟨hiv, hrest⟩ := List.forall_mem_cons.1 ht
    rw [writeAll_cons]
    exact raises_bind (narrow_raises_of hcap hovf cap hiv e) fun a _ => ih hrest a

/-- The flush narrows by the sentinel, and pins the interval with one more pending bit and one emission (R109). -/
theorem flush_raises_of (cap : Nat) (e : Encoder) : Raises P (e.flush cap) := by
  rw [flush_eq]
  refine raises_bind (writeAll_raises_of hcap hovf cap (fun iv hiv => (sentinelIntervals_valid iv hiv).check_raises) e) ?_
  exact fun e' _ => raises_bind (addPending_raises_of hovf e') fun _ _ =>
    raises_bind (emitBit_raises_of hcap cap _ _) fun _ _ => raises_ok _

end

theorem checkInterval_listed {i : Instr} (h : .badInterval ∈ documentedFaults i) (iv : Interval) :
    Raises (Raise.Listed i) (checkInterval iv) := by
  unfold checkInterval
  split
  · exact raises_error (listed_of_aux_zero h)
  · exact raises_ok _

theorem requireInterval_listed {i : Instr} (h : .ftKey ∈ documentedFaults i) (t : FreqTable) (key : Word) :
    Raises (Raise.Listed i) (t.requireInterval key) := by
  unfold FreqTable.requireInterval
  split
  · exact raises_ok _
  · exact raises_error (listed_of_carriesAux h rfl)

/-- The faults R301 names for every command that narrows the encoder. -/
def narrowingFaults : List FaultCode := [.isSealed, .capacity, .pendingOvf]

/-! ### The encoder's commands (R110 to R112, R121 to R127, R210) -/

section
variable {i : Instr} {s : State} (hi : narrowingFaults ⊆ documentedFaults i)
include hi

theorem checkSealed_listed : Raises (Raise.Listed i) s.checkSealed := by
  cases hs : s.enc.isSealed with
  | true => exact checkSealed_error hs ▸ raises_error (listed_of_aux_zero (hi (by decide)))
  | false => exact checkSealed_ok hs ▸ raises_ok ()

theorem writeAll_listed (cap : Nat) {trace : List Interval} (ht : ∀ iv ∈ trace, Raises (Raise.Listed i) (checkInterval iv))
    (e : Encoder) : Raises (Raise.Listed i) (e.writeAll cap trace) :=
  writeAll_raises_of (fun _ => listed_of_carriesAux (hi (by decide)) rfl) (listed_of_aux_zero (hi (by decide))) cap ht e

theorem encodeTrace_ends (h0 : s.fault = .noFault) {trace : List Interval}
    (ht : ∀ iv ∈ trace, Raises (Raise.Listed i) (checkInterval iv)) :
    Ends (Raise.Listed i) (fun u => u.fault = .noFault) (s.encodeTrace trace) :=
  ⟨raises_bind (writeAll_listed hi _ ht _) fun _ _ => raises_ok _, yields_bind fun _ _ => yields_ok h0⟩

/-- A command that encodes a trace raises what its code does, and past that the faults of the narrowings. -/
theorem State.Encodes.documented (h0 : s.fault = .noFault) {x : Coded (List Interval)} (h : s.Encodes i x)
    (hx : Ends (Raise.Listed i) (fun trace => ∀ iv ∈ trace, Raises (Raise.Listed i) (checkInterval iv)) x) :
    s.Documented i :=
  documented_of_bind h (checkSealed_listed hi) fun _ => ends_bind hx fun _ ht => encodeTrace_ends hi h0 ht

/-- A command that encodes a trace of valid Intervals. -/
theorem State.Encodes.documented_of_valid (h0 : s.fault = .noFault) {x : Coded (List Interval)} (h : s.Encodes i x)
    {trace : List Interval} (hx : x = .ok trace) (hv : ∀ iv ∈ trace, iv.Valid) : s.Documented i :=
  h.documented hi h0 (ends_of_eq_ok hx fun iv hiv => (hv iv hiv).check_raises)

theorem State.Encodes.documented_of_error (h0 : s.fault = .noFault) {x : Coded (List Interval)} (h : s.Encodes i x)
    {r : Raise} (hx : x = .error r) (hr : r.Listed i) : s.Documented i :=
  h.documented hi h0 (ends_of_eq_error hx hr)

end

theorem encFinish_documented {s : State} (h0 : s.fault = .noFault) : s.Documented .encFinish := by
  have hflush : Raises (Raise.Listed .encFinish) (s.enc.flush s.cfg.encCap) :=
    flush_raises_of (fun _ => listed_of_carriesAux (by decide) rfl) (listed_of_aux_zero (by decide)) _ _
  exact documented_of_bind rfl (checkSealed_listed (by decide)) fun _ =>
    ends_bind (ends_of_raises hflush) fun _ _ => ends_ok h0

/-- The policy operand of a split is refused, or has the maximum of `ARG1` (R200, R210, R211). -/
theorem argPolicy_ends {i : Instr} {s : State} {r : Nat} {extra : Bool} (hpolicy : .splitPolicy ∈ documentedFaults i)
    (hdomain : .splitDomain ∈ documentedFaults i) :
    Ends (Raise.Listed i) (fun p => p.max = s.arg1.toNat) (s.argPolicy r extra) := by
  rcases Nat.lt_or_ge r 3 with hr | hr
  · by_cases hextra : extra = true ∧ s.arg1 = 0xFFFFFFFF
    · exact ends_of_eq_error (argPolicy_extra hr hextra) (listed_of_aux_zero hdomain)
    · obtain ⟨mode, -, hp⟩ := argPolicy_ok hr hextra
      exact ends_of_eq_ok hp rfl
  · exact ends_of_eq_error (argPolicy_reserved hr) (listed_of_aux_zero hpolicy)

/-- Each encoder command raises the faults of its code, or those of its narrowings. -/
theorem encoderCommand_documented {i : Instr} {s : State} (h0 : s.fault = .noFault)
    (hi : isEncoderCommand i = true) : s.Documented i := by
  cases i with
  | encReset => exact documented_of_next rfl h0
  | encWriteEqual =>
    have henc := encWriteEqual_encodes s
    have hmax := word_lt s.arg1
    rcases Nat.lt_or_ge s.arg0.toNat s.arg1.toNat with hlt | hge
    · exact henc.documented_of_valid (by decide) h0 (uniformTrace_ok hlt)
        (uniformIntervals_valid hlt (hmax.le.trans (by decide)))
    · exact henc.documented_of_error (by decide) h0 (uniformTrace_error hge) (listed_of_aux_zero (by decide))
  | encWritePart =>
    exact (encWritePart_encodes s).documented (by decide) h0 (ends_ok fun iv _ => checkInterval_listed (by decide) iv)
  | encWritePartFt =>
    exact (encWritePartFt_encodes s).documented (by decide) h0
      (ends_bind (ends_of_raises (requireInterval_listed (by decide) _ _)) fun _ _ =>
        ends_ok fun iv _ => checkInterval_listed (by decide) iv)
  | encWriteFib =>
    have henc := encWriteFib_encodes s
    by_cases hz : s.arg0 = 0
    · exact henc.documented_of_error (by decide) h0 (if_pos (congrArg BitVec.toNat hz)) (listed_of_aux_zero (by decide))
    · exact henc.documented_of_valid (by decide) h0 (fibTrace_ok (word_ne_zero_pos hz)) (bitIntervals_valid _)
  | encWriteCount W =>
    have henc := encWriteCount_encodes s W
    have hnarrow : narrowingFaults ⊆ documentedFaults (.encWriteCount W) := by simp [narrowingFaults, documentedFaults]
    by_cases hbad : W < 1 ∨ 32 < W ∨ 2 ^ W ≤ s.arg0.toNat
    · exact henc.documented_of_error hnarrow h0 (countTrace_error hbad) (listed_of_aux_zero (by simp [documentedFaults]))
    · have hW : W ≤ 32 := by omega
      have hn : s.arg0.toNat < 2 ^ W := by omega
      exact henc.documented_of_valid hnarrow h0 (countTrace_ok (by omega) hW hn)
        (countIntervals_valid hW hn (countLog_spec _)).1
  | encWriteSplit r extra =>
    have he := bool_toNat_le extra
    have hmax := word_lt s.arg1
    refine (encWriteSplit_encodes s r extra).documented (by simp [narrowingFaults, documentedFaults]) h0
      (ends_bind (argPolicy_ends (by simp [documentedFaults]) (by simp [documentedFaults])) fun p hp => ?_)
    rcases Nat.lt_or_ge (p.max + extra.toNat) s.arg0.toNat with hlt | hle
    · exact ends_of_eq_error (splitTrace_error hlt) (listed_of_aux_zero (by simp [documentedFaults]))
    · exact ends_of_eq_ok (splitTrace_ok hle he) fun iv hiv =>
        ((splitCodeIntervals_valid hle he (by omega)).1 iv hiv).check_raises
  | encFinish => exact encFinish_documented h0
  | _ => exact absurd hi Bool.false_ne_true

/-! ### The decoder's reads between settled bounds (R145, R147, R203) -/

section
variable {P : Raise → Prop} {inp : Input} {d : Decoder} (hd : d.Settled)
include hd

theorem uniform_ends {count : Nat} (h0 : 0 < count) (h1 : count ≤ 8589934592) :
    Ends P (fun a => a.2.Settled) (d.uniform inp count) := by
  obtain ⟨v, d', hx, -, -, hs, -⟩ := Decoder.uniform_spec (inp := inp) hd h0 h1
  exact ends_of_eq_ok hx hs

theorem count_ends {W : Nat} (h0 : 1 ≤ W) (h1 : W ≤ 32) :
    Ends P (fun a => a.1 < 2 ^ W ∧ a.2.Settled) (d.count inp W) := by
  obtain ⟨n, k, d', hx, hlt, -, -, hs, -⟩ := Decoder.count_spec (inp := inp) hd h0 h1
  exact ends_of_eq_ok hx ⟨hlt, hs⟩

theorem split_ends (p : Policy) {e : Nat} (he : e ≤ 1) (hmax : p.max ≤ 4294967296) :
    Ends P (fun a => a.2.Settled) (d.split inp p e) := by
  obtain ⟨v, d', hx, -, -, hs, -⟩ := Decoder.split_spec (inp := inp) hd p he hmax
  exact ends_of_eq_ok hx hs

theorem flag_ends : Ends P (fun a => a.2.Settled) (d.flag inp) :=
  ends_bind (uniform_ends hd (by decide) (by decide)) fun _ hs => ends_ok hs

/-- A symbol is read where the peek value lies below the total, over any base of at least the total (R154, R264). -/
theorem symbol_ends {t : FreqTable} (ht : t.Ordered) {base v : Nat} (hpeek : d.peek base = .ok v) (hv : v < t.total)
    (hbase : t.total ≤ base) (hmax : base ≤ 1073741824) : Ends P (fun a => a.2.Settled) (d.symbol inp t base) := by
  obtain ⟨key, w, -, hmem, hlo, hhi⟩ := FreqTable.find?_spec ht hv
  have hnarrow := Decoder.narrow_completes (inp := inp) (FreqTable.interval_valid ht hmem hbase hmax) hpeek hlo hhi
  exact ends_of_eq_ok (Decoder.symbol_of_narrow hd ht hmem hnarrow) (Decoder.narrow_ok hd hnarrow).2.1

end

/-! ### The decoder's commands (R150 to R156, R211) -/

/-- A command that delivers a number raises what its read does. -/
theorem State.Delivers.documented {i : Instr} {s : State} (h0 : s.fault = .noFault) {x : Coded (Nat × Decoder)}
    (h : s.Delivers i x) (hx : Raises (Raise.Listed i) x) : s.Documented i :=
  documented_of_bind h hx fun _ => ends_ok h0

theorem peek_listed {i : Instr} (h : .badInterval ∈ documentedFaults i) (d : Decoder) (base : Nat) :
    Raises (Raise.Listed i) (d.peek base) := by
  unfold Decoder.peek
  split
  · exact raises_error (listed_of_aux_zero h)
  · exact raises_ok _

theorem decNarrow_listed (inp : Input) (iv : Interval) (d : Decoder) :
    Raises (Raise.Listed .decNarrow) (d.narrow inp iv) := by
  refine raises_bind (checkInterval_listed (by decide) iv) fun _ _ => ?_
  split
  · exact raises_ok _
  · refine raises_bind (peek_listed (by decide) _ _) fun v _ => ?_
    split
    · exact raises_error (listed_of_carriesAux (by decide) rfl)
    · exact raises_ok _

theorem fib_listed {inp : Input} {d : Decoder} (hd : d.Settled) : Raises (Raise.Listed .decReadFib) (d.fib inp) := by
  rcases Decoder.fib_cases (inp := inp) hd with hx | ⟨n, d', hx, -⟩
  · exact hx ▸ raises_error (listed_of_aux_zero (by decide))
  · exact hx ▸ raises_ok _

/-- Each decoder command refuses its operand, or is one of the reads that complete between settled bounds. -/
theorem decoderCommand_documented {i : Instr} {s : State} (hs : s.Inv) (h0 : s.fault = .noFault)
    (hi : isDecoderCommand i = true) : s.Documented i := by
  have hd := hs.decoder h0
  cases i with
  | decReset =>
    refine documented_of_finish rfl ?_
    split
    · exact ends_error (listed_of_carriesAux (by decide) rfl)
    · exact ends_ok h0
  | decReadEqual =>
    have hread := decReadEqual_delivers s
    have hmax := word_lt s.arg0
    rcases Nat.eq_zero_or_pos s.arg0.toNat with hz | hpos
    · exact documented_of_faultedBy (hread.faultedBy (if_pos hz)) (listed_of_aux_zero (by decide))
    · exact hread.documented h0 (uniform_ends hd hpos (hmax.le.trans (by decide))).raises
  | decPeek =>
    exact documented_of_bind rfl (peek_listed (by decide) _ _) fun _ => ends_ok h0
  | decNarrow =>
    exact documented_of_bind (exec_decNarrow s) (decNarrow_listed _ _ _) fun _ => ends_ok h0
  | decReadPartFt =>
    obtain ⟨hread, hempty, hlarge⟩ := decReadPartFt s hd hs.table
    by_cases hne : s.ft = []
    · exact documented_of_faultedBy (hempty hne) (listed_of_aux_zero (by decide))
    · rcases Nat.lt_or_ge 0x40000000 s.ft.total with hlt | hge
      · exact documented_of_faultedBy (hlarge hlt) (listed_of_aux_zero (by decide))
      · obtain ⟨key, w, d, -, -, hnext⟩ := hread hne hge
        exact documented_of_next hnext h0
  | decReadFib =>
    exact (decReadFib_delivers s).documented h0 (fib_listed hd)
  | decReadCount W =>
    have hread := decReadCount_delivers s W
    by_cases hbad : W < 1 ∨ 32 < W
    · exact documented_of_faultedBy (hread.faultedBy (Decoder.count_error _ _ hbad))
        (listed_of_aux_zero (by simp [documentedFaults]))
    · exact hread.documented h0 (count_ends hd (by omega) (by omega)).raises
  | decReadSplit r extra =>
    have hmax := word_lt s.arg1
    exact (decReadSplit_delivers s r extra).documented h0
      (ends_bind (argPolicy_ends (by simp [documentedFaults]) (by simp [documentedFaults])) fun p hp =>
        split_ends hd p (bool_toNat_le extra) (by omega)).raises
  | _ => exact absurd hi Bool.false_ne_true

/-! ### The table's commands (R185 to R192) -/

theorem requireWeight_listed {i : Instr} (h : .ftKey ∈ documentedFaults i) (t : FreqTable) (key : Word) :
    Raises (Raise.Listed i) (t.requireWeight key) := by
  unfold FreqTable.requireWeight
  split
  · exact raises_ok _
  · exact raises_error (listed_of_carriesAux h rfl)

theorem insertKey_listed (cap : Nat) (t : FreqTable) (key weight : Word) :
    Raises (Raise.Listed .ftInsert) (t.insertKey cap key weight) := by
  unfold FreqTable.insertKey
  split
  · exact raises_error (listed_of_carriesAux (by decide) rfl)
  · split
    · exact raises_error (listed_of_aux_zero (by decide))
    · split
      · exact raises_error (listed_of_aux_zero (by decide))
      · split
        · exact raises_error (listed_of_aux_zero (by decide))
        · exact raises_ok _

/-- Each table command checks its key first, and an update its bounds. -/
theorem tableCommand_documented {i : Instr} {s : State} (h0 : s.fault = .noFault) (hi : isTableCommand i = true) :
    s.Documented i := by
  cases i with
  | ftClear | ftTotal => exact documented_of_next rfl h0
  | ftInsert => exact documented_of_bind rfl (insertKey_listed _ _ _ _) fun _ => ends_ok h0
  | ftRemove | ftCum | ftWeight => exact documented_of_bind rfl (requireWeight_listed (by decide) _ _) fun _ => ends_ok h0
  | ftIncrease =>
    refine documented_of_bind rfl (requireWeight_listed (by decide) _ _) fun _ => ?_
    split
    · exact ends_error (listed_of_aux_zero (by decide))
    · exact ends_ok h0
  | ftFind =>
    refine documented_of_finish rfl ?_
    split
    · exact ends_ok h0
    · exact ends_error (listed_of_carriesAux (by decide) rfl)
  | _ => exact absurd hi Bool.false_ne_true

/-! ### LZ_ENCODE (R221, R241) -/

theorem checkModel_ends {i : Instr} (h : .lzModel ∈ documentedFaults i) (t : FreqTable) :
    Ends (Raise.Listed i) (fun _ => t.usable) t.checkModel := by
  by_cases ht : t.usable
  · exact ends_of_eq_ok (checkModel_ok ht) ht
  · exact ends_of_eq_error (checkModel_error ht) (listed_of_aux_zero h)

/-- The pre-checks raise the faults R221 names, and past them a plan can be written. -/
theorem lzPrecheck_ends (s : State) :
    Ends (Raise.Listed .lzEncode) (fun _ => s.ft.usable ∧ s.symbolsHeld) s.lzPrecheck := by
  refine ends_bind (ends_of_raises (checkSealed_listed (by decide))) fun _ _ => ?_
  split
  · exact ends_error (listed_of_carriesAux (by decide) rfl)
  · refine ends_bind (checkModel_ends (by decide) _) fun _ hft => ?_
    by_cases hheld : ∀ x ∈ s.symbols s.arg0.toNat, ∃ w, (x, w) ∈ s.ft
    · exact ends_of_eq_ok (checkSymbols_ok 0 hheld) ⟨hft, s.symbolsHeld_iff.2 hheld⟩
    · push Not at hheld
      obtain ⟨k, hk⟩ := checkSymbols_error 0 hheld
      exact ends_of_eq_error hk (listed_of_carriesAux (by decide) rfl)

/-- The stream of the plan LZ_ENCODE writes is a trace of valid Intervals (R234 to R241). -/
theorem lzTrace_lzPlan_ok {s : State} (hs : s.Inv) (hft : s.ft.usable) (hheld : s.symbolsHeld) :
    ∃ trace, lzTrace s.ft (s.symbols s.arg0.toNat) (s.lzPlan (s.symbols s.arg0.toNat)) = .ok trace ∧
      ∀ iv ∈ trace, iv.Valid := by
  obtain ⟨hvalid, -, hdummy⟩ := choosePlan_spec hs.legal (Config.freePlan s.freeCount) s.ft (s.symbols s.arg0.toNat)
  have hlength : (s.symbols s.arg0.toNat).length < 4294967296 := by
    simpa [State.symbols] using word_lt s.arg0
  obtain ⟨htrace, hintervals, -⟩ := lzTrace_ok hs.table.ordered hft.2 hvalid hdummy hlength (s.symbolsHeld_iff.1 hheld)
  exact ⟨_, htrace, hintervals⟩

theorem drawPlan_fault (s : State) : s.drawPlan.fault = s.fault := by
  unfold State.drawPlan
  split <;> rfl

theorem lzEncode_documented {s : State} (hs : s.Inv) (h0 : s.fault = .noFault) : s.Documented .lzEncode := by
  refine documented_of_finish rfl (ends_bind (lzPrecheck_ends s) fun _ ⟨hft, hheld⟩ => ?_)
  obtain ⟨trace, htrace, hv⟩ := lzTrace_lzPlan_ok hs hft hheld
  refine ends_bind (Q := fun trace => ∀ iv ∈ trace, iv.Valid) (ends_of_eq_ok htrace hv) fun trace hv => ?_
  refine ends_bind (encodeTrace_ends (by decide) h0 fun iv hiv => (hv iv hiv).check_raises) fun u hu => ends_ok ?_
  exact (drawPlan_fault u).trans hu

/-! ### LZ_DECODE (R260 to R272) -/

theorem lzFault_listed {c : FaultCode} (n : Nat) (h : c ∈ documentedFaults .lzDecode) (hc : carriesAux c = true) :
    Raise.Listed .lzDecode (lzFault c n) := listed_of_carriesAux h hc

/-- The fault of a corrupt header, whose aux value is 0 (R262). -/
theorem corruptHeader_listed : Raise.Listed .lzDecode (lzFault .corruptHeader 0) := listed_of_aux_zero (by decide)

/-- The maxima of a header's policies fit the field they are read from (R237, R261). -/
structure LzPlan.Bounded (plan : LzPlan) : Prop where
  dist : plan.dist.max < 65536
  len : plan.len.max < 65536
  spiral : plan.spiral.max < 65536

section
variable {inp : Input} {d : Decoder} (hd : d.Settled)
include hd

theorem triple_ends :
    Ends (Raise.Listed .lzDecode) (fun a => a.1.max < 65536 ∧ a.2.Settled) (d.triple inp) := by
  refine ends_bind (uniform_ends hd (by decide) (by decide)) fun r hr => ?_
  refine ends_bind (count_ends hr (by decide) (by decide)) fun m ⟨hlt, hm⟩ => ?_
  dsimp only
  split
  · exact ends_ok ⟨hlt, hm⟩
  · exact ends_ok ⟨hlt, hm⟩
  · split
    · exact ends_error corruptHeader_listed
    · rename_i hne
      exact ends_bind (uniform_ends hm (Nat.pos_of_ne_zero hne) (hlt.le.trans (by decide))) fun _ hs => ends_ok ⟨hlt, hs⟩

theorem headerEnd_ends (n : Nat) {dist len : Policy} (dummy : Bool) (hdist : dist.max < 65536) (hlen : len.max < 65536) :
    Ends (Raise.Listed .lzDecode) (fun a => a.1.plan.Bounded ∧ a.2.Settled) (d.headerEnd inp n dist len dummy) := by
  refine ends_bind (flag_ends hd) fun u hu => ?_
  dsimp only
  split
  · split
    · exact ends_error corruptHeader_listed
    · exact ends_bind (triple_ends hu) fun p ⟨hp, hs⟩ => ends_ok ⟨⟨hdist, hlen, hp⟩, hs⟩
  · exact ends_ok ⟨⟨hdist, hlen, Nat.zero_lt_succ _⟩, hu⟩

theorem header_ends (cap : Nat) :
    Ends (Raise.Listed .lzDecode) (fun a => a.1.plan.Bounded ∧ a.2.Settled) (d.header inp cap) := by
  refine ends_bind (count_ends hd (by decide) (by decide)) fun n ⟨_, hn⟩ => ?_
  dsimp only
  split
  · exact ends_error (lzFault_listed _ (by decide) rfl)
  · refine ends_bind (triple_ends hn) fun dist ⟨hdist, hs⟩ => ends_bind (triple_ends hs) fun len ⟨hlen, hs'⟩ => ?_
    split
    · exact ends_bind (flag_ends hs') fun dummy hf => headerEnd_ends hf n.1 dummy.1 hdist hlen
    · exact headerEnd_ends hs' n.1 false hdist hlen

theorem tokenDistance_ends {P : Raise → Prop} {plan : LzPlan} (hplan : plan.Bounded) (i chunk : Nat) :
    Ends P (fun a => a.2.Settled) (d.tokenDistance inp plan i chunk) := by
  have hmin : Nat.min plan.dist.max (i - chunk) ≤ plan.dist.max := Nat.min_le_left _ _
  refine ends_bind (split_ends hd _ (bool_toNat_le _) (hmin.trans (hplan.dist.le.trans (by decide)))) fun v hv => ?_
  dsimp only
  split
  · exact ends_bind (split_ends hv _ (by decide) (hplan.spiral.le.trans (by decide))) fun _ hs => ends_ok hs
  · exact ends_ok hv

/-- A token follows where the peek value is at or above the base (R263, R265 to R270). -/
theorem token_ends {hdr : LzHeader} (hplan : hdr.plan.Bounded) (out : List Word) {base v : Nat}
    (hmax : widened base ≤ 1073741824) (hpeek : d.peek (widened base) = .ok v) (hge : base ≤ v) (hlt : v < widened base) :
    Ends (Raise.Listed .lzDecode) (fun a => a.2.Settled) (d.token inp base hdr out) := by
  have hnarrow := Decoder.narrow_completes (inp := inp) (escape_valid hmax) hpeek hge hlt
  refine ends_bind (ends_of_eq_ok hnarrow (Decoder.narrow_ok hd hnarrow).2.1) fun d1 h1 => ?_
  refine ends_bind (split_ends h1 _ (by decide) (hplan.len.le.trans (by decide))) fun n hn => ?_
  dsimp only
  split
  · exact ends_error (lzFault_listed _ (by decide) rfl)
  · refine ends_bind (tokenDistance_ends hn hplan _ _) fun a ha => ?_
    split
    · exact ends_error (lzFault_listed _ (by decide) rfl)
    · exact ends_ok ha

end

section
variable {inp : Input} {t : FreqTable} (ht : t.Ordered) (hft : t.usable)
include ht hft

/-- An item is a literal or a token, by the part that holds the peek value, so that no narrowing misses it (R263, R264). -/
theorem bodyItem_ends {hdr : LzHeader} (hplan : hdr.plan.Bounded) (out : List Word) {d : Decoder} (hd : d.Settled) :
    Ends (Raise.Listed .lzDecode) (fun a => a.2.Settled) (d.bodyItem inp t hdr out) := by
  obtain ⟨hne, hmax⟩ := hft
  have hpos := FreqTable.total_pos ht hne
  have hwide : t.total ≤ widened t.total := Nat.le_add_right _ _
  unfold Decoder.bodyItem Decoder.literal
  split
  · obtain ⟨v, hpeek, -, hlt⟩ := Decoder.peek_ok hd hpos (hwide.trans hmax)
    exact ends_bind (symbol_ends hd ht hpeek hlt le_rfl (hwide.trans hmax)) fun _ hs => ends_ok hs
  · obtain ⟨v, hpeek, -, hlt⟩ := Decoder.peek_ok hd (hpos.trans_le hwide) hmax
    rw [hpeek, coded_bind_ok]
    split
    · rename_i hge
      exact token_ends hd hplan out hmax hpeek hge hlt
    · rename_i hlow
      exact ends_bind (symbol_ends hd ht hpeek (Nat.lt_of_not_le hlow) hwide hmax) fun _ hs => ends_ok hs

theorem body_ends {hdr : LzHeader} (hplan : hdr.plan.Bounded) (fuel : Nat) (out : List Word) {d : Decoder} (hd : d.Settled) :
    Ends (Raise.Listed .lzDecode) (fun a => a.2.Settled) (Decoder.body inp t hdr fuel out d) := by
  induction fuel generalizing out d with
  | zero => exact ends_ok hd
  | succ fuel ih =>
    unfold Decoder.body
    split
    · exact ends_bind (bodyItem_ends ht hft hplan out hd) fun a ha => ih a.1 ha
    · exact ends_ok hd

theorem lzStream_ends (cap : Nat) {d : Decoder} (hd : d.Settled) :
    Ends (Raise.Listed .lzDecode) (fun a => a.2.Settled) (d.lzStream inp t cap) :=
  ends_bind (header_ends hd cap) fun _ ⟨hplan, hs⟩ =>
    ends_bind (body_ends ht hft hplan _ _ hs) fun _ hs' => ends_ok hs'

end

theorem lzDecode_documented {s : State} (hs : s.Inv) (h0 : s.fault = .noFault) : s.Documented .lzDecode :=
  documented_of_finish rfl (ends_bind (checkModel_ends (by decide) _) fun _ hft =>
    ends_bind (lzStream_ends hs.table.ordered hft _ (hs.decoder h0)) fun _ _ => ends_ok h0)

/-- Settles O18: the contract of the command's unit; of the block control commands only the illegal opcode raises a fault. -/
theorem faultsAreDocumented : Obligations.FaultsAreDocumented := by
  intro i s t hs h0
  suffices h : s.Documented i from h t
  cases i with
  | illegal upper => exact documented_of_faultedBy (exec_illegal upper s) (listed_of_aux_zero (by simp [documentedFaults]))
  | nop => exact documented_of_next rfl h0
  | blkReset => exact documented_of_next rfl rfl
  | lzEncode => exact lzEncode_documented hs h0
  | lzDecode => exact lzDecode_documented hs h0
  | encReset | encWriteEqual | encWritePart | encWritePartFt | encWriteFib | encWriteCount | encWriteSplit | encFinish =>
    exact encoderCommand_documented h0 rfl
  | decReset | decReadEqual | decPeek | decNarrow | decReadPartFt | decReadFib | decReadCount | decReadSplit =>
    exact decoderCommand_documented hs h0 rfl
  | _ => exact tableCommand_documented h0 rfl

end Sys2Proof.Machine
end

section
/-!
PROOFS. The two resets' states: the block after power-on meets the invariant, and ENC_RESET leaves the encoder BLK_RESET leaves.
-/
namespace Sys2Proof.Machine

/-- The invariant asks of the parameters only that they are legal. -/
theorem powerOn_inv {cfg : Config.Params} (hcfg : cfg.legal = true) : (State.powerOn cfg).Inv where
  legal := hcfg
  memory := Memory.wf_nil
  stored := List.forall_mem_nil _
  table := FreqTable.wf_nil _
  bits := Nat.zero_le _
  input := Nat.zero_le _
  encoder _ := encoder_reset_settled
  decoder _ := decoder_reset_settled
  record _ := ⟨rfl, rfl⟩

theorem default_legal : Config.Params.default.legal = true := by decide

/-- Settles O16: the default parameters are legal. -/
theorem resetMeetsInvariant : Obligations.ResetMeetsInvariant := powerOn_inv default_legal

theorem exec_encReset (s : State) : exec .encReset s = .next { s with enc := Encoder.reset } := rfl

/-- `ENC_OUT` shows the encoder below the capacity and nothing else of the state, so it is as after BLK_RESET (R52). -/
theorem encOutByte_encReset (s : State) (j : Nat) : State.encOutByte { s with enc := Encoder.reset } j = 0 :=
  encOutByte_blockReset s j

/-- Settles O24: the command's arm, whose new encoder is that of BLK_RESET. -/
theorem encReset : Obligations.EncReset := fun s =>
  ⟨{ s with enc := Encoder.reset }, exec_encReset s, rfl, encOutByte_encReset s⟩

end Sys2Proof.Machine
end
